-- ==== Sys2Proof/Word.lean ====
section
/-! DEFINITION. The word types of the TC408: bytes on the host link and the lines, 16-bit sequence numbers and check
values, 32-bit Time Base counts, limits and detail sets. -/

namespace Sys2Proof

/-- One byte: a character's data bits, a field of a message. -/
abbrev Byte := BitVec 8

/-- A 16-bit number: a check value, a sequence number, a period, a hysteresis. -/
abbrev Half := BitVec 16

/-- A 32-bit number: a Time Base count, a limit, a watch value, a detail set. -/
abbrev Word := BitVec 32

end Sys2Proof
end

