-- ==== Sys2Proof/Syntax.lean ====
section
/-! DEFINITION. The commands of the TC408: one constructor for each row of spec/opcode_table.json.

A host request carries its TAG and the fields of its body as the host sends them (R165), each at its full width, so that
every code is expressible, in range or not. An event of the part or of a line carries what the part can see of it. -/

namespace Sys2Proof

/-- One character as a line receiver samples it (R19): the data bits, the level of the parity bit and the level of the
stop bit (`true` is high). -/
structure LineChar where
  data   : Byte
  parity : Bool
  stop   : Bool
deriving DecidableEq, Repr

/-- What a power-on reset is made of (R160): RST# is asserted, RST# is released, or the supply comes up with RST# released.
`spdHigh` is the level of SPD, which the last two read. A supply that comes up with RST# asserted is the first of them. -/
inductive ResetEvent where
  | rstAsserted
  | rstReleased (spdHigh : Bool)
  | supplyUp (spdHigh : Bool)
deriving DecidableEq, Repr

/-- How far a character on HRX has come (R151, R153): its start bit has been detected, or the middle of its stop bit has been
reached, at this level (`true` is high). -/
inductive CharMoment where
  | startBit
  | stopBit (high : Bool)
deriving DecidableEq, Repr

/-- The commands. -/
inductive Instr where
  /-- R158. -/
  | ident (tag : Byte)
  /-- R159, the request. -/
  | restart (tag : Byte)
  /-- R159, the restart at the stop bit of the reply's last character. -/
  | partRestart
  /-- R160. -/
  | powerOnReset (event : ResetEvent)
  /-- R146. -/
  | notice (tag : Byte)
  /-- R147. -/
  | noticeAck (tag cls : Byte) (detail : Word)
  /-- R149. -/
  | maskSet (tag set : Byte)
  /-- R101. -/
  | lineSet (tag line mode baud gapLimit collisionBudget settleSteps autoPower storeThreshold blockSize : Byte)
  /-- R102. -/
  | lineRead (tag line : Byte)
  /-- R98: LINE-POWER with direction ON. -/
  | linePowerOn (tag line : Byte)
  /-- R99: LINE-POWER with direction OFF. -/
  | linePowerOff (tag line : Byte)
  /-- R97. -/
  | lineResume (tag line : Byte)
  /-- R35. -/
  | exchangeAbort (tag line : Byte)
  /-- R7; `declared` is the payload length byte, `payload` the bytes that follow it. -/
  | planWrite (tag entry line station control replyLimit timeout retries policy link declared : Byte)
      (payload : List Byte)
  /-- R9. -/
  | planRead (tag entry : Byte)
  /-- R10. -/
  | planErase (tag entry : Byte)
  /-- R45. -/
  | chainSet (tag chain line head : Byte) (period : Half) (powered notify : Byte)
  /-- R46. -/
  | chainRead (tag chain : Byte)
  /-- R47. -/
  | chainStart (tag chain : Byte)
  /-- R58. -/
  | chainStop (tag chain : Byte)
  /-- R59. -/
  | chainAbort (tag chain : Byte)
  /-- R69. -/
  | ask (tag entry level : Byte)
  /-- R74. -/
  | askCancel (tag entry : Byte)
  /-- R76. -/
  | queueRead (tag line : Byte)
  /-- R112: FETCH with release no. -/
  | fetch (tag line : Byte)
  /-- R112: FETCH with release yes. -/
  | fetchWithRelease (tag line : Byte)
  /-- R113. -/
  | release (tag line : Byte) (sequence : Half)
  /-- R114. -/
  | storeClear (tag line : Byte)
  /-- R121; `injection` holds the two bytes target and level where the body carries them. -/
  | watchWrite (tag watch entry offset startBit width signed : Byte) (low high : Word) (hysteresis : Half)
      (action : Byte) (injection : Option (Byte × Byte))
  /-- R122. -/
  | watchRead (tag watch : Byte)
  /-- R123. -/
  | watchErase (tag watch : Byte)
  /-- R124. -/
  | valuesRead (tag first count : Byte)
  /-- R156: a request whose KIND names no request. -/
  | unknownKind (kind tag : Byte) (body : List Byte)
  /-- R151 to R153: a character on HRX with these data bits, at its start bit or at its stop bit. -/
  | hostCharacterReceived (data : Byte) (moment : CharMoment)
  /-- R153. -/
  | hostTimeout
  /-- R155. -/
  | replyEnd
  /-- R56. -/
  | roundTimerExpiry (chain : Fin 8)
  /-- R91. -/
  | settleTimerExpiry (line : Fin 4)
  /-- R78. -/
  | schedulerChoice (line : Fin 4)
  /-- R22; `silence` is the silence the engine has counted, in bit times of the line. -/
  | gapWaitComplete (line : Fin 4) (silence : Nat)
  /-- R25; `silence` as above. -/
  | backoffComplete (line : Fin 4) (silence : Nat)
  /-- R23; `readback` is the character read back, `none` where no start bit was seen. -/
  | characterSent (line : Fin 4) (readback : Option LineChar)
  /-- R27. -/
  | startBitDetected (line : Fin 4)
  /-- R27. -/
  | replyTimerExpiry (line : Fin 4)
  /-- R41. -/
  | lineCharacterReceived (line : Fin 4) (char : LineChar)
  /-- R29; `silence` as above. -/
  | gapLimitExpiry (line : Fin 4) (silence : Nat)
  /-- R137; `silence` as above. -/
  | captureIdleClose (line : Fin 4) (silence : Nat)
  /-- R93: LnOVL# is at this level from now on (`asserted` true is low). -/
  | overload (line : Fin 4) (asserted : Bool)
  /-- R63. -/
  | timeBaseIncrement
  /-- R19. -/
  | lnrxReturnToIdleLevel (line : Fin 4)
  /-- R151. -/
  | hrxReturnToIdleLevel
deriving DecidableEq, Repr

end Sys2Proof
end

