-- ==== Sys2Proof/Config.lean ====
section
/-! DEFINITION. What one TC408 fixes: identification codes, capacities, lead bytes, fixed waits. Every value is one the
spec states; there is no free value (no rule leaves a value open). -/

namespace Sys2Proof.Config

/-- IDENT, R158. -/
def vendorCode : Half := 0x4B44
/-- IDENT, R158. -/
def partCode : Half := 0x0408
/-- IDENT, R158: the silicon that issue 1.3 of the manual describes reports 3 (log 14). -/
def siliconIssue : Byte := 3

/-- Capacities reported by IDENT (R158), which the chapters own: R104, R67. -/
def queueCapacity : Nat := 8
def recordCapacity : Nat := 32
def payloadCapacity : Nat := 2048

/-- R82: a held round gives way to at most this many injected exchanges. -/
def heldLimit : Nat := 8
/-- R14, R52: scan exchanges permitted in one round. -/
def roundLimit : Nat := 128
/-- R42, R70: the largest late rounds count and the largest merged count. -/
def countLimit : Nat := 255

/-- R164: first byte of a host frame, of a request frame and of a reply frame on a line. -/
def hostLead : Byte := 0xA6
def requestLead : Byte := 0x5A
def replyLead : Byte := 0x5B

/-- R162: start value and polynomial of the check value. -/
def crcStart : Half := 0xFFFF
def crcPoly : Half := 0x1021

/-- R19: one CT is 11 bit times. -/
def bitsPerChar : Nat := 11
/-- R22: the silence of GAP-WAIT, in CT. -/
def gapWaitCT : Nat := 4
/-- R137: the idle time that closes a capture block, in CT. -/
def captureIdleCT : Nat := 10
/-- R25: the silence of BACKOFF, in CT, after this many collisions. -/
def backoffCT (collisions : Nat) : Nat := 20 + 10 * collisions
/-- R153: silence allowed inside a host frame, in ms. -/
def hostTimeoutMs : Nat := 10

/-- R21: the largest LEN of a reply frame. -/
def maxReplyLen : Nat := 200
/-- R1: the largest payload of a plan entry. -/
def maxEntryPayload : Nat := 16

end Sys2Proof.Config
end

