-- ==== Sys2Proof/Machine/State.lean ====
section
/-! DEFINITION. The state of the TC408: every piece of state the spec gives its nine kinds of block, as plain data, and
the state after power-on reset. INVENTORY.md lists the fields with the rules that name them. -/

namespace Sys2Proof.Machine

/-! ### Names -/

/-- R88. -/
inductive PowerState where
  | off | settling | on | fault
deriving DecidableEq, Repr

/-- R100. -/
inductive Mode where
  | framed | listen
deriving DecidableEq, Repr

/-- R19, R100. -/
inductive Baud where
  | b2400 | b9600 | b19200 | b38400
deriving DecidableEq, Repr

/-- R100: the capture block size. -/
inductive BlockSize where
  | b16 | b32 | b64 | b128
deriving DecidableEq, Repr

/-- R17. -/
inductive EngineState where
  | idle | gapWait | sending | awaiting | receiving | backoff | listening
deriving DecidableEq, Repr

/-- R33: the ten outcomes of an exchange. -/
inductive ExchOutcome where
  | ok | noReply | badFrame | badCheck | wrongStation | overlength | collisionLimit | preempted | aborted | lineFault
deriving DecidableEq, Repr

/-- R4. -/
inductive RecordPolicy where
  | always | failures | never
deriving DecidableEq, Repr

/-- R43. -/
inductive ChainState where
  | idle | armed | running | held | stopping
deriving DecidableEq, Repr

/-- R60. -/
inductive FaultReason where
  | none | loop | badLink | headGone | lineOff | lineFault
deriving DecidableEq, Repr

/-- R68. -/
inductive HeldReason where
  | again | next
deriving DecidableEq, Repr

/-- R66. -/
inductive Level where
  | urgent | prompt
deriving DecidableEq, Repr

/-- R18, R66, R105: on whose behalf a request or an exchange runs. -/
inductive Origin where
  | chain (c : Fin 8) | host | watch (w : Fin 32) | listen
deriving DecidableEq, Repr

/-- R105. -/
inductive RecordKind where
  | exchange | capture
deriving DecidableEq, Repr

/-- R120. -/
inductive Zone where
  | unknown | low | normal | high
deriving DecidableEq, Repr

/-- R120. -/
inductive WatchStatus where
  | never | fresh | missing | stale
deriving DecidableEq, Repr

/-- R120, R131: what the last injection of a watch achieved. -/
inductive ActionResult where
  | none | queued | merged | refused
deriving DecidableEq, Repr

/-- R119: what a zone change does; target and level are present when the action includes INJECT. -/
inductive WatchAction where
  | none
  | notice
  | inject (target : Fin 128) (level : Level)
  | noticeInject (target : Fin 128) (level : Level)
deriving DecidableEq, Repr

/-- R158. -/
inductive ResetCause where
  | powerOn | restart
deriving DecidableEq, Repr

/-- R142, in priority order. -/
inductive AttnClass where
  | lineFault | chainFault | storeFull | watch | chainDone | storeLevel | linkError
deriving DecidableEq, Repr

/-- R64: a timer on the Time Base. A running timer holds the count at its start and its duration in ms; an expired one
stays so until it is started again or stopped. -/
inductive Timer where
  | stopped
  | running (start : Word) (duration : Nat)
  | expired
deriving DecidableEq, Repr

/-! ### Plan Table -/

/-- R1: the nine fields of a DEFINED plan entry. Reply limit and retries are counts; the timeout is in steps of 10 ms. -/
structure PlanEntry where
  line       : Fin 4
  station    : Byte
  control    : Byte
  payload    : List Byte
  replyLimit : Nat
  timeout    : Nat
  retries    : Nat
  policy     : RecordPolicy
  link       : Option (Fin 128)
deriving DecidableEq, Repr

/-! ### Chain Controller -/

/-- R42: the five static fields; the period is in steps of 100 ms. -/
structure ChainDef where
  line    : Fin 4
  head    : Fin 128
  period  : Half
  powered : Bool
  notify  : Bool
deriving DecidableEq, Repr

/-- R42: a chain descriptor, with its round timer (R54). `defn` is absent while the descriptor is undefined. -/
structure Chain where
  defn     : Option ChainDef
  state    : ChainState
  position : Option (Fin 128)
  inFlight : Bool
  taken    : Nat
  rounds   : Half
  late     : Nat
  roundDue : Bool
  reason   : FaultReason
  timer    : Timer
deriving DecidableEq, Repr

/-- R42, R65: what the dynamic fields hold in an undefined descriptor and after CHAIN-SET, RESTART and power-on. -/
def Chain.fresh (defn : Option ChainDef) : Chain :=
  { defn, state := .idle, position := none, inFlight := false, taken := 0, rounds := 0, late := 0, roundDue := false,
    reason := .none, timer := .stopped }

/-! ### Line Scheduler and Line Engine -/

/-- R100: the eight settings of a line; the settle time is in steps of 50 ms. -/
structure LineSettings where
  mode            : Mode
  baud            : Baud
  gapLimit        : Nat
  collisionBudget : Nat
  settleSteps     : Nat
  autoPower       : Bool
  storeThreshold  : Nat
  blockSize       : BlockSize
deriving DecidableEq, Repr

/-- R100, R103: the defaults. -/
def LineSettings.default : LineSettings :=
  { mode := .framed, baud := .b9600, gapLimit := 4, collisionBudget := 3, settleSteps := 10, autoPower := false,
    storeThreshold := 8, blockSize := .b64 }

/-- R89: the demand set of a line, one bit a member. -/
structure DemandSet where
  host  : Bool
  round : Bool
  ask   : Bool
deriving DecidableEq, Repr

/-- R89: no demand. -/
def DemandSet.empty : DemandSet := { host := false, round := false, ask := false }

/-- R88: whether the set has no member. -/
def DemandSet.isEmpty (d : DemandSet) : Bool := !d.host && !d.round && !d.ask

/-- R66: an element of an injection queue. -/
structure Injected where
  entry   : Fin 128
  level   : Level
  origin  : Origin
  merged  : Nat
  arrival : Word
deriving DecidableEq, Repr

/-- R68: an occupied held position. -/
structure Held where
  entry  : Fin 128
  reason : HeldReason
  owner  : Fin 8
deriving DecidableEq, Repr

/-- R30: the reply of an exchange that ended OK. -/
structure Reply where
  control : Byte
  payload : List Byte
deriving DecidableEq, Repr

/-- R18: the exchange context, and what the rules keep beside it while the exchange is in flight: the characters of the
frame already sent (R23), the reply characters kept so far (R28), the powered rounds field the chain had when the exchange
started (R59), and whether CHAIN-ABORT has set the chain IDLE since (R51). -/
structure Exchange where
  copy       : PlanEntry
  entry      : Fin 128
  origin     : Origin
  attempts   : Nat
  collisions : Nat
  restored   : Bool
  merged     : Nat
  pendingEnd : Option ExchOutcome
  reply      : Option Reply
  sent       : Nat
  kept       : List Byte
  powered    : Bool
  orphan     : Bool
deriving DecidableEq, Repr

/-- One line: its settings (R100), its scheduler (R66, R68, R88 to R90), its engine (R17, R18), its receiver (R19, R22) and
its capture block (R135). -/
structure Line where
  settings    : LineSettings
  power       : PowerState
  demand      : DemandSet
  settleTimer : Timer
  /-- LnPWR: the output is asserted. -/
  lnPwr       : Bool
  /-- LnOVL#: the input is asserted (low). -/
  lnOvl       : Bool
  queue       : List Injected
  held        : Option Held
  heldCount   : Nat
  engine      : EngineState
  /-- LnDE: the output is asserted. -/
  lnDe        : Bool
  exch        : Option Exchange
  replyTimer  : Timer
  /-- A start bit has been seen on LnRX and its character has not ended. -/
  arriving    : Bool
  /-- R19: no start bit is detected until LnRX has returned to its idle level. -/
  waitIdle    : Bool
  block       : List Byte
  blockParity : Bool
deriving DecidableEq, Repr

/-- R87, R103, R40, R141: a line that is OFF with nothing on it, with these settings and this level on LnOVL#. -/
def Line.fresh (settings : LineSettings) (lnOvl : Bool) : Line :=
  { settings, power := .off, demand := DemandSet.empty, settleTimer := .stopped, lnPwr := false, lnOvl, queue := [],
    held := none, heldCount := 0, engine := .idle, lnDe := false, exch := none, replyTimer := .stopped,
    arriving := false, waitIdle := false, block := [], blockParity := false }

/-! ### Reply Store -/

/-- R105: a record. -/
structure Record where
  seq          : Half
  kind         : RecordKind
  origin       : Origin
  entry        : Option (Fin 128)
  station      : Option Byte
  outcome      : ExchOutcome
  attempts     : Nat
  collisions   : Nat
  gap          : Bool
  restored     : Bool
  parity       : Bool
  merged       : Nat
  endTime      : Word
  replyControl : Option Byte
  payload      : Option (List Byte)
deriving DecidableEq, Repr

/-- R104: the store of one line. -/
structure Store where
  records    : List Record
  nextSeq    : Half
  gapPending : Bool
deriving DecidableEq, Repr

/-- R118. -/
def Store.empty : Store := { records := [], nextSeq := 0, gapPending := false }

/-! ### Watch Unit -/

/-- R119, R120: a DEFINED watch, its definition and its five dynamic fields. Limits and value are held as the 32 bits that
travel on the host link; `signed` says how they are read. -/
structure Watch where
  entry      : Fin 128
  offset     : Nat
  startBit   : Nat
  width      : Nat
  signed     : Bool
  low        : Word
  high       : Word
  hysteresis : Half
  action     : WatchAction
  zone       : Zone
  value      : Word
  valueTime  : Word
  status     : WatchStatus
  lastAction : ActionResult
deriving DecidableEq, Repr

/-- R120, R134: the dynamic fields set as WATCH-WRITE sets them. -/
def Watch.fresh (w : Watch) : Watch :=
  { w with zone := .unknown, value := 0, valueTime := 0, status := .never, lastAction := .none }

/-! ### Attention Unit -/

/-- R142, R145: the detail set of each class as bits (bit k is member k), the classes masked, and ATTN# (`true` is
asserted). -/
structure Attention where
  detail   : Vector Word 7
  masked   : Vector Bool 7
  asserted : Bool
deriving DecidableEq, Repr

/-- R150. -/
def Attention.fresh : Attention :=
  { detail := Vector.replicate 7 0, masked := Vector.replicate 7 true, asserted := false }

/-! ### Link Port -/

/-- R155, R164: a complete request: KIND, TAG and BODY. -/
structure Message where
  kind : Byte
  tag  : Byte
  body : List Byte
deriving DecidableEq, Repr

/-- R152: the receive state; COLLECT holds LEN and the bytes kept so far. -/
inductive Receiver where
  | search
  | length
  | collect (len : Byte) (kept : List Byte)
deriving DecidableEq, Repr

/-- R155, R157: the transmitter; SENDING holds the characters of the reply, and whether it is the reply to RESTART. -/
inductive Transmitter where
  | idle
  | sending (frame : List Byte) (restart : Bool)
deriving DecidableEq, Repr

/-- The Link Port (R151 to R160). -/
structure LinkPort where
  receiver    : Receiver
  rxTimer     : Timer
  /-- R151: no start bit is detected until HRX has returned to its idle level. -/
  waitIdle    : Bool
  slot        : Option Message
  transmitter : Transmitter
  /-- SPD was high at the last power-on reset: 460800 baud. -/
  highSpeed   : Bool
  resetCause  : ResetCause
  /-- R160: RST# is asserted. -/
  rstHeld     : Bool
deriving DecidableEq, Repr

/-- R159, R160: receiver in SEARCH, slot EMPTY, transmitter IDLE, RST# released. -/
def LinkPort.fresh (waitIdle highSpeed : Bool) (cause : ResetCause) : LinkPort :=
  { receiver := .search, rxTimer := .stopped, waitIdle, slot := none, transmitter := .idle, highSpeed,
    resetCause := cause, rstHeld := false }

/-! ### The whole part -/

/-- The state of the part, and the queue of commands that wait (log 1). -/
structure State where
  /-- R63: the Time Base. -/
  count   : Word
  link    : LinkPort
  plan    : Vector (Option PlanEntry) 128
  chains  : Vector Chain 8
  lines   : Vector Line 4
  stores  : Vector Store 4
  watches : Vector (Option Watch) 32
  attn    : Attention
  pending : List Instr
deriving DecidableEq, Repr

/-- The state power-on reset leaves (R160 and the rules it names), SPD and the levels of LnOVL# being inputs. -/
def State.powerOn (highSpeed : Bool) (lnOvl : Vector Bool 4) (pending : List Instr) : State :=
  { count := 0
    link := LinkPort.fresh false highSpeed .powerOn
    plan := Vector.replicate 128 none
    chains := Vector.replicate 8 (Chain.fresh none)
    lines := Vector.ofFn fun l => Line.fresh LineSettings.default lnOvl[l]
    stores := Vector.replicate 4 Store.empty
    watches := Vector.replicate 32 none
    attn := Attention.fresh
    pending }

/-- The part right after power-on reset, with SPD low, no overload reported (DESIGN CHOICE, logs 8 and 9) and no command
waiting. -/
def State.reset : State := State.powerOn false (Vector.replicate 4 false) []

/-- No command of this block stops it with a fault: every rule of the spec leaves a next state (log 19). A closed type
with no member. -/
inductive Fault
deriving DecidableEq, Repr

/-- Why a command has no meaning. -/
inductive Refusal where
  /-- Raised by `exec` alone, for a row that has no meaning yet (none is left). Safe: the model stops. -/
  | notModelled (mnemonic : String)
deriving DecidableEq, Repr

end Sys2Proof.Machine
end

