-- ==== Sys2Proof/Machine/Ops.lean ====
section
/-! DEFINITION. The named operations over State that every block shares: reading and replacing one element of a table,
timers (R64), byte order (R161), the check value (R162), and the two frames (R164). -/

namespace Sys2Proof.Machine

/-! ### One element of a table -/

def State.entry (s : State) (e : Fin 128) : Option PlanEntry := s.plan[e]
def State.chain (s : State) (c : Fin 8) : Chain := s.chains[c]
def State.line (s : State) (l : Fin 4) : Line := s.lines[l]
def State.store (s : State) (l : Fin 4) : Store := s.stores[l]
def State.watch (s : State) (w : Fin 32) : Option Watch := s.watches[w]

def State.setEntry (s : State) (e : Fin 128) (x : Option PlanEntry) : State := { s with plan := s.plan.set e x }
def State.setChain (s : State) (c : Fin 8) (x : Chain) : State := { s with chains := s.chains.set c x }
def State.setLine (s : State) (l : Fin 4) (x : Line) : State := { s with lines := s.lines.set l x }
def State.setStore (s : State) (l : Fin 4) (x : Store) : State := { s with stores := s.stores.set l x }
def State.setWatch (s : State) (w : Fin 32) (x : Option Watch) : State := { s with watches := s.watches.set w x }
def State.setAttn (s : State) (a : Attention) : State := { s with attn := a }
def State.setLink (s : State) (k : LinkPort) : State := { s with link := k }

def State.modChain (s : State) (c : Fin 8) (f : Chain → Chain) : State := s.setChain c (f (s.chain c))
def State.modLine (s : State) (l : Fin 4) (f : Line → Line) : State := s.setLine l (f (s.line l))

/-! ### Timers -/

/-- R64: a timer expires when the count has advanced by the duration from its start, modulo 2^32. A stopped timer and one
that has expired are not due. -/
def Timer.due (t : Timer) (now : Word) : Bool :=
  match t with
  | .running start duration => decide (duration ≤ (now - start).toNat)
  | .stopped => false
  | .expired => false

/-- R46, R64: the time left, the duration less the advance of the count; absent unless the timer runs. A timer that is due
and whose expiry has not been taken yet has 0 left (log 4). -/
def Timer.left (t : Timer) (now : Word) : Option Nat :=
  match t with
  | .running start duration => some (duration - (now - start).toNat)
  | .stopped => none
  | .expired => none

/-! ### Bytes -/

/-- R161: a 16-bit field, least significant byte first. -/
def le16 (x : Half) : List Byte := [x.extractLsb' 0 8, x.extractLsb' 8 8]

/-- R161: a 32-bit field, least significant byte first. -/
def le32 (x : Word) : List Byte :=
  [x.extractLsb' 0 8, x.extractLsb' 8 8, x.extractLsb' 16 8, x.extractLsb' 24 8]

/-- R161: the 16-bit field that two bytes carry. -/
def ofLe16 (b0 b1 : Byte) : Half := b1 ++ b0

/-- R161: the 32-bit field that four bytes carry. -/
def ofLe32 (b0 b1 b2 b3 : Byte) : Word := b3 ++ b2 ++ b1 ++ b0

/-- R126: bytes joined into one number, the first the least significant. -/
def leNat : List Byte → Nat
  | [] => 0
  | b :: bs => b.toNat + 256 * leNat bs

/-- A count as one byte of a reply. -/
def natByte (n : Nat) : Byte := BitVec.ofNat 8 n

/-- R161: a yes/no field. -/
def boolByte (b : Bool) : Byte := if b then 1 else 0

/-- R163: an absent one-byte field. -/
def absentByte : Byte := 0xFF

/-- R163: a one-byte field that may be absent. -/
def optByte (x : Option Byte) : Byte := x.getD absentByte

/-- The table index a byte gives, if it is in range. -/
def finOf (n : Nat) (b : Byte) : Option (Fin n) := if h : b.toNat < n then some ⟨b.toNat, h⟩ else none

/-- A table index as one byte. -/
def finByte {n : Nat} (i : Fin n) : Byte := natByte i.val

/-! ### Check values and frames -/

/-- R162: one shift of the check register. -/
def crcShift (r : Half) : Half := if r.msb then (r <<< 1) ^^^ Config.crcPoly else r <<< 1

/-- R162: the register after `n` shifts. -/
def crcShifts : Nat → Half → Half
  | 0, r => r
  | n + 1, r => crcShifts n (crcShift r)

/-- R162: one covered byte. -/
def crcByte (r : Half) (b : Byte) : Half := crcShifts 8 (r ^^^ (b.setWidth 16 <<< 8))

/-- R162: the check value of the covered bytes. -/
def crc (bytes : List Byte) : Half := bytes.foldl crcByte Config.crcStart

/-- R161: a check value is sent high byte first. -/
def crcBytes (bytes : List Byte) : List Byte := [(crc bytes).extractLsb' 8 8, (crc bytes).extractLsb' 0 8]

/-- R157, R164: a host frame; the CRC covers LEN, KIND, TAG and BODY. -/
def hostFrame (kind tag : Byte) (body : List Byte) : List Byte :=
  let covered := natByte (body.length + 2) :: kind :: tag :: body
  Config.hostLead :: covered ++ crcBytes covered

/-- R20: the request frame of an entry copy; CHK covers ADDR, CTRL, LEN and PAYLOAD. -/
def requestFrame (e : PlanEntry) : List Byte :=
  let covered := e.station :: e.control :: natByte e.payload.length :: e.payload
  Config.requestLead :: covered ++ crcBytes covered

/-! ### Characters on a line -/

/-- R19: the level of the parity bit that makes the number of ones in data and parity bits even. -/
def evenParity (d : Byte) : Bool :=
  (List.range 8).foldl (fun p i => p.xor (d.getLsbD i)) false

/-- R19: the character the part sends for a byte. -/
def cleanChar (d : Byte) : LineChar := { data := d, parity := evenParity d, stop := true }

/-- R19: a parity error or a stop-bit error. -/
def faultyChar (c : LineChar) : Bool := c.parity != evenParity c.data || !c.stop

/-- R19: a silence counted in bit times has reached this many CT. -/
def silenceReached (silence ct : Nat) : Bool := decide (ct * Config.bitsPerChar ≤ silence)

/-! ### Small shared reads -/

/-- R43: active in every state but IDLE. -/
def Chain.active (ch : Chain) : Bool := decide (ch.state ≠ .idle)

/-- R44: the descriptor is defined on this line. -/
def Chain.onLine (ch : Chain) (l : Fin 4) : Bool :=
  match ch.defn with
  | some d => decide (d.line = l)
  | none => false

/-- R42: the chain is defined with powered rounds. -/
def Chain.isPowered (ch : Chain) : Bool :=
  match ch.defn with
  | some d => d.powered
  | none => false

/-- R43: the chain active on a line; there is at most one. -/
def State.activeChain (s : State) (l : Fin 4) : Option (Fin 8) :=
  (List.finRange 8).find? fun c => (s.chain c).active && (s.chain c).onLine l

/-- 0.5: an exchange started on behalf of a scan chain. -/
def Exchange.isScan (x : Exchange) : Bool :=
  match x.origin with
  | .chain _ => true
  | .host => false
  | .watch _ => false
  | .listen => false

/-- An injected exchange is in flight on the line (R71). -/
def Line.injectedInFlight (x : Line) : Bool :=
  match x.exch with
  | some ex => !ex.isScan
  | none => false

/-- R12, R13: the entry is DEFINED and its line is this one. -/
def State.entryOn (s : State) (e : Fin 128) (l : Fin 4) : Bool :=
  match s.entry e with
  | some p => decide (p.line = l)
  | none => false

/-- R100: the capture block size in bytes. -/
def BlockSize.bytes : BlockSize → Nat
  | .b16 => 16
  | .b32 => 32
  | .b64 => 64
  | .b128 => 128

end Sys2Proof.Machine
end

