-- ==== Sys2Proof/Machine/Operands.lean ====
section
/-! DEFINITION. What a request's bytes say: the codes of R167, the body layouts of R165, and the check of kind and length
that the Link Port makes before a request reaches its block (R156). -/

namespace Sys2Proof.Machine

/-! ### Codes -/

/-- The value of an enumeration that a code names, if any. -/
def byCode {α : Type} (all : List α) (code : α → Byte) (b : Byte) : Option α := all.find? fun a => code a == b

def boolOf (b : Byte) : Option Bool := byCode [false, true] boolByte b

def ExchOutcome.code : ExchOutcome → Byte
  | .ok => 0 | .noReply => 1 | .badFrame => 2 | .badCheck => 3 | .wrongStation => 4 | .overlength => 5
  | .collisionLimit => 6 | .preempted => 7 | .aborted => 8 | .lineFault => 9

def RecordKind.code : RecordKind → Byte
  | .exchange => 0 | .capture => 1

/-- R165: an origin is a type and a number. -/
def Origin.code : Origin → List Byte
  | .chain c => [0, finByte c] | .host => [1, 0] | .watch w => [2, finByte w] | .listen => [3, 0]

def EngineState.code : EngineState → Byte
  | .idle => 0 | .gapWait => 1 | .sending => 2 | .awaiting => 3 | .receiving => 4 | .backoff => 5 | .listening => 6

def PowerState.code : PowerState → Byte
  | .off => 0 | .settling => 1 | .on => 2 | .fault => 3

def ChainState.code : ChainState → Byte
  | .idle => 0 | .armed => 1 | .running => 2 | .held => 3 | .stopping => 4

def FaultReason.code : FaultReason → Byte
  | .none => 0 | .loop => 1 | .badLink => 2 | .headGone => 3 | .lineOff => 4 | .lineFault => 5

def HeldReason.code : HeldReason → Byte
  | .again => 0 | .next => 1

def Level.code : Level → Byte
  | .urgent => 0 | .prompt => 1
def levelOf (b : Byte) : Option Level := byCode [.urgent, .prompt] Level.code b

def RecordPolicy.code : RecordPolicy → Byte
  | .always => 0 | .failures => 1 | .never => 2
def policyOf (b : Byte) : Option RecordPolicy := byCode [.always, .failures, .never] RecordPolicy.code b

/-- Plan entry or watch state: UNUSED 0, DEFINED 1. -/
def definedCode {α : Type} (x : Option α) : Byte := boolByte x.isSome

/-- R119: the code of an action, without its target and level. -/
def WatchAction.code : WatchAction → Byte
  | .none => 0 | .notice => 1 | .inject _ _ => 2 | .noticeInject _ _ => 3

def Zone.code : Zone → Byte
  | .unknown => 0 | .low => 1 | .normal => 2 | .high => 3

def WatchStatus.code : WatchStatus → Byte
  | .never => 0 | .fresh => 1 | .missing => 2 | .stale => 3

def ActionResult.code : ActionResult → Byte
  | .none => 0 | .queued => 1 | .merged => 2 | .refused => 3

/-- The number of a class, its code and its place in the priority (R142, R167). -/
def AttnClass.idx : AttnClass → Fin 7
  | .lineFault => 0 | .chainFault => 1 | .storeFull => 2 | .watch => 3 | .chainDone => 4 | .storeLevel => 5
  | .linkError => 6
def AttnClass.all : List AttnClass :=
  [.lineFault, .chainFault, .storeFull, .watch, .chainDone, .storeLevel, .linkError]
def classOf (b : Byte) : Option AttnClass := byCode AttnClass.all (fun c => finByte c.idx) b

def Mode.code : Mode → Byte
  | .framed => 0 | .listen => 1
def modeOf (b : Byte) : Option Mode := byCode [.framed, .listen] Mode.code b

def Baud.code : Baud → Byte
  | .b2400 => 0 | .b9600 => 1 | .b19200 => 2 | .b38400 => 3
def baudOf (b : Byte) : Option Baud := byCode [.b2400, .b9600, .b19200, .b38400] Baud.code b

def BlockSize.code : BlockSize → Byte
  | .b16 => 0 | .b32 => 1 | .b64 => 2 | .b128 => 3
def blockSizeOf (b : Byte) : Option BlockSize := byCode [.b16, .b32, .b64, .b128] BlockSize.code b

def ResetCause.code : ResetCause → Byte
  | .powerOn => 0 | .restart => 1

/-- R167: the result codes. -/
inductive ResultCode where
  | ok | merged | empty | busy | state | full | noSuch | badArg | badLength | unknownKind
deriving DecidableEq, Repr

def ResultCode.code : ResultCode → Byte
  | .ok => 0x00 | .merged => 0x01 | .empty => 0x02
  | .busy => 0x10 | .state => 0x11 | .full => 0x12 | .noSuch => 0x13 | .badArg => 0x14 | .badLength => 0x15
  | .unknownKind => 0x16

/-- R163: a reply body of the result code alone. -/
def ResultCode.alone (r : ResultCode) : List Byte := [r.code]

/-- R161: the demand set, HOST in bit 0, ROUND in bit 1, ASK in bit 2. -/
def DemandSet.code (d : DemandSet) : Byte :=
  natByte ((if d.host then 1 else 0) + (if d.round then 2 else 0) + (if d.ask then 4 else 0))

/-! ### Kinds -/

/-- The request kinds of R165 and R167. -/
inductive Kind where
  | ident | restart | notice | noticeAck | maskSet
  | lineSet | lineRead | linePower | lineResume | exchangeAbort
  | planWrite | planRead | planErase
  | chainSet | chainRead | chainStart | chainStop | chainAbort
  | ask | askCancel | queueRead
  | fetch | release | storeClear
  | watchWrite | watchRead | watchErase | valuesRead
deriving DecidableEq, Repr

def Kind.code : Kind → Byte
  | .ident => 0x01 | .restart => 0x02 | .notice => 0x03 | .noticeAck => 0x04 | .maskSet => 0x05
  | .lineSet => 0x10 | .lineRead => 0x11 | .linePower => 0x12 | .lineResume => 0x13 | .exchangeAbort => 0x14
  | .planWrite => 0x20 | .planRead => 0x21 | .planErase => 0x22
  | .chainSet => 0x30 | .chainRead => 0x31 | .chainStart => 0x32 | .chainStop => 0x33 | .chainAbort => 0x34
  | .ask => 0x40 | .askCancel => 0x41 | .queueRead => 0x42
  | .fetch => 0x50 | .release => 0x51 | .storeClear => 0x52
  | .watchWrite => 0x60 | .watchRead => 0x61 | .watchErase => 0x62 | .valuesRead => 0x63

def Kind.all : List Kind :=
  [.ident, .restart, .notice, .noticeAck, .maskSet, .lineSet, .lineRead, .linePower, .lineResume, .exchangeAbort,
   .planWrite, .planRead, .planErase, .chainSet, .chainRead, .chainStart, .chainStop, .chainAbort, .ask, .askCancel,
   .queueRead, .fetch, .release, .storeClear, .watchWrite, .watchRead, .watchErase, .valuesRead]

def kindOf (b : Byte) : Option Kind := byCode Kind.all Kind.code b

/-! ### Request bodies -/

/-- A request whose kind is known and whose body has the length the kind requires: its fields as carried. -/
inductive Request where
  | ident
  | restart
  | notice
  | noticeAck (cls : Byte) (detail : Word)
  | maskSet (set : Byte)
  | lineSet (line mode baud gapLimit collisionBudget settleSteps autoPower storeThreshold blockSize : Byte)
  | lineRead (line : Byte)
  | linePower (line direction : Byte)
  | lineResume (line : Byte)
  | exchangeAbort (line : Byte)
  | planWrite (entry line station control replyLimit timeout retries policy link : Byte) (payload : List Byte)
  | planRead (entry : Byte)
  | planErase (entry : Byte)
  | chainSet (chain line head : Byte) (period : Half) (powered notify : Byte)
  | chainRead (chain : Byte)
  | chainStart (chain : Byte)
  | chainStop (chain : Byte)
  | chainAbort (chain : Byte)
  | ask (entry level : Byte)
  | askCancel (entry : Byte)
  | queueRead (line : Byte)
  | fetch (line release : Byte)
  | release (line : Byte) (sequence : Half)
  | storeClear (line : Byte)
  | watchWrite (watch entry offset startBit width signed : Byte) (low high : Word) (hysteresis : Half) (action : Byte)
      (injection : Option (Byte × Byte))
  | watchRead (watch : Byte)
  | watchErase (watch : Byte)
  | valuesRead (first count : Byte)
deriving DecidableEq, Repr

/-- The body of a kind that carries none. -/
def parse0 (r : Request) : List Byte → Option Request
  | [] => some r
  | _ :: _ => none

/-- The body of a kind that carries one byte. -/
def parse1 (r : Byte → Request) : List Byte → Option Request
  | [a] => some (r a)
  | _ => none

/-- The body of a kind that carries two bytes. -/
def parse2 (r : Byte → Byte → Request) : List Byte → Option Request
  | [a, b] => some (r a b)
  | _ => none

def parseNoticeAck : List Byte → Option Request
  | [c, d0, d1, d2, d3] => some (.noticeAck c (ofLe32 d0 d1 d2 d3))
  | _ => none

def parseLineSet : List Byte → Option Request
  | [l, m, b, g, c, t, a, h, k] => some (.lineSet l m b g c t a h k)
  | _ => none

/-- R7, step 1: the length is 10 plus the payload length declared. -/
def parsePlanWrite : List Byte → Option Request
  | e :: l :: st :: ct :: rl :: tm :: re :: po :: lk :: declared :: payload =>
    if payload.length = declared.toNat then some (.planWrite e l st ct rl tm re po lk payload) else none
  | _ => none

def parseChainSet : List Byte → Option Request
  | [c, l, h, p0, p1, pw, nt] => some (.chainSet c l h (ofLe16 p0 p1) pw nt)
  | _ => none

def parseRelease : List Byte → Option Request
  | [l, q0, q1] => some (.release l (ofLe16 q0 q1))
  | _ => none

/-- R121, step 1: whether the two bytes after an action code agree with it. NONE and NOTICE carry no target and level,
INJECT and NOTICE+INJECT carry both, and a code that names no action may stand with or without them. -/
def injectionFits (action : Byte) (carried : Bool) : Bool :=
  if action = 0 ∨ action = 1 then !carried else if action = 2 ∨ action = 3 then carried else true

def parseWatchWrite : List Byte → Option Request
  | w :: e :: o :: sb :: wd :: sg :: l0 :: l1 :: l2 :: l3 :: h0 :: h1 :: h2 :: h3 :: y0 :: y1 :: a :: rest =>
    match rest with
    | [] =>
      if injectionFits a false then
        some (.watchWrite w e o sb wd sg (ofLe32 l0 l1 l2 l3) (ofLe32 h0 h1 h2 h3) (ofLe16 y0 y1) a none)
      else none
    | [t, v] =>
      if injectionFits a true then
        some (.watchWrite w e o sb wd sg (ofLe32 l0 l1 l2 l3) (ofLe32 h0 h1 h2 h3) (ofLe16 y0 y1) a (some (t, v)))
      else none
    | _ => none
  | _ => none

/-- R156, step 2: the fields of a body, or nothing where its length is not the one the kind requires (R165). -/
def parseBody (k : Kind) (body : List Byte) : Option Request :=
  match k with
  | .ident => parse0 .ident body
  | .restart => parse0 .restart body
  | .notice => parse0 .notice body
  | .noticeAck => parseNoticeAck body
  | .maskSet => parse1 .maskSet body
  | .lineSet => parseLineSet body
  | .lineRead => parse1 .lineRead body
  | .linePower => parse2 .linePower body
  | .lineResume => parse1 .lineResume body
  | .exchangeAbort => parse1 .exchangeAbort body
  | .planWrite => parsePlanWrite body
  | .planRead => parse1 .planRead body
  | .planErase => parse1 .planErase body
  | .chainSet => parseChainSet body
  | .chainRead => parse1 .chainRead body
  | .chainStart => parse1 .chainStart body
  | .chainStop => parse1 .chainStop body
  | .chainAbort => parse1 .chainAbort body
  | .ask => parse2 .ask body
  | .askCancel => parse1 .askCancel body
  | .queueRead => parse1 .queueRead body
  | .fetch => parse2 .fetch body
  | .release => parseRelease body
  | .storeClear => parse1 .storeClear body
  | .watchWrite => parseWatchWrite body
  | .watchRead => parse1 .watchRead body
  | .watchErase => parse1 .watchErase body
  | .valuesRead => parse2 .valuesRead body

end Sys2Proof.Machine
end

