-- ==== Sys2Proof/Machine/Flags.lean ====
section
/-! DEFINITION. The Attention Unit: detail sets, mask and ATTN# (R142 to R150). -/

namespace Sys2Proof.Machine

/-- R142: how many members a class has; member `k` is bit `k` of its detail set. -/
def AttnClass.members : AttnClass → Nat
  | .lineFault => 4
  | .chainFault => 8
  | .storeFull => 4
  | .watch => 32
  | .chainDone => 8
  | .storeLevel => 4
  | .linkError => 4

/-- R142: the members of LINK-ERROR, in the order of R167. -/
inductive LinkError where
  | badCheck | badLength | timeout | overrun
deriving DecidableEq, Repr

def LinkError.member : LinkError → Nat
  | .badCheck => 0
  | .badLength => 1
  | .timeout => 2
  | .overrun => 3

/-- The detail set of a class. -/
def Attention.set (a : Attention) (c : AttnClass) : Word := a.detail[c.idx]

/-- R142: a class is pending while its detail set is not empty. -/
def Attention.pending (a : Attention) (c : AttnClass) : Bool := a.set c != 0

/-- Whether a class is masked. -/
def Attention.isMasked (a : Attention) (c : AttnClass) : Bool := a.masked[c.idx]

/-- R145: some unmasked class is pending. -/
def Attention.wants (a : Attention) : Bool := AttnClass.all.any fun c => a.pending c && !a.isMasked c

/-- R145: the output is judged again. -/
def Attention.judge (a : Attention) : Attention := { a with asserted := a.wants }

/-- Replaces a detail set and judges ATTN# again. -/
def Attention.put (a : Attention) (c : AttnClass) (d : Word) : Attention :=
  { a with detail := a.detail.set c.idx d }.judge

/-- The detail set with one member. -/
def memberBit (k : Nat) : Word := 1#32 <<< k

/-- R143: an event adds a member to a class's detail set. -/
def State.raise (s : State) (c : AttnClass) (k : Nat) : State :=
  s.setAttn (s.attn.put c (s.attn.set c ||| memberBit k))

/-- R144, R147: members leave a class's detail set. -/
def State.retract (s : State) (c : AttnClass) (d : Word) : State :=
  s.setAttn (s.attn.put c (s.attn.set c &&& ~~~d))

/-- R147: the set holds a member outside the range of the class. -/
def outsideRange (c : AttnClass) (d : Word) : Bool := decide (2 ^ c.members ≤ d.toNat)

/-- R161: a class set, one byte, bit `k` for the class of code `k`. -/
def classByte (p : AttnClass → Bool) : Byte :=
  AttnClass.all.foldl (fun b c => if p c then b ||| (1#8 <<< c.idx.val) else b) 0

/-- R146: the highest class that is unmasked and pending. -/
def Attention.highest (a : Attention) : Option AttnClass := AttnClass.all.find? fun c => a.pending c && !a.isMasked c

/-- R116, R144: a line is a member of STORE-LEVEL while its threshold lies in 1-32 and its store holds at least that many
records. -/
def State.levelMember (s : State) (l : Fin 4) : Bool :=
  decide (1 ≤ (s.line l).settings.storeThreshold) &&
    decide ((s.line l).settings.storeThreshold ≤ (s.store l).records.length)

/-- R116: the membership of a line is judged again. -/
def State.judgeLevel (s : State) (l : Fin 4) : State :=
  if s.levelMember l then s.raise .storeLevel l.val else s.retract .storeLevel (memberBit l.val)

end Sys2Proof.Machine
end

