-- ==== Sys2Proof/Machine/Store.lean ====
section
/-! DEFINITION. The Reply Store: records, overflow and collection (R104 to R118), and the record layout of R166. -/

namespace Sys2Proof.Machine

/-- R104: a record without a payload counts 0. -/
def Record.payloadLen (r : Record) : Nat :=
  match r.payload with
  | some p => p.length
  | none => 0

/-- R104: the sum of the payload lengths of the records held. -/
def Store.payloadBytes (st : Store) : Nat := (st.records.map Record.payloadLen).sum

/-- R108: the record fits the store. -/
def Store.fits (st : Store) (r : Record) : Bool :=
  decide (st.records.length < Config.recordCapacity) &&
    decide (st.payloadBytes + r.payloadLen ≤ Config.payloadCapacity)

/-- R108: the store after a record that fits: the record takes the next sequence number, and GAP if it is pending. -/
def Store.append (st : Store) (r : Record) : Store :=
  { records := st.records ++ [{ r with seq := st.nextSeq, gap := st.gapPending }]
    nextSeq := st.nextSeq + 1
    gapPending := false }

/-- R109: the store after a record that does not fit: the number stays consumed and gap-pending is set. -/
def Store.drop (st : Store) : Store := { st with nextSeq := st.nextSeq + 1, gapPending := true }

/-- R107 to R110, R116: a record is offered to a line's store and appended or dropped at once. -/
def State.offer (s : State) (l : Fin 4) (r : Record) : State :=
  if (s.store l).fits r then (s.setStore l ((s.store l).append r)).judgeLevel l
  else (s.setStore l (s.store l).drop).raise .storeFull l.val

/-- R112, R113: the oldest record is removed, and STORE-LEVEL is judged again. -/
def State.dropOldest (s : State) (l : Fin 4) : State :=
  (s.setStore l { s.store l with records := (s.store l).records.tail }).judgeLevel l

/-- R114: every record is removed; next sequence and gap-pending keep their values. -/
def State.clearStore (s : State) (l : Fin 4) : State := (s.setStore l { s.store l with records := [] }).judgeLevel l

/-- R166: the flags byte: GAP, RESTORED, PARITY, then presence of reply control and of a payload. -/
def Record.flagsByte (r : Record) : Byte :=
  natByte ((if r.gap then 1 else 0) + (if r.restored then 2 else 0) + (if r.parity then 4 else 0) +
    (if r.replyControl.isSome then 8 else 0) + (if r.payload.isSome then 16 else 0))

/-- R166: the record as a FETCH reply carries it, from the sequence on. -/
def Record.bytes (r : Record) : List Byte :=
  le16 r.seq ++ [r.kind.code] ++ r.origin.code ++
    [optByte (r.entry.map finByte), optByte r.station, r.outcome.code, natByte r.attempts, natByte r.collisions,
     r.flagsByte, natByte r.merged] ++ le32 r.endTime ++
    [r.replyControl.getD 0, natByte r.payloadLen] ++ r.payload.getD []

/-- The number of records in a line's store, as a reply carries it. -/
def State.remaining (s : State) (l : Fin 4) : Byte := natByte (s.store l).records.length

/-- R112: FETCH. -/
def doFetch (line release : Byte) (s : State) : State × List Byte :=
  match finOf 4 line, boolOf release with
  | some l, some rel =>
    match (s.store l).records with
    | [] => (s, ResultCode.empty.alone)
    | r :: _ =>
      let t := if rel then s.dropOldest l else s
      (t, ResultCode.ok.code :: t.remaining l :: r.bytes)
  | _, _ => (s, ResultCode.badArg.alone)

/-- R113: RELEASE. -/
def doRelease (line : Byte) (sequence : Half) (s : State) : State × List Byte :=
  match finOf 4 line with
  | some l =>
    match (s.store l).records with
    | [] => (s, [ResultCode.empty.code, s.remaining l])
    | r :: _ =>
      if r.seq = sequence then
        let t := s.dropOldest l
        (t, [ResultCode.ok.code, t.remaining l])
      else (s, [ResultCode.noSuch.code, s.remaining l])
  | none => (s, ResultCode.badArg.alone)

/-- R114: STORE-CLEAR; the reply carries the number of records removed. -/
def doStoreClear (line : Byte) (s : State) : State × List Byte :=
  match finOf 4 line with
  | some l => (s.clearStore l, [ResultCode.ok.code, s.remaining l])
  | none => (s, ResultCode.badArg.alone)

end Sys2Proof.Machine
end

