-- ==== Sys2Proof/Machine/Chain.lean ====
section
/-! DEFINITION. The Chain Controller's rounds: their start, their end, links and chain faults (R48, R51 to R55, R60), and
the ROUND demand of a line (R49). None of these judges the power of a line; the operation that calls them does. -/

namespace Sys2Proof.Machine

/-- R58, R60: a chain going IDLE; counters and reason keep their values. -/
def Chain.toIdle (ch : Chain) : Chain :=
  { ch with state := .idle, position := none, inFlight := false, roundDue := false, timer := .stopped }

/-- R68: the held position is cleared and the held count becomes 0. -/
def Line.clearHeld (x : Line) : Line := { x with held := none, heldCount := 0 }

/-- R68: the held position is taken and the held count becomes 0. -/
def Line.takeHeld (x : Line) (h : Held) : Line := { x with held := some h, heldCount := 0 }

/-- R60, step 2, and R58: the held position of a HELD chain is cleared. -/
def State.dropHold (s : State) (c : Fin 8) : State :=
  match (s.chain c).state, (s.chain c).defn with
  | .held, some d => s.modLine d.line Line.clearHeld
  | _, _ => s

/-- R60: the chain takes a chain fault. -/
def State.chainFault (s : State) (c : Fin 8) (reason : FaultReason) : State :=
  ((s.dropHold c).modChain c fun ch => { ch.toIdle with reason }).raise .chainFault c.val

/-- R48, step 5, and R54: the round timer of a round that starts now. -/
def roundTimer (d : ChainDef) (now : Word) : Timer :=
  if d.period = 0 then .stopped else .running now (d.period.toNat * 100)

/-- R48: a round starts. The ROUND demand of step 6 is judged by the caller (R49). -/
def State.roundStart (s : State) (c : Fin 8) : State :=
  match (s.chain c).defn with
  | none => s
  | some d =>
    if !s.entryOn d.head d.line then s.chainFault c .headGone
    else if (s.line d.line).power = .fault then
      (s.modLine d.line fun x => x.takeHeld { entry := d.head, reason := .next, owner := c }).modChain c fun ch =>
        { ch with state := .held, position := none, inFlight := false, taken := 0, roundDue := false,
                  timer := roundTimer d s.count }
    else if !d.powered && (s.line d.line).power = .off then s.chainFault c .lineOff
    else
      s.modChain c fun ch =>
        { ch with state := .running, position := some d.head, inFlight := false, taken := 0, roundDue := false,
                  timer := roundTimer d s.count }

/-- R53, R55: a round ends. -/
def State.roundEnd (s : State) (c : Fin 8) : State :=
  match (s.chain c).defn with
  | none => s
  | some d =>
    let s1 := s.modChain c fun ch => { ch with rounds := ch.rounds + 1 }
    let s2 := if d.notify || decide (d.period = 0) then s1.raise .chainDone c.val else s1
    if d.period = 0 then s2.modChain c Chain.toIdle
    else if (s2.chain c).roundDue then
      (s2.modChain c fun ch => { ch with late := min Config.countLimit (ch.late + 1) }).roundStart c
    else s2.modChain c fun ch => { ch with state := .armed, position := none }

/-- R52, R13: the link of the entry copy is followed. -/
def State.linkFollow (s : State) (c : Fin 8) (copy : PlanEntry) : State :=
  match copy.link with
  | none => s.roundEnd c
  | some t =>
    if Config.roundLimit ≤ (s.chain c).taken then s.chainFault c .loop
    else
      match (s.chain c).defn with
      | none => s
      | some d =>
        if s.entryOn t d.line then s.modChain c fun ch => { ch with position := some t } else s.chainFault c .badLink

/-- R62, R80, R85: the chain goes HELD, its line's held position taking this entry. -/
def State.holdChain (s : State) (c : Fin 8) (l : Fin 4) (entry : Fin 128) (reason : HeldReason) : State :=
  (s.modLine l fun x => x.takeHeld { entry, reason, owner := c }).modChain c fun ch =>
    { ch with state := .held, position := none }

/-- R51: the end of a scan exchange reaches the Chain Controller. -/
def State.scanEnd (s : State) (c : Fin 8) (l : Fin 4) (ex : Exchange) (o : ExchOutcome) : State :=
  if (s.chain c).inFlight && !ex.orphan then
    let s1 := s.modChain c fun ch => { ch with inFlight := false }
    match (s.chain c).state with
    | .stopping => s1.modChain c Chain.toIdle
    | .running =>
      match o with
      | .preempted => s1.holdChain c l ex.entry .again
      | .lineFault => s1.holdChain c l ex.entry .again
      | .ok => s1.linkFollow c ex.copy
      | .noReply => s1.linkFollow c ex.copy
      | .badFrame => s1.linkFollow c ex.copy
      | .badCheck => s1.linkFollow c ex.copy
      | .wrongStation => s1.linkFollow c ex.copy
      | .overlength => s1.linkFollow c ex.copy
      | .collisionLimit => s1.linkFollow c ex.copy
      | .aborted => s1.linkFollow c ex.copy
    | .idle => s1
    | .armed => s1
    | .held => s1
  else s

/-- R49: a chain that holds a round. -/
def Chain.inRound (ch : Chain) : Bool :=
  match ch.state with
  | .running => true
  | .held => true
  | .stopping => true
  | .idle => false
  | .armed => false

/-- R49: whether the ROUND demand of a line is to be in its demand set. A scan exchange in flight is judged by the powered
rounds field its chain had when it started (R59). -/
def State.roundWanted (s : State) (l : Fin 4) : Bool :=
  decide ((s.line l).power ≠ .fault) &&
    ((List.finRange 8).any (fun c => (s.chain c).onLine l && (s.chain c).isPowered && (s.chain c).inRound) ||
      match (s.line l).exch with
      | some ex => ex.isScan && ex.powered
      | none => false)

/-- R49: the ROUND demand enters or leaves the set. -/
def State.syncRound (s : State) (l : Fin 4) : State :=
  s.modLine l fun x => { x with demand := { x.demand with round := s.roundWanted l } }

end Sys2Proof.Machine
end

