-- ==== Sys2Proof/Machine/Watch.lean ====
section
/-! DEFINITION. The Watch Unit's evaluation (R125 to R131). How an injection is made is a parameter, since an ASK is a
matter of the schedulers (R131). -/

namespace Sys2Proof.Machine

/-- R126: the number of payload bytes the field covers. -/
def Watch.fieldBytes (w : Watch) : Nat := (w.startBit + w.width + 7) / 8

/-- R126: the field's bits, cut from the payload. -/
def Watch.rawField (w : Watch) (payload : List Byte) : Nat :=
  (leNat ((payload.drop w.offset).take w.fieldBytes) >>> w.startBit) % 2 ^ w.width

/-- R126, R127: the field read in its signedness. -/
def Watch.fieldValue (w : Watch) (payload : List Byte) : Int :=
  let raw := w.rawField payload
  if w.signed && decide (2 ^ (w.width - 1) ≤ raw) then (raw : Int) - 2 ^ w.width else raw

/-- R126: the value taken from a payload, if the field lies wholly within it. -/
def Watch.take? (w : Watch) (payload : List Byte) : Option Int :=
  if w.offset + w.fieldBytes ≤ payload.length then some (w.fieldValue payload) else none

/-- R127: a limit as an exact integer. -/
def readNumber (signed : Bool) (x : Word) : Int := if signed then x.toInt else x.toNat

/-- R128: the zone after a value, from the zone before it. -/
def Watch.zoneFor (w : Watch) (v : Int) : Zone :=
  let low := readNumber w.signed w.low
  let high := readNumber w.signed w.high
  let hyst : Int := w.hysteresis.toNat
  match w.zone with
  | .unknown => if v < low then .low else if v > high then .high else .normal
  | .normal => if v < low then .low else if v > high then .high else .normal
  | .low => if v > high then .high else if v ≥ low + hyst then .normal else .low
  | .high => if v < low then .low else if v ≤ high - hyst then .normal else .high

/-- R130: the zone changes that take action. -/
def zoneActs (before after : Zone) : Bool :=
  decide (before ≠ after) && !(decide (before = .unknown) && decide (after = .normal))

/-- How an injection of a watch is made: the watch, the target and the level. -/
abbrev Injector := Fin 32 → Fin 128 → Level → State → State × ActionResult

/-- R131: the injection is made, and its result kept as the watch's last action result. -/
def State.injectFor (inject : Injector) (s : State) (w : Fin 32) (target : Fin 128) (level : Level) : State :=
  let r := inject w target level s
  match r.1.watch w with
  | some x => r.1.setWatch w (some { x with lastAction := r.2 })
  | none => r.1

/-- R130: the action of a zone change. -/
def State.watchAct (inject : Injector) (s : State) (w : Fin 32) (a : WatchAction) : State :=
  match a with
  | .none => s
  | .notice => s.raise .watch w.val
  | .inject target level => s.injectFor inject w target level
  | .noticeInject target level => (s.raise .watch w.val).injectFor inject w target level

/-- R128: a DEFINED watch takes a value. -/
def Watch.takeValue (x : Watch) (v : Int) (now : Word) : Watch :=
  { x with zone := x.zoneFor v, value := BitVec.ofInt 32 v, valueTime := now, status := .fresh }

/-- R129: one watch on the entry whose exchange ended. -/
def State.evalWatch (inject : Injector) (entry : Fin 128) (o : ExchOutcome) (payload : List Byte) (s : State)
    (w : Fin 32) : State :=
  match s.watch w with
  | none => s
  | some x =>
    if x.entry ≠ entry then s
    else
      match o with
      | .ok =>
        match x.take? payload with
        | none => s.setWatch w (some { x with status := .missing })
        | some v =>
          let s1 := s.setWatch w (some (x.takeValue v s.count))
          if zoneActs x.zone (x.zoneFor v) then s1.watchAct inject w x.action else s1
      | .preempted => s
      | .aborted => s
      | .noReply => s.setWatch w (some { x with status := .stale })
      | .badFrame => s.setWatch w (some { x with status := .stale })
      | .badCheck => s.setWatch w (some { x with status := .stale })
      | .wrongStation => s.setWatch w (some { x with status := .stale })
      | .overlength => s.setWatch w (some { x with status := .stale })
      | .collisionLimit => s.setWatch w (some { x with status := .stale })
      | .lineFault => s.setWatch w (some { x with status := .stale })

/-- R125: every DEFINED watch on the entry, one at a time, in ascending watch number. A reply that is absent counts as a
payload of length 0 (R126). -/
def State.evalWatches (inject : Injector) (s : State) (entry : Fin 128) (o : ExchOutcome) (payload : List Byte) : State :=
  (List.finRange 32).foldl (State.evalWatch inject entry o payload) s

end Sys2Proof.Machine
end

