-- ==== Sys2Proof/Machine/Power.lean ====
section
/-! DEFINITION. What ends on a line and what that does to its power: capture blocks (R138, R139), going OFF (R91, R92, R61),
filing (R36, R37, R82), outside endings (R34), fault handling (R94), and the supply coming on (R90, R93). -/

namespace Sys2Proof.Machine

/-! ### Capture blocks -/

/-- R138: the record of a closing block. -/
def captureRecord (bytes : List Byte) (parity : Bool) (now : Word) : Record :=
  { seq := 0, kind := .capture, origin := .listen, entry := none, station := none, outcome := .ok, attempts := 0,
    collisions := 0, gap := false, restored := false, parity, merged := 0, endTime := now, replyControl := none,
    payload := some bytes }

/-- R138: an open block closes and is offered; a block with no byte has nothing to give (R135, R139). -/
def State.closeBlock (s : State) (l : Fin 4) : State :=
  if (s.line l).block = [] then s
  else
    (s.offer l (captureRecord (s.line l).block (s.line l).blockParity s.count)).modLine l fun x =>
      { x with block := [], blockParity := false }

/-! ### Going OFF -/

/-- R61: the chain that is in a round on a line that goes OFF takes chain fault LINE-OFF; an ARMED one stays. -/
def State.chainLineOff (s : State) (l : Fin 4) : State :=
  match s.activeChain l with
  | some c =>
    match (s.chain c).state with
    | .running => s.chainFault c .lineOff
    | .held => s.chainFault c .lineOff
    | .idle => s
    | .armed => s
    | .stopping => s
  | none => s

/-- R91, R92, R139: a line in SETTLING or ON enters OFF; a capture block is closed first. -/
def State.enterOff (s : State) (l : Fin 4) : State :=
  ((s.closeBlock l).modLine l fun x =>
    { x with power := .off, lnPwr := false, settleTimer := .stopped, engine := .idle, block := [],
             blockParity := false }).chainLineOff l

/-- R88, R91, R92: a line that is SETTLING or ON and has lost its last demand enters OFF. R39: not while an exchange is in
flight; the end of its filing comes here again (log 12). -/
def State.powerDown (s : State) (l : Fin 4) : State :=
  if ((s.line l).power = .settling ∨ (s.line l).power = .on) ∧ (s.line l).demand.isEmpty ∧ (s.line l).exch = none then
    s.enterOff l
  else s

/-- R49, R89: the demand set is judged after a chain, a queue or an exchange has changed, and the line follows it down. -/
def State.withdraw (s : State) (l : Fin 4) : State := (s.syncRound l).powerDown l

/-! ### Filing -/

/-- R4: the record policy offers the outcome. -/
def RecordPolicy.offers (p : RecordPolicy) (o : ExchOutcome) : Bool :=
  match p with
  | .always => true
  | .failures => decide (o ≠ .ok)
  | .never => false

/-- R36: the record of an ended exchange. -/
def exchangeRecord (ex : Exchange) (o : ExchOutcome) (now : Word) : Record :=
  { seq := 0, kind := .exchange, origin := ex.origin, entry := some ex.entry, station := some ex.copy.station, outcome := o,
    attempts := ex.attempts, collisions := ex.collisions, gap := false, restored := ex.restored, parity := false,
    merged := ex.merged, endTime := now, replyControl := ex.reply.map Reply.control,
    payload := ex.reply.map Reply.payload }

/-- R94, step 3: the record of a queued request that a line fault ends. -/
def queuedRecord (q : Injected) (station : Byte) (now : Word) : Record :=
  { seq := 0, kind := .exchange, origin := q.origin, entry := some q.entry, station := some station, outcome := .lineFault,
    attempts := 0, collisions := 0, gap := false, restored := false, parity := false, merged := q.merged, endTime := now,
    replyControl := none, payload := none }

/-- R33, R37: the engine stops its timers, releases LnDE and holds no context. -/
def Line.freeEngine (x : Line) : Line := { x with exch := none, engine := .idle, lnDe := false, replyTimer := .stopped }

/-- R82: as the filing of an injected exchange completes, the held count rises if the held position is occupied, and the
ASK demand leaves if the queue is empty. -/
def Line.injectedFiled (x : Line) : Line :=
  { x with heldCount := if x.held.isSome then min Config.heldLimit (x.heldCount + 1) else x.heldCount
           demand := { x.demand with ask := x.demand.ask && !x.queue.isEmpty } }

/-- R37, step 1: the record goes to the store if the policy of the entry copy offers the outcome. -/
def State.fileRecord (s : State) (l : Fin 4) (ex : Exchange) (o : ExchOutcome) : State :=
  if ex.copy.policy.offers o then s.offer l (exchangeRecord ex o s.count) else s

/-- R37, step 3: the end of a scan exchange goes to the Chain Controller; that of an injected one to R82. -/
def State.fileOrigin (s : State) (l : Fin 4) (ex : Exchange) (o : ExchOutcome) : State :=
  match ex.origin with
  | .chain c => s.scanEnd c l ex o
  | .host => s.modLine l Line.injectedFiled
  | .watch _ => s.modLine l Line.injectedFiled
  | .listen => s.modLine l Line.injectedFiled

/-- R33, R37: the exchange `ex` of line `l` ends with outcome `o` and is filed. The context travels as an argument, so an
injection that the filing itself makes finds no exchange in flight on this line (R131). -/
def State.fileWith (inject : Injector) (s : State) (l : Fin 4) (ex : Exchange) (o : ExchOutcome) : State :=
  let s0 := s.modLine l Line.freeEngine
  let s1 := s0.fileRecord l ex o
  let s2 := s1.evalWatches inject ex.entry o ((ex.reply.map Reply.payload).getD [])
  (s2.fileOrigin l ex o).withdraw l

/-- No injection: R129 and R130 let none follow from an outcome other than OK. -/
def noInject : Injector := fun _ _ _ s => (s, .none)

/-- The filing of an exchange ended from outside (R34): its outcome is never OK. -/
def State.fileQuiet (s : State) (l : Fin 4) (ex : Exchange) (o : ExchOutcome) : State := s.fileWith noInject l ex o

/-- R34: an outside ending, PREEMPTED or ABORTED. In SENDING it becomes the pending end, unless one stands already. -/
def State.endOutside (s : State) (l : Fin 4) (o : ExchOutcome) : State :=
  match (s.line l).exch with
  | none => s
  | some ex =>
    if (s.line l).engine = .sending then
      match ex.pendingEnd with
      | some _ => s
      | none => s.modLine l fun x => { x with exch := some { ex with pendingEnd := some o } }
    else s.fileQuiet l ex o

/-- R83: an URGENT request has joined the queue; a scan exchange in flight is preempted, an injected one is not. -/
def State.preempt (s : State) (l : Fin 4) : State :=
  match (s.line l).exch with
  | some ex => if ex.isScan then s.endOutside l .preempted else s
  | none => s

/-! ### Fault handling -/

/-- R94, step 2: the exchange in flight ends LINE-FAULT, or with the end that was pending. -/
def State.faultExchange (s : State) (l : Fin 4) : State :=
  match (s.line l).exch with
  | some ex => s.fileQuiet l ex (ex.pendingEnd.getD .lineFault)
  | none => s

/-- R94, step 3: one queued request is ended. Its entry is DEFINED, since it is in use (R6). -/
def State.faultQueued (l : Fin 4) (s : State) (q : Injected) : State :=
  match s.entry q.entry with
  | some p => if p.policy.offers .lineFault then s.offer l (queuedRecord q p.station s.count) else s
  | none => s

/-- R94, step 5, and R62: a RUNNING chain with no exchange in flight goes HELD with reason NEXT. -/
def State.faultHold (s : State) (l : Fin 4) : State :=
  match s.activeChain l with
  | some c =>
    match (s.chain c).state, (s.chain c).position with
    | .running, some p => if (s.chain c).inFlight then s else s.holdChain c l p .next
    | _, _ => s
  | none => s

/-- R94: the fault handling of a line, in the order of its steps. A capture block is closed before step 1 (R139). -/
def State.faultHandling (s : State) (l : Fin 4) : State :=
  let s1 := (s.closeBlock l).modLine l fun x =>
    { x with power := .fault, lnPwr := false, lnDe := false, settleTimer := .stopped, engine := .idle, block := [],
             blockParity := false }
  let s2 := s1.faultExchange l
  let s3 := (s2.line l).queue.foldl (State.faultQueued l) s2
  let s4 := s3.modLine l fun x => { x with queue := [], demand := DemandSet.empty }
  (s4.faultHold l).raise .lineFault l.val

/-! ### The supply comes on -/

/-- R90, R93: the line enters SETTLING; LnOVL# already asserted is an overload at once. -/
def State.enterSettling (s : State) (l : Fin 4) : State :=
  let s1 := s.modLine l fun x =>
    { x with power := .settling, lnPwr := true, settleTimer := .running s.count (x.settings.settleSteps * 50) }
  if (s1.line l).lnOvl then s1.faultHandling l else s1

/-- R90: a demand in the set of an OFF line powers it up. -/
def State.powerUp (s : State) (l : Fin 4) : State :=
  if (s.line l).power = .off ∧ !(s.line l).demand.isEmpty then s.enterSettling l else s

/-- R49, R90 to R92: the demand set is judged and the line follows it, down or up. -/
def State.settleDemand (s : State) (l : Fin 4) : State := (s.withdraw l).powerUp l

end Sys2Proof.Machine
end

