-- ==== Sys2Proof/Machine/Inject.lean ====
section
/-! DEFINITION. Injected requests: the queue's order, ASK and its merges, watch triggers, ASK-CANCEL and QUEUE-READ (R66 to
R76), and the filing of an exchange that ends by itself (R37 with the injections of R131). -/

namespace Sys2Proof.Machine

/-! ### The queue -/

/-- R67: the place of an URGENT append or of a promotion, after the last URGENT element and before the first PROMPT one. -/
def insertUrgent (x : Injected) : List Injected → List Injected
  | [] => [x]
  | y :: ys => if y.level = .urgent then y :: insertUrgent x ys else x :: y :: ys

/-- R67: the queue after an append. -/
def appendInjected (x : Injected) (q : List Injected) : List Injected :=
  match x.level with
  | .urgent => insertUrgent x q
  | .prompt => q ++ [x]

/-- R70: one more request folded into an element. -/
def Injected.merge (x : Injected) : Injected := { x with merged := min Config.countLimit (x.merged + 1) }

/-- R70: asking at this level promotes the element. -/
def promotes (x : Injected) (lv : Level) : Bool := decide (x.level = .prompt) && decide (lv = .urgent)

/-- R67: the queue without the element that names the entry; the others close up. -/
def removeEntry (e : Fin 128) (q : List Injected) : List Injected := q.filter fun y => decide (y.entry ≠ e)

/-- R70: the queue after a merge into the element `x` of it. -/
def mergeInjected (x : Injected) (lv : Level) (q : List Injected) : List Injected :=
  if promotes x lv then insertUrgent { x.merge with level := .urgent } (removeEntry x.entry q)
  else q.map fun y => if y.entry = x.entry then x.merge else y

/-- The element of a queue that names an entry. -/
def findEntry (e : Fin 128) (q : List Injected) : Option Injected := q.find? fun y => decide (y.entry = e)

/-- R71: an entry's place in the queue, counted from 0 at the head; 0 for one that has left it. -/
def placeOf (e : Fin 128) (q : List Injected) : Nat :=
  match q.findIdx? fun y => decide (y.entry = e) with
  | some i => i
  | none => 0

/-! ### ASK -/

/-- R69, R71: the result of an ASK; OK and MERGED with level, merged count and place after the request. -/
inductive AskResult where
  | noSuch
  | state
  | full
  | ok (level : Level) (merged place : Nat)
  | merged (level : Level) (merged place : Nat)
deriving DecidableEq, Repr

/-- R83: an URGENT request joins the queue of a line. -/
def State.urgentJoined (s : State) (l : Fin 4) (joined : Bool) : State := if joined then s.preempt l else s

/-- R69, step 7, and R71: a new element is appended, the ASK demand enters the set and may power the line up, and an URGENT
request preempts. -/
def State.appendAsk (s : State) (l : Fin 4) (x : Injected) : State :=
  ((s.modLine l fun y =>
    { y with queue := appendInjected x y.queue, demand := { y.demand with ask := true } }).powerUp l).urgentJoined l
    (decide (x.level = .urgent))

/-- R70: a request merges with the element `x` that the queue already holds. -/
def State.mergeAsk (s : State) (l : Fin 4) (x : Injected) (lv : Level) : State :=
  (s.modLine l fun y => { y with queue := mergeInjected x lv y.queue }).urgentJoined l (promotes x lv)

/-- R69, step 4: the line is OFF and an ASK may not power it up. -/
def Line.askBarred (x : Line) : Bool :=
  decide (x.settings.mode = .listen) || decide (x.power = .fault) ||
    (decide (x.power = .off) && !x.settings.autoPower)

/-- R69, steps 2 to 7, R70, R71: an ASK of an entry at a level, by the host or by a watch (R72). -/
def State.askAt (s : State) (e : Fin 128) (lv : Level) (o : Origin) : State × AskResult :=
  match s.entry e with
  | none => (s, .noSuch)
  | some p =>
    let x := s.line p.line
    if x.askBarred then (s, .state)
    else
      match findEntry e x.queue with
      | some q =>
        let t := s.mergeAsk p.line q lv
        (t, .merged (if promotes q lv then .urgent else q.level) q.merge.merged (placeOf e (t.line p.line).queue))
      | none =>
        if Config.queueCapacity ≤ x.queue.length then (s, .full)
        else
          let t := s.appendAsk p.line { entry := e, level := lv, origin := o, merged := 0, arrival := s.count }
          (t, .ok lv 0 (placeOf e (t.line p.line).queue))

/-- R72, R131: how the Watch Unit keeps the result of its ASK. -/
def AskResult.kept : AskResult → ActionResult
  | .ok _ _ _ => .queued
  | .merged _ _ _ => .merged
  | .noSuch => .refused
  | .state => .refused
  | .full => .refused

/-- R72: a watch trigger. -/
def watchTrigger : Injector := fun w target level s =>
  let r := s.askAt target level (.watch w)
  (r.1, r.2.kept)

/-- R33, R37: an exchange ends by itself and is filed; the watches it changes may inject. -/
def State.fileEnd (s : State) (l : Fin 4) (ex : Exchange) (o : ExchOutcome) : State := s.fileWith watchTrigger l ex o

/-- R71, R163: the reply body of an ASK. -/
def AskResult.body : AskResult → List Byte
  | .noSuch => ResultCode.noSuch.alone
  | .state => ResultCode.state.alone
  | .full => ResultCode.full.alone
  | .ok lv m p => [ResultCode.ok.code, lv.code, natByte m, natByte p]
  | .merged lv m p => [ResultCode.merged.code, lv.code, natByte m, natByte p]

/-- R69: ASK from the host. -/
def doAsk (entry level : Byte) (s : State) : State × List Byte :=
  match finOf 128 entry, levelOf level with
  | some e, some lv =>
    let r := s.askAt e lv .host
    (r.1, r.2.body)
  | _, _ => (s, ResultCode.badArg.alone)

/-! ### ASK-CANCEL and QUEUE-READ -/

/-- R74: the element leaves the queue; the ASK demand leaves if nothing remains, with its effects on power. -/
def State.cancelAsk (s : State) (l : Fin 4) (e : Fin 128) : State :=
  (s.modLine l fun x =>
    { x with queue := removeEntry e x.queue
             demand := { x.demand with
               ask := x.demand.ask && (!(removeEntry e x.queue).isEmpty || x.injectedInFlight) } }).withdraw l

/-- R74: ASK-CANCEL. -/
def doAskCancel (entry : Byte) (s : State) : State × List Byte :=
  match finOf 128 entry with
  | none => (s, ResultCode.badArg.alone)
  | some e =>
    match s.entry e with
    | none => (s, ResultCode.noSuch.alone)
    | some p =>
      match findEntry e (s.line p.line).queue with
      | none => (s, ResultCode.noSuch.alone)
      | some _ => (s.cancelAsk p.line e, ResultCode.ok.alone)

/-- R165: one element in a QUEUE-READ reply. -/
def Injected.bytes (x : Injected) : List Byte :=
  [finByte x.entry, x.level.code] ++ x.origin.code ++ [natByte x.merged] ++ le32 x.arrival

/-- R163, R165: held entry, reason and owning chain, each 0xFF when the position is clear. -/
def heldBytes (h : Option Held) : List Byte :=
  match h with
  | some h => [finByte h.entry, h.reason.code, finByte h.owner]
  | none => [absentByte, absentByte, absentByte]

/-- R76: QUEUE-READ. -/
def doQueueRead (line : Byte) (s : State) : State × List Byte :=
  match finOf 4 line with
  | none => (s, ResultCode.badArg.alone)
  | some l =>
    let x := s.line l
    (s, [ResultCode.ok.code, finByte l, natByte x.queue.length] ++ heldBytes x.held ++ [natByte x.heldCount] ++
      x.queue.flatMap Injected.bytes)

end Sys2Proof.Machine
end

