-- ==== Sys2Proof/Machine/Scheduler.lean ====
section
/-! DEFINITION. The Line Scheduler's choice of work and the start of an exchange (R11, R12, R18, R50, R77 to R81). -/

namespace Sys2Proof.Machine

/-- R18: the context of an exchange as it starts. -/
def newExchange (copy : PlanEntry) (entry : Fin 128) (origin : Origin) (restored : Bool) (merged : Nat) (powered : Bool) :
    Exchange :=
  { copy, entry, origin, attempts := 1, collisions := 0, restored, merged, pendingEnd := none, reply := none, sent := 0,
    kept := [], powered, orphan := false }

/-- R18: the engine holds the context and enters GAP-WAIT. -/
def State.startExchange (s : State) (l : Fin 4) (ex : Exchange) : State :=
  s.modLine l fun x => { x with engine := .gapWait, exch := some ex }

/-- R77: the line is free. -/
def Line.free (x : Line) : Bool :=
  decide (x.power = .on) && decide (x.settings.mode = .framed) && decide (x.exch = none)

/-- R12: the fault of a position that may not be started. -/
def startFault (taken : Nat) : FaultReason := if taken = 0 then .headGone else .badLink

/-- R50: the chain's side of a scan exchange that starts; a restore of reason AGAIN is not counted again. -/
def Chain.begin (ch : Chain) (e : Fin 128) (counted : Bool) : Chain :=
  { ch with state := .running, position := some e, inFlight := true
            taken := if counted then ch.taken + 1 else ch.taken }

/-- R12, R50, R81: a scan exchange of an entry starts for a chain, or the check fails and the chain takes its fault. -/
def State.startScan (s : State) (l : Fin 4) (c : Fin 8) (e : Fin 128) (restored : Bool) : State :=
  match s.entry e with
  | some p =>
    if p.line = l then
      (s.modChain c fun ch => ch.begin e (!restored)).startExchange l
        (newExchange p e (.chain c) restored 0 (s.chain c).isPowered)
    else (s.chainFault c (startFault (s.chain c).taken)).withdraw l
  | none => (s.chainFault c (startFault (s.chain c).taken)).withdraw l

/-- R81: the held position is cleared and its entry started as a scan exchange of its owner. -/
def State.restore (s : State) (l : Fin 4) (h : Held) : State :=
  (s.modLine l Line.clearHeld).startScan l h.owner h.entry (decide (h.reason = .again))

/-- R80: a chain that is RUNNING with a position and its exchange in flight no. -/
def State.offered (s : State) (l : Fin 4) : Option (Fin 8 × Fin 128) :=
  match s.activeChain l with
  | some c =>
    match (s.chain c).state, (s.chain c).position, (s.chain c).inFlight with
    | .running, some p, false => some (c, p)
    | _, _, _ => none
  | none => none

/-- R80: the boundary hold before injected work starts. -/
def State.boundaryHold (s : State) (l : Fin 4) : State :=
  match s.offered l with
  | some (c, p) => s.holdChain c l p .next
  | none => s

/-- R79: the head of the queue leaves it and becomes an injected exchange. Its entry is DEFINED, since it is in use (R6). -/
def State.startInjected (s : State) (l : Fin 4) (x : Injected) : State :=
  match s.entry x.entry with
  | some p =>
    (s.modLine l fun y => { y with queue := y.queue.tail }).startExchange l
      (newExchange p x.entry x.origin false x.merged false)
  | none => s

/-- R78: the five choices, in order. -/
def State.choose (s : State) (l : Fin 4) : State :=
  let x := s.line l
  match x.held, x.queue with
  | some h, [] => s.restore l h
  | some h, q :: _ => if x.heldCount = Config.heldLimit then s.restore l h else (s.boundaryHold l).startInjected l q
  | none, q :: _ => (s.boundaryHold l).startInjected l q
  | none, [] =>
    match s.offered l with
    | some (c, p) => s.startScan l c p false
    | none => s

/-- SCHEDULER_CHOICE (R77, R78): a free line with work makes its choice; a line that is not free makes none. -/
def execSchedulerChoice (l : Fin 4) (s : State) : Host.Outcome State Fault Refusal :=
  .next (if (s.line l).free then s.choose l else s)

end Sys2Proof.Machine
end

