-- ==== Sys2Proof/Machine/Engine.lean ====
section
/-! DEFINITION. The Line Engine (R19 to R34, R41) and listening (R135 to R138): what each event of a line does. -/

namespace Sys2Proof.Machine

/-! ### The end of an attempt -/

/-- R31: a failed attempt; another one begins in GAP-WAIT, or the exchange ends with this failure. -/
def State.failAttempt (s : State) (l : Fin 4) (ex : Exchange) (o : ExchOutcome) : State :=
  if ex.attempts < 1 + ex.copy.retries then
    s.modLine l fun x =>
      { x with engine := .gapWait, lnDe := false, replyTimer := .stopped
               exch := some { ex with attempts := ex.attempts + 1, sent := 0, kept := [] } }
  else s.fileEnd l ex o

/-! ### Sending -/

/-- R22, R25: the engine asserts LnDE, enters SENDING and starts the frame from LEAD. -/
def Line.startSending (x : Line) : Line :=
  { x with engine := .sending, lnDe := true, exch := x.exch.map fun ex => { ex with sent := 0 } }

/-- R22, R25: a wait of this many CT of silence is complete; no character may be arriving. -/
def Line.waitOver (x : Line) (state : EngineState) (ct silence : Nat) : Bool :=
  decide (x.engine = state) && !x.arriving && silenceReached silence ct

/-- GAP_WAIT_COMPLETE (R22). -/
def execGapWaitComplete (l : Fin 4) (silence : Nat) (s : State) : Host.Outcome State Fault Refusal :=
  .next (if (s.line l).waitOver .gapWait Config.gapWaitCT silence then s.modLine l Line.startSending else s)

/-- The collisions counted in the exchange in flight. -/
def Line.collisions (x : Line) : Nat :=
  match x.exch with
  | some ex => ex.collisions
  | none => 0

/-- BACKOFF_COMPLETE (R25). -/
def execBackoffComplete (l : Fin 4) (silence : Nat) (s : State) : Host.Outcome State Fault Refusal :=
  .next (if (s.line l).waitOver .backoff (Config.backoffCT (s.line l).collisions) silence then
      s.modLine l Line.startSending
    else s)

/-- R24: a collision; the driver is released, and the engine backs off or the exchange ends. -/
def State.collide (s : State) (l : Fin 4) (ex : Exchange) : State :=
  let ex1 := { ex with collisions := ex.collisions + 1 }
  if (s.line l).settings.collisionBudget < ex1.collisions then s.fileEnd l ex1 .collisionLimit
  else s.modLine l fun x => { x with engine := .backoff, lnDe := false, exch := some { ex1 with sent := 0 } }

/-- R26: the whole frame has gone out clean. -/
def State.frameSent (s : State) (l : Fin 4) (ex : Exchange) : State :=
  if ex.copy.station = 0 then s.fileEnd l ex .ok
  else
    s.modLine l fun x =>
      { x with engine := .awaiting, lnDe := false, replyTimer := .running s.count (ex.copy.timeout * 10)
               exch := some { ex with sent := ex.sent + 1, kept := [] } }

/-- R23, R24: the character being shifted out has ended and `readback` is what the receiver saw of it. -/
def State.judgeSent (s : State) (l : Fin 4) (ex : Exchange) (readback : Option LineChar) : State :=
  match ex.pendingEnd with
  | some o => s.fileEnd l ex o
  | none =>
    match (requestFrame ex.copy)[ex.sent]? with
    | none => s.frameSent l ex
    | some d =>
      if readback ≠ some (cleanChar d) then s.collide l ex
      else if ex.sent + 1 < (requestFrame ex.copy).length then
        s.modLine l fun x => { x with exch := some { ex with sent := ex.sent + 1 } }
      else s.frameSent l ex

/-- R19: what a receiver that waits for the idle level sees: no start bit. -/
def Line.seen (x : Line) (readback : Option LineChar) : Option LineChar := if x.waitIdle then none else readback

/-- R19: the receiver after a character: a stop-bit error makes it wait for the idle level. -/
def Line.received (x : Line) (c : LineChar) : Line := { x with arriving := false, waitIdle := !c.stop }

/-- R19: the receiver after the readback of a character. -/
def Line.readBack (x : Line) (readback : Option LineChar) : Line :=
  match readback with
  | some c => { x with waitIdle := !c.stop }
  | none => x

/-- CHARACTER_SENT (R23): only an engine in SENDING shifts a character out. -/
def execCharacterSent (l : Fin 4) (readback : Option LineChar) (s : State) : Host.Outcome State Fault Refusal :=
  .next (match (s.line l).engine, (s.line l).exch with
    | .sending, some ex =>
      (s.modLine l fun x => x.readBack (x.seen readback)).judgeSent l ex ((s.line l).seen readback)
    | _, _ => s)

/-! ### Receiving -/

/-- R30: a complete reply is checked for CHK, ADDR and reply limit, in that order. -/
def State.judgeReply (s : State) (l : Fin 4) (ex : Exchange) : State :=
  match ex.kept with
  | _ :: addr :: ctrl :: len :: rest =>
    let payload := rest.take len.toNat
    if rest.drop len.toNat ≠ crcBytes (addr :: ctrl :: len :: payload) then s.failAttempt l ex .badCheck
    else if addr ≠ ex.copy.station then s.failAttempt l ex .wrongStation
    else if ex.copy.replyLimit < len.toNat then s.fileEnd l ex .overlength
    else s.fileEnd l { ex with reply := some { control := ctrl, payload } } .ok
  | _ => s.failAttempt l ex .badFrame

/-- R28: LEN + 6 characters have been received. R21 says LEN + 6 too, and then "the sixth character after the last payload
character", which would be LEN + 10: this model's choice is LEN + 6 in all (log 23). -/
def replyComplete (kept : List Byte) : Bool :=
  match kept with
  | _ :: _ :: _ :: len :: _ => decide (len.toNat + 6 ≤ kept.length)
  | _ => false

/-- R29: the characters kept show a wrong first character or a LEN above 200. -/
def replyBroken (kept : List Byte) : Bool :=
  match kept with
  | [lead] => decide (lead ≠ Config.replyLead)
  | [_, _, _, len] => decide (Config.maxReplyLen < len.toNat)
  | _ => false

/-- R28, R29: a character of the reply. -/
def State.receiveReply (s : State) (l : Fin 4) (ex : Exchange) (c : LineChar) : State :=
  let ex1 := { ex with kept := ex.kept ++ [c.data] }
  if faultyChar c || replyBroken ex1.kept then s.failAttempt l { ex with kept := [] } .badFrame
  else if replyComplete ex1.kept then s.judgeReply l ex1
  else
    s.modLine l fun x => { x with engine := .receiving, replyTimer := .stopped, exch := some ex1 }

/-- R136: a character joins the capture block; the block closes when it reaches its size. -/
def State.captureChar (s : State) (l : Fin 4) (c : LineChar) : State :=
  let s1 := s.modLine l fun x =>
    { x with block := x.block ++ [c.data], blockParity := x.blockParity || faultyChar c }
  if (s1.line l).settings.blockSize.bytes ≤ (s1.line l).block.length then s1.closeBlock l else s1

/-- R41: a received character is judged by the state of the engine. -/
def State.judgeReceived (s : State) (l : Fin 4) (c : LineChar) : State :=
  match (s.line l).engine, (s.line l).exch with
  | .awaiting, some ex => s.receiveReply l ex c
  | .receiving, some ex => s.receiveReply l ex c
  | .listening, _ => s.captureChar l c
  | _, _ => s

/-- LINE_CHARACTER_RECEIVED (R41): LnDE is released, and the receiver is not waiting for the idle level (R19). -/
def execLineCharacterReceived (l : Fin 4) (c : LineChar) (s : State) : Host.Outcome State Fault Refusal :=
  .next (if (s.line l).waitIdle || (s.line l).lnDe then s
    else (s.modLine l fun x => x.received c).judgeReceived l c)

/-- R27: in AWAITING the first start bit stops the reply timer and the engine enters RECEIVING. In every state the silence
that is being counted stops until the character has ended (R22, R25, R28, R137). -/
def Line.startBit (x : Line) : Line :=
  if x.engine = .awaiting then { x with arriving := true, engine := .receiving, replyTimer := .stopped }
  else { x with arriving := true }

/-- START_BIT_DETECTED (R27): LnDE is released, and the receiver is not waiting for the idle level. This model's choice: a
start bit while LnDE is asserted leaves no mark, so the engine that then enters AWAITING stays there, its reply timer
running, until that character ends (R41, log 24). -/
def execStartBitDetected (l : Fin 4) (s : State) : Host.Outcome State Fault Refusal :=
  .next (if (s.line l).waitIdle || (s.line l).lnDe then s else s.modLine l Line.startBit)

/-- REPLY_TIMER_EXPIRY (R27): in AWAITING a timer that is due fails the attempt with NO-REPLY. -/
def execReplyTimerExpiry (l : Fin 4) (s : State) : Host.Outcome State Fault Refusal :=
  .next (match (s.line l).engine, (s.line l).exch with
    | .awaiting, some ex => if (s.line l).replyTimer.due s.count then s.failAttempt l ex .noReply else s
    | _, _ => s)

/-- GAP_LIMIT_EXPIRY (R29): in RECEIVING a silence that reaches the gap limit breaks reception off. -/
def execGapLimitExpiry (l : Fin 4) (silence : Nat) (s : State) : Host.Outcome State Fault Refusal :=
  .next (match (s.line l).exch with
    | some ex =>
      if (s.line l).waitOver .receiving (s.line l).settings.gapLimit silence then
        s.failAttempt l { ex with kept := [] } .badFrame
      else s
    | none => s)

/-- LNRX_RETURN_TO_IDLE_LEVEL (R19): start bits are detected again. -/
def execLnrxReturnToIdleLevel (l : Fin 4) (s : State) : Host.Outcome State Fault Refusal :=
  .next (s.modLine l fun x => { x with waitIdle := false })

/-- CAPTURE_IDLE_CLOSE (R137): an open block closes after 10 CT of idle time. -/
def execCaptureIdleClose (l : Fin 4) (silence : Nat) (s : State) : Host.Outcome State Fault Refusal :=
  .next (if (s.line l).waitOver .listening Config.captureIdleCT silence then s.closeBlock l else s)

end Sys2Proof.Machine
end

