-- ==== Sys2Proof/Machine/Lines.lean ====
section
/-! DEFINITION. Line power, settings and faults: the requests on a line and the events of its supply (R35, R88 to R102). -/

namespace Sys2Proof.Machine

/-! ### EXCHANGE-ABORT -/

/-- R35: EXCHANGE-ABORT. -/
def doExchangeAbort (line : Byte) (s : State) : State × List Byte :=
  match finOf 4 line with
  | none => (s, ResultCode.badArg.alone)
  | some l =>
    match (s.line l).exch with
    | none => (s, ResultCode.empty.alone)
    | some _ => (s.endOutside l .aborted, ResultCode.ok.alone)

/-! ### LINE-POWER and LINE-RESUME -/

/-- R98: the body of an accepted LINE-POWER: power state and demand set after the request. -/
def State.powerBody (s : State) (l : Fin 4) : List Byte :=
  [ResultCode.ok.code, (s.line l).power.code, (s.line l).demand.code]

/-- R98: the HOST demand enters the set; an OFF line enters SETTLING. -/
def State.hostDemand (s : State) (l : Fin 4) : State :=
  (s.modLine l fun x => { x with demand := { x.demand with host := true } }).powerUp l

/-- R98: LINE-POWER ON. -/
def State.linePowerOn (s : State) (l : Fin 4) : State × List Byte :=
  if (s.line l).power = .fault then (s, ResultCode.state.alone)
  else
    let t := s.hostDemand l
    (t, t.powerBody l)

/-- R99: a chain whose powered rounds field is no is active on the line, or a scan exchange of such a chain is in flight
there, judged by the field the chain had when it started (R59). -/
def State.nonPoweredWork (s : State) (l : Fin 4) : Bool :=
  (List.finRange 8).any (fun c => (s.chain c).active && (s.chain c).onLine l && !(s.chain c).isPowered) ||
    match (s.line l).exch with
    | some ex => ex.isScan && !ex.powered
    | none => false

/-- R62, R99: a FAULT line that goes OFF ends its active chain with chain fault LINE-FAULT. -/
def State.leaveFault (s : State) (l : Fin 4) : State :=
  let s1 := s.modLine l fun x => { x with power := .off }
  let s2 :=
    match s1.activeChain l with
    | some c => s1.chainFault c .lineFault
    | none => s1
  s2.settleDemand l

/-- R99: the HOST demand leaves the set. -/
def State.dropHost (s : State) (l : Fin 4) : State :=
  (s.modLine l fun x => { x with demand := { x.demand with host := false } }).withdraw l

/-- R99: LINE-POWER OFF. -/
def State.linePowerOff (s : State) (l : Fin 4) : State × List Byte :=
  match (s.line l).power with
  | .off => (s, s.powerBody l)
  | .fault =>
    let t := s.leaveFault l
    (t, t.powerBody l)
  | .settling =>
    if s.nonPoweredWork l then (s, ResultCode.busy.alone)
    else
      let t := s.dropHost l
      (t, t.powerBody l)
  | .on =>
    if s.nonPoweredWork l then (s, ResultCode.busy.alone)
    else
      let t := s.dropHost l
      (t, t.powerBody l)

/-- R98: LINE-POWER, by its direction, OFF 0 and ON 1. -/
def doLinePower (line direction : Byte) (s : State) : State × List Byte :=
  match finOf 4 line, boolOf direction with
  | some l, some true => s.linePowerOn l
  | some l, some false => s.linePowerOff l
  | _, _ => (s, ResultCode.badArg.alone)

/-- R97: the HOST demand enters the set, the ROUND demand is judged again, and the line enters SETTLING. -/
def State.resume (s : State) (l : Fin 4) : State :=
  ((s.modLine l fun x => { x with power := .settling, demand := { x.demand with host := true } }).syncRound l).enterSettling l

/-- R97: LINE-RESUME. -/
def doLineResume (line : Byte) (s : State) : State × List Byte :=
  match finOf 4 line with
  | none => (s, ResultCode.badArg.alone)
  | some l =>
    if (s.line l).power = .fault then (s.resume l, ResultCode.ok.alone) else (s, ResultCode.state.alone)

/-! ### LINE-SET and LINE-READ -/

/-- R101, step 2: the eight settings, if every one lies in its range. -/
def settingsOf (mode baud gapLimit collisionBudget settleSteps autoPower storeThreshold blockSize : Byte) :
    Option LineSettings :=
  match modeOf mode, baudOf baud, boolOf autoPower, blockSizeOf blockSize with
  | some m, some b, some a, some k =>
    if 2 ≤ gapLimit.toNat ∧ gapLimit.toNat ≤ 20 ∧ collisionBudget.toNat ≤ 7 ∧ 1 ≤ settleSteps.toNat ∧
        settleSteps.toNat ≤ 100 ∧ storeThreshold.toNat ≤ 32 then
      some { mode := m, baud := b, gapLimit := gapLimit.toNat, collisionBudget := collisionBudget.toNat,
             settleSteps := settleSteps.toNat, autoPower := a, storeThreshold := storeThreshold.toNat, blockSize := k }
    else none
  | _, _, _, _ => none

/-- R101, step 4, and R116: the settings are replaced and STORE-LEVEL is judged again. -/
def State.setSettings (s : State) (l : Fin 4) (x : LineSettings) : State :=
  (s.modLine l fun y => { y with settings := x }).judgeLevel l

/-- R101: LINE-SET. -/
def doLineSet (line mode baud gapLimit collisionBudget settleSteps autoPower storeThreshold blockSize : Byte) (s : State) :
    State × List Byte :=
  match finOf 4 line,
      settingsOf mode baud gapLimit collisionBudget settleSteps autoPower storeThreshold blockSize with
  | some l, some x =>
    if (s.line l).power ≠ .off ∨ (s.activeChain l).isSome then (s, ResultCode.busy.alone)
    else (s.setSettings l x, ResultCode.ok.alone)
  | _, _ => (s, ResultCode.badArg.alone)

/-- R165: the eight settings in the order of LINE-SET. -/
def LineSettings.bytes (x : LineSettings) : List Byte :=
  [x.mode.code, x.baud.code, natByte x.gapLimit, natByte x.collisionBudget, natByte x.settleSteps, boolByte x.autoPower,
   natByte x.storeThreshold, x.blockSize.code]

/-- R163, R165: the time left on the settle timer, all bits set when absent. -/
def timeLeft16 (t : Option Nat) : List Byte :=
  match t with
  | some n => le16 (BitVec.ofNat 16 n)
  | none => le16 (BitVec.allOnes 16)

/-- R38, R165: the exchange in flight; the seven bytes all read 0xFF when there is none. -/
def exchangeBytes (ex : Option Exchange) : List Byte :=
  match ex with
  | some ex =>
    [finByte ex.entry] ++ ex.origin.code ++
      [natByte ex.attempts, natByte ex.collisions, boolByte ex.restored, optByte (ex.pendingEnd.map ExchOutcome.code)]
  | none => List.replicate 7 absentByte

/-- R102: LINE-READ. -/
def doLineRead (line : Byte) (s : State) : State × List Byte :=
  match finOf 4 line with
  | none => (s, ResultCode.badArg.alone)
  | some l =>
    let x := s.line l
    let st := s.store l
    (s, [ResultCode.ok.code, finByte l] ++ x.settings.bytes ++ [x.power.code, x.demand.code] ++
      timeLeft16 (x.settleTimer.left s.count) ++ [boolByte x.lnOvl, x.engine.code] ++ exchangeBytes x.exch ++
      [optByte ((s.activeChain l).map finByte)] ++ heldBytes x.held ++ [natByte st.records.length] ++
      le16 (BitVec.ofNat 16 st.payloadBytes) ++ le16 st.nextSeq ++ [boolByte st.gapPending])

/-! ### Events of the supply -/

/-- R92, R39, R135: a line enters ON; its engine is IDLE, or LISTENING with an empty block. -/
def Line.enterOn (x : Line) : Line :=
  { x with power := .on, settleTimer := .stopped
           engine := if x.settings.mode = .listen then .listening else .idle
           block := [], blockParity := false }

/-- SETTLE_TIMER_EXPIRY (R91): a settle timer that is due moves the line from SETTLING to ON. -/
def execSettleTimerExpiry (l : Fin 4) (s : State) : Host.Outcome State Fault Refusal :=
  .next (if (s.line l).power = .settling ∧ (s.line l).settleTimer.due s.count then s.modLine l Line.enterOn else s)

/-- OVERLOAD (R93): LnOVL# takes this level; asserted on a line that is SETTLING or ON it is an overload. -/
def execOverload (l : Fin 4) (asserted : Bool) (s : State) : Host.Outcome State Fault Refusal :=
  let s1 := s.modLine l fun x => { x with lnOvl := asserted }
  .next (if asserted ∧ ((s.line l).power = .settling ∨ (s.line l).power = .on) then s1.faultHandling l else s1)

end Sys2Proof.Machine
end

