-- ==== Sys2Proof/Machine/Notices.lean ====
section
/-! DEFINITION. The Attention Unit's requests (R146, R147, R149). -/

namespace Sys2Proof.Machine

/-- R146: the pending set and the mask set. -/
def Attention.pendingByte (a : Attention) : Byte := classByte a.pending
def Attention.maskByte (a : Attention) : Byte := classByte a.isMasked

/-- R146: NOTICE. -/
def doNotice (s : State) : State × List Byte :=
  (s, [ResultCode.ok.code] ++
    (match s.attn.highest with
      | some c => finByte c.idx :: le32 (s.attn.set c)
      | none => absentByte :: le32 0) ++ [s.attn.pendingByte, s.attn.maskByte])

/-- R147: NOTICE-ACK. -/
def doNoticeAck (cls : Byte) (detail : Word) (s : State) : State × List Byte :=
  match classOf cls with
  | none => (s, ResultCode.badArg.alone)
  | some c =>
    if outsideRange c detail then (s, ResultCode.badArg.alone)
    else if c = .storeLevel then (s, ResultCode.badArg.alone)
    else
      let t := s.retract c detail
      (t, ResultCode.ok.code :: le32 (t.attn.set c))

/-- R149: the mask that a class set names. -/
def maskOf (set : Byte) : Vector Bool 7 := Vector.ofFn fun i => set.getLsbD i.val

/-- R149: the whole mask is replaced, and ATTN# judged again. -/
def State.setMask (s : State) (set : Byte) : State := s.setAttn { s.attn with masked := maskOf set }.judge

/-- R149: MASK-SET. -/
def doMaskSet (set : Byte) (s : State) : State × List Byte :=
  if set.toNat < 2 ^ 7 then
    let t := s.setMask set
    (t, [ResultCode.ok.code, t.attn.maskByte, t.attn.pendingByte])
  else (s, ResultCode.badArg.alone)

end Sys2Proof.Machine
end

