-- ==== Sys2Proof/Machine/Plan.lean ====
section
/-! DEFINITION. The Plan Table's requests and the in-use indications (R1, R6 to R10). -/

namespace Sys2Proof.Machine

/-- R6, first condition: an exchange of the entry is in flight on the entry's line. -/
def State.entryInFlight (s : State) (e : Fin 128) (l : Fin 4) : Bool :=
  match (s.line l).exch with
  | some ex => decide (ex.entry = e)
  | none => false

/-- R6, second condition: the held position of the entry's line names the entry. -/
def State.entryHeld (s : State) (e : Fin 128) (l : Fin 4) : Bool :=
  match (s.line l).held with
  | some h => decide (h.entry = e)
  | none => false

/-- R6, third condition: the injection queue of the entry's line holds a request for the entry. -/
def State.entryQueued (s : State) (e : Fin 128) (l : Fin 4) : Bool :=
  (s.line l).queue.any fun q => decide (q.entry = e)

/-- R6: the entry is in use. An UNUSED entry is on no line and in no use. -/
def State.inUse (s : State) (e : Fin 128) : Bool :=
  match s.entry e with
  | some p => s.entryInFlight e p.line || s.entryHeld e p.line || s.entryQueued e p.line
  | none => false

/-- R163: the link field, 0xFF for absent. -/
def linkByte (x : Option (Fin 128)) : Byte := optByte (x.map finByte)

/-- R1, R7: the link a byte gives: an entry, or absent. -/
def linkOf (b : Byte) : Option (Option (Fin 128)) := if b = absentByte then some none else (finOf 128 b).map some

/-- R7, step 3: the nine fields, if every one lies in its range. -/
def planEntryOf (line station control replyLimit timeout retries policy link : Byte) (payload : List Byte) :
    Option PlanEntry :=
  match finOf 4 line, policyOf policy, linkOf link with
  | some l, some p, some k =>
    if payload.length ≤ Config.maxEntryPayload ∧ station.toNat ≤ 250 ∧ 1 ≤ replyLimit.toNat ∧
        replyLimit.toNat ≤ Config.maxReplyLen ∧ 1 ≤ timeout.toNat ∧ retries.toNat ≤ 7 then
      some { line := l, station, control, payload, replyLimit := replyLimit.toNat, timeout := timeout.toNat,
             retries := retries.toNat, policy := p, link := k }
    else none
  | _, _, _ => none

/-- R7, steps 2 to 5: PLAN-WRITE. -/
def doPlanWrite (entry line station control replyLimit timeout retries policy link : Byte) (payload : List Byte)
    (s : State) : State × List Byte :=
  match finOf 128 entry, planEntryOf line station control replyLimit timeout retries policy link payload with
  | some e, some p =>
    if s.inUse e then (s, ResultCode.busy.alone) else (s.setEntry e (some p), ResultCode.ok.alone)
  | _, _ => (s, ResultCode.badArg.alone)

/-- R165: the nine fields as PLAN-WRITE lays them out, from line onward. -/
def PlanEntry.bytes (p : PlanEntry) : List Byte :=
  [finByte p.line, p.station, p.control, natByte p.replyLimit, natByte p.timeout, natByte p.retries, p.policy.code,
   linkByte p.link, natByte p.payload.length] ++ p.payload

/-- R9: PLAN-READ. -/
def doPlanRead (entry : Byte) (s : State) : State × List Byte :=
  match finOf 128 entry with
  | none => (s, ResultCode.badArg.alone)
  | some e =>
    match s.entry e with
    | none => (s, [ResultCode.ok.code, finByte e, definedCode (s.entry e), 0, 0, 0])
    | some p =>
      (s, [ResultCode.ok.code, finByte e, definedCode (s.entry e), boolByte (s.entryInFlight e p.line),
           boolByte (s.entryHeld e p.line), boolByte (s.entryQueued e p.line)] ++ p.bytes)

/-- R10: PLAN-ERASE. -/
def doPlanErase (entry : Byte) (s : State) : State × List Byte :=
  match finOf 128 entry with
  | none => (s, ResultCode.badArg.alone)
  | some e =>
    match s.entry e with
    | none => (s, ResultCode.noSuch.alone)
    | some _ => if s.inUse e then (s, ResultCode.busy.alone) else (s.setEntry e none, ResultCode.ok.alone)

end Sys2Proof.Machine
end

