-- ==== Sys2Proof/Machine/Rounds.lean ====
section
/-! DEFINITION. The Chain Controller's requests and the expiry of a round timer (R45 to R47, R56 to R59). -/

namespace Sys2Proof.Machine

/-- R45: CHAIN-SET. -/
def doChainSet (chain line head : Byte) (period : Half) (powered notify : Byte) (s : State) : State × List Byte :=
  match finOf 8 chain, finOf 4 line, finOf 128 head, boolOf powered, boolOf notify with
  | some c, some l, some h, some pw, some nt =>
    if (s.chain c).active then (s, ResultCode.busy.alone)
    else
      (s.setChain c (Chain.fresh (some { line := l, head := h, period, powered := pw, notify := nt })),
        ResultCode.ok.alone)
  | _, _, _, _, _ => (s, ResultCode.badArg.alone)

/-- R165: the static fields in a CHAIN-READ reply; when undefined, period 0 and the others 0xFF. -/
def chainDefBytes (d : Option ChainDef) : List Byte :=
  match d with
  | some d => [finByte d.line, finByte d.head] ++ le16 d.period ++ [boolByte d.powered, boolByte d.notify]
  | none => [absentByte, absentByte] ++ le16 0 ++ [absentByte, absentByte]

/-- R46: the held position that stands for a HELD chain. -/
def State.holdOf (s : State) (c : Fin 8) : Option Held :=
  match (s.chain c).state, (s.chain c).defn with
  | .held, some d => (s.line d.line).held
  | _, _ => none

/-- R46: the position a CHAIN-READ shows and, in HELD, its reason. -/
def State.positionBytes (s : State) (c : Fin 8) : List Byte :=
  match (s.chain c).state with
  | .held =>
    match s.holdOf c with
    | some h => [finByte h.entry, h.reason.code]
    | none => [absentByte, absentByte]
  | .running => [optByte ((s.chain c).position.map finByte), absentByte]
  | .stopping => [optByte ((s.chain c).position.map finByte), absentByte]
  | .idle => [absentByte, absentByte]
  | .armed => [absentByte, absentByte]

/-- R163: a 32-bit remaining time, all bits set when absent. -/
def timeLeft32 (t : Option Nat) : List Byte :=
  match t with
  | some n => le32 (BitVec.ofNat 32 n)
  | none => le32 (BitVec.allOnes 32)

/-- R46: CHAIN-READ. -/
def doChainRead (chain : Byte) (s : State) : State × List Byte :=
  match finOf 8 chain with
  | none => (s, ResultCode.badArg.alone)
  | some c =>
    let ch := s.chain c
    (s, [ResultCode.ok.code, finByte c, definedCode ch.defn] ++ chainDefBytes ch.defn ++ [ch.state.code] ++
      s.positionBytes c ++ [boolByte ch.inFlight, natByte ch.taken] ++ le16 ch.rounds ++
      [natByte ch.late, boolByte ch.roundDue] ++ timeLeft32 (ch.timer.left s.count) ++ [ch.reason.code])

/-- R47, step 4: the line as it stands does not let the chain start. -/
def startBarred (d : ChainDef) (x : Line) : Bool :=
  decide (x.settings.mode = .listen) || decide (x.power = .fault) || (!d.powered && decide (x.power = .off))

/-- R47: a round starts at once, with the counters and the reason cleared; the line follows its demand set. -/
def State.startChain (s : State) (c : Fin 8) (l : Fin 4) : State :=
  ((s.modChain c fun ch => { ch with rounds := 0, late := 0, reason := .none }).roundStart c).settleDemand l

/-- R47: CHAIN-START. -/
def doChainStart (chain : Byte) (s : State) : State × List Byte :=
  match finOf 8 chain with
  | none => (s, ResultCode.badArg.alone)
  | some c =>
    match (s.chain c).defn with
    | none => (s, ResultCode.noSuch.alone)
    | some d =>
      if (s.chain c).active || (s.activeChain d.line).isSome then (s, ResultCode.busy.alone)
      else if startBarred d (s.line d.line) then (s, ResultCode.state.alone)
      else (s.startChain c d.line, ResultCode.ok.alone)

/-- R58, R49: a chain goes IDLE at once, any held position of it being discarded, and its line follows its demand set. -/
def State.idleChain (s : State) (c : Fin 8) : State :=
  let s1 := (s.dropHold c).modChain c Chain.toIdle
  match (s.chain c).defn with
  | some d => s1.settleDemand d.line
  | none => s1

/-- R58: a stop by the chain's state. -/
def State.stopChain (s : State) (c : Fin 8) : State :=
  match (s.chain c).state with
  | .running => if (s.chain c).inFlight then s.modChain c fun ch => { ch with state := .stopping } else s.idleChain c
  | .held => s.idleChain c
  | .armed => s.idleChain c
  | .stopping => s
  | .idle => s

/-- R58: CHAIN-STOP. -/
def doChainStop (chain : Byte) (s : State) : State × List Byte :=
  match finOf 8 chain with
  | none => (s, ResultCode.badArg.alone)
  | some c => (s.stopChain c, ResultCode.ok.alone)

/-- R51, R59: the exchange in flight of this chain is marked as one whose chain CHAIN-ABORT has set IDLE. -/
def State.orphanExchange (s : State) (c : Fin 8) (l : Fin 4) : State :=
  s.modLine l fun x =>
    { x with exch := x.exch.map fun ex => if ex.origin = .chain c then { ex with orphan := true } else ex }

/-- R59: the chain goes IDLE at once and its exchange is ended ABORTED under R34; otherwise as CHAIN-STOP. -/
def State.abortChain (s : State) (c : Fin 8) : State :=
  match (s.chain c).inFlight, (s.chain c).defn with
  | true, some d =>
    (((s.orphanExchange c d.line).modChain c Chain.toIdle).endOutside d.line .aborted).settleDemand d.line
  | _, _ => s.stopChain c

/-- R59: CHAIN-ABORT. -/
def doChainAbort (chain : Byte) (s : State) : State × List Byte :=
  match finOf 8 chain with
  | none => (s, ResultCode.badArg.alone)
  | some c => (s.abortChain c, ResultCode.ok.alone)

/-- R56: an expiry that is taken, by the chain's state. -/
def State.roundExpiry (s : State) (c : Fin 8) : State :=
  let s1 := s.modChain c fun ch => { ch with timer := .expired }
  match (s.chain c).state with
  | .armed =>
    match (s.chain c).defn with
    | some d => (s1.roundStart c).settleDemand d.line
    | none => s1
  | .running => s1.modChain c fun ch => { ch with roundDue := true }
  | .held => s1.modChain c fun ch => { ch with roundDue := true }
  | .stopping => s1
  | .idle => s1

/-- ROUND_TIMER_EXPIRY (R56): a round timer that is due expires. -/
def execRoundTimerExpiry (c : Fin 8) (s : State) : Host.Outcome State Fault Refusal :=
  .next (if (s.chain c).timer.due s.count then s.roundExpiry c else s)

end Sys2Proof.Machine
end

