-- ==== Sys2Proof/Machine/Watches.lean ====
section
/-! DEFINITION. The Watch Unit's requests (R119 to R124). -/

namespace Sys2Proof.Machine

/-- R119, R121: the action that a code and the bytes target and level give, if they are in range. -/
def actionOf (code : Byte) (injection : Option (Byte × Byte)) : Option WatchAction :=
  match injection with
  | none => if code = 0 then some .none else if code = 1 then some .notice else none
  | some (t, v) =>
    match finOf 128 t, levelOf v with
    | some target, some level =>
      if code = 2 then some (.inject target level) else if code = 3 then some (.noticeInject target level) else none
    | _, _ => none

/-- R121, steps 3 and 4: the watch as WATCH-WRITE leaves it, if every field lies in its range and the low limit is not
greater than the high limit. -/
def watchOf (entry offset startBit width signed : Byte) (low high : Word) (hysteresis : Half) (action : Byte)
    (injection : Option (Byte × Byte)) : Option Watch :=
  match finOf 128 entry, boolOf signed, actionOf action injection with
  | some e, some sg, some a =>
    if offset.toNat ≤ 199 ∧ startBit.toNat ≤ 7 ∧ 1 ≤ width.toNat ∧ width.toNat ≤ 32 ∧
        readNumber sg low ≤ readNumber sg high then
      some { entry := e, offset := offset.toNat, startBit := startBit.toNat, width := width.toNat, signed := sg, low, high,
             hysteresis, action := a, zone := .unknown, value := 0, valueTime := 0, status := .never,
             lastAction := .none }
    else none
  | _, _, _ => none

/-- R121, steps 2 to 5: WATCH-WRITE. -/
def doWatchWrite (watch entry offset startBit width signed : Byte) (low high : Word) (hysteresis : Half) (action : Byte)
    (injection : Option (Byte × Byte)) (s : State) : State × List Byte :=
  match finOf 32 watch, watchOf entry offset startBit width signed low high hysteresis action injection with
  | some w, some x => (s.setWatch w (some x), ResultCode.ok.alone)
  | _, _ => (s, ResultCode.badArg.alone)

/-- R163: target and level, 0xFF when the action does not include INJECT. -/
def WatchAction.targetBytes : WatchAction → List Byte
  | .none => [absentByte, absentByte]
  | .notice => [absentByte, absentByte]
  | .inject t v => [finByte t, v.code]
  | .noticeInject t v => [finByte t, v.code]

/-- R165: the 16 bytes of WATCH-WRITE from entry to action, then target and level. -/
def Watch.defBytes (x : Watch) : List Byte :=
  [finByte x.entry, natByte x.offset, natByte x.startBit, natByte x.width, boolByte x.signed] ++ le32 x.low ++ le32 x.high ++
    le16 x.hysteresis ++ [x.action.code] ++ x.action.targetBytes

/-- R163: the definition fields of an UNUSED watch: 0xFF where the range does not reach it, 0 for the limits and the
hysteresis. -/
def noWatchBytes : List Byte :=
  List.replicate 5 absentByte ++ le32 0 ++ le32 0 ++ le16 0 ++ List.replicate 3 absentByte

/-- R122: WATCH-READ. -/
def doWatchRead (watch : Byte) (s : State) : State × List Byte :=
  match finOf 32 watch with
  | none => (s, ResultCode.badArg.alone)
  | some w =>
    match s.watch w with
    | some x =>
      (s, [ResultCode.ok.code, finByte w, definedCode (s.watch w)] ++ x.defBytes ++ [x.zone.code] ++ le32 x.value ++
        le32 x.valueTime ++ [x.status.code, x.lastAction.code])
    | none =>
      (s, [ResultCode.ok.code, finByte w, definedCode (s.watch w)] ++ noWatchBytes ++ [Zone.unknown.code] ++ le32 0 ++
        le32 0 ++ [WatchStatus.never.code, ActionResult.none.code])

/-- R123: WATCH-ERASE. -/
def doWatchErase (watch : Byte) (s : State) : State × List Byte :=
  match finOf 32 watch with
  | none => (s, ResultCode.badArg.alone)
  | some w =>
    match s.watch w with
    | none => (s, ResultCode.noSuch.alone)
    | some _ => (s.setWatch w none, ResultCode.ok.alone)

/-- R124: one watch in a VALUES-READ reply. -/
def valueBytes (x : Option Watch) : List Byte :=
  match x with
  | some x => [x.status.code, x.zone.code] ++ le32 x.value ++ le32 x.valueTime
  | none => [WatchStatus.never.code, Zone.unknown.code] ++ le32 0 ++ le32 0

/-- R124: VALUES-READ. -/
def doValuesRead (first count : Byte) (s : State) : State × List Byte :=
  if 1 ≤ count.toNat ∧ count.toNat ≤ 24 ∧ first.toNat + count.toNat ≤ 32 then
    (s, [ResultCode.ok.code, first, count] ++
      ((s.watches.toList.drop first.toNat).take count.toNat).flatMap valueBytes)
  else (s, ResultCode.badArg.alone)

end Sys2Proof.Machine
end

