-- ==== Sys2Proof/Machine/Link.lean ====
section
/-! DEFINITION. The Link Port (R151 to R160): taking a request and sending its reply, the request slot, the receiver, and
the two resets. -/

namespace Sys2Proof.Machine

/-! ### Taking a request -/

/-- R158: IDENT. -/
def doIdent (s : State) : State × List Byte :=
  (s, [ResultCode.ok.code] ++ le16 Config.vendorCode ++ le16 Config.partCode ++
    [Config.siliconIssue, s.link.resetCause.code, boolByte s.link.highSpeed] ++ le32 s.count ++
    [4, 128, 8, 32, natByte Config.queueCapacity, natByte Config.recordCapacity] ++
    le16 (BitVec.ofNat 16 Config.payloadCapacity))

/-- R156, step 3: the block that owns the request processes it and gives the reply body. RESTART's reply is OK (R159). -/
def process (r : Request) (s : State) : State × List Byte :=
  match r with
  | .ident => doIdent s
  | .restart => (s, ResultCode.ok.alone)
  | .notice => doNotice s
  | .noticeAck c d => doNoticeAck c d s
  | .maskSet m => doMaskSet m s
  | .lineSet l m b g c t a h k => doLineSet l m b g c t a h k s
  | .lineRead l => doLineRead l s
  | .linePower l d => doLinePower l d s
  | .lineResume l => doLineResume l s
  | .exchangeAbort l => doExchangeAbort l s
  | .planWrite e l st ct rl tm re po lk p => doPlanWrite e l st ct rl tm re po lk p s
  | .planRead e => doPlanRead e s
  | .planErase e => doPlanErase e s
  | .chainSet c l h p pw nt => doChainSet c l h p pw nt s
  | .chainRead c => doChainRead c s
  | .chainStart c => doChainStart c s
  | .chainStop c => doChainStop c s
  | .chainAbort c => doChainAbort c s
  | .ask e v => doAsk e v s
  | .askCancel e => doAskCancel e s
  | .queueRead l => doQueueRead l s
  | .fetch l r => doFetch l r s
  | .release l q => doRelease l q s
  | .storeClear l => doStoreClear l s
  | .watchWrite w e o sb wd sg lo hi hy a i => doWatchWrite w e o sb wd sg lo hi hy a i s
  | .watchRead w => doWatchRead w s
  | .watchErase w => doWatchErase w s
  | .valuesRead f n => doValuesRead f n s

/-- R157, R164: a reply frame carries the request's KIND plus 0x80, modulo 256, and its TAG. -/
def replyFrame (m : Message) (body : List Byte) : List Byte := hostFrame (m.kind + 0x80) m.tag body

/-- R156, R157: the reply is built and the transmitter starts sending it. -/
def State.startReply (s : State) (m : Message) (body : List Byte) (restart : Bool) : State :=
  s.setLink { s.link with transmitter := .sending (replyFrame m body) restart }

/-- R156: what a message asks for: its kind is checked, then the length of its body. -/
inductive Parsed where
  | unknownKind
  | badLength
  | request (r : Request)
deriving DecidableEq, Repr

def parse (m : Message) : Parsed :=
  match kindOf m.kind with
  | none => .unknownKind
  | some k =>
    match parseBody k m.body with
    | none => .badLength
    | some r => .request r

/-- R156: a request is taken; the part processes it and starts its reply. -/
def takeRequest (m : Message) (s : State) : State :=
  match parse m with
  | .unknownKind => s.startReply m ResultCode.unknownKind.alone false
  | .badLength => s.startReply m ResultCode.badLength.alone false
  | .request r =>
    let t := process r s
    t.1.startReply m t.2 (decide (r = .restart))

/-- R155: a complete request is handed to the request slot: taken at once, placed, or discarded with OVERRUN. The slot is
never FULL while the transmitter is IDLE. R160: while RST# is asserted nothing is received, so no request arrives. -/
def handOver (m : Message) (s : State) : State :=
  if s.link.rstHeld then s
  else
    match s.link.transmitter with
    | .idle => takeRequest m s
    | .sending _ _ =>
      match s.link.slot with
      | none => s.setLink { s.link with slot := some m }
      | some _ => s.raise .linkError LinkError.overrun.member

/-! ### The receiver -/

/-- R153: the timer of 10 ms, from now. -/
def State.rxTimerNow (s : State) : Timer := .running s.count Config.hostTimeoutMs

/-- The receiver goes to a state inside a frame, the timer starting again. -/
def State.rxGoOn (s : State) (r : Receiver) : State := s.setLink { s.link with receiver := r, rxTimer := s.rxTimerNow }

/-- The receiver goes back to SEARCH, the timer stopped. -/
def State.rxSearch (s : State) : State := s.setLink { s.link with receiver := .search, rxTimer := .stopped }

/-- R154: a frame is complete: `kept` holds KIND, TAG, BODY and the two CRC bytes. -/
def frameComplete (len : Byte) (kept : List Byte) (s : State) : State :=
  let content := kept.take len.toNat
  if kept.drop len.toNat ≠ crcBytes (len :: content) then s.rxSearch.raise .linkError LinkError.badCheck.member
  else
    match content with
    | kind :: tag :: body => handOver { kind, tag, body } s.rxSearch
    | _ => s.rxSearch

/-- R152: a received character is judged by the receive state. -/
def judgeHostChar (b : Byte) (s : State) : State :=
  match s.link.receiver with
  | .search => if b = Config.hostLead then s.rxGoOn .length else s
  | .length =>
    if 2 ≤ b.toNat ∧ b.toNat ≤ 250 then s.rxGoOn (.collect b [])
    else s.rxSearch.raise .linkError LinkError.badLength.member
  | .collect len kept =>
    if len.toNat + 2 ≤ (kept ++ [b]).length then frameComplete len (kept ++ [b]) s
    else s.rxGoOn (.collect len (kept ++ [b]))

/-- R151, R160: no start bit is detected on HRX while the receiver waits for the idle level or RST# is asserted. -/
def LinkPort.deaf (k : LinkPort) : Bool := k.waitIdle || k.rstHeld

/-- R153: a start bit on HRX stops the timer; the end of its character starts it again, if the frame goes on. -/
def State.rxStartBit (s : State) : State := s.setLink { s.link with rxTimer := .stopped }

/-- HOST_CHARACTER_RECEIVED (R151 to R153): its start bit stops the timer; at its stop bit the character is judged. One with
a low stop bit is taken all the same, and the receiver then waits for the idle level. -/
def execHostCharacterReceived (data : Byte) (moment : CharMoment) (s : State) : Host.Outcome State Fault Refusal :=
  .next (if s.link.deaf then s
    else
      match moment with
      | .startBit => s.rxStartBit
      | .stopBit high => judgeHostChar data (s.setLink { s.link with waitIdle := !high }))

/-- HRX_RETURN_TO_IDLE_LEVEL (R151): start bits are detected again. -/
def execHrxReturnToIdleLevel (s : State) : Host.Outcome State Fault Refusal :=
  .next (s.setLink { s.link with waitIdle := false })

/-- R153: the receiver is inside a frame. -/
def Receiver.inFrame : Receiver → Bool
  | .search => false
  | .length => true
  | .collect _ _ => true

/-- HOST_TIMEOUT (R153): inside a frame a timer that is due discards it. -/
def execHostTimeout (s : State) : Host.Outcome State Fault Refusal :=
  .next (if s.link.receiver.inFrame && s.link.rxTimer.due s.count then
      s.rxSearch.raise .linkError LinkError.timeout.member
    else s)

/-! ### Resets -/

/-- R134: a watch after RESTART. -/
def restartWatch (x : Option Watch) : Option Watch := x.map Watch.fresh

/-- R40, R87, R103, R141: a line after RESTART. Its settings stay, and so do the level of LnOVL# and what the receiver on
LnRX is waiting for (log 7). -/
def Line.restarted (x : Line) : Line :=
  { Line.fresh x.settings x.lnOvl with arriving := x.arriving, waitIdle := x.waitIdle }

/-- R159: every block enters its RESTART state, all at once. -/
def State.restarted (s : State) : State :=
  { count := 0
    link := { LinkPort.fresh s.link.waitIdle s.link.highSpeed .restart with rstHeld := s.link.rstHeld }
    plan := s.plan
    chains := Vector.ofFn fun c => Chain.fresh (s.chain c).defn
    lines := Vector.ofFn fun l => (s.line l).restarted
    stores := Vector.replicate 4 Store.empty
    watches := Vector.ofFn fun w => restartWatch (s.watch w)
    attn := Attention.fresh
    pending := s.pending }

/-- R159: the end of the RESTART reply is the restart; no other reply is one. -/
def State.restartIfDue (s : State) : State :=
  match s.link.transmitter with
  | .sending _ true => s.restarted
  | .sending _ false => s
  | .idle => s

/-- PART_RESTART (R159): the stop bit of the last character of RESTART's reply. -/
def execPartRestart (s : State) : Host.Outcome State Fault Refusal := .next s.restartIfDue

/-- R160: every block enters its power-on reset state. LnOVL# is an input and keeps its level. -/
def State.resetTo (s : State) (spdHigh : Bool) : State :=
  State.powerOn spdHigh (Vector.ofFn fun l => (s.line l).lnOvl) s.pending

/-- R160: RST# is asserted: a reply stops, a waiting request is lost and every output is at its idle or released level, as it is
in the state of the release (log 20). SPD is not read. -/
def State.resetHeld (s : State) : State :=
  let t := s.resetTo s.link.highSpeed
  t.setLink { t.link with rstHeld := true }

/-- POWER_ON_RESET (R160): the assertion of RST# holds the part; its release, or the supply coming up, reads SPD and starts it.
A RST# that is not asserted is not released. -/
def execPowerOnReset (event : ResetEvent) (s : State) : Host.Outcome State Fault Refusal :=
  .next (match event with
    | .rstAsserted => s.resetHeld
    | .rstReleased spdHigh => if s.link.rstHeld then s.resetTo spdHigh else s
    | .supplyUp spdHigh => s.resetTo spdHigh)

/-- R155: the transmitter has finished a reply: it takes the request in the slot, or becomes IDLE. -/
def State.nextRequest (s : State) : State :=
  match s.link.slot with
  | some m => takeRequest m (s.setLink { s.link with slot := none, transmitter := .idle })
  | none => s.setLink { s.link with transmitter := .idle }

/-- REPLY_END (R155): the end of a reply; the end of RESTART's reply is the restart (R159). -/
def execReplyEnd (s : State) : Host.Outcome State Fault Refusal :=
  .next (match s.link.transmitter with
    | .idle => s
    | .sending _ true => s.restartIfDue
    | .sending _ false => s.nextRequest)

/-- TIME_BASE_INCREMENT (R63). -/
def execTimeBaseIncrement (s : State) : Host.Outcome State Fault Refusal := .next { s with count := s.count + 1 }

end Sys2Proof.Machine
end

