-- ==== Sys2Proof/Machine/Commands.lean ====
section
/-! DEFINITION. The host requests of the opcode table. Each is one complete request frame handed to the Link Port (R155, log 2):
with the transmitter IDLE it is taken at once (R156) and processed by its block; while a reply is being sent it waits in the
slot, or is discarded with OVERRUN. The body is laid out as R165 gives it. -/

namespace Sys2Proof.Machine

/-- R165: target and level, carried only with INJECT. -/
def injectionBytes (i : Option (Byte × Byte)) : List Byte :=
  match i with
  | some (t, v) => [t, v]
  | none => []

/-- A request of a known kind, handed over. -/
def submit (k : Kind) (tag : Byte) (body : List Byte) (s : State) : Host.Outcome State Fault Refusal :=
  .next (handOver { kind := k.code, tag, body } s)

/-- IDENT (R158): the Link Port hands it to `doIdent`. -/
def execIdent (tag : Byte) (s : State) : Host.Outcome State Fault Refusal :=
  submit .ident tag [] s

/-- RESTART (R159, the request): the Link Port hands it to `process`. -/
def execRestart (tag : Byte) (s : State) : Host.Outcome State Fault Refusal :=
  submit .restart tag [] s

/-- NOTICE (R146): the Link Port hands it to `doNotice`. -/
def execNotice (tag : Byte) (s : State) : Host.Outcome State Fault Refusal :=
  submit .notice tag [] s

/-- NOTICE_ACK (R147): the Link Port hands it to `doNoticeAck`. -/
def execNoticeAck (tag cls : Byte) (detail : Word) (s : State) : Host.Outcome State Fault Refusal :=
  submit .noticeAck tag (cls :: le32 detail) s

/-- MASK_SET (R149): the Link Port hands it to `doMaskSet`. -/
def execMaskSet (tag set : Byte) (s : State) : Host.Outcome State Fault Refusal :=
  submit .maskSet tag [set] s

/-- LINE_SET (R101): the Link Port hands it to `doLineSet`. -/
def execLineSet (tag line mode baud gapLimit collisionBudget settleSteps autoPower storeThreshold blockSize : Byte)
    (s : State) : Host.Outcome State Fault Refusal :=
  submit .lineSet tag [line, mode, baud, gapLimit, collisionBudget, settleSteps, autoPower, storeThreshold, blockSize] s

/-- LINE_READ (R102): the Link Port hands it to `doLineRead`. -/
def execLineRead (tag line : Byte) (s : State) : Host.Outcome State Fault Refusal :=
  submit .lineRead tag [line] s

/-- LINE_POWER_ON (R98, direction ON): the Link Port hands it to `doLinePower`. -/
def execLinePowerOn (tag line : Byte) (s : State) : Host.Outcome State Fault Refusal :=
  submit .linePower tag [line, 1] s

/-- LINE_POWER_OFF (R99, direction OFF): the Link Port hands it to `doLinePower`. -/
def execLinePowerOff (tag line : Byte) (s : State) : Host.Outcome State Fault Refusal :=
  submit .linePower tag [line, 0] s

/-- LINE_RESUME (R97): the Link Port hands it to `doLineResume`. -/
def execLineResume (tag line : Byte) (s : State) : Host.Outcome State Fault Refusal :=
  submit .lineResume tag [line] s

/-- EXCHANGE_ABORT (R35): the Link Port hands it to `doExchangeAbort`. -/
def execExchangeAbort (tag line : Byte) (s : State) : Host.Outcome State Fault Refusal :=
  submit .exchangeAbort tag [line] s

/-- PLAN_WRITE (R7): the Link Port hands it to `doPlanWrite`. -/
def execPlanWrite (tag entry line station control replyLimit timeout retries policy link declared : Byte)
    (payload : List Byte) (s : State) : Host.Outcome State Fault Refusal :=
  submit .planWrite tag (entry :: line :: station :: control :: replyLimit :: timeout :: retries :: policy :: link :: declared :: payload) s

/-- PLAN_READ (R9): the Link Port hands it to `doPlanRead`. -/
def execPlanRead (tag entry : Byte) (s : State) : Host.Outcome State Fault Refusal :=
  submit .planRead tag [entry] s

/-- PLAN_ERASE (R10): the Link Port hands it to `doPlanErase`. -/
def execPlanErase (tag entry : Byte) (s : State) : Host.Outcome State Fault Refusal :=
  submit .planErase tag [entry] s

/-- CHAIN_SET (R45): the Link Port hands it to `doChainSet`. -/
def execChainSet (tag chain line head : Byte) (period : Half) (powered notify : Byte)
    (s : State) : Host.Outcome State Fault Refusal :=
  submit .chainSet tag ([chain, line, head] ++ le16 period ++ [powered, notify]) s

/-- CHAIN_READ (R46): the Link Port hands it to `doChainRead`. -/
def execChainRead (tag chain : Byte) (s : State) : Host.Outcome State Fault Refusal :=
  submit .chainRead tag [chain] s

/-- CHAIN_START (R47): the Link Port hands it to `doChainStart`. -/
def execChainStart (tag chain : Byte) (s : State) : Host.Outcome State Fault Refusal :=
  submit .chainStart tag [chain] s

/-- CHAIN_STOP (R58): the Link Port hands it to `doChainStop`. -/
def execChainStop (tag chain : Byte) (s : State) : Host.Outcome State Fault Refusal :=
  submit .chainStop tag [chain] s

/-- CHAIN_ABORT (R59): the Link Port hands it to `doChainAbort`. -/
def execChainAbort (tag chain : Byte) (s : State) : Host.Outcome State Fault Refusal :=
  submit .chainAbort tag [chain] s

/-- ASK (R69 to R71): the Link Port hands it to `doAsk`. -/
def execAsk (tag entry level : Byte) (s : State) : Host.Outcome State Fault Refusal :=
  submit .ask tag [entry, level] s

/-- ASK_CANCEL (R74): the Link Port hands it to `doAskCancel`. -/
def execAskCancel (tag entry : Byte) (s : State) : Host.Outcome State Fault Refusal :=
  submit .askCancel tag [entry] s

/-- QUEUE_READ (R76): the Link Port hands it to `doQueueRead`. -/
def execQueueRead (tag line : Byte) (s : State) : Host.Outcome State Fault Refusal :=
  submit .queueRead tag [line] s

/-- FETCH (R112, release no): the Link Port hands it to `doFetch`. -/
def execFetch (tag line : Byte) (s : State) : Host.Outcome State Fault Refusal :=
  submit .fetch tag [line, 0] s

/-- FETCH_WITH_RELEASE (R112, release yes): the Link Port hands it to `doFetch`. -/
def execFetchWithRelease (tag line : Byte) (s : State) : Host.Outcome State Fault Refusal :=
  submit .fetch tag [line, 1] s

/-- RELEASE (R113): the Link Port hands it to `doRelease`. -/
def execRelease (tag line : Byte) (sequence : Half) (s : State) : Host.Outcome State Fault Refusal :=
  submit .release tag (line :: le16 sequence) s

/-- STORE_CLEAR (R114): the Link Port hands it to `doStoreClear`. -/
def execStoreClear (tag line : Byte) (s : State) : Host.Outcome State Fault Refusal :=
  submit .storeClear tag [line] s

/-- WATCH_WRITE (R121): the Link Port hands it to `doWatchWrite`. -/
def execWatchWrite (tag watch entry offset startBit width signed : Byte) (low high : Word) (hysteresis : Half) (action : Byte)
    (injection : Option (Byte × Byte)) (s : State) : Host.Outcome State Fault Refusal :=
  submit .watchWrite tag ([watch, entry, offset, startBit, width, signed] ++ le32 low ++ le32 high ++ le16 hysteresis ++ [action] ++ injectionBytes injection) s

/-- WATCH_READ (R122): the Link Port hands it to `doWatchRead`. -/
def execWatchRead (tag watch : Byte) (s : State) : Host.Outcome State Fault Refusal :=
  submit .watchRead tag [watch] s

/-- WATCH_ERASE (R123): the Link Port hands it to `doWatchErase`. -/
def execWatchErase (tag watch : Byte) (s : State) : Host.Outcome State Fault Refusal :=
  submit .watchErase tag [watch] s

/-- VALUES_READ (R124): the Link Port hands it to `doValuesRead`. -/
def execValuesRead (tag first count : Byte) (s : State) : Host.Outcome State Fault Refusal :=
  submit .valuesRead tag [first, count] s

/-- UNKNOWN_KIND (R156, step 1). -/
def execUnknownKind (kind tag : Byte) (body : List Byte) (s : State) : Host.Outcome State Fault Refusal :=
  .next (handOver { kind, tag, body } s)

end Sys2Proof.Machine
end

