-- ==== Sys2Proof/Machine/Dispatch.lean ====
section
/-! DEFINITION. One arm a command. -/

namespace Sys2Proof.Machine

def exec (i : Instr) (s : State) : Host.Outcome State Fault Refusal :=
  match i with
  | .ident tag => Sys2Proof.Machine.execIdent tag s
  | .restart tag => Sys2Proof.Machine.execRestart tag s
  | .partRestart => Sys2Proof.Machine.execPartRestart s
  | .powerOnReset event => Sys2Proof.Machine.execPowerOnReset event s
  | .notice tag => Sys2Proof.Machine.execNotice tag s
  | .noticeAck tag cls detail => Sys2Proof.Machine.execNoticeAck tag cls detail s
  | .maskSet tag set => Sys2Proof.Machine.execMaskSet tag set s
  | .lineSet tag line mode baud gapLimit collisionBudget settleSteps autoPower storeThreshold blockSize => Sys2Proof.Machine.execLineSet tag line mode baud gapLimit collisionBudget settleSteps autoPower storeThreshold blockSize s
  | .lineRead tag line => Sys2Proof.Machine.execLineRead tag line s
  | .linePowerOn tag line => Sys2Proof.Machine.execLinePowerOn tag line s
  | .linePowerOff tag line => Sys2Proof.Machine.execLinePowerOff tag line s
  | .lineResume tag line => Sys2Proof.Machine.execLineResume tag line s
  | .exchangeAbort tag line => Sys2Proof.Machine.execExchangeAbort tag line s
  | .planWrite tag entry line station control replyLimit timeout retries policy link declared payload => Sys2Proof.Machine.execPlanWrite tag entry line station control replyLimit timeout retries policy link declared payload s
  | .planRead tag entry => Sys2Proof.Machine.execPlanRead tag entry s
  | .planErase tag entry => Sys2Proof.Machine.execPlanErase tag entry s
  | .chainSet tag chain line head period powered notify => Sys2Proof.Machine.execChainSet tag chain line head period powered notify s
  | .chainRead tag chain => Sys2Proof.Machine.execChainRead tag chain s
  | .chainStart tag chain => Sys2Proof.Machine.execChainStart tag chain s
  | .chainStop tag chain => Sys2Proof.Machine.execChainStop tag chain s
  | .chainAbort tag chain => Sys2Proof.Machine.execChainAbort tag chain s
  | .ask tag entry level => Sys2Proof.Machine.execAsk tag entry level s
  | .askCancel tag entry => Sys2Proof.Machine.execAskCancel tag entry s
  | .queueRead tag line => Sys2Proof.Machine.execQueueRead tag line s
  | .fetch tag line => Sys2Proof.Machine.execFetch tag line s
  | .fetchWithRelease tag line => Sys2Proof.Machine.execFetchWithRelease tag line s
  | .release tag line sequence => Sys2Proof.Machine.execRelease tag line sequence s
  | .storeClear tag line => Sys2Proof.Machine.execStoreClear tag line s
  | .watchWrite tag watch entry offset startBit width signed low high hysteresis action injection => Sys2Proof.Machine.execWatchWrite tag watch entry offset startBit width signed low high hysteresis action injection s
  | .watchRead tag watch => Sys2Proof.Machine.execWatchRead tag watch s
  | .watchErase tag watch => Sys2Proof.Machine.execWatchErase tag watch s
  | .valuesRead tag first count => Sys2Proof.Machine.execValuesRead tag first count s
  | .unknownKind kind tag body => Sys2Proof.Machine.execUnknownKind kind tag body s
  | .hostCharacterReceived data moment => Sys2Proof.Machine.execHostCharacterReceived data moment s
  | .hostTimeout => Sys2Proof.Machine.execHostTimeout s
  | .replyEnd => Sys2Proof.Machine.execReplyEnd s
  | .roundTimerExpiry chain => Sys2Proof.Machine.execRoundTimerExpiry chain s
  | .settleTimerExpiry line => Sys2Proof.Machine.execSettleTimerExpiry line s
  | .schedulerChoice line => Sys2Proof.Machine.execSchedulerChoice line s
  | .gapWaitComplete line silence => Sys2Proof.Machine.execGapWaitComplete line silence s
  | .backoffComplete line silence => Sys2Proof.Machine.execBackoffComplete line silence s
  | .characterSent line readback => Sys2Proof.Machine.execCharacterSent line readback s
  | .startBitDetected line => Sys2Proof.Machine.execStartBitDetected line s
  | .replyTimerExpiry line => Sys2Proof.Machine.execReplyTimerExpiry line s
  | .lineCharacterReceived line char => Sys2Proof.Machine.execLineCharacterReceived line char s
  | .gapLimitExpiry line silence => Sys2Proof.Machine.execGapLimitExpiry line silence s
  | .captureIdleClose line silence => Sys2Proof.Machine.execCaptureIdleClose line silence s
  | .overload line asserted => Sys2Proof.Machine.execOverload line asserted s
  | .timeBaseIncrement => Sys2Proof.Machine.execTimeBaseIncrement s
  | .lnrxReturnToIdleLevel line => Sys2Proof.Machine.execLnrxReturnToIdleLevel line s
  | .hrxReturnToIdleLevel => Sys2Proof.Machine.execHrxReturnToIdleLevel s

end Sys2Proof.Machine
end

