-- ==== Sys2Proof/Safety.lean ====
section
/-! DEFINITION. What counts as a sound state of the part: the standing statements of the spec about its queues, stores,
lines, chains and outputs, each as a predicate that can be evaluated. -/

namespace Sys2Proof.Machine

/-! ### Queues and stores -/

/-- R66: the origins an injected request may have, HOST and WATCH. -/
def Origin.injects : Origin → Bool
  | .chain _ => false
  | .host => true
  | .watch _ => true
  | .listen => false

/-- R66, R67: at most 8 requests, no two naming the same entry, every URGENT one ahead of every PROMPT one, each from the host
or a watch. -/
abbrev queueSound (q : List Injected) : Prop :=
  q.length ≤ Config.queueCapacity ∧ (q.map Injected.entry).Nodup ∧
    (q.Pairwise fun a b => b.level = .urgent → a.level = .urgent) ∧ ∀ x ∈ q, x.origin.injects = true

/-- R111: each record is numbered one above the record before it, unless it carries GAP. -/
def consecutive : List Record → Prop
  | [] => True
  | [_] => True
  | a :: b :: rest => (b.gap = true ∨ b.seq = a.seq + 1) ∧ consecutive (b :: rest)

/-- R104, R111: the store is within its two capacities and its records are numbered without a break that GAP does not mark.
With gap-pending clear the next number follows the newest record. -/
def storeSound (st : Store) : Prop :=
  st.records.length ≤ Config.recordCapacity ∧ st.payloadBytes ≤ Config.payloadCapacity ∧ consecutive st.records ∧
    (st.gapPending = false → ∀ r ∈ st.records.getLast?, st.nextSeq = r.seq + 1)

/-! ### Attention and the link -/

/-- R142, R145: ATTN# is asserted exactly while an unmasked class is pending, and no class holds a member outside its
range. -/
abbrev attnSound (a : Attention) : Prop :=
  a.asserted = a.wants ∧ ∀ c ∈ AttnClass.all, outsideRange c (a.set c) = false

/-- R144: a line is a member of STORE-LEVEL exactly while its threshold and its store make it one. -/
abbrev levelSound (s : State) : Prop :=
  ∀ l : Fin 4, (s.attn.set .storeLevel).getLsbD l.val = s.levelMember l

/-- R155: the slot is never FULL while the transmitter is IDLE. -/
abbrev linkSound (k : LinkPort) : Prop := k.slot ≠ none → k.transmitter ≠ .idle

/-! ### One line -/

/-- R17: which engine states go with which power state, mode and exchange. -/
def engineFits (x : Line) : Bool :=
  match x.engine with
  | .idle => x.exch.isNone && !(decide (x.power = .on) && decide (x.settings.mode = .listen))
  | .listening => x.exch.isNone && decide (x.power = .on) && decide (x.settings.mode = .listen)
  | .gapWait => x.exch.isSome && decide (x.power = .on) && decide (x.settings.mode = .framed)
  | .sending => x.exch.isSome && decide (x.power = .on) && decide (x.settings.mode = .framed)
  | .awaiting => x.exch.isSome && decide (x.power = .on) && decide (x.settings.mode = .framed)
  | .receiving => x.exch.isSome && decide (x.power = .on) && decide (x.settings.mode = .framed)
  | .backoff => x.exch.isSome && decide (x.power = .on) && decide (x.settings.mode = .framed)

/-- R90, R103: the settle timer runs exactly in SETTLING. -/
def settleFits (x : Line) : Bool :=
  match x.settleTimer with
  | .running _ _ => decide (x.power = .settling)
  | .stopped => decide (x.power ≠ .settling)
  | .expired => false

/-- R88: the supply is on, SETTLING or ON. -/
def Line.supplied (x : Line) : Bool :=
  match x.power with
  | .settling => true
  | .on => true
  | .off => false
  | .fault => false

/-- R66 to R68, R71, R88, R17, R135: what a line keeps whatever its demand set: outputs, settle timer and engine state agree
with its power; its queue is in order and, while it holds work, the ASK demand is present; a clear held position has held
count 0; only a LISTENING engine holds a block, and one below its size. -/
abbrev lineShape (x : Line) : Prop :=
  x.lnPwr = x.supplied ∧ x.lnDe = decide (x.engine = .sending) ∧ settleFits x = true ∧ engineFits x = true ∧
    queueSound x.queue ∧ (x.queue ≠ [] → x.demand.ask = true) ∧ (x.held = none → x.heldCount = 0) ∧
    x.heldCount ≤ Config.heldLimit ∧ x.block.length < x.settings.blockSize.bytes ∧
    (x.engine ≠ .listening → x.block = [] ∧ x.blockParity = false)

/-- R88: a line is supplied exactly while some demand is present; an exchange in flight keeps the supply too (R39). -/
abbrev demandSound (x : Line) : Prop :=
  if x.supplied then x.demand.isEmpty = false ∨ x.exch ≠ none else x.demand.isEmpty = true

/-- R31, R34: the counts of an exchange in flight, and where a pending end may stand. -/
def exchangeSound (x : Line) : Prop :=
  ∀ ex ∈ x.exch, 1 ≤ ex.attempts ∧ ex.attempts ≤ 1 + ex.copy.retries ∧ ex.collisions ≤ x.settings.collisionBudget ∧
    (∀ o ∈ ex.pendingEnd, x.engine = .sending ∧ (o = .preempted ∨ o = .aborted))

/-- The standing statements about one line. -/
abbrev lineSound (x : Line) : Prop := lineShape x ∧ demandSound x ∧ exchangeSound x

/-! ### Chains and lines -/

/-- R43: at most one chain is active on a line. -/
abbrev oneActive (s : State) : Prop :=
  ∀ l : Fin 4, ∀ c d : Fin 8, ((s.chain c).active && (s.chain c).onLine l) = true →
    ((s.chain d).active && (s.chain d).onLine l) = true → c = d

/-- R68: the held position of a line is occupied exactly when the chain active on it is HELD, and names that chain. -/
abbrev holdSound (s : State) : Prop :=
  ∀ l : Fin 4, ∀ c : Fin 8,
    ((decide ((s.chain c).state = .held) && (s.chain c).onLine l) = true ↔ (s.line l).held.map Held.owner = some c)

/-- R42, R43: the fields of a chain in each of its states. -/
def chainSound (ch : Chain) : Bool :=
  match ch.state with
  | .idle => ch.position.isNone && !ch.inFlight && !ch.roundDue && decide (ch.timer = .stopped)
  | .armed => ch.defn.isSome && ch.position.isNone && !ch.inFlight && !ch.roundDue
  | .running => ch.defn.isSome && ch.position.isSome
  | .held => ch.defn.isSome && ch.position.isNone && !ch.inFlight
  | .stopping => ch.defn.isSome && ch.position.isSome && ch.inFlight

/-- R49, R71, R89: the ROUND and ASK members of every demand set say what they stand for. -/
abbrev demandTrue (s : State) : Prop :=
  ∀ l : Fin 4, (s.line l).demand.round = s.roundWanted l ∧
    (s.line l).demand.ask = (!(s.line l).queue.isEmpty || (s.line l).injectedInFlight)

/-- R42, R51: a chain's exchange in flight is the scan exchange in flight on its line that no CHAIN-ABORT has cut off. -/
abbrev flightSound (s : State) : Prop :=
  ∀ l : Fin 4, ∀ c : Fin 8,
    (((s.chain c).inFlight && (s.chain c).onLine l) = true ↔
      (s.line l).exch.any (fun ex => decide (ex.origin = .chain c) && !ex.orphan) = true)

/-- R6, R79: whatever a queue, an exchange or a held position of reason AGAIN names is DEFINED on that line. -/
abbrev useSound (s : State) : Prop :=
  ∀ l : Fin 4, (∀ q ∈ (s.line l).queue, s.entryOn q.entry l = true) ∧
    (∀ ex ∈ (s.line l).exch, s.entry ex.entry = some ex.copy ∧ ex.copy.line = l) ∧
    (∀ h ∈ (s.line l).held, h.reason = .again → s.entryOn h.entry l = true)

/-! ### The whole part -/

abbrev attentionSound (s : State) : Prop := attnSound s.attn ∧ levelSound s

/-- Every line is sound. -/
def linesSound (s : State) : Prop := ∀ l : Fin 4, lineSound (s.line l)

/-- Every store is sound. -/
def storesSound (s : State) : Prop := ∀ l : Fin 4, storeSound (s.store l)

/-- R43, R68, R42, R51: the chains and the lines agree. -/
def chainsSound (s : State) : Prop :=
  oneActive s ∧ holdSound s ∧ flightSound s ∧ ∀ c : Fin 8, chainSound (s.chain c) = true

/-! ### Words the statements use -/

/-- R155, R160: no reply is being sent and RST# is released, so a complete request is taken at once. -/
abbrev State.ready (s : State) : Prop := s.link.transmitter = .idle ∧ s.link.rstHeld = false

/-- R156, R157: the transmitter has begun to send a reply of this KIND, TAG and BODY; nothing else has changed. -/
def State.replying (s : State) (kind tag : Byte) (body : List Byte) : State :=
  { s with link := { s.link with transmitter := .sending (hostFrame kind tag body) false } }

/-- R165, R167: the KIND, TAG and BODY in which a host request travels; `none` for a command that is no request. -/
def requestOf : Instr → Option Message
  | .ident t => some { kind := 0x01, tag := t, body := [] }
  | .restart t => some { kind := 0x02, tag := t, body := [] }
  | .notice t => some { kind := 0x03, tag := t, body := [] }
  | .noticeAck t c d => some { kind := 0x04, tag := t, body := c :: le32 d }
  | .maskSet t m => some { kind := 0x05, tag := t, body := [m] }
  | .lineSet t l m b g c s a h k => some { kind := 0x10, tag := t, body := [l, m, b, g, c, s, a, h, k] }
  | .lineRead t l => some { kind := 0x11, tag := t, body := [l] }
  | .linePowerOn t l => some { kind := 0x12, tag := t, body := [l, 1] }
  | .linePowerOff t l => some { kind := 0x12, tag := t, body := [l, 0] }
  | .lineResume t l => some { kind := 0x13, tag := t, body := [l] }
  | .exchangeAbort t l => some { kind := 0x14, tag := t, body := [l] }
  | .planWrite t e l st ct rl tm re po lk n p =>
    some { kind := 0x20, tag := t, body := [e, l, st, ct, rl, tm, re, po, lk, n] ++ p }
  | .planRead t e => some { kind := 0x21, tag := t, body := [e] }
  | .planErase t e => some { kind := 0x22, tag := t, body := [e] }
  | .chainSet t c l h p pw nt => some { kind := 0x30, tag := t, body := [c, l, h] ++ le16 p ++ [pw, nt] }
  | .chainRead t c => some { kind := 0x31, tag := t, body := [c] }
  | .chainStart t c => some { kind := 0x32, tag := t, body := [c] }
  | .chainStop t c => some { kind := 0x33, tag := t, body := [c] }
  | .chainAbort t c => some { kind := 0x34, tag := t, body := [c] }
  | .ask t e v => some { kind := 0x40, tag := t, body := [e, v] }
  | .askCancel t e => some { kind := 0x41, tag := t, body := [e] }
  | .queueRead t l => some { kind := 0x42, tag := t, body := [l] }
  | .fetch t l => some { kind := 0x50, tag := t, body := [l, 0] }
  | .fetchWithRelease t l => some { kind := 0x50, tag := t, body := [l, 1] }
  | .release t l q => some { kind := 0x51, tag := t, body := l :: le16 q }
  | .storeClear t l => some { kind := 0x52, tag := t, body := [l] }
  | .watchWrite t w e o sb wd sg lo hi hy a none =>
    some { kind := 0x60, tag := t, body := [w, e, o, sb, wd, sg] ++ le32 lo ++ le32 hi ++ le16 hy ++ [a] }
  | .watchWrite t w e o sb wd sg lo hi hy a (some (g, v)) =>
    some { kind := 0x60, tag := t, body := [w, e, o, sb, wd, sg] ++ le32 lo ++ le32 hi ++ le16 hy ++ [a, g, v] }
  | .watchRead t w => some { kind := 0x61, tag := t, body := [w] }
  | .watchErase t w => some { kind := 0x62, tag := t, body := [w] }
  | .valuesRead t f n => some { kind := 0x63, tag := t, body := [f, n] }
  | .unknownKind k t b => some { kind := k, tag := t, body := b }
  | .partRestart | .powerOnReset _ | .hostCharacterReceived .. | .hostTimeout | .replyEnd | .roundTimerExpiry _
  | .settleTimerExpiry _ | .schedulerChoice _ | .gapWaitComplete .. | .backoffComplete .. | .characterSent ..
  | .startBitDetected _ | .replyTimerExpiry _ | .lineCharacterReceived .. | .gapLimitExpiry .. | .captureIdleClose ..
  | .overload .. | .timeBaseIncrement | .lnrxReturnToIdleLevel _ | .hrxReturnToIdleLevel => none

/-- R156, step 2, R165: the body has the length that its kind requires. -/
def lengthFits (kind : Byte) (body : List Byte) : Bool :=
  if kind ∈ [0x01, 0x02, 0x03] then decide (body.length = 0)
  else if kind ∈ [0x05, 0x11, 0x13, 0x14, 0x21, 0x22, 0x31, 0x32, 0x33, 0x34, 0x41, 0x42, 0x52, 0x61, 0x62] then
    decide (body.length = 1)
  else if kind ∈ [0x12, 0x40, 0x50, 0x63] then decide (body.length = 2)
  else if kind = 0x51 then decide (body.length = 3)
  else if kind = 0x04 then decide (body.length = 5)
  else if kind = 0x30 then decide (body.length = 7)
  else if kind = 0x10 then decide (body.length = 9)
  else if kind = 0x20 then body[9]?.any fun n => decide (body.length = 10 + n.toNat)
  else if kind = 0x60 then
    body[16]?.any fun a =>
      if a.toNat ≤ 1 then decide (body.length = 17)
      else if a.toNat ≤ 3 then decide (body.length = 19)
      else decide (body.length = 17 ∨ body.length = 19)
  else false

/-- R143: one member has joined one class; the other classes and the mask are as before, and ATTN# is judged (R145). -/
def Attention.gained (a b : Attention) (c : AttnClass) (k : Nat) : Prop :=
  (∀ k' : Nat, (b.set c).getLsbD k' = ((a.set c).getLsbD k' || decide (k' = k ∧ k < 32))) ∧
    (∀ d : AttnClass, d ≠ c → b.set d = a.set d) ∧ b.masked = a.masked ∧ b.asserted = b.wants

/-- R17, R88, R68, R135: a line with nothing on it. -/
def Line.quiet (x : Line) : Prop :=
  x.power = .off ∧ x.demand = { host := false, round := false, ask := false } ∧ x.settleTimer = .stopped ∧
    x.lnPwr = false ∧ x.queue = [] ∧ x.held = none ∧ x.heldCount = 0 ∧ x.engine = .idle ∧ x.lnDe = false ∧
    x.exch = none ∧ x.replyTimer = .stopped ∧ x.block = [] ∧ x.blockParity = false

/-- What both resets leave alike: R63, R118, R87, R103, R150, R152, R155. -/
def State.blank (t : State) : Prop :=
  t.count = 0 ∧ (∀ l, (t.line l).quiet) ∧ (∀ l, t.store l = { records := [], nextSeq := 0, gapPending := false }) ∧
    (∀ c, t.attn.set c = 0 ∧ t.attn.isMasked c = true) ∧ t.attn.asserted = false ∧ t.link.receiver = .search ∧
    t.link.rxTimer = .stopped ∧ t.link.slot = none ∧ t.link.transmitter = .idle

/-- R42: a descriptor with these static fields whose dynamic fields hold the values of an undefined one. -/
def chainCleared (defn : Option ChainDef) : Chain :=
  { defn, state := .idle, position := none, inFlight := false, taken := 0, rounds := 0, late := 0, roundDue := false,
    reason := .none, timer := .stopped }

/-- R160: what a power-on reset leaves in every block. -/
def State.poweredOn (t : State) : Prop :=
  t.blank ∧ (∀ e, t.entry e = none) ∧ (∀ c, t.chain c = chainCleared none) ∧
    (∀ l, (t.line l).settings =
      { mode := .framed, baud := .b9600, gapLimit := 4, collisionBudget := 3, settleSteps := 10, autoPower := false,
        storeThreshold := 8, blockSize := .b64 }) ∧
    (∀ w, t.watch w = none) ∧ t.link.resetCause = .powerOn

/-- R120: a watch whose dynamic fields are set as WATCH-WRITE sets them. -/
def Watch.cleared (w : Watch) : Watch :=
  { w with zone := .unknown, value := 0, valueTime := 0, status := .never, lastAction := .none }

/-- R159: what a restart leaves in every block, by the table of R159. -/
def State.restartedFrom (t s : State) : Prop :=
  t.blank ∧ t.plan = s.plan ∧ (∀ c, t.chain c = chainCleared (s.chain c).defn) ∧
    (∀ l, (t.line l).settings = (s.line l).settings) ∧ (∀ w, t.watch w = (s.watch w).map Watch.cleared) ∧
    t.link.resetCause = .restart ∧ t.link.highSpeed = s.link.highSpeed

/-- R160: nothing is at work in the blocks and nothing is pending, so every LnPWR and LnDE and ATTN# is released. -/
abbrev State.atRest (s : State) : Prop :=
  (∀ l, (s.line l).quiet) ∧ (∀ c, s.chain c = chainCleared none) ∧
    (∀ c, s.attn.set c = 0 ∧ s.attn.isMasked c = true) ∧ s.attn.asserted = false

/-- R160: while RST# is asserted, HTX and every output is at its idle or released level and nothing is at work. -/
def heldSound (s : State) : Prop :=
  s.link.rstHeld = true → s.link.transmitter = .idle ∧ s.link.slot = none ∧ s.link.receiver = .search ∧
    s.link.rxTimer = .stopped ∧ s.atRest

/-- R58, R60: a chain that has gone IDLE. -/
def Chain.gone (ch : Chain) : Chain :=
  { ch with state := .idle, position := none, inFlight := false, roundDue := false, timer := .stopped }

/-- R108, R109: a store after one record has been offered to it. -/
def Store.offered (st : Store) (r : Record) : Store :=
  if st.records.length < 32 ∧ st.payloadBytes + r.payloadLen ≤ 2048 then
    { records := st.records ++ [{ r with seq := st.nextSeq, gap := st.gapPending }]
      nextSeq := st.nextSeq + 1
      gapPending := false }
  else { st with nextSeq := st.nextSeq + 1, gapPending := true }

/-- R138, R139: the record of an open capture block. -/
def State.blockRecords (s : State) (l : Fin 4) : List Record :=
  if (s.line l).block = [] then [] else [captureRecord (s.line l).block (s.line l).blockParity s.count]

/-- R61, R91, R92, R138, R139: line `l` of `u`, SETTLING or ON, has gone OFF: an open capture block is closed, a RUNNING or
HELD chain on the line takes chain fault LINE-OFF, and nothing else changes. -/
def State.goneOff (u t : State) (l : Fin 4) : Prop :=
  t = { u with chains := t.chains, lines := t.lines, stores := t.stores, attn := t.attn } ∧
    (∀ k, k ≠ l → t.line k = u.line k ∧ t.store k = u.store k) ∧
    t.store l = (u.blockRecords l).foldl Store.offered (u.store l) ∧
    ∃ z : Line,
      z = { u.line l with
            power := .off, lnPwr := false, settleTimer := .stopped, engine := .idle, block := [], blockParity := false } ∧
      (∀ c, u.activeChain l = some c → (u.chain c).state = .running ∨ (u.chain c).state = .held →
        t.chain c = { (u.chain c).gone with reason := .lineOff } ∧ (∀ c', c' ≠ c → t.chain c' = u.chain c') ∧
          (t.attn.set .chainFault).getLsbD c.val = true ∧
          t.line l = if (u.chain c).state = .held then { z with held := none, heldCount := 0 } else z) ∧
      ((∀ c, u.activeChain l = some c → (u.chain c).state ≠ .running ∧ (u.chain c).state ≠ .held) →
        (∀ c, t.chain c = u.chain c) ∧ t.line l = z)

/-- R49, R88, R91, R92: from `u` to `t` line `l` has followed its demand set down. The ROUND demand is judged; the line goes
OFF if it was SETTLING or ON and no demand is left, unless an exchange is in flight (log 12). -/
def State.followsDown (u t : State) (l : Fin 4) : Prop :=
  ∃ (round : Bool) (y : Line), y = { u.line l with demand := { (u.line l).demand with round } } ∧
    (round = true ↔ (u.line l).power ≠ .fault ∧
      ((∃ c d, (u.chain c).defn = some d ∧ d.line = l ∧ d.powered = true ∧
          ((u.chain c).state = .running ∨ (u.chain c).state = .held ∨ (u.chain c).state = .stopping)) ∨
        ∃ ex c, (u.line l).exch = some ex ∧ ex.origin = .chain c ∧ ex.powered = true)) ∧
    (y.supplied = false ∨ y.demand.isEmpty = false ∨ y.exch ≠ none → t = u.setLine l y) ∧
    (y.supplied = true → y.demand.isEmpty = true → y.exch = none → (u.setLine l y).goneOff t l)

/-- R82: a line as the filing of an injected exchange completes on it. -/
def Line.afterInjected (x : Line) : Line :=
  { x with heldCount := if x.held = none then x.heldCount else min 8 (x.heldCount + 1)
           demand := { x.demand with ask := x.demand.ask && !x.queue.isEmpty } }

/-- R37, in the order of its steps, and R33: exchange `ex` of line `l` has ended with outcome `o`. Its engine is free and its
record is offered if its policy offers the outcome (`u`); the watches of its entry are evaluated (`v`); its end reaches its
chain (R51), or the held count and the ASK demand (R82) (`w`); and the line follows its demand set. -/
def State.filedInOrder (s t : State) (l : Fin 4) (ex : Exchange) (o : ExchOutcome) : Prop :=
  ∃ f u v w : State,
    f = s.setLine l { s.line l with exch := none, engine := .idle, lnDe := false, replyTimer := .stopped } ∧
    u = (if ex.copy.policy.offers o then f.offer l (exchangeRecord ex o s.count) else f) ∧
    v = u.evalWatches watchTrigger ex.entry o
      (match ex.reply with
        | some r => r.payload
        | none => []) ∧
    (∀ c, ex.origin = .chain c → w = v.scanEnd c l ex o) ∧
    ((∀ c, ex.origin ≠ .chain c) → w = v.setLine l (v.line l).afterInjected) ∧ w.followsDown t l

/-- R33, R37, R36, R4: exchange `ex` of line `l` has ended with outcome `o` and is filed. It is gone from the line and its
record has been offered to the line's store if its policy offers the outcome. -/
def State.exchangeFiled (s t : State) (l : Fin 4) (ex : Exchange) (o : ExchOutcome) : Prop :=
  (t.line l).exch = none ∧ (t.line l).engine = .idle ∧ (t.line l).lnDe = false ∧ (t.line l).replyTimer = .stopped ∧
    t.store l = (if ex.copy.policy.offers o then (s.store l).offered (exchangeRecord ex o s.count) else s.store l) ∧
    s.filedInOrder t l ex o

/-- R83, R84, R34: an URGENT request has joined the queue of line `l` in `s`. A scan exchange in flight ends PREEMPTED, in
SENDING as its pending end and otherwise at once; with none in flight nothing else happens. -/
def State.preempted (s t : State) (l : Fin 4) : Prop :=
  ((∀ ex c, (s.line l).exch = some ex → ex.origin ≠ .chain c) → t = s) ∧
    ∀ ex c, (s.line l).exch = some ex → ex.origin = .chain c →
      ((s.line l).engine = .sending →
        t = s.setLine l { s.line l with exch := some { ex with pendingEnd := some (ex.pendingEnd.getD .preempted) } }) ∧
      ((s.line l).engine ≠ .sending → s.exchangeFiled t l ex .preempted)

/-- R31: an attempt of exchange `ex` has failed with `o`: another attempt begins, or the exchange ends with `o`. -/
def State.attemptFailed (s t : State) (l : Fin 4) (ex : Exchange) (o : ExchOutcome) : Prop :=
  (ex.attempts < 1 + ex.copy.retries →
    t = s.setLine l { s.line l with
      engine := .gapWait, lnDe := false, replyTimer := .stopped,
      exch := some { ex with attempts := ex.attempts + 1, sent := 0, kept := [] } }) ∧
    (1 + ex.copy.retries ≤ ex.attempts → s.exchangeFiled t l ex o)

/-- R18: the context of an exchange at its start. -/
def freshExchange (copy : PlanEntry) (entry : Fin 128) (origin : Origin) (restored : Bool) (merged : Nat)
    (powered : Bool) : Exchange :=
  { copy, entry, origin, attempts := 1, collisions := 0, restored, merged, pendingEnd := none, reply := none, sent := 0,
    kept := [], powered, orphan := false }

/-- R94, step 3: the records of the queued requests of a line, from head to tail, where their policies offer LINE-FAULT. -/
def State.queuedRecords (s : State) (l : Fin 4) : List Record :=
  (s.line l).queue.filterMap fun q =>
    match s.entry q.entry with
    | some p => if p.policy.offers .lineFault then some (queuedRecord q p.station s.count) else none
    | none => none

/-- R94, step 2: the record of the exchange in flight, where its policy offers the outcome it ends with. -/
def State.flightRecords (s : State) (l : Fin 4) : List Record :=
  match (s.line l).exch with
  | some ex =>
    if ex.copy.policy.offers (ex.pendingEnd.getD .lineFault) then
      [exchangeRecord ex (ex.pendingEnd.getD .lineFault) s.count]
    else []
  | none => []

/-- R67, R43, R68, R49, R79: the lines, the chains, the demand sets and the plan agree. -/
abbrev partSound (s : State) : Prop := linesSound s ∧ chainsSound s ∧ demandTrue s ∧ useSound s

/-- R6: the entry is DEFINED, and an exchange, the held position or a queued request of its line is of it. -/
def State.entryUsed (s : State) (e : Fin 128) : Prop :=
  ∃ p, s.entry e = some p ∧
    ((∃ ex, (s.line p.line).exch = some ex ∧ ex.entry = e) ∨ (∃ h, (s.line p.line).held = some h ∧ h.entry = e) ∨
      ∃ q ∈ (s.line p.line).queue, q.entry = e)

/-- R116, R145: from `s` to `t` only the STORE-LEVEL membership of line `l` has been judged again. -/
def State.levelJudged (s t : State) (l : Fin 4) : Prop :=
  (∀ k : Nat, (t.attn.set .storeLevel).getLsbD k =
    if k = l.val then
      decide (1 ≤ (t.line l).settings.storeThreshold ∧ (t.line l).settings.storeThreshold ≤ (t.store l).records.length)
    else (s.attn.set .storeLevel).getLsbD k) ∧
    (∀ d : AttnClass, d ≠ .storeLevel → t.attn.set d = s.attn.set d) ∧ t.attn.masked = s.attn.masked ∧
    t.attn.asserted = t.attn.wants

/-- R67: a queue with one more URGENT element, after the last URGENT one and before the first PROMPT one. -/
def urgentPlaced (x : Injected) (q : List Injected) : List Injected :=
  q.takeWhile (fun y => decide (y.level = .urgent)) ++ x :: q.dropWhile fun y => decide (y.level = .urgent)

/-- R18: a scan exchange is in flight on the line. -/
def Line.scanInFlight (x : Line) : Prop := ∃ ex, x.exch = some ex ∧ ∃ c, ex.origin = .chain c

/-- R48, step 5: the round timer of a round that starts now. -/
def roundTimerFrom (d : ChainDef) (now : Word) : Timer :=
  if d.period.toNat = 0 then .stopped else .running now (d.period.toNat * 100)

/-- R90: a line that a demand has just powered up, LnOVL# not being asserted. -/
def Line.poweringUp (x : Line) (now : Word) : Line :=
  { x with power := .settling, lnPwr := true, settleTimer := .running now (x.settings.settleSteps * 50) }

/-- R48, R49, R90: the line of a chain whose round has just started, LnOVL# not being asserted on it if it was OFF. -/
def Line.roundStarted (x : Line) (d : ChainDef) (now : Word) : Line :=
  if x.power = .off then
    { x with demand := { x.demand with round := true } }.poweringUp now
  else { x with demand := { x.demand with round := x.demand.round || d.powered } }

/-- R48, steps 4 to 6: a chain whose round has just started. -/
def Chain.inNewRound (ch : Chain) (d : ChainDef) (now : Word) : Chain :=
  { ch with state := .running, position := some d.head, inFlight := false, taken := 0, roundDue := false,
            timer := roundTimerFrom d now }

/-- The events of the chains and the lines: the commands that come neither from the host link nor from a reset or the
crystal. -/
def lineEvent : Instr → Bool
  | .roundTimerExpiry _ | .settleTimerExpiry _ | .schedulerChoice _ | .gapWaitComplete .. | .backoffComplete ..
  | .characterSent .. | .startBitDetected _ | .replyTimerExpiry _ | .lineCharacterReceived .. | .gapLimitExpiry ..
  | .captureIdleClose .. | .overload .. | .lnrxReturnToIdleLevel _ => true
  | .ident .. | .restart .. | .partRestart | .powerOnReset .. | .notice .. | .noticeAck .. | .maskSet .. | .lineSet ..
  | .lineRead .. | .linePowerOn .. | .linePowerOff .. | .lineResume .. | .exchangeAbort .. | .planWrite .. | .planRead ..
  | .planErase .. | .chainSet .. | .chainRead .. | .chainStart .. | .chainStop .. | .chainAbort .. | .ask ..
  | .askCancel .. | .queueRead .. | .fetch .. | .fetchWithRelease .. | .release .. | .storeClear .. | .watchWrite ..
  | .watchRead .. | .watchErase .. | .valuesRead .. | .unknownKind .. | .hostCharacterReceived .. | .hostTimeout
  | .replyEnd | .timeBaseIncrement | .hrxReturnToIdleLevel => false

/-- R166: a record from its sequence number on, with a flags byte. -/
def recordLayout (r : Record) (flags : Byte) : List Byte :=
  le16 r.seq ++ [r.kind.code] ++ r.origin.code ++
    [(match r.entry with
      | some e => finByte e
      | none => 0xFF),
     (match r.station with
      | some a => a
      | none => 0xFF), r.outcome.code, natByte r.attempts, natByte r.collisions, flags, natByte r.merged] ++
    le32 r.endTime ++
    [(match r.replyControl with
      | some b => b
      | none => 0)] ++
    (match r.payload with
      | some p => natByte p.length :: p
      | none => [0])

/-- R124: the ten bytes of one watch. -/
def valueLayout (x : Option Watch) : List Byte :=
  match x with
  | some x => [x.status.code, x.zone.code] ++ le32 x.value ++ le32 x.valueTime
  | none => [0, 0, 0, 0, 0, 0, 0, 0, 0, 0]

/-- R19, R23, R24: what the receiver has seen of a character sent; a receiver that waits for the idle level sees no start
bit. -/
def Line.sees (x : Line) (readback : Option LineChar) : Option LineChar := if x.waitIdle = true then none else readback

/-- R19: a character has been received; a low stop bit makes the receiver wait for the idle level. -/
def Line.afterCharacter (x : Line) (c : LineChar) : Line := { x with arriving := false, waitIdle := !c.stop }

end Sys2Proof.Machine
end

