-- ==== Sys2Proof/WellFormed.lean ====
section
/-! DEFINITION. Which commands can reach the part at all: a request travels in a frame whose LEN is 2 to 250 (R152), and
UNKNOWN_KIND is the row of the kinds that name no request (R156, R167). -/

namespace Sys2Proof

/-- The request kinds of R167. -/
def knownKinds : List Byte :=
  [0x01, 0x02, 0x03, 0x04, 0x05, 0x10, 0x11, 0x12, 0x13, 0x14, 0x20, 0x21, 0x22, 0x30, 0x31, 0x32, 0x33, 0x34,
   0x40, 0x41, 0x42, 0x50, 0x51, 0x52, 0x60, 0x61, 0x62, 0x63]

/-- The largest body of a request frame, LEN 250 less KIND and TAG (R152). -/
def maxBody : Nat := 248

/-- The command fits a host frame, and an unknown kind is unknown. -/
def Instr.wf : Instr → Bool
  | .planWrite _ _ _ _ _ _ _ _ _ _ _ payload => payload.length + 10 ≤ maxBody
  | .unknownKind kind _ body => !knownKinds.contains kind && body.length ≤ maxBody
  | .ident _ | .restart _ | .partRestart | .powerOnReset _ | .notice _ | .noticeAck .. | .maskSet .. | .lineSet ..
  | .lineRead .. | .linePowerOn .. | .linePowerOff .. | .lineResume .. | .exchangeAbort .. | .planRead .. | .planErase ..
  | .chainSet .. | .chainRead .. | .chainStart .. | .chainStop .. | .chainAbort .. | .ask .. | .askCancel ..
  | .queueRead .. | .fetch .. | .fetchWithRelease .. | .release .. | .storeClear .. | .watchWrite .. | .watchRead ..
  | .watchErase .. | .valuesRead .. | .hostCharacterReceived .. | .hostTimeout | .replyEnd | .roundTimerExpiry _
  | .settleTimerExpiry _ | .schedulerChoice _ | .gapWaitComplete .. | .backoffComplete .. | .characterSent ..
  | .startBitDetected _ | .replyTimerExpiry _ | .lineCharacterReceived .. | .gapLimitExpiry .. | .captureIdleClose ..
  | .overload .. | .timeBaseIncrement | .lnrxReturnToIdleLevel _ | .hrxReturnToIdleLevel => true

end Sys2Proof
end

