-- ==== Sys2Proof/Certificates/Slice0/Obligations.lean ====
section
/-! DEFINITION. The statements for the provers. Each says what a command or a shared operation of the part does, by the
rules its docstring cites. A request is stated for a Link Port whose transmitter is IDLE and RST# released (R155, R160); other
statements say what happens to it while a reply is being sent, and while RST# is asserted. Its command stands for the moment
its complete frame reaches the request slot (log 2). Where one step changes a chain, a queue or an exchange, the ROUND demand
is judged once, when those changes are done (log 13). -/

open Sys2Proof Sys2Proof.Machine

/-! ### The queue and the resets -/

/-- The command at the front of the queue leaves it and has its effect; with no command waiting the part idles (log 1). -/
def Obligations.StepRunsTheFrontCommand : Prop :=
  (∀ (c : Instr) (rest : List Instr) (s : State), s.pending = c :: rest → step s = exec c { s with pending := rest }) ∧
    ∀ s : State, s.pending = [] → step s = .next s

/-- R160, R16, R65, R87, R103, R118, R134, R141, R150: power-on reset leaves the plan UNUSED, chains undefined, watches
UNUSED, lines at their defaults and OFF, stores empty, nothing pending and every class masked. While RST# is asserted the
part is held there and receives nothing on HRX; its release, or the supply coming up, reads SPD. The blocks enter that state
at the assertion already, and a RST# that is not asserted is not released (log 20). The queue of waiting commands is kept
(log 1). -/
def Obligations.PowerOnResetClearsEveryBlock : Prop :=
  (State.reset.poweredOn ∧ State.reset.link.rstHeld = false ∧ State.reset.pending = []) ∧
  (∀ s : State, ∃ t : State, exec (.powerOnReset .rstAsserted) s = .next t ∧ t.poweredOn ∧ t.link.rstHeld = true ∧
    t.link.highSpeed = s.link.highSpeed ∧ t.pending = s.pending) ∧
  (∀ (spdHigh : Bool) (s : State), ∃ t : State, exec (.powerOnReset (.supplyUp spdHigh)) s = .next t ∧ t.poweredOn ∧
    t.link.rstHeld = false ∧ t.link.highSpeed = spdHigh ∧ t.pending = s.pending ∧
    (s.link.rstHeld = true → exec (.powerOnReset (.rstReleased spdHigh)) s = .next t) ∧
    (s.link.rstHeld = false → exec (.powerOnReset (.rstReleased spdHigh)) s = .next s)) ∧
  ∀ s : State, s.link.rstHeld = true → (∀ b m, exec (.hostCharacterReceived b m) s = .next s) ∧
    ∀ (c : Instr) (m : Message), requestOf c = some m → exec c s = .next s

/-- R159: RESTART answers OK and changes nothing else; at the end of its reply every block enters its RESTART state. The end
of that reply and PART_RESTART are one event (log 3). The queue of waiting commands is kept (log 1). -/
def Obligations.RestartTakesEffectAtTheEndOfItsReply : Prop :=
  (∀ (tag : Byte) (s : State), s.ready →
    exec (.restart tag) s =
      .next { s with link := { s.link with transmitter := .sending (hostFrame 0x82 tag [0x00]) true } }) ∧
  (∀ (s : State) (f : List Byte), s.link.transmitter = .sending f true →
    ∃ t : State, exec .replyEnd s = .next t ∧ exec .partRestart s = .next t ∧ t.restartedFrom s ∧ t.pending = s.pending) ∧
  ∀ s : State, (∀ f, s.link.transmitter ≠ .sending f true) → exec .partRestart s = .next s

/-! ### The Link Port -/

/-- R158: IDENT answers with the part's codes, the cause of the last reset, the speed of the host link, the count and the
capacities, and changes nothing else. The issue reported is the one issue the manual describes (log 14). -/
def Obligations.IdentReportsThePart : Prop :=
  ∀ (tag : Byte) (s : State), s.ready →
    exec (.ident tag) s = .next (s.replying 0x81 tag
      ([0x00, 0x44, 0x4B, 0x08, 0x04, 3, (if s.link.resetCause = .powerOn then 0 else 1),
        (if s.link.highSpeed then 1 else 0)] ++ le32 s.count ++ [4, 128, 8, 32, 8, 32, 0x00, 0x08]))

/-- R156, steps 1 and 2: a kind that names no request is answered UNKNOWN-KIND; a body of a length that its kind does not
have is answered BAD-LENGTH; nothing else changes. -/
def Obligations.UnknownKindOrWrongLengthIsOnlyAnswered : Prop :=
  (∀ (kind tag : Byte) (body : List Byte) (s : State), s.ready → kind ∉ knownKinds →
    exec (.unknownKind kind tag body) s = .next (s.replying (kind + 0x80) tag [0x16])) ∧
  ∀ (f : List Byte) (m : Message) (s : State), s.link.transmitter = .sending f false → s.link.slot = some m →
    m.kind ∈ knownKinds → lengthFits m.kind m.body = false →
    exec .replyEnd s =
      .next ({ s with link := { s.link with slot := none } }.replying (m.kind + 0x80) m.tag [0x15])

/-- R155, the rows of SENDING: a complete request is placed in the EMPTY slot, or discarded with LINK-ERROR OVERRUN.
The command of a request stands for the moment its complete frame reaches the slot (log 2). -/
def Obligations.RequestWaitsForTheReplyAhead : Prop :=
  ∀ (c : Instr) (m : Message) (s : State) (f : List Byte) (r : Bool), requestOf c = some m →
    s.link.transmitter = .sending f r → s.link.rstHeld = false →
    (s.link.slot = none → exec c s = .next { s with link := { s.link with slot := some m } }) ∧
      ∀ m', s.link.slot = some m' →
        ∃ a, exec c s = .next { s with attn := a } ∧ s.attn.gained a .linkError 3

/-- R155: at the end of a reply the waiting request is taken and the slot becomes EMPTY, or the transmitter becomes IDLE. -/
def Obligations.ReplyEndTakesTheWaitingRequest : Prop :=
  ∀ (s : State) (f : List Byte), s.link.transmitter = .sending f false →
    (s.link.slot = none → exec .replyEnd s = .next { s with link := { s.link with transmitter := .idle } }) ∧
      ∀ (c : Instr) (m : Message), requestOf c = some m → s.link.slot = some m → s.link.rstHeld = false →
        exec .replyEnd s = exec c { s with link := { s.link with slot := none, transmitter := .idle } }

/-- R155, R160: every step keeps the slot from being FULL while the transmitter is IDLE and, while RST# is asserted, HTX at
its idle level and ATTN# and every LnPWR and LnDE released. That the blocks are in their reset state from the assertion of
RST# on, with nothing at work and nothing pending, is the model's choice (log 20). -/
def Obligations.SlotIsEmptyWhileTheTransmitterIsIdle : Prop :=
  ∀ s t : State, step s = .next t → (linkSound s.link → linkSound t.link) ∧ (heldSound s → heldSound t)

/-- R151, R152, R153: a character is judged by the receive state, and a silence of 10 ms inside a frame discards it; a start
bit stops that timer, so no expiry comes before its character has ended; whether it is the start bit or the stop bit is the
command's operand (log 17). An expiry acts only on a timer that is due (R64, log 4). -/
def Obligations.HostReceiverBuildsFrames : Prop :=
  ∀ (b : Byte) (stop : Bool) (s : State),
    (s.link.waitIdle = false → s.link.rstHeld = false →
      (exec (.hostCharacterReceived b .startBit) s = .next { s with link := { s.link with rxTimer := .stopped } } ∧
        exec .hostTimeout { s with link := { s.link with rxTimer := .stopped } } =
          .next { s with link := { s.link with rxTimer := .stopped } }) ∧
      (s.link.receiver = .search → b = 0xA6 →
        exec (.hostCharacterReceived b (.stopBit stop)) s = .next { s with
          link := { s.link with waitIdle := !stop, receiver := .length, rxTimer := .running s.count 10 } }) ∧
      (s.link.receiver = .search → b ≠ 0xA6 →
        exec (.hostCharacterReceived b (.stopBit stop)) s = .next { s with link := { s.link with waitIdle := !stop } }) ∧
      (s.link.receiver = .length → 2 ≤ b.toNat → b.toNat ≤ 250 →
        exec (.hostCharacterReceived b (.stopBit stop)) s = .next { s with
          link := { s.link with waitIdle := !stop, receiver := .collect b [], rxTimer := .running s.count 10 } }) ∧
      (s.link.receiver = .length → b.toNat < 2 ∨ 250 < b.toNat →
        ∃ a, s.attn.gained a .linkError 1 ∧
          exec (.hostCharacterReceived b (.stopBit stop)) s = .next { s with
            attn := a, link := { s.link with waitIdle := !stop, receiver := .search, rxTimer := .stopped } }) ∧
      ∀ (len : Byte) (kept : List Byte), s.link.receiver = .collect len kept → kept.length + 1 < len.toNat + 2 →
        exec (.hostCharacterReceived b (.stopBit stop)) s = .next { s with
          link := { s.link with
            waitIdle := !stop, receiver := .collect len (kept ++ [b]), rxTimer := .running s.count 10 } }) ∧
    (∀ (start : Word) (d : Nat), s.link.receiver ≠ .search → s.link.rxTimer = .running start d →
      d ≤ (s.count - start).toNat →
      ∃ a, s.attn.gained a .linkError 2 ∧
        exec .hostTimeout s = .next { s with
          attn := a, link := { s.link with receiver := .search, rxTimer := .stopped } }) ∧
    (s.link.receiver = .search ∨ s.link.rxTimer.due s.count = false → exec .hostTimeout s = .next s)

/-- R154, R162, R164, R161: the check value starts at 0xFFFF and takes each covered byte by eight shifts with 0x1021; its high
byte is sent first; a host frame is LEAD 0xA6, LEN, KIND, TAG and BODY and its two check bytes. A complete frame whose two
check bytes agree is handed over as the request it carries; another is discarded with LINK-ERROR BAD-CHECK and no reply.
Every longer field but these is sent least significant byte first. -/
def Obligations.CompleteFrameIsCheckedAndHandedOver : Prop :=
  (crc [] = 0xFFFF ∧
    (∀ (bytes : List Byte) (b : Byte), crc (bytes ++ [b]) =
      (List.range 8).foldl (fun r _ => if r.getLsbD 15 then (r <<< 1) ^^^ 0x1021 else r <<< 1)
        (crc bytes ^^^ (b.setWidth 16 <<< 8))) ∧
    (∀ bytes : List Byte,
      crcBytes bytes = [BitVec.ofNat 8 ((crc bytes).toNat / 256), BitVec.ofNat 8 ((crc bytes).toNat % 256)]) ∧
    crcBytes [0x31, 0x32, 0x33, 0x34, 0x35, 0x36, 0x37, 0x38, 0x39] = [0x29, 0xB1] ∧
    ∀ (kind tag : Byte) (body : List Byte), hostFrame kind tag body =
      [0xA6, BitVec.ofNat 8 (body.length + 2), kind, tag] ++ body ++
        crcBytes ([BitVec.ofNat 8 (body.length + 2), kind, tag] ++ body)) ∧
  ((∀ x : Half, le16 x = [BitVec.ofNat 8 (x.toNat % 256), BitVec.ofNat 8 (x.toNat / 256)]) ∧
    ∀ x : Word, le32 x = [BitVec.ofNat 8 (x.toNat % 256), BitVec.ofNat 8 (x.toNat / 256 % 256),
      BitVec.ofNat 8 (x.toNat / 65536 % 256), BitVec.ofNat 8 (x.toNat / 16777216)]) ∧
  ∀ (b len : Byte) (kept : List Byte) (stop : Bool) (s : State), s.link.waitIdle = false → s.link.rstHeld = false →
    s.link.receiver = .collect len kept → kept.length + 1 = len.toNat + 2 →
    (∀ (c : Instr) (m : Message), requestOf c = some m →
      kept ++ [b] = (m.kind :: m.tag :: m.body) ++ crcBytes (len :: m.kind :: m.tag :: m.body) →
      exec (.hostCharacterReceived b (.stopBit stop)) s = exec c { s with
        link := { s.link with waitIdle := !stop, receiver := .search, rxTimer := .stopped } }) ∧
    ((kept ++ [b]).drop len.toNat ≠ crcBytes (len :: (kept ++ [b]).take len.toNat) →
      ∃ a, s.attn.gained a .linkError 0 ∧
        exec (.hostCharacterReceived b (.stopBit stop)) s = .next { s with
          attn := a, link := { s.link with waitIdle := !stop, receiver := .search, rxTimer := .stopped } })

/-- R19, R151: after a low stop bit a receiver takes no character until its input has returned to the idle level. -/
def Obligations.ReceiverWaitsForTheIdleLevel : Prop :=
  ∀ (l : Fin 4) (s : State),
    exec .hrxReturnToIdleLevel s = .next { s with link := { s.link with waitIdle := false } } ∧
    exec (.lnrxReturnToIdleLevel l) s = .next (s.setLine l { s.line l with waitIdle := false }) ∧
    (s.link.waitIdle = true → ∀ b m, exec (.hostCharacterReceived b m) s = .next s) ∧
    ((s.line l).waitIdle = true →
      exec (.startBitDetected l) s = .next s ∧ ∀ c, exec (.lineCharacterReceived l c) s = .next s)

/-- R63: the count increases by 1, wrapping from 4294967295 to 0. -/
def Obligations.TimeBaseCountsMilliseconds : Prop :=
  ∀ s : State, ∃ t : State, exec .timeBaseIncrement s = .next t ∧ t = { s with count := t.count } ∧
    t.count.toNat = (s.count.toNat + 1) % 2 ^ 32

/-! ### Attention -/

/-- R146, R142, R167: NOTICE names the highest class that is unmasked and pending, with its detail set, and shows every
pending class and every masked one. -/
def Obligations.NoticeShowsTheHighestClassAndBothSets : Prop :=
  [AttnClass.lineFault, .chainFault, .storeFull, .watch, .chainDone, .storeLevel, .linkError].map AttnClass.idx =
    [0, 1, 2, 3, 4, 5, 6] ∧
  ∀ (tag : Byte) (s : State), s.ready →
    ∃ p m : Byte,
      (∀ c : AttnClass, p.getLsbD c.idx.val = decide (s.attn.set c ≠ 0)) ∧ p.getLsbD 7 = false ∧
      (∀ c : AttnClass, m.getLsbD c.idx.val = s.attn.isMasked c) ∧ m.getLsbD 7 = false ∧
      (∀ c : AttnClass, s.attn.set c ≠ 0 → s.attn.isMasked c = false →
        (∀ d : AttnClass, d.idx < c.idx → s.attn.set d = 0 ∨ s.attn.isMasked d = true) →
        exec (.notice tag) s = .next (s.replying 0x83 tag ([0x00, finByte c.idx] ++ le32 (s.attn.set c) ++ [p, m]))) ∧
      ((∀ d : AttnClass, s.attn.set d = 0 ∨ s.attn.isMasked d = true) →
        exec (.notice tag) s = .next (s.replying 0x83 tag [0x00, 0xFF, 0, 0, 0, 0, p, m]))

/-- R147: NOTICE-ACK removes the members carried from the class named; STORE-LEVEL, an unknown class and a member outside the
class's range are refused BAD-ARG. -/
def Obligations.NoticeAckRemovesTheMembersCarried : Prop :=
  ∀ (tag cls : Byte) (detail : Word) (s : State), s.ready →
    (7 ≤ cls.toNat → exec (.noticeAck tag cls detail) s = .next (s.replying 0x84 tag [0x14])) ∧
    ∀ c : AttnClass, cls = finByte c.idx →
      (c = .storeLevel ∨ 2 ^ c.members ≤ detail.toNat →
        exec (.noticeAck tag cls detail) s = .next (s.replying 0x84 tag [0x14])) ∧
      (c ≠ .storeLevel → detail.toNat < 2 ^ c.members →
        ∃ a : Attention, (∀ k, (a.set c).getLsbD k = ((s.attn.set c).getLsbD k && !detail.getLsbD k)) ∧
          (∀ d : AttnClass, d ≠ c → a.set d = s.attn.set d) ∧ a.masked = s.attn.masked ∧
          (a.asserted = true ↔ ∃ d : AttnClass, a.set d ≠ 0 ∧ a.isMasked d = false) ∧
          exec (.noticeAck tag cls detail) s =
            .next ({ s with attn := a }.replying 0x84 tag (0x00 :: le32 (a.set c))))

/-- R149: MASK-SET replaces the whole mask and leaves every detail set; a set naming an eighth class is refused BAD-ARG. -/
def Obligations.MaskSetReplacesTheWholeMask : Prop :=
  ∀ (tag set : Byte) (s : State), s.ready →
    (128 ≤ set.toNat → exec (.maskSet tag set) s = .next (s.replying 0x85 tag [0x14])) ∧
    (set.toNat < 128 →
      ∃ (a : Attention) (p : Byte), (∀ c : AttnClass, a.isMasked c = set.getLsbD c.idx.val) ∧ a.detail = s.attn.detail ∧
        (a.asserted = true ↔ ∃ d : AttnClass, a.set d ≠ 0 ∧ a.isMasked d = false) ∧
        (∀ c : AttnClass, p.getLsbD c.idx.val = decide (s.attn.set c ≠ 0)) ∧ p.getLsbD 7 = false ∧
        exec (.maskSet tag set) s = .next ({ s with attn := a }.replying 0x85 tag [0x00, set, p]))

/-- R145, R144, R142: ATTN# is asserted exactly while an unmasked class is pending, a line is a member of STORE-LEVEL exactly
while its threshold and its record count make it one, and no class holds a member outside its range. -/
def Obligations.EveryStepKeepsAttentionSound : Prop :=
  ∀ s t : State, attentionSound s → step s = .next t → attentionSound t

/-! ### Lines: settings, power and faults -/

/-- R101: LINE-SET replaces the eight settings of an OFF line with no active chain and judges STORE-LEVEL; a setting outside
its range is refused BAD-ARG, and a line that is not OFF or has an active chain BUSY. -/
def Obligations.LineSetReplacesTheSettings : Prop :=
  ∀ (tag line mode baud gap coll settle auto thr block : Byte) (s : State), s.ready →
    (3 < line.toNat ∨ 1 < mode.toNat ∨ 3 < baud.toNat ∨ gap.toNat < 2 ∨ 20 < gap.toNat ∨ 7 < coll.toNat ∨
        settle.toNat = 0 ∨ 100 < settle.toNat ∨ 1 < auto.toNat ∨ 32 < thr.toNat ∨ 3 < block.toNat →
      exec (.lineSet tag line mode baud gap coll settle auto thr block) s = .next (s.replying 0x90 tag [0x14])) ∧
    ∀ (l : Fin 4) (x : LineSettings), line = finByte l → mode = x.mode.code → baud = x.baud.code →
      gap.toNat = x.gapLimit → coll.toNat = x.collisionBudget → settle.toNat = x.settleSteps →
      auto = boolByte x.autoPower → thr.toNat = x.storeThreshold → block = x.blockSize.code → 2 ≤ x.gapLimit →
      x.gapLimit ≤ 20 → x.collisionBudget ≤ 7 → 1 ≤ x.settleSteps → x.settleSteps ≤ 100 → x.storeThreshold ≤ 32 →
      ((s.line l).power ≠ .off ∨ (∃ c, (s.chain c).active = true ∧ (s.chain c).onLine l = true) →
        exec (.lineSet tag line mode baud gap coll settle auto thr block) s = .next (s.replying 0x90 tag [0x10])) ∧
      ((s.line l).power = .off → (∀ c, (s.chain c).onLine l = true → (s.chain c).active = false) →
        ∃ t : State, exec (.lineSet tag line mode baud gap coll settle auto thr block) s = .next (t.replying 0x90 tag [0x00]) ∧
          t = { s with lines := t.lines, attn := t.attn } ∧ t.line l = { s.line l with settings := x } ∧
          (∀ k, k ≠ l → t.line k = s.line k) ∧ s.levelJudged t l)

/-- R102, R165, R163, R167: LINE-READ shows the line, its exchange, its active chain, its held position and its store, in 33
bytes, and changes nothing. A settle timer that is due and whose expiry has not been taken shows 0 (log 4), and the reason
and owner of a clear held position are 0xFF (log 21). -/
def Obligations.LineReadShowsTheLine : Prop :=
  ([Mode.framed, .listen].map Mode.code = [0, 1] ∧ [Baud.b2400, .b9600, .b19200, .b38400].map Baud.code = [0, 1, 2, 3] ∧
    [BlockSize.b16, .b32, .b64, .b128].map BlockSize.code = [0, 1, 2, 3] ∧
    [PowerState.off, .settling, .on, .fault].map PowerState.code = [0, 1, 2, 3] ∧
    (∀ d : DemandSet, d.code.getLsbD 0 = d.host ∧ d.code.getLsbD 1 = d.round ∧ d.code.getLsbD 2 = d.ask ∧
      d.code.toNat < 8) ∧
    [EngineState.idle, .gapWait, .sending, .awaiting, .receiving, .backoff, .listening].map EngineState.code =
      [0, 1, 2, 3, 4, 5, 6] ∧
    (∀ c : Fin 8, Origin.code (.chain c) = [0, finByte c]) ∧ Origin.code .host = [1, 0] ∧
    (∀ w : Fin 32, Origin.code (.watch w) = [2, finByte w]) ∧ Origin.code .listen = [3, 0] ∧
    [ExchOutcome.ok, .noReply, .badFrame, .badCheck, .wrongStation, .overlength, .collisionLimit, .preempted, .aborted,
      .lineFault].map ExchOutcome.code = [0, 1, 2, 3, 4, 5, 6, 7, 8, 9] ∧
    [HeldReason.again, .next].map HeldReason.code = [0, 1]) ∧
  ∀ (tag line : Byte) (s : State), s.ready →
    (3 < line.toNat → exec (.lineRead tag line) s = .next (s.replying 0x91 tag [0x14])) ∧
    ∀ (l : Fin 4) (x : Line), line = finByte l → x = s.line l →
      ∃ body : List Byte, exec (.lineRead tag line) s = .next (s.replying 0x91 tag body) ∧ body.length = 33 ∧
        body =
          [0x00, finByte l, x.settings.mode.code, x.settings.baud.code, natByte x.settings.gapLimit,
            natByte x.settings.collisionBudget, natByte x.settings.settleSteps, boolByte x.settings.autoPower,
            natByte x.settings.storeThreshold, x.settings.blockSize.code, x.power.code, x.demand.code] ++
          (match x.settleTimer with
            | .running start d => le16 (BitVec.ofNat 16 (d - (s.count - start).toNat))
            | .stopped => [0xFF, 0xFF]
            | .expired => [0xFF, 0xFF]) ++
          [boolByte x.lnOvl, x.engine.code] ++
          (match x.exch with
            | some ex =>
              [finByte ex.entry] ++ ex.origin.code ++
                [natByte ex.attempts, natByte ex.collisions, boolByte ex.restored,
                  (match ex.pendingEnd with
                    | some o => o.code
                    | none => 0xFF)]
            | none => [0xFF, 0xFF, 0xFF, 0xFF, 0xFF, 0xFF, 0xFF]) ++
          [(match s.activeChain l with
            | some c => finByte c
            | none => 0xFF)] ++
          (match x.held with
            | some h => [finByte h.entry, h.reason.code, finByte h.owner]
            | none => [0xFF, 0xFF, 0xFF]) ++
          [natByte (s.store l).records.length] ++ le16 (BitVec.ofNat 16 (s.store l).payloadBytes) ++
          le16 (s.store l).nextSeq ++ [boolByte (s.store l).gapPending]

/-- R98, R90, R93: LINE-POWER ON adds the HOST demand; an OFF line enters SETTLING, or FAULT at once where LnOVL# is already
asserted; a FAULT line refuses it STATE. -/
def Obligations.LinePowerOnAddsTheHostDemand : Prop :=
  ∀ (tag line : Byte) (s : State), s.ready →
    (3 < line.toNat → exec (.linePowerOn tag line) s = .next (s.replying 0x92 tag [0x14])) ∧
    ∀ (l : Fin 4) (x : Line), line = finByte l → x = s.line l →
      (x.power = .fault → exec (.linePowerOn tag line) s = .next (s.replying 0x92 tag [0x11])) ∧
      (x.power = .settling ∨ x.power = .on →
        exec (.linePowerOn tag line) s =
          .next ((s.setLine l { x with demand := { x.demand with host := true } }).replying 0x92 tag
            [0x00, x.power.code, { x.demand with host := true }.code])) ∧
      (x.power = .off → x.lnOvl = false →
        exec (.linePowerOn tag line) s =
          .next ((s.setLine l ({ x with demand := { x.demand with host := true } }.poweringUp s.count)).replying 0x92 tag
            [0x00, 1, { x.demand with host := true }.code])) ∧
      (x.power = .off → x.lnOvl = true →
        ∃ t : State, exec (.linePowerOn tag line) s = .next (t.replying 0x92 tag [0x00, 3, 0]) ∧ (t.line l).power = .fault ∧
          (t.line l).lnPwr = false ∧ (t.line l).demand = DemandSet.empty ∧
          (t.attn.set .lineFault).getLsbD l.val = true)

/-- R99, R62, R91, R92, R139: LINE-POWER OFF by the power state. A FAULT line goes OFF and its active chain takes chain fault
LINE-FAULT; a supplied line refuses it BUSY while a chain without powered rounds, or its exchange, depends on the line;
otherwise the HOST demand leaves, and the line goes OFF if no demand remains and no exchange is in flight (log 12). -/
def Obligations.LinePowerOffRemovesTheHostDemand : Prop :=
  ∀ (tag line : Byte) (s : State), s.ready →
    (3 < line.toNat → exec (.linePowerOff tag line) s = .next (s.replying 0x92 tag [0x14])) ∧
    ∀ (l : Fin 4) (x : Line), line = finByte l → x = s.line l →
      (x.power = .off →
        exec (.linePowerOff tag line) s = .next (s.replying 0x92 tag [0x00, 0, x.demand.code])) ∧
      (x.power = .fault → partSound s →
        ∃ t : State, exec (.linePowerOff tag line) s = .next (t.replying 0x92 tag [0x00, 0, 0]) ∧
          t = { s with lines := t.lines, chains := t.chains, attn := t.attn } ∧
          t.line l = { x with power := .off, held := none, heldCount := 0 } ∧ (∀ k, k ≠ l → t.line k = s.line k) ∧
          (∀ c, s.activeChain l = some c →
            t.chain c = { (s.chain c).gone with reason := .lineFault } ∧ s.attn.gained t.attn .chainFault c.val) ∧
          (∀ c, s.activeChain l ≠ some c → t.chain c = s.chain c) ∧ (s.activeChain l = none → t.attn = s.attn)) ∧
      (x.power = .settling ∨ x.power = .on →
        ((∃ c d, (s.chain c).defn = some d ∧ d.line = l ∧ d.powered = false ∧ (s.chain c).state ≠ .idle) ∨
            (∃ ex c, x.exch = some ex ∧ ex.origin = .chain c ∧ ex.powered = false) →
          exec (.linePowerOff tag line) s = .next (s.replying 0x92 tag [0x10])) ∧
        ((∀ c d, (s.chain c).defn = some d → d.line = l → d.powered = false → (s.chain c).state = .idle) →
          (∀ ex c, x.exch = some ex → ex.origin = .chain c → ex.powered = true) → partSound s →
          (x.demand.round = true ∨ x.demand.ask = true →
            exec (.linePowerOff tag line) s =
              .next ((s.setLine l { x with demand := { x.demand with host := false } }).replying 0x92 tag
                [0x00, x.power.code, { x.demand with host := false }.code])) ∧
          (x.demand.round = false → x.demand.ask = false →
            ∃ t : State, exec (.linePowerOff tag line) s = .next (t.replying 0x92 tag [0x00, 0, 0]) ∧
              t = { s with lines := t.lines, stores := t.stores, attn := t.attn } ∧
              t.line l = { x with power := .off, lnPwr := false, settleTimer := .stopped, engine := .idle, block := [],
                                  blockParity := false, demand := DemandSet.empty } ∧
              (∀ k, k ≠ l → t.line k = s.line k) ∧ t.store l = (s.blockRecords l).foldl Store.offered (s.store l) ∧
              (∀ k, k ≠ l → t.store k = s.store k))))

/-- R97, R93, R49, R62: LINE-RESUME takes a FAULT line to SETTLING with the HOST demand, and the ROUND demand where a
powered chain on it is in a round; where LnOVL# is still asserted the line is FAULT again at once, a HELD chain staying
HELD. Any other line refuses it STATE. -/
def Obligations.LineResumeLeavesFault : Prop :=
  ∀ (tag line : Byte) (s : State), s.ready →
    (3 < line.toNat → exec (.lineResume tag line) s = .next (s.replying 0x93 tag [0x14])) ∧
    ∀ (l : Fin 4) (x : Line), line = finByte l → x = s.line l →
      (x.power ≠ .fault → exec (.lineResume tag line) s = .next (s.replying 0x93 tag [0x11])) ∧
      (x.power = .fault → partSound s → x.lnOvl = false →
        ∃ r : Bool, (r = true ↔ ∃ c d, (s.chain c).defn = some d ∧ d.line = l ∧ d.powered = true ∧
            ((s.chain c).state = .held ∨ (s.chain c).state = .running ∨ (s.chain c).state = .stopping)) ∧
          exec (.lineResume tag line) s =
            .next ((s.setLine l
              ({ x with demand := { host := true, round := r, ask := false } }.poweringUp s.count)).replying 0x93 tag
                [0x00])) ∧
      (x.power = .fault → x.lnOvl = true →
        ∃ t : State, exec (.lineResume tag line) s = .next (t.replying 0x93 tag [0x00]) ∧ (t.line l).power = .fault ∧
          (t.line l).demand = DemandSet.empty ∧ (t.attn.set .lineFault).getLsbD l.val = true ∧
          (partSound s → ∀ c, (s.chain c).state = .held → (s.chain c).onLine l = true →
            t.chain c = s.chain c ∧ (t.line l).held = x.held))

/-- R35, R34, R36, R37, R51, R82: EXCHANGE-ABORT ends the exchange in flight with ABORTED, at once or, in SENDING, as its
pending end; with no exchange in flight it is answered EMPTY. The end is filed in the order of R37 and reaches its chain, or
the held count and the ASK demand; the demand set is judged last (log 13). -/
def Obligations.ExchangeAbortEndsTheExchangeInFlight : Prop :=
  ∀ (tag line : Byte) (s : State), s.ready →
    (3 < line.toNat → exec (.exchangeAbort tag line) s = .next (s.replying 0x94 tag [0x14])) ∧
    ∀ (l : Fin 4) (x : Line), line = finByte l → x = s.line l →
      (x.exch = none → exec (.exchangeAbort tag line) s = .next (s.replying 0x94 tag [0x02])) ∧
      ∀ ex, x.exch = some ex →
        (x.engine = .sending →
          exec (.exchangeAbort tag line) s =
            .next ((s.setLine l { x with
              exch := some { ex with pendingEnd := some (ex.pendingEnd.getD .aborted) } }).replying 0x94 tag [0x00])) ∧
        (x.engine ≠ .sending → linesSound s →
          ∃ t : State, exec (.exchangeAbort tag line) s = .next (t.replying 0x94 tag [0x00]) ∧ s.exchangeFiled t l ex .aborted)

/-- R91, R92, R39, R135: a settle timer that is due takes a line from SETTLING to ON, its engine IDLE or LISTENING with an
empty block; with no such timer nothing happens (log 4). -/
def Obligations.SettleTimerExpiryEntersOn : Prop :=
  ∀ (l : Fin 4) (x : Line) (s : State), x = s.line l →
    (∀ (start : Word) (d : Nat), x.power = .settling → x.settleTimer = .running start d → d ≤ (s.count - start).toNat →
      exec (.settleTimerExpiry l) s = .next (s.setLine l { x with
        power := .on, settleTimer := .stopped, engine := if x.settings.mode = .listen then .listening else .idle,
        block := [], blockParity := false })) ∧
    (x.power ≠ .settling ∨ x.settleTimer.due s.count = false → exec (.settleTimerExpiry l) s = .next s)

/-- R93, R94, R62, R139, R34, R95, R52, R53, R55, R48: LnOVL# asserted on a supplied line is an overload: the line is FAULT
with nothing on it, the open block, the exchange in flight and the queued requests are filed in that order, the chain is held,
and LINE-FAULT is raised. Where the exchange ends with a pending ABORTED, its RUNNING chain first follows its link or ends its
round, and is held with reason NEXT if that leaves it in a round. On a line that is OFF or FAULT, and when LnOVL# is released,
only the level changes (log 8). -/
def Obligations.OverloadStopsAllWorkOnTheLine : Prop :=
  ∀ (l : Fin 4) (x : Line) (s : State), x = s.line l →
    (∀ a : Bool, a = false ∨ x.power = .off ∨ x.power = .fault →
      exec (.overload l a) s = .next (s.setLine l { x with lnOvl := a })) ∧
    (x.power = .settling ∨ x.power = .on → partSound s →
      ∃ t : State, exec (.overload l true) s = .next t ∧ (t.line l).power = .fault ∧ (t.line l).lnPwr = false ∧
        (t.line l).lnDe = false ∧ (t.line l).lnOvl = true ∧ (t.line l).settleTimer = .stopped ∧
        (t.line l).engine = .idle ∧ (t.line l).exch = none ∧ (t.line l).queue = [] ∧
        (t.line l).demand = DemandSet.empty ∧ (t.line l).block = [] ∧ (t.line l).settings = x.settings ∧
        (t.attn.set .lineFault).getLsbD l.val = true ∧
        t.store l = (s.blockRecords l ++ s.flightRecords l ++ s.queuedRecords l).foldl Store.offered (s.store l) ∧
        (∀ k, k ≠ l → t.line k = s.line k ∧ t.store k = s.store k) ∧
        ∀ c, s.activeChain l = some c →
          ((s.chain c).state = .stopping → t.chain c = (s.chain c).gone) ∧
          ((s.chain c).state = .armed ∨ (s.chain c).state = .held → t.chain c = s.chain c ∧ (t.line l).held = x.held) ∧
          (∀ p, (s.chain c).state = .running → (s.chain c).inFlight = false → (s.chain c).position = some p →
            t.chain c = { s.chain c with state := .held, position := none } ∧
              (t.line l).held = some { entry := p, reason := .next, owner := c } ∧ (t.line l).heldCount = 0) ∧
          ∀ ex, (s.chain c).state = .running → (s.chain c).inFlight = true → x.exch = some ex →
            (ex.pendingEnd ≠ some .aborted →
              t.chain c = { s.chain c with state := .held, position := none, inFlight := false } ∧
                (t.line l).held = some { entry := ex.entry, reason := .again, owner := c } ∧ (t.line l).heldCount = 0) ∧
            ∀ (d : ChainDef) (ch : Chain), ex.pendingEnd = some .aborted → (s.chain c).defn = some d →
              ch = s.chain c → (t.line l).heldCount = 0 ∧
              (∀ k, ex.copy.link = some k →
                (ch.taken < 128 → s.entryOn k l = true →
                  t.chain c = { ch with state := .held, position := none, inFlight := false } ∧
                    (t.line l).held = some { entry := k, reason := .next, owner := c }) ∧
                (128 ≤ ch.taken ∨ s.entryOn k l = false →
                  t.chain c = { ch.gone with reason := if 128 ≤ ch.taken then .loop else .badLink } ∧
                    (t.line l).held = none ∧ (t.attn.set .chainFault).getLsbD c.val = true)) ∧
              (ex.copy.link = none →
                (d.notify = true ∨ d.period = 0 → (t.attn.set .chainDone).getLsbD c.val = true) ∧
                (d.period = 0 → t.chain c = { ch.gone with rounds := ch.rounds + 1 } ∧ (t.line l).held = none) ∧
                (d.period ≠ 0 → ch.roundDue = false →
                  t.chain c = { ch with
                    state := .armed, position := none, inFlight := false, rounds := ch.rounds + 1 } ∧
                    (t.line l).held = none) ∧
                (d.period ≠ 0 → ch.roundDue = true → s.entryOn d.head l = true →
                  t.chain c =
                    { { ch with rounds := ch.rounds + 1, late := min 255 (ch.late + 1) }.inNewRound d s.count with
                      state := .held, position := none } ∧
                    (t.line l).held = some { entry := d.head, reason := .next, owner := c }) ∧
                (d.period ≠ 0 → ch.roundDue = true → s.entryOn d.head l = false →
                  t.chain c =
                    { ch.gone with rounds := ch.rounds + 1, late := min 255 (ch.late + 1), reason := .headGone } ∧
                    (t.line l).held = none ∧ (t.attn.set .chainFault).getLsbD c.val = true)))

/-! ### The plan -/

/-- R7, R6: PLAN-WRITE checks the declared length, the entry number and the nine fields, refuses an entry in use BUSY, and
otherwise makes the entry DEFINED with the fields carried. The command carries the declared length beside the payload (log
18). -/
def Obligations.PlanWriteDefinesAnEntryNotInUse : Prop :=
  ∀ (tag entry line station control rl tm re po lk n : Byte) (payload : List Byte) (s : State), s.ready →
    (payload.length ≠ n.toNat →
      exec (.planWrite tag entry line station control rl tm re po lk n payload) s = .next (s.replying 0xA0 tag [0x15])) ∧
    (payload.length = n.toNat →
      (127 < entry.toNat ∨ 16 < payload.length ∨ 3 < line.toNat ∨ 250 < station.toNat ∨ rl.toNat = 0 ∨ 200 < rl.toNat ∨
          tm.toNat = 0 ∨ 7 < re.toNat ∨ 2 < po.toNat ∨ (127 < lk.toNat ∧ lk ≠ 0xFF) →
        exec (.planWrite tag entry line station control rl tm re po lk n payload) s = .next (s.replying 0xA0 tag [0x14])) ∧
      ∀ (e : Fin 128) (p : PlanEntry), entry = finByte e → line = finByte p.line → station = p.station →
        control = p.control → payload = p.payload → rl.toNat = p.replyLimit → tm.toNat = p.timeout →
        re.toNat = p.retries → po = p.policy.code → (p.link = none → lk = 0xFF) → (∀ k, p.link = some k → lk = finByte k) →
        p.payload.length ≤ 16 → p.station.toNat ≤ 250 → 1 ≤ p.replyLimit → p.replyLimit ≤ 200 → 1 ≤ p.timeout →
        p.retries ≤ 7 →
        (s.entryUsed e →
          exec (.planWrite tag entry line station control rl tm re po lk n payload) s =
            .next (s.replying 0xA0 tag [0x10])) ∧
        (¬ s.entryUsed e →
          exec (.planWrite tag entry line station control rl tm re po lk n payload) s =
            .next ((s.setEntry e (some p)).replying 0xA0 tag [0x00])))

/-- R9, R165, R167: PLAN-READ shows the entry, its state, the three in-use indications and, when DEFINED, its nine fields. -/
def Obligations.PlanReadShowsTheEntry : Prop :=
  [RecordPolicy.always, .failures, .never].map RecordPolicy.code = [0, 1, 2] ∧
  ∀ (tag entry : Byte) (s : State), s.ready →
    (127 < entry.toNat → exec (.planRead tag entry) s = .next (s.replying 0xA1 tag [0x14])) ∧
    ∀ e : Fin 128, entry = finByte e →
      (s.entry e = none → exec (.planRead tag entry) s = .next (s.replying 0xA1 tag [0x00, finByte e, 0, 0, 0, 0])) ∧
      ∀ p, s.entry e = some p →
        ∃ a b c : Bool, (a = true ↔ ∃ ex, (s.line p.line).exch = some ex ∧ ex.entry = e) ∧
          (b = true ↔ ∃ h, (s.line p.line).held = some h ∧ h.entry = e) ∧
          (c = true ↔ ∃ q ∈ (s.line p.line).queue, q.entry = e) ∧
          exec (.planRead tag entry) s = .next (s.replying 0xA1 tag
            ([0x00, finByte e, 1, boolByte a, boolByte b, boolByte c, finByte p.line, p.station, p.control,
              natByte p.replyLimit, natByte p.timeout, natByte p.retries, p.policy.code,
              (match p.link with
                | some k => finByte k
                | none => 0xFF), natByte p.payload.length] ++ p.payload))

/-- R10, R6: PLAN-ERASE makes an entry UNUSED; it is refused BAD-ARG above 127, NO-SUCH when UNUSED, BUSY when in use. -/
def Obligations.PlanEraseFreesAnEntryNotInUse : Prop :=
  ∀ (tag entry : Byte) (s : State), s.ready →
    (127 < entry.toNat → exec (.planErase tag entry) s = .next (s.replying 0xA2 tag [0x14])) ∧
    ∀ e : Fin 128, entry = finByte e →
      (s.entry e = none → exec (.planErase tag entry) s = .next (s.replying 0xA2 tag [0x13])) ∧
      (s.entryUsed e → exec (.planErase tag entry) s = .next (s.replying 0xA2 tag [0x10])) ∧
      (s.entry e ≠ none → ¬ s.entryUsed e →
        exec (.planErase tag entry) s = .next ((s.setEntry e none).replying 0xA2 tag [0x00]))

/-! ### Chains -/

/-- R45: CHAIN-SET defines a chain that is not active, its dynamic fields cleared; it is refused BAD-ARG, or BUSY when the
chain is active. -/
def Obligations.ChainSetDefinesAnIdleChain : Prop :=
  ∀ (tag chain line head powered notify : Byte) (period : Half) (s : State), s.ready →
    (7 < chain.toNat ∨ 3 < line.toNat ∨ 127 < head.toNat ∨ 1 < powered.toNat ∨ 1 < notify.toNat →
      exec (.chainSet tag chain line head period powered notify) s = .next (s.replying 0xB0 tag [0x14])) ∧
    ∀ (c : Fin 8) (d : ChainDef), chain = finByte c → line = finByte d.line → head = finByte d.head → period = d.period →
      powered = boolByte d.powered → notify = boolByte d.notify →
      ((s.chain c).state ≠ .idle →
        exec (.chainSet tag chain line head period powered notify) s = .next (s.replying 0xB0 tag [0x10])) ∧
      ((s.chain c).state = .idle →
        exec (.chainSet tag chain line head period powered notify) s =
          .next ((s.setChain c (chainCleared (some d))).replying 0xB0 tag [0x00]))

/-- R46, R165, R167: CHAIN-READ shows the descriptor in 23 bytes and changes nothing. A round timer that is due and whose
expiry has not been taken shows 0 (log 4). -/
def Obligations.ChainReadShowsTheDescriptor : Prop :=
  ([ChainState.idle, .armed, .running, .held, .stopping].map ChainState.code = [0, 1, 2, 3, 4] ∧
    [FaultReason.none, .loop, .badLink, .headGone, .lineOff, .lineFault].map FaultReason.code = [0, 1, 2, 3, 4, 5]) ∧
  ∀ (tag chain : Byte) (s : State), s.ready →
    (7 < chain.toNat → exec (.chainRead tag chain) s = .next (s.replying 0xB1 tag [0x14])) ∧
    ∀ (c : Fin 8) (ch : Chain), chain = finByte c → ch = s.chain c →
      ∃ body : List Byte, exec (.chainRead tag chain) s = .next (s.replying 0xB1 tag body) ∧ body.length = 23 ∧
        body =
          [0x00, finByte c] ++
          (match ch.defn with
            | some d => [1, finByte d.line, finByte d.head] ++ le16 d.period ++ [boolByte d.powered, boolByte d.notify]
            | none => [0, 0xFF, 0xFF, 0, 0, 0xFF, 0xFF]) ++
          [ch.state.code] ++
          (match ch.state, ch.defn.bind fun d => (s.line d.line).held, ch.position with
            | .held, some h, _ => [finByte h.entry, h.reason.code]
            | .running, _, some e => [finByte e, 0xFF]
            | .stopping, _, some e => [finByte e, 0xFF]
            | _, _, _ => [0xFF, 0xFF]) ++
          [boolByte ch.inFlight, natByte ch.taken] ++ le16 ch.rounds ++ [natByte ch.late, boolByte ch.roundDue] ++
          (match ch.timer with
            | .running start d => le32 (BitVec.ofNat 32 (d - (s.count - start).toNat))
            | .stopped => [0xFF, 0xFF, 0xFF, 0xFF]
            | .expired => [0xFF, 0xFF, 0xFF, 0xFF]) ++
          [ch.reason.code]

/-- R47, R48, R49, R90, R93: CHAIN-START checks in the order of R47, clears the counters and the reason, and starts a round at
once: RUNNING at the head, or chain fault HEAD-GONE, or HELD where powering the line up meets an overload. -/
def Obligations.ChainStartStartsARound : Prop :=
  ∀ (tag chain : Byte) (s : State), s.ready →
    (7 < chain.toNat → exec (.chainStart tag chain) s = .next (s.replying 0xB2 tag [0x14])) ∧
    ∀ c : Fin 8, chain = finByte c →
      ((s.chain c).defn = none → exec (.chainStart tag chain) s = .next (s.replying 0xB2 tag [0x13])) ∧
      ∀ (d : ChainDef) (x : Line), (s.chain c).defn = some d → x = s.line d.line →
        ((s.chain c).state ≠ .idle ∨ (∃ c', (s.chain c').state ≠ .idle ∧ (s.chain c').onLine d.line = true) →
          exec (.chainStart tag chain) s = .next (s.replying 0xB2 tag [0x10])) ∧
        ((s.chain c).state = .idle → (∀ c', (s.chain c').onLine d.line = true → (s.chain c').state = .idle) →
          (x.settings.mode = .listen ∨ x.power = .fault ∨ (d.powered = false ∧ x.power = .off) →
            exec (.chainStart tag chain) s = .next (s.replying 0xB2 tag [0x11])) ∧
          (x.settings.mode = .framed → x.power ≠ .fault → (d.powered = true ∨ x.power ≠ .off) → partSound s →
            (s.entryOn d.head d.line = false →
              ∃ a, s.attn.gained a .chainFault c.val ∧
                exec (.chainStart tag chain) s =
                  .next (({ s with attn := a }.setChain c
                    { (s.chain c).gone with rounds := 0, late := 0, reason := .headGone }).replying 0xB2 tag [0x00])) ∧
            (s.entryOn d.head d.line = true → x.power ≠ .off ∨ x.lnOvl = false →
              exec (.chainStart tag chain) s =
                .next (((s.setChain c
                  ({ s.chain c with rounds := 0, late := 0, reason := .none }.inNewRound d s.count)).setLine d.line
                    (x.roundStarted d s.count)).replying 0xB2 tag [0x00])) ∧
            (s.entryOn d.head d.line = true → x.power = .off → x.lnOvl = true →
              ∃ t : State, exec (.chainStart tag chain) s = .next (t.replying 0xB2 tag [0x00]) ∧
                (t.line d.line).power = .fault ∧ (t.chain c).state = .held ∧ (t.chain c).reason = .none ∧
                (t.line d.line).held = some { entry := d.head, reason := .next, owner := c } ∧
                (t.attn.set .lineFault).getLsbD d.line.val = true)))

/-- R58, R49, R92: CHAIN-STOP takes a RUNNING chain with its exchange in flight to STOPPING, leaves a STOPPING or IDLE one as
it is, and takes any other to IDLE with its held position discarded; its line's ROUND demand is judged and the line goes OFF
if no demand is left and no exchange is in flight (log 12). -/
def Obligations.ChainStopByTheStateOfTheChain : Prop :=
  ∀ (tag chain : Byte) (s : State), s.ready →
    (7 < chain.toNat → exec (.chainStop tag chain) s = .next (s.replying 0xB3 tag [0x14])) ∧
    ∀ c : Fin 8, chain = finByte c →
      ((s.chain c).state = .running → (s.chain c).inFlight = true →
        exec (.chainStop tag chain) s =
          .next ((s.setChain c { s.chain c with state := .stopping }).replying 0xB3 tag [0x00])) ∧
      ((s.chain c).state = .stopping ∨ (s.chain c).state = .idle →
        exec (.chainStop tag chain) s = .next (s.replying 0xB3 tag [0x00])) ∧
      ∀ (d : ChainDef) (x : Line), (s.chain c).defn = some d → x = s.line d.line → partSound s →
        (s.chain c).state = .held ∨ (s.chain c).state = .armed ∨
          ((s.chain c).state = .running ∧ (s.chain c).inFlight = false) →
        ∃ (t : State) (r : Bool), exec (.chainStop tag chain) s = .next (t.replying 0xB3 tag [0x00]) ∧
          t.chain c = (s.chain c).gone ∧ (∀ c', c' ≠ c → t.chain c' = s.chain c') ∧
          (∀ k, k ≠ d.line → t.line k = s.line k) ∧ (t.line d.line).held = none ∧ (t.line d.line).heldCount = 0 ∧
          (t.line d.line).queue = x.queue ∧ (t.line d.line).exch = x.exch ∧
          (r = true ↔ ∃ ex c', x.exch = some ex ∧ ex.origin = .chain c' ∧ ex.powered = true) ∧
          (t.line d.line).demand = { x.demand with round := r } ∧
          (x.demand.host = true ∨ r = true ∨ x.demand.ask = true ∨ x.exch ≠ none → (t.line d.line).power = x.power) ∧
          (x.demand.host = false → r = false → x.demand.ask = false → x.exch = none → x.power ≠ .fault →
            (t.line d.line).power = .off ∧ (t.line d.line).lnPwr = false)

/-- R59, R34, R37, R51, R49: CHAIN-ABORT ends the chain's exchange with ABORTED, at once or, in SENDING, as its pending end,
and the chain goes IDLE at once, the exchange left keeping the ROUND demand by the powered rounds field it started with; with
no exchange in flight it acts as CHAIN-STOP does. The demand set is judged once, at the end (log 13). -/
def Obligations.ChainAbortEndsTheExchangeOfTheChain : Prop :=
  ∀ (tag chain : Byte) (s : State), s.ready →
    (7 < chain.toNat → exec (.chainAbort tag chain) s = .next (s.replying 0xB4 tag [0x14])) ∧
    ∀ c : Fin 8, chain = finByte c →
      ((s.chain c).inFlight = false →
        ∃ t : State, exec (.chainStop tag chain) s = .next (t.replying 0xB3 tag [0x00]) ∧
          exec (.chainAbort tag chain) s = .next (t.replying 0xB4 tag [0x00])) ∧
      ∀ (d : ChainDef) (ex : Exchange), (s.chain c).inFlight = true → (s.chain c).defn = some d →
        (s.line d.line).exch = some ex → partSound s →
        ∃ t : State, exec (.chainAbort tag chain) s = .next (t.replying 0xB4 tag [0x00]) ∧ t.chain c = (s.chain c).gone ∧
          ((s.line d.line).engine ≠ .sending →
            ((s.setLine d.line { s.line d.line with exch := some { ex with orphan := true } }).setChain c
              (s.chain c).gone).exchangeFiled t d.line { ex with orphan := true } .aborted) ∧
          ((s.line d.line).engine = .sending →
            t.line d.line = { s.line d.line with
              demand := { (s.line d.line).demand with round := ex.powered },
              exch := some { ex with orphan := true, pendingEnd := some (ex.pendingEnd.getD .aborted) } })

/-- R56, R48, R49, R90, R93: the expiry of a round timer that is due, by the chain's state: an ARMED chain starts a round,
and where powering its line up meets an overload it is HELD at the head; a RUNNING or HELD one is marked round-due. An expiry
acts only on a timer that is due (R64, log 4). -/
def Obligations.RoundTimerExpiryByTheStateOfTheChain : Prop :=
  ∀ (c : Fin 8) (ch : Chain) (s : State), ch = s.chain c →
    (ch.timer.due s.count = false → exec (.roundTimerExpiry c) s = .next s) ∧
    (ch.timer.due s.count = true →
      (ch.state = .running ∨ ch.state = .held →
        exec (.roundTimerExpiry c) s = .next (s.setChain c { ch with timer := .expired, roundDue := true })) ∧
      (ch.state = .stopping ∨ ch.state = .idle →
        exec (.roundTimerExpiry c) s = .next (s.setChain c { ch with timer := .expired })) ∧
      ∀ (d : ChainDef) (x : Line), ch.state = .armed → ch.defn = some d → x = s.line d.line → partSound s →
        (s.entryOn d.head d.line = false →
          ∃ a, s.attn.gained a .chainFault c.val ∧
            exec (.roundTimerExpiry c) s =
              .next ({ s with attn := a }.setChain c { ch.gone with reason := .headGone })) ∧
        (s.entryOn d.head d.line = true → x.power = .fault →
          exec (.roundTimerExpiry c) s =
            .next ((s.setChain c { ch.inNewRound d s.count with state := .held, position := none }).setLine d.line
              { x with held := some { entry := d.head, reason := .next, owner := c }, heldCount := 0 })) ∧
        (s.entryOn d.head d.line = true → x.power = .off → d.powered = false →
          ∃ a, s.attn.gained a .chainFault c.val ∧
            exec (.roundTimerExpiry c) s =
              .next ({ s with attn := a }.setChain c { ch.gone with reason := .lineOff })) ∧
        (s.entryOn d.head d.line = true → x.power ≠ .fault → (x.power ≠ .off ∨ (d.powered = true ∧ x.lnOvl = false)) →
          exec (.roundTimerExpiry c) s =
            .next ((s.setChain c (ch.inNewRound d s.count)).setLine d.line (x.roundStarted d s.count))) ∧
        (s.entryOn d.head d.line = true → x.power = .off → d.powered = true → x.lnOvl = true →
          ∃ t : State, exec (.roundTimerExpiry c) s = .next t ∧ (t.line d.line).power = .fault ∧
            (t.line d.line).demand = DemandSet.empty ∧
            t.chain c = { ch.inNewRound d s.count with state := .held, position := none } ∧
            (∀ c', c' ≠ c → t.chain c' = s.chain c') ∧
            (t.line d.line).held = some { entry := d.head, reason := .next, owner := c } ∧
            (t.line d.line).heldCount = 0 ∧ (t.attn.set .lineFault).getLsbD d.line.val = true))

/-- R51, R52, R53, R55, R48, R60: what the end of a scan exchange does to its chain and, through a hold or a chain fault, to
nothing else but the held position of the line and the classes CHAIN-DONE and CHAIN-FAULT. A late round starts by the power
of the line: RUNNING at the head, HELD at it with reason NEXT on a line in FAULT, or chain fault LINE-OFF on a line that is
OFF where the chain is not powered; where the head is gone it faults HEAD-GONE. -/
def Obligations.ScanExchangeEndMovesItsChain : Prop :=
  ∀ (c : Fin 8) (l : Fin 4) (ex : Exchange) (o : ExchOutcome) (d : ChainDef) (ch : Chain) (s : State),
    ch = s.chain c → ch.defn = some d →
    (ch.inFlight = false ∨ ex.orphan = true → s.scanEnd c l ex o = s) ∧
    (ch.inFlight = true → ex.orphan = false →
      (ch.state = .stopping → s.scanEnd c l ex o = s.setChain c ch.gone) ∧
      (ch.state = .running → o = .preempted ∨ o = .lineFault →
        s.scanEnd c l ex o =
          (s.setChain c { ch with state := .held, position := none, inFlight := false }).setLine l { s.line l with
            held := some { entry := ex.entry, reason := .again, owner := c }, heldCount := 0 }) ∧
      (ch.state = .running → o ≠ .preempted → o ≠ .lineFault →
        (∀ k, ex.copy.link = some k →
          (128 ≤ ch.taken →
            ∃ a, s.attn.gained a .chainFault c.val ∧
              s.scanEnd c l ex o = { s with attn := a }.setChain c { ch.gone with reason := .loop }) ∧
          (ch.taken < 128 → s.entryOn k d.line = true →
            s.scanEnd c l ex o = s.setChain c { ch with position := some k, inFlight := false }) ∧
          (ch.taken < 128 → s.entryOn k d.line = false →
            ∃ a, s.attn.gained a .chainFault c.val ∧
              s.scanEnd c l ex o = { s with attn := a }.setChain c { ch.gone with reason := .badLink })) ∧
        (ex.copy.link = none →
          ∃ a, (if d.notify = true ∨ d.period = 0 then s.attn.gained a .chainDone c.val else a = s.attn) ∧
            (d.period = 0 →
              s.scanEnd c l ex o = { s with attn := a }.setChain c { ch.gone with rounds := ch.rounds + 1 }) ∧
            (d.period ≠ 0 → ch.roundDue = false →
              s.scanEnd c l ex o = { s with attn := a }.setChain c
                { ch with state := .armed, position := none, inFlight := false, rounds := ch.rounds + 1 }) ∧
            (d.period ≠ 0 → ch.roundDue = true → s.entryOn d.head d.line = true →
              ((s.line d.line).power ≠ .fault → (s.line d.line).power ≠ .off ∨ d.powered = true →
                s.scanEnd c l ex o = { s with attn := a }.setChain c
                  ({ ch with rounds := ch.rounds + 1, late := min 255 (ch.late + 1) }.inNewRound d s.count)) ∧
              ((s.line d.line).power = .fault →
                s.scanEnd c l ex o = ({ s with attn := a }.setChain c
                  { { ch with rounds := ch.rounds + 1, late := min 255 (ch.late + 1) }.inNewRound d s.count with
                    state := .held, position := none }).setLine d.line { s.line d.line with
                      held := some { entry := d.head, reason := .next, owner := c }, heldCount := 0 }) ∧
              ((s.line d.line).power = .off → d.powered = false →
                ∃ b, a.gained b .chainFault c.val ∧
                  s.scanEnd c l ex o = { s with attn := b }.setChain c
                    { ch.gone with rounds := ch.rounds + 1, late := min 255 (ch.late + 1), reason := .lineOff })) ∧
            (d.period ≠ 0 → ch.roundDue = true → s.entryOn d.head d.line = false →
              ∃ b, a.gained b .chainFault c.val ∧
                s.scanEnd c l ex o = { s with attn := b }.setChain c
                  { ch.gone with rounds := ch.rounds + 1, late := min 255 (ch.late + 1), reason := .headGone }))))

/-! ### Injected requests and the scheduler -/

/-- R69, R70, R71, R67, R90, R93: ASK checks in the order of R69; it merges with a queued element of the entry, promoting it
where PROMPT is asked URGENT, or appends a new one, the ASK demand powering an OFF line up. What an URGENT request does to a
scan exchange in flight is stated by `UrgentRequestPreemptsAScanExchange`. -/
def Obligations.AskAppendsOrMergesARequest : Prop :=
  ∀ (tag entry level : Byte) (s : State), s.ready →
    (127 < entry.toNat ∨ 1 < level.toNat → exec (.ask tag entry level) s = .next (s.replying 0xC0 tag [0x14])) ∧
    ∀ (e : Fin 128) (lv : Level), entry = finByte e → level = lv.code →
      (s.entry e = none → exec (.ask tag entry level) s = .next (s.replying 0xC0 tag [0x13])) ∧
      ∀ (p : PlanEntry) (x : Line), s.entry e = some p → x = s.line p.line →
        (x.settings.mode = .listen ∨ x.power = .fault ∨ (x.power = .off ∧ x.settings.autoPower = false) →
          exec (.ask tag entry level) s = .next (s.replying 0xC0 tag [0x11])) ∧
        (x.settings.mode = .framed → x.power ≠ .fault → (x.power = .off → x.settings.autoPower = true) → linesSound s →
          (∀ q ∈ x.queue, q.entry = e →
            (q.level = .urgent ∨ lv = .prompt →
              exec (.ask tag entry level) s =
                .next ((s.setLine p.line { x with
                  queue := x.queue.map fun y =>
                    if y.entry = e then { y with merged := min 255 (y.merged + 1) } else y }).replying 0xC0 tag
                  [0x01, q.level.code, natByte (min 255 (q.merged + 1)),
                    natByte (x.queue.findIdx fun y => decide (y.entry = e))])) ∧
            (q.level = .prompt → lv = .urgent → ¬ x.scanInFlight →
              exec (.ask tag entry level) s =
                .next ((s.setLine p.line { x with
                  queue := urgentPlaced { q with level := .urgent, merged := min 255 (q.merged + 1) }
                    (x.queue.filter fun y => decide (y.entry ≠ e)) }).replying 0xC0 tag
                  [0x01, 0, natByte (min 255 (q.merged + 1)),
                    natByte (x.queue.takeWhile fun y => decide (y.level = .urgent)).length]))) ∧
          ((∀ q ∈ x.queue, q.entry ≠ e) →
            (8 ≤ x.queue.length → exec (.ask tag entry level) s = .next (s.replying 0xC0 tag [0x12])) ∧
            ∀ (new : Injected) (queue : List Injected) (place : Nat), x.queue.length < 8 →
              new = { entry := e, level := lv, origin := .host, merged := 0, arrival := s.count } →
              (lv = .prompt → queue = x.queue ++ [new] ∧ place = x.queue.length) →
              (lv = .urgent → queue = urgentPlaced new x.queue ∧
                place = (x.queue.takeWhile fun y => decide (y.level = .urgent)).length) →
              (lv = .prompt ∨ ¬ x.scanInFlight) →
              (x.power ≠ .off →
                exec (.ask tag entry level) s =
                  .next ((s.setLine p.line { x with queue, demand := { x.demand with ask := true } }).replying 0xC0 tag
                    [0x00, lv.code, 0, natByte place])) ∧
              (x.power = .off → x.lnOvl = false →
                exec (.ask tag entry level) s =
                  .next ((s.setLine p.line
                    ({ x with queue, demand := { x.demand with ask := true } }.poweringUp s.count)).replying 0xC0 tag
                    [0x00, lv.code, 0, natByte place])) ∧
              (x.power = .off → x.lnOvl = true →
                ∃ t : State, exec (.ask tag entry level) s = .next (t.replying 0xC0 tag [0x00, lv.code, 0, 0]) ∧
                  (t.line p.line).power = .fault ∧ (t.line p.line).queue = [] ∧
                  (t.attn.set .lineFault).getLsbD p.line.val = true ∧
                  t.store p.line =
                    if p.policy.offers .lineFault then
                      (s.store p.line).offered (queuedRecord new p.station s.count)
                    else s.store p.line)))

/-- R83, R84, R85, R37, R51, R68: an URGENT request that is appended, or a promotion, ends a scan exchange in flight with
PREEMPTED, at once or, in SENDING, as its pending end; a RUNNING chain goes HELD at the entry with reason AGAIN, a STOPPING
one IDLE. The demand set is judged once, at the end (log 13). -/
def Obligations.UrgentRequestPreemptsAScanExchange : Prop :=
  ∀ (tag : Byte) (e : Fin 128) (p : PlanEntry) (x : Line) (ex : Exchange) (c : Fin 8) (queue : List Injected)
    (body : List Byte) (place : Nat) (s : State), s.ready → partSound s → s.entry e = some p → x = s.line p.line →
    x.exch = some ex → ex.origin = .chain c →
    place = (x.queue.takeWhile fun y => decide (y.level = .urgent)).length →
    (((∀ q ∈ x.queue, q.entry ≠ e) ∧ x.queue.length < 8 ∧ body = [0x00, 0, 0, natByte place] ∧
        queue = urgentPlaced { entry := e, level := .urgent, origin := .host, merged := 0, arrival := s.count } x.queue) ∨
      ∃ q ∈ x.queue, q.entry = e ∧ q.level = .prompt ∧ body = [0x01, 0, natByte (min 255 (q.merged + 1)), natByte place] ∧
        queue = urgentPlaced { q with level := .urgent, merged := min 255 (q.merged + 1) }
          (x.queue.filter fun y => decide (y.entry ≠ e))) →
    (x.engine = .sending →
      exec (.ask tag (finByte e) 0) s =
        .next ((s.setLine p.line { x with
          queue, demand := { x.demand with ask := true },
          exch := some { ex with pendingEnd := some (ex.pendingEnd.getD .preempted) } }).replying 0xC0 tag body)) ∧
    (x.engine ≠ .sending → ex.orphan = false →
      ∃ t : State, exec (.ask tag (finByte e) 0) s = .next (t.replying 0xC0 tag body) ∧
        (s.setLine p.line { x with queue, demand := { x.demand with ask := true } }).exchangeFiled t p.line ex .preempted ∧
        (t.line p.line).queue = queue ∧
        (t.line p.line).demand.ask = true ∧
        ((s.chain c).state = .running →
          t.chain c = { s.chain c with state := .held, position := none, inFlight := false } ∧
            (t.line p.line).held = some { entry := ex.entry, reason := .again, owner := c } ∧
            (t.line p.line).heldCount = 0) ∧
        ((s.chain c).state = .stopping → t.chain c = (s.chain c).gone ∧ (t.line p.line).held = none))

/-- R74, R82, R91, R92, R61: ASK-CANCEL removes the queued element of the entry; the ASK demand leaves with the last one
unless an injected exchange is in flight, and the line goes OFF if no demand remains and no exchange is in flight (log 12). A
RUNNING or HELD chain on a line that goes OFF takes chain fault LINE-OFF; an ARMED one stays. -/
def Obligations.AskCancelRemovesTheQueuedElement : Prop :=
  ∀ (tag entry : Byte) (s : State), s.ready →
    (127 < entry.toNat → exec (.askCancel tag entry) s = .next (s.replying 0xC1 tag [0x14])) ∧
    ∀ e : Fin 128, entry = finByte e →
      (s.entry e = none → exec (.askCancel tag entry) s = .next (s.replying 0xC1 tag [0x13])) ∧
      ∀ (p : PlanEntry) (x : Line), s.entry e = some p → x = s.line p.line →
        ((∀ q ∈ x.queue, q.entry ≠ e) → exec (.askCancel tag entry) s = .next (s.replying 0xC1 tag [0x13])) ∧
        ((∃ q ∈ x.queue, q.entry = e) → partSound s →
          ∃ (t : State) (a : Bool), exec (.askCancel tag entry) s = .next (t.replying 0xC1 tag [0x00]) ∧
            (a = true ↔ (∃ q ∈ x.queue, q.entry ≠ e) ∨ ∃ ex, x.exch = some ex ∧ ∀ c, ex.origin ≠ .chain c) ∧
            (t.line p.line).queue = x.queue.filter (fun y => decide (y.entry ≠ e)) ∧ (t.line p.line).exch = x.exch ∧
            (t.line p.line).demand = { x.demand with ask := a } ∧ (∀ k, k ≠ p.line → t.line k = s.line k) ∧
            (x.demand.host = true ∨ x.demand.round = true ∨ a = true ∨ x.exch ≠ none →
              t = s.setLine p.line { x with
                queue := x.queue.filter (fun y => decide (y.entry ≠ e)), demand := { x.demand with ask := a } }) ∧
            (x.demand.host = false → x.demand.round = false → a = false → x.exch = none →
              (t.line p.line).power = .off ∧ (t.line p.line).lnPwr = false ∧
                (s.setLine p.line { x with
                  queue := x.queue.filter (fun y => decide (y.entry ≠ e)), demand := DemandSet.empty }).goneOff t p.line))

/-- R76, R165, R163, R167: QUEUE-READ shows the queue in order, the held position and the held count, and changes nothing. The
reason and owner of a clear held position are 0xFF (log 21). -/
def Obligations.QueueReadShowsTheQueue : Prop :=
  [Level.urgent, .prompt].map Level.code = [0, 1] ∧
  ∀ (tag line : Byte) (s : State), s.ready →
    (3 < line.toNat → exec (.queueRead tag line) s = .next (s.replying 0xC2 tag [0x14])) ∧
    ∀ (l : Fin 4) (x : Line), line = finByte l → x = s.line l →
      exec (.queueRead tag line) s = .next (s.replying 0xC2 tag
        ([0x00, finByte l, natByte x.queue.length] ++
          (match x.held with
            | some h => [finByte h.entry, h.reason.code, finByte h.owner]
            | none => [0xFF, 0xFF, 0xFF]) ++ [natByte x.heldCount] ++
          x.queue.flatMap fun q =>
            [finByte q.entry, q.level.code] ++ q.origin.code ++ [natByte q.merged] ++ le32 q.arrival))

/-- R77, R78, R79, R80, R81, R50, R18, R12: the choice of a free line, in the order of R78; a line that is not free, or has no
work, makes none. The choice is a command of its own (log 10). -/
def Obligations.SchedulerTakesTheFirstChoiceThatApplies : Prop :=
  ∀ (l : Fin 4) (x : Line) (s : State), x = s.line l →
    (x.power ≠ .on ∨ x.settings.mode = .listen ∨ x.exch ≠ none → exec (.schedulerChoice l) s = .next s) ∧
    (x.power = .on → x.settings.mode = .framed → x.exch = none → partSound s →
      (∀ (h : Held) (p : PlanEntry), x.held = some h → x.heldCount = 8 ∨ x.queue = [] → s.entry h.entry = some p →
        p.line = l →
        exec (.schedulerChoice l) s =
          .next ((s.setChain h.owner { s.chain h.owner with
            state := .running, position := some h.entry, inFlight := true,
            taken := (s.chain h.owner).taken + if h.reason = .next then 1 else 0 }).setLine l { x with
              held := none, heldCount := 0, engine := .gapWait,
              exch := some (freshExchange p h.entry (.chain h.owner) (decide (h.reason = .again)) 0
                (s.chain h.owner).isPowered) })) ∧
      (∀ h : Held, x.held = some h → x.heldCount = 8 ∨ x.queue = [] → s.entryOn h.entry l = false →
        h.reason = .next ∧
        ∃ t : State, exec (.schedulerChoice l) s = .next t ∧ (t.line l).held = none ∧ (t.line l).heldCount = 0 ∧
          (t.line l).exch = none ∧ (t.line l).queue = x.queue ∧ (t.attn.set .chainFault).getLsbD h.owner.val = true ∧
          t.chain h.owner =
            { (s.chain h.owner).gone with reason := if (s.chain h.owner).taken = 0 then .headGone else .badLink }) ∧
      (∀ (q : Injected) (rest : List Injected) (y : Line), x.queue = q :: rest → x.held = none ∨ x.heldCount ≠ 8 →
        ∃ p, s.entry q.entry = some p ∧
          (y = { x with
              queue := rest, engine := .gapWait,
              exch := some (freshExchange p q.entry q.origin false q.merged false) } →
            ((∀ c, (s.chain c).onLine l = true → (s.chain c).state = .running → (s.chain c).inFlight = true) →
              exec (.schedulerChoice l) s = .next (s.setLine l y)) ∧
            ∀ c e, (s.chain c).onLine l = true → (s.chain c).state = .running → (s.chain c).inFlight = false →
              (s.chain c).position = some e →
              exec (.schedulerChoice l) s =
                .next ((s.setChain c { s.chain c with state := .held, position := none }).setLine l { y with
                  held := some { entry := e, reason := .next, owner := c }, heldCount := 0 }))) ∧
      (x.held = none → x.queue = [] →
        (∀ c e, (s.chain c).onLine l = true → (s.chain c).state = .running → (s.chain c).inFlight = false →
          (s.chain c).position = some e →
          (∀ p, s.entry e = some p → p.line = l →
            exec (.schedulerChoice l) s =
              .next ((s.setChain c { s.chain c with inFlight := true, taken := (s.chain c).taken + 1 }).setLine l { x with
                engine := .gapWait,
                exch := some (freshExchange p e (.chain c) false 0 (s.chain c).isPowered) })) ∧
          (s.entryOn e l = false →
            ∃ t : State, exec (.schedulerChoice l) s = .next t ∧ (t.line l).exch = none ∧
              (t.attn.set .chainFault).getLsbD c.val = true ∧
              t.chain c = { (s.chain c).gone with reason := if (s.chain c).taken = 0 then .headGone else .badLink })) ∧
        ((∀ c, (s.chain c).onLine l = true → (s.chain c).state = .running → (s.chain c).inFlight = true) →
          exec (.schedulerChoice l) s = .next s)))

/-! ### The Reply Store -/

/-- R108, R109, R110, R116: a record offered to a store takes the next sequence number and is appended if it fits, with GAP if
gap-pending is set, or dropped, gap-pending being set and STORE-FULL raised. Nothing else changes. -/
def Obligations.OfferedRecordIsAppendedOrDropped : Prop :=
  ∀ (l : Fin 4) (r : Record) (st : Store) (s : State), st = s.store l →
    ∃ t : State, s.offer l r = t ∧ t = { s with stores := t.stores, attn := t.attn } ∧
      (∀ k, k ≠ l → t.store k = s.store k) ∧
      (st.records.length < 32 → st.payloadBytes + r.payloadLen ≤ 2048 →
        t.store l = { records := st.records ++ [{ r with seq := st.nextSeq, gap := st.gapPending }]
                      nextSeq := st.nextSeq + 1
                      gapPending := false } ∧ s.levelJudged t l) ∧
      (32 ≤ st.records.length ∨ 2048 < st.payloadBytes + r.payloadLen →
        t.store l = { st with nextSeq := st.nextSeq + 1, gapPending := true } ∧
          s.attn.gained t.attn .storeFull l.val)

/-- R112, R166, R167, R116: FETCH answers with the oldest record and the number that remain; with release yes the record is
removed and STORE-LEVEL judged again. -/
def Obligations.FetchShowsTheOldestRecord : Prop :=
  [RecordKind.exchange, .capture].map RecordKind.code = [0, 1] ∧
  ∀ (tag line : Byte) (s : State), s.ready →
    (3 < line.toNat →
      exec (.fetch tag line) s = .next (s.replying 0xD0 tag [0x14]) ∧
        exec (.fetchWithRelease tag line) s = .next (s.replying 0xD0 tag [0x14])) ∧
    ∀ l : Fin 4, line = finByte l →
      ((s.store l).records = [] →
        exec (.fetch tag line) s = .next (s.replying 0xD0 tag [0x02]) ∧
          exec (.fetchWithRelease tag line) s = .next (s.replying 0xD0 tag [0x02])) ∧
      ∀ r rest, (s.store l).records = r :: rest →
        ∃ (flags : Byte) (t : State), flags.getLsbD 0 = r.gap ∧ flags.getLsbD 1 = r.restored ∧
          flags.getLsbD 2 = r.parity ∧ flags.getLsbD 3 = r.replyControl.isSome ∧ flags.getLsbD 4 = r.payload.isSome ∧
          (∀ k, 5 ≤ k → flags.getLsbD k = false) ∧
          exec (.fetch tag line) s =
            .next (s.replying 0xD0 tag ([0x00, natByte (rest.length + 1)] ++ recordLayout r flags)) ∧
          exec (.fetchWithRelease tag line) s =
            .next (t.replying 0xD0 tag ([0x00, natByte rest.length] ++ recordLayout r flags)) ∧
          t = { s with stores := t.stores, attn := t.attn } ∧ t.store l = { s.store l with records := rest } ∧
          (∀ k, k ≠ l → t.store k = s.store k) ∧ s.levelJudged t l

/-- R113, R116: RELEASE removes the oldest record when it carries its sequence number, and otherwise nothing; the reply
carries the number of records that remain. -/
def Obligations.ReleaseRemovesOnlyTheOldestNamed : Prop :=
  ∀ (tag line : Byte) (sequence : Half) (s : State), s.ready →
    (3 < line.toNat → exec (.release tag line sequence) s = .next (s.replying 0xD1 tag [0x14])) ∧
    ∀ l : Fin 4, line = finByte l →
      ((s.store l).records = [] → exec (.release tag line sequence) s = .next (s.replying 0xD1 tag [0x02, 0])) ∧
      ∀ r rest, (s.store l).records = r :: rest →
        (r.seq ≠ sequence →
          exec (.release tag line sequence) s = .next (s.replying 0xD1 tag [0x13, natByte (rest.length + 1)])) ∧
        (r.seq = sequence →
          ∃ t : State, exec (.release tag line sequence) s = .next (t.replying 0xD1 tag [0x00, natByte rest.length]) ∧
            t = { s with stores := t.stores, attn := t.attn } ∧ t.store l = { s.store l with records := rest } ∧
            (∀ k, k ≠ l → t.store k = s.store k) ∧ s.levelJudged t l)

/-- R114, R116: STORE-CLEAR removes every record, keeps the next sequence and gap-pending, and answers with the number
removed. -/
def Obligations.StoreClearRemovesEveryRecord : Prop :=
  ∀ (tag line : Byte) (s : State), s.ready →
    (3 < line.toNat → exec (.storeClear tag line) s = .next (s.replying 0xD2 tag [0x14])) ∧
    ∀ l : Fin 4, line = finByte l →
      ∃ t : State,
        exec (.storeClear tag line) s = .next (t.replying 0xD2 tag [0x00, natByte (s.store l).records.length]) ∧
          t = { s with stores := t.stores, attn := t.attn } ∧
          t.store l = { records := [], nextSeq := (s.store l).nextSeq, gapPending := (s.store l).gapPending } ∧
          (∀ k, k ≠ l → t.store k = s.store k) ∧ s.levelJudged t l

/-- R104, R111: every step keeps each store within 32 records and 2048 payload bytes, and its records numbered one after
another except where a record carries GAP. -/
def Obligations.EveryStepKeepsTheStoresSound : Prop :=
  ∀ s t : State, storesSound s → step s = .next t → storesSound t

/-! ### Watches -/

/-- R121: WATCH-WRITE checks the length that its action declares, the ranges and the order of the limits, and makes the watch
DEFINED with its dynamic fields cleared. The command carries the injection bytes whatever its action is (log 18). -/
def Obligations.WatchWriteDefinesAClearedWatch : Prop :=
  ∀ (tag watch entry offset start width signed : Byte) (low high : Word) (hyst : Half) (action : Byte)
    (inj : Option (Byte × Byte)) (s : State), s.ready →
    ((action.toNat ≤ 1 ∧ inj ≠ none) ∨ (2 ≤ action.toNat ∧ action.toNat ≤ 3 ∧ inj = none) →
      exec (.watchWrite tag watch entry offset start width signed low high hyst action inj) s =
        .next (s.replying 0xE0 tag [0x15])) ∧
    ((action.toNat ≤ 1 → inj = none) → (2 ≤ action.toNat → action.toNat ≤ 3 → inj ≠ none) →
      31 < watch.toNat ∨ 127 < entry.toNat ∨ 199 < offset.toNat ∨ 7 < start.toNat ∨ width.toNat = 0 ∨ 32 < width.toNat ∨
        1 < signed.toNat ∨ 3 < action.toNat ∨ (∃ g v, inj = some (g, v) ∧ (127 < g.toNat ∨ 1 < v.toNat)) ∨
        (signed = 1 ∧ high.toInt < low.toInt) ∨ (signed = 0 ∧ high.toNat < low.toNat) →
      exec (.watchWrite tag watch entry offset start width signed low high hyst action inj) s =
        .next (s.replying 0xE0 tag [0x14])) ∧
    ∀ (w : Fin 32) (x : Watch), watch = finByte w → entry = finByte x.entry → offset.toNat = x.offset → x.offset ≤ 199 →
      start.toNat = x.startBit → x.startBit ≤ 7 → width.toNat = x.width → 1 ≤ x.width → x.width ≤ 32 →
      signed = boolByte x.signed → low = x.low → high = x.high → hyst = x.hysteresis →
      (match x.action with
        | .none => action = 0 ∧ inj = none
        | .notice => action = 1 ∧ inj = none
        | .inject g v => action = 2 ∧ inj = some (finByte g, v.code)
        | .noticeInject g v => action = 3 ∧ inj = some (finByte g, v.code)) →
      (x.signed = true → x.low.toInt ≤ x.high.toInt) → (x.signed = false → x.low.toNat ≤ x.high.toNat) →
      exec (.watchWrite tag watch entry offset start width signed low high hyst action inj) s =
        .next ((s.setWatch w (some x.cleared)).replying 0xE0 tag [0x00])

/-- R122, R120, R165, R167: WATCH-READ shows a watch and changes nothing; for an UNUSED watch the definition bytes are those
of log 21. -/
def Obligations.WatchReadShowsTheWatch : Prop :=
  ([Zone.unknown, .low, .normal, .high].map Zone.code = [0, 1, 2, 3] ∧
    [WatchStatus.never, .fresh, .missing, .stale].map WatchStatus.code = [0, 1, 2, 3] ∧
    [ActionResult.none, .queued, .merged, .refused].map ActionResult.code = [0, 1, 2, 3]) ∧
  ∀ (tag watch : Byte) (s : State), s.ready →
    (31 < watch.toNat → exec (.watchRead tag watch) s = .next (s.replying 0xE1 tag [0x14])) ∧
    ∀ w : Fin 32, watch = finByte w →
      (s.watch w = none →
        exec (.watchRead tag watch) s = .next (s.replying 0xE1 tag
          [0x00, finByte w, 0, 0xFF, 0xFF, 0xFF, 0xFF, 0xFF, 0, 0, 0, 0, 0, 0, 0, 0, 0, 0, 0xFF, 0xFF, 0xFF,
            0, 0, 0, 0, 0, 0, 0, 0, 0, 0, 0])) ∧
      ∀ x, s.watch w = some x →
        exec (.watchRead tag watch) s = .next (s.replying 0xE1 tag
          ([0x00, finByte w, 1, finByte x.entry, natByte x.offset, natByte x.startBit, natByte x.width,
            boolByte x.signed] ++ le32 x.low ++ le32 x.high ++ le16 x.hysteresis ++
            (match x.action with
              | .none => [0, 0xFF, 0xFF]
              | .notice => [1, 0xFF, 0xFF]
              | .inject g v => [2, finByte g, v.code]
              | .noticeInject g v => [3, finByte g, v.code]) ++
            [x.zone.code] ++ le32 x.value ++ le32 x.valueTime ++ [x.status.code, x.lastAction.code]))

/-- R123: WATCH-ERASE makes a watch UNUSED and changes nothing else. -/
def Obligations.WatchEraseFreesTheWatch : Prop :=
  ∀ (tag watch : Byte) (s : State), s.ready →
    (31 < watch.toNat → exec (.watchErase tag watch) s = .next (s.replying 0xE2 tag [0x14])) ∧
    ∀ w : Fin 32, watch = finByte w →
      (s.watch w = none → exec (.watchErase tag watch) s = .next (s.replying 0xE2 tag [0x13])) ∧
      (s.watch w ≠ none → exec (.watchErase tag watch) s = .next ((s.setWatch w none).replying 0xE2 tag [0x00]))

/-- R124: VALUES-READ shows status, zone, value and value time of consecutive watches, and changes nothing. -/
def Obligations.ValuesReadShowsConsecutiveWatches : Prop :=
  ∀ (tag first count : Byte) (s : State), s.ready →
    (count.toNat = 0 ∨ 24 < count.toNat ∨ 32 < first.toNat + count.toNat →
      exec (.valuesRead tag first count) s = .next (s.replying 0xE3 tag [0x14])) ∧
    (1 ≤ count.toNat → count.toNat ≤ 24 → first.toNat + count.toNat ≤ 32 →
      ∃ body : List Byte, exec (.valuesRead tag first count) s = .next (s.replying 0xE3 tag body) ∧
        body.length = 3 + 10 * count.toNat ∧
        body = [0x00, first, count] ++
          (((List.finRange 32).drop first.toNat).take count.toNat).flatMap fun w => valueLayout (s.watch w))

/-- R126, R127, R128: bit `i` of the field is bit `start + i` counted from the byte at the offset; the value is read in the
field's signedness; the zone follows from the zone before and the value, by the table of R128. -/
def Obligations.WatchFieldAndZoneFollowThePayload : Prop :=
  ∀ (w : Watch) (payload : List Byte),
    (w.offset + (w.startBit + w.width + 7) / 8 ≤ payload.length → 1 ≤ w.width →
      (∀ i, (w.rawField payload).testBit i =
        (decide (i < w.width) &&
          (payload.getD (w.offset + (w.startBit + i) / 8) 0).getLsbD ((w.startBit + i) % 8))) ∧
      w.take? payload = some
        (if w.signed = true ∧ (w.rawField payload).testBit (w.width - 1) = true then
          (w.rawField payload : Int) - 2 ^ w.width
        else (w.rawField payload : Int))) ∧
    (payload.length < w.offset + (w.startBit + w.width + 7) / 8 → w.take? payload = none) ∧
    ∀ v low high hyst : Int, low = (if w.signed then w.low.toInt else (w.low.toNat : Int)) →
      high = (if w.signed then w.high.toInt else (w.high.toNat : Int)) → hyst = (w.hysteresis.toNat : Int) → low ≤ high →
      (w.zone = .unknown ∨ w.zone = .normal →
        (v < low → w.zoneFor v = .low) ∧ (high < v → w.zoneFor v = .high) ∧
          (low ≤ v → v ≤ high → w.zoneFor v = .normal)) ∧
      (w.zone = .low →
        (high < v → w.zoneFor v = .high) ∧ (v ≤ high → low + hyst ≤ v → w.zoneFor v = .normal) ∧
          (v ≤ high → v < low + hyst → w.zoneFor v = .low)) ∧
      (w.zone = .high →
        (v < low → w.zoneFor v = .low) ∧ (low ≤ v → v ≤ high - hyst → w.zoneFor v = .normal) ∧
          (low ≤ v → high - hyst < v → w.zoneFor v = .high))

/-- R125, R128, R129, R130, R131, R72, R69, R70, R71, R67, R83, R90: what the evaluation of the watches does to each watch,
by the outcome of the exchange; one watch at a time, in ascending number; and what a watch trigger does: as an ASK by the
host (R69, R70), but a new element carries origin WATCH w, and the result is kept as the watch's last action result. Where it
ends an exchange, the demand set is judged last (log 13). -/
def Obligations.WatchEvaluationByTheOutcome : Prop :=
  (∀ (s t : State) (e : Fin 128) (o : ExchOutcome) (payload : List Byte) (w : Fin 32), linesSound s →
    t = s.evalWatches watchTrigger e o payload →
    (s.watch w = none → t.watch w = none) ∧
    ∀ x, s.watch w = some x →
      (x.entry ≠ e ∨ o = .preempted ∨ o = .aborted → t.watch w = some x) ∧
      (x.entry = e → o ≠ .ok → o ≠ .preempted → o ≠ .aborted → t.watch w = some { x with status := .stale }) ∧
      (x.entry = e → o = .ok → x.take? payload = none → t.watch w = some { x with status := .missing }) ∧
      ∀ v, x.entry = e → o = .ok → x.take? payload = some v →
        ∃ r, t.watch w = some { x with
            zone := x.zoneFor v, value := BitVec.ofInt 32 v, valueTime := s.count, status := .fresh, lastAction := r } ∧
          (x.zoneFor v = x.zone ∨ (x.zone = .unknown ∧ x.zoneFor v = .normal) ∨ x.action = .none ∨ x.action = .notice →
            r = x.lastAction) ∧
          (x.zoneFor v ≠ x.zone → ¬(x.zone = .unknown ∧ x.zoneFor v = .normal) →
            ((x.action = .notice ∨ ∃ g lv, x.action = .noticeInject g lv) → (t.attn.set .watch).getLsbD w.val = true) ∧
            ((∃ g lv, x.action = .inject g lv ∨ x.action = .noticeInject g lv) →
              r = .queued ∨ r = .merged ∨ r = .refused))) ∧
  (∀ (s : State) (e : Fin 128) (o : ExchOutcome) (payload : List Byte),
    s.evalWatches watchTrigger e o payload =
      (List.finRange 32).foldl (fun u w => u.evalWatch watchTrigger e o payload w) s) ∧
  (∀ (s u : State) (w : Fin 32) (x y : Watch) (payload : List Byte) (v : Int) (g : Fin 128) (lv : Level), linesSound s →
    s.watch w = some x → x.take? payload = some v → x.zoneFor v ≠ x.zone →
    ¬(x.zone = .unknown ∧ x.zoneFor v = .normal) →
    y = { x with zone := x.zoneFor v, value := BitVec.ofInt 32 v, valueTime := s.count, status := .fresh } →
    (x.action = .inject g lv ∧ u = s.setWatch w (some y)) ∨
      (x.action = .noticeInject g lv ∧ u = (s.setWatch w (some y)).raise .watch w.val) →
    s.evalWatch watchTrigger x.entry .ok payload w =
      (watchTrigger w g lv u).1.setWatch w (some { y with lastAction := (watchTrigger w g lv u).2 })) ∧
  ∀ (s : State) (w : Fin 32) (g : Fin 128) (lv : Level), linesSound s →
    (s.entry g = none → watchTrigger w g lv s = (s, .refused)) ∧
    ∀ (p : PlanEntry) (x : Line), s.entry g = some p → x = s.line p.line →
      (x.settings.mode = .listen ∨ x.power = .fault ∨ (x.power = .off ∧ x.settings.autoPower = false) →
        watchTrigger w g lv s = (s, .refused)) ∧
      (x.settings.mode = .framed → x.power ≠ .fault → (x.power = .off → x.settings.autoPower = true) →
        (∀ q ∈ x.queue, q.entry = g →
          (q.level = .urgent ∨ lv = .prompt →
            watchTrigger w g lv s =
              (s.setLine p.line { x with
                queue := x.queue.map fun y =>
                  if y.entry = g then { y with merged := min 255 (y.merged + 1) } else y }, .merged)) ∧
          (q.level = .prompt → lv = .urgent →
            ∃ t : State, watchTrigger w g lv s = (t, .merged) ∧
              (s.setLine p.line { x with
                queue := urgentPlaced { q with level := .urgent, merged := min 255 (q.merged + 1) }
                  (x.queue.filter fun y => decide (y.entry ≠ g)) }).preempted t p.line)) ∧
        ((∀ q ∈ x.queue, q.entry ≠ g) →
          (8 ≤ x.queue.length → watchTrigger w g lv s = (s, .refused)) ∧
          ∀ (new : Injected) (queue : List Injected) (y : Line), x.queue.length < 8 →
            new = { entry := g, level := lv, origin := .watch w, merged := 0, arrival := s.count } →
            (lv = .prompt → queue = x.queue ++ [new]) → (lv = .urgent → queue = urgentPlaced new x.queue) →
            y = { x with queue, demand := { x.demand with ask := true } } →
            (x.power ≠ .off → lv = .prompt → watchTrigger w g lv s = (s.setLine p.line y, .queued)) ∧
            (x.power ≠ .off → lv = .urgent →
              ∃ t : State, watchTrigger w g lv s = (t, .queued) ∧ (s.setLine p.line y).preempted t p.line) ∧
            (x.power = .off → x.lnOvl = false →
              watchTrigger w g lv s = (s.setLine p.line (y.poweringUp s.count), .queued)) ∧
            (x.power = .off → x.lnOvl = true →
              ∃ t : State, watchTrigger w g lv s = (t, .queued) ∧ (t.line p.line).power = .fault ∧
                (t.line p.line).queue = [] ∧ (t.attn.set .lineFault).getLsbD p.line.val = true)))

/-! ### The Line Engine -/

/-- R22, R25, R23, R27, R41, R137: a wait whose silence is complete, with no character arriving, enters SENDING from LEAD
with LnDE asserted; the first start bit in AWAITING stops the reply timer and enters RECEIVING. In every other state, with an
exchange in flight or with none, a start bit only marks a character as arriving (log 6), and while LnDE is asserted it does
nothing (log 24). The silence is the command's, 11 bit times to a CT (log 5). -/
def Obligations.WaitsEndInSendingAndStartBitsInReceiving : Prop :=
  ∀ (l : Fin 4) (silence : Nat) (x : Line) (s : State), x = s.line l →
    (∀ ex, x.exch = some ex →
      (x.engine = .gapWait → x.arriving = false → 44 ≤ silence →
        exec (.gapWaitComplete l silence) s =
          .next (s.setLine l { x with engine := .sending, lnDe := true, exch := some { ex with sent := 0 } })) ∧
      (x.engine = .backoff → x.arriving = false → (20 + 10 * ex.collisions) * 11 ≤ silence →
        exec (.backoffComplete l silence) s =
          .next (s.setLine l { x with engine := .sending, lnDe := true, exch := some { ex with sent := 0 } })) ∧
      (x.engine ≠ .backoff ∨ x.arriving = true ∨ silence < (20 + 10 * ex.collisions) * 11 →
        exec (.backoffComplete l silence) s = .next s)) ∧
    (x.engine ≠ .gapWait ∨ x.arriving = true ∨ silence < 44 → exec (.gapWaitComplete l silence) s = .next s) ∧
    (x.engine ≠ .backoff → exec (.backoffComplete l silence) s = .next s) ∧
    (x.waitIdle = false → x.lnDe = false →
      (x.engine = .awaiting →
        exec (.startBitDetected l) s =
          .next (s.setLine l { x with arriving := true, engine := .receiving, replyTimer := .stopped })) ∧
      (x.engine ≠ .awaiting → exec (.startBitDetected l) s = .next (s.setLine l { x with arriving := true }))) ∧
    (x.waitIdle = true ∨ x.lnDe = true → exec (.startBitDetected l) s = .next s)

/-- R23, R24, R26, R34, R20, R33, R37, R51, R82, R125: the end of a character in SENDING: a pending end takes effect; a
readback that differs is a collision, leading to BACKOFF or COLLISION-LIMIT; the frame goes on; or it is complete, a
broadcast ending OK and any other exchange awaiting its reply. A receiver that waits for the idle level sees no readback, and
that counts as a difference (log 16). An end is filed in the order of R37: record, watches, then its chain or the held count
and the ASK demand, and last the demand set (log 13). -/
def Obligations.CharacterSentIsJudgedByItsReadback : Prop :=
  (∀ p : PlanEntry, requestFrame p =
    [0x5A, p.station, p.control, natByte p.payload.length] ++ p.payload ++
      crcBytes ([p.station, p.control, natByte p.payload.length] ++ p.payload)) ∧
  (∀ b : Byte, (cleanChar b).data = b ∧ (cleanChar b).stop = true ∧
    (cleanChar b).parity = decide (((List.range 8).filter fun i => b.getLsbD i).length % 2 = 1)) ∧
  ∀ (l : Fin 4) (readback : Option LineChar) (waits : Bool) (x : Line) (s r : State), x = s.line l →
    waits = (match x.sees readback with
      | some c => !c.stop
      | none => x.waitIdle) →
    r = s.setLine l { x with waitIdle := waits } →
    (x.engine ≠ .sending ∨ x.exch = none → exec (.characterSent l readback) s = .next s) ∧
    ∀ ex, x.engine = .sending → x.exch = some ex →
      (∀ o, ex.pendingEnd = some o → linesSound s →
        ∃ t : State, exec (.characterSent l readback) s = .next t ∧ r.exchangeFiled t l ex o) ∧
      ∀ b, ex.pendingEnd = none → (requestFrame ex.copy)[ex.sent]? = some b →
        (x.sees readback = some (cleanChar b) →
          (ex.sent + 1 < (requestFrame ex.copy).length →
            exec (.characterSent l readback) s =
              .next (s.setLine l { x with waitIdle := false, exch := some { ex with sent := ex.sent + 1 } })) ∧
          (ex.sent + 1 = (requestFrame ex.copy).length → ex.copy.station ≠ 0 →
            exec (.characterSent l readback) s =
              .next (s.setLine l { x with
                waitIdle := false, engine := .awaiting, lnDe := false,
                replyTimer := .running s.count (ex.copy.timeout * 10),
                exch := some { ex with sent := ex.sent + 1, kept := [] } })) ∧
          (ex.sent + 1 = (requestFrame ex.copy).length → ex.copy.station = 0 → linesSound s →
            ∃ t : State, exec (.characterSent l readback) s = .next t ∧ r.exchangeFiled t l ex .ok)) ∧
        (x.sees readback ≠ some (cleanChar b) →
          (ex.collisions + 1 ≤ x.settings.collisionBudget →
            exec (.characterSent l readback) s =
              .next (s.setLine l { x with
                waitIdle := waits, engine := .backoff, lnDe := false,
                exch := some { ex with collisions := ex.collisions + 1, sent := 0 } })) ∧
          (x.settings.collisionBudget < ex.collisions + 1 → linesSound s →
            ∃ t : State, exec (.characterSent l readback) s = .next t ∧
              r.exchangeFiled t l { ex with collisions := ex.collisions + 1 } .collisionLimit))

/-- R27, R29, R31, R33, R37, R51, R82: in AWAITING a reply timer that is due fails the attempt NO-REPLY; in RECEIVING a
silence that reaches the gap limit fails it BAD-FRAME. A failed attempt is followed by another, or the exchange ends and is
filed in the order of R37, the demand set last (log 13). Otherwise nothing happens. An expiry acts only on a timer that is due
(log 4); the silence is the command's (log 5), and no character may be arriving (log 6). -/
def Obligations.SilenceFailsTheAttempt : Prop :=
  ∀ (l : Fin 4) (silence : Nat) (x : Line) (ex : Exchange) (s : State), x = s.line l → x.exch = some ex → linesSound s →
    (x.engine = .awaiting → x.replyTimer.due s.count = true →
      ∃ t : State, exec (.replyTimerExpiry l) s = .next t ∧ s.attemptFailed t l ex .noReply) ∧
    (x.engine ≠ .awaiting ∨ x.replyTimer.due s.count = false → exec (.replyTimerExpiry l) s = .next s) ∧
    (x.engine = .receiving → x.arriving = false → x.settings.gapLimit * 11 ≤ silence →
      ∃ t : State, exec (.gapLimitExpiry l silence) s = .next t ∧
        s.attemptFailed t l { ex with kept := [] } .badFrame) ∧
    (x.engine ≠ .receiving ∨ x.arriving = true ∨ silence < x.settings.gapLimit * 11 →
      exec (.gapLimitExpiry l silence) s = .next s)

/-- R41, R28, R29, R30, R31, R33, R37, R51, R82, R125, R136, R138: a character received with LnDE asserted is ignored. With
LnDE released it is ignored in IDLE, GAP-WAIT and BACKOFF, joins the capture block in LISTENING, which closes at its size,
and in AWAITING and RECEIVING breaks the reply off, joins it, or completes it at LEN + 6 characters in all (log 23) and has
it checked. A character with no start bit before it stands for both and so stops the reply timer (log 6). An end is filed in
the order of R37: record, watches, then its chain or the held count and the ASK demand, and last the demand set (log 13). A
character is faulty if its stop bit is low or its parity is not even (R19). -/
def Obligations.ReceivedCharacterIsJudgedByTheEngineState : Prop :=
  (∀ c : LineChar, faultyChar c = false ↔
    c.stop = true ∧ c.parity = decide (((List.range 8).filter fun i => c.data.getLsbD i).length % 2 = 1)) ∧
  ∀ (l : Fin 4) (c : LineChar) (x : Line) (s r : State), x = s.line l → x.waitIdle = false →
    r = s.setLine l (x.afterCharacter c) →
    (x.lnDe = true → exec (.lineCharacterReceived l c) s = .next s) ∧
    (x.lnDe = false → x.engine = .idle ∨ x.engine = .gapWait ∨ x.engine = .backoff →
      exec (.lineCharacterReceived l c) s = .next r) ∧
    (x.lnDe = false → x.engine = .listening →
      ((x.block ++ [c.data]).length < x.settings.blockSize.bytes →
        exec (.lineCharacterReceived l c) s = .next (r.setLine l { x.afterCharacter c with
          block := x.block ++ [c.data], blockParity := x.blockParity || faultyChar c })) ∧
      (x.settings.blockSize.bytes ≤ (x.block ++ [c.data]).length →
        ∃ t : State, exec (.lineCharacterReceived l c) s = .next t ∧
          t = { s with lines := t.lines, stores := t.stores, attn := t.attn } ∧
          t.line l = { x.afterCharacter c with block := [], blockParity := false } ∧
          t.store l =
            (s.store l).offered (captureRecord (x.block ++ [c.data]) (x.blockParity || faultyChar c) s.count))) ∧
    ∀ ex kept, x.lnDe = false → x.engine = .awaiting ∨ x.engine = .receiving → x.exch = some ex → linesSound s →
      kept = ex.kept ++ [c.data] →
      (faultyChar c = true ∨ (kept.length = 1 ∧ c.data ≠ 0x5B) ∨ (kept.length = 4 ∧ 200 < c.data.toNat) →
        ∃ t : State, exec (.lineCharacterReceived l c) s = .next t ∧
          r.attemptFailed t l { ex with kept := [] } .badFrame) ∧
      (faultyChar c = false → (kept.length = 1 → c.data = 0x5B) → (kept.length = 4 → c.data.toNat ≤ 200) →
        kept.length < 4 ∨ (∃ n, kept[3]? = some n ∧ kept.length < n.toNat + 6) →
        exec (.lineCharacterReceived l c) s = .next (r.setLine l { x.afterCharacter c with
          engine := .receiving, replyTimer := .stopped, exch := some { ex with kept } })) ∧
      ∀ (lead addr ctrl len hi lo : Byte) (payload : List Byte), faultyChar c = false →
        kept = [lead, addr, ctrl, len] ++ payload ++ [hi, lo] → payload.length = len.toNat →
        ([hi, lo] ≠ crcBytes ([addr, ctrl, len] ++ payload) →
          ∃ t : State, exec (.lineCharacterReceived l c) s = .next t ∧ r.attemptFailed t l { ex with kept } .badCheck) ∧
        ([hi, lo] = crcBytes ([addr, ctrl, len] ++ payload) →
          (addr ≠ ex.copy.station →
            ∃ t : State, exec (.lineCharacterReceived l c) s = .next t ∧
              r.attemptFailed t l { ex with kept } .wrongStation) ∧
          (addr = ex.copy.station → ex.copy.replyLimit < len.toNat →
            ∃ t : State, exec (.lineCharacterReceived l c) s = .next t ∧
              r.exchangeFiled t l { ex with kept } .overlength) ∧
          (addr = ex.copy.station → len.toNat ≤ ex.copy.replyLimit →
            ∃ t : State, exec (.lineCharacterReceived l c) s = .next t ∧
              r.exchangeFiled t l { ex with kept, reply := some { control := ctrl, payload } } .ok))

/-- R137, R138, R106: an open block closes after 10 CT of idle time and its CAPTURE record is offered to the line's store; a
block with no byte, or a shorter silence, gives nothing. The silence is the command's, 11 bit times to a CT (log 5), and no
character may be arriving (log 6). -/
def Obligations.CaptureBlockClosesAfterIdleTime : Prop :=
  ∀ (l : Fin 4) (silence : Nat) (x : Line) (s : State), x = s.line l →
    (x.engine = .listening → x.arriving = false → 110 ≤ silence → x.block ≠ [] →
      ∃ t : State, exec (.captureIdleClose l silence) s = .next t ∧
        t = { s with lines := t.lines, stores := t.stores, attn := t.attn } ∧
        t.line l = { x with block := [], blockParity := false } ∧ (∀ k, k ≠ l → t.line k = s.line k) ∧
        t.store l = (s.store l).offered
          { seq := 0, kind := .capture, origin := .listen, entry := none, station := none, outcome := .ok,
            attempts := 0, collisions := 0, gap := false, restored := false, parity := x.blockParity, merged := 0,
            endTime := s.count, replyControl := none, payload := some x.block } ∧
        ∀ k, k ≠ l → t.store k = s.store k) ∧
    (x.engine ≠ .listening ∨ x.arriving = true ∨ silence < 110 ∨ x.block = [] →
      exec (.captureIdleClose l silence) s = .next s)

/-- R36, R37, R4, R33, R125, R51, R82, R129, R49, R61: the filing of an exchange that ended with any outcome, OK among them:
one record with the fields of the context, offered under policy ALWAYS, under FAILURES unless the outcome is OK, and never
under NEVER; then the watches of the entry, the chain of a scan exchange or the held count and the ASK demand of an injected
one, and last the demand set (log 13), in that order. With an outcome other than OK the watches are STALE unless it is
PREEMPTED or ABORTED, and every other store, watch and line and the plan are as before. -/
def Obligations.FilingOfAnEndedExchange : Prop :=
  ∀ (l : Fin 4) (ex : Exchange) (o : ExchOutcome) (s t : State), partSound s → (s.line l).exch = some ex →
    t = s.fileEnd l ex o →
    ((t.line l).exch = none ∧ (t.line l).engine = .idle ∧ (t.line l).lnDe = false ∧ (t.line l).replyTimer = .stopped ∧
      (ex.copy.policy = .never ∨ (ex.copy.policy = .failures ∧ o = .ok) → t.store l = s.store l) ∧
      (ex.copy.policy = .always ∨ (ex.copy.policy = .failures ∧ o ≠ .ok) → t.store l = (s.store l).offered
        { seq := 0, kind := .exchange, origin := ex.origin, entry := some ex.entry, station := some ex.copy.station,
          outcome := o, attempts := ex.attempts, collisions := ex.collisions, gap := false, restored := ex.restored,
          parity := false, merged := ex.merged, endTime := s.count, replyControl := ex.reply.map Reply.control,
          payload := ex.reply.map Reply.payload }) ∧
      s.filedInOrder t l ex o) ∧
    (o ≠ .ok →
      (t.line l).queue = (s.line l).queue ∧ (∀ k, k ≠ l → t.line k = s.line k ∧ t.store k = s.store k) ∧
      t.plan = s.plan ∧
      ((∀ c, ex.origin ≠ .chain c) →
        (t.line l).demand.ask = !(s.line l).queue.isEmpty ∧
          ∀ h, (s.line l).held = some h → (t.line l).power = .on →
            (t.line l).held = some h ∧ (t.line l).heldCount = min 8 ((s.line l).heldCount + 1)) ∧
      ∀ w x, s.watch w = some x →
        t.watch w = some (if x.entry = ex.entry ∧ o ≠ .preempted ∧ o ≠ .aborted then { x with status := .stale } else x))

/-! ### What every step keeps -/

/-- R66, R67, R68, R71, R88, R17, R23, R90, R31, R34, R135: every step keeps every line sound: its outputs, settle timer and
engine state fit its power, its queue is in order, the demand set says whether it is supplied, except that an exchange in
flight keeps the supply with no demand left (log 12), and the counts of an exchange in flight are within their limits. -/
def Obligations.EveryStepKeepsTheLinesSound : Prop :=
  ∀ s t : State, linesSound s → step s = .next t → linesSound t

/-- R43, R68, R51, R49, R71, R6, R79: every step keeps lines, chains, demand sets and plan in agreement: at most one chain
is active on a line, the held position is occupied exactly while that chain is HELD, the ROUND and ASK members stand for
what they say, and whatever is queued, in flight or held with reason AGAIN is DEFINED on its line. -/
def Obligations.EveryStepKeepsThePartSound : Prop :=
  ∀ s t : State, partSound s → step s = .next t → partSound t

/-- R160, R16, R65, R87, R103, R118, R134, R150, R155: the standing statements hold right after reset. -/
def Obligations.ResetIsSound : Prop :=
  partSound State.reset ∧ storesSound State.reset ∧ attentionSound State.reset ∧ linkSound State.reset.link ∧
    heldSound State.reset

/-- R15, R42, R44, R45, R63, R100, R101, R119, R142: the events of chains and lines leave the plan, the settings of every
line, the static fields of every chain, the definition of every watch, the masks, the Time Base, the Link Port and the queue
of commands as they are. -/
def Obligations.LineEventsKeepTheConfiguration : Prop :=
  ∀ (c : Instr) (s t : State), lineEvent c = true → exec c s = .next t →
    t.plan = s.plan ∧ (∀ l, (t.line l).settings = (s.line l).settings) ∧ (∀ k, (t.chain k).defn = (s.chain k).defn) ∧
      (∀ w, (t.watch w).map Watch.cleared = (s.watch w).map Watch.cleared) ∧ t.attn.masked = s.attn.masked ∧
      t.count = s.count ∧ t.link = s.link ∧ t.pending = s.pending
end

