-- ==== Sys2Proof/Laws/State.lean ====
section
/-! SUPPORT. One lemma per field per update of State, true by unfolding, so that no later proof unfolds a record update. -/

set_option Elab.async false

namespace Sys2Proof.Machine

variable (s : State)

/-! ### setEntry -/

@[simp] theorem setEntry_count (e : Fin 128) (x : Option PlanEntry) : (s.setEntry e x).count = s.count := rfl
@[simp] theorem setEntry_link (e : Fin 128) (x : Option PlanEntry) : (s.setEntry e x).link = s.link := rfl
@[simp] theorem setEntry_chains (e : Fin 128) (x : Option PlanEntry) : (s.setEntry e x).chains = s.chains := rfl
@[simp] theorem setEntry_lines (e : Fin 128) (x : Option PlanEntry) : (s.setEntry e x).lines = s.lines := rfl
@[simp] theorem setEntry_stores (e : Fin 128) (x : Option PlanEntry) : (s.setEntry e x).stores = s.stores := rfl
@[simp] theorem setEntry_watches (e : Fin 128) (x : Option PlanEntry) : (s.setEntry e x).watches = s.watches := rfl
@[simp] theorem setEntry_attn (e : Fin 128) (x : Option PlanEntry) : (s.setEntry e x).attn = s.attn := rfl
@[simp] theorem setEntry_pending (e : Fin 128) (x : Option PlanEntry) : (s.setEntry e x).pending = s.pending := rfl
@[simp] theorem setEntry_chain (e : Fin 128) (x : Option PlanEntry) (i : Fin 8) : (s.setEntry e x).chain i = s.chain i := rfl
@[simp] theorem setEntry_line (e : Fin 128) (x : Option PlanEntry) (i : Fin 4) : (s.setEntry e x).line i = s.line i := rfl
@[simp] theorem setEntry_store (e : Fin 128) (x : Option PlanEntry) (i : Fin 4) : (s.setEntry e x).store i = s.store i := rfl
@[simp] theorem setEntry_watch (e : Fin 128) (x : Option PlanEntry) (i : Fin 32) : (s.setEntry e x).watch i = s.watch i := rfl

/-! ### setChain -/

@[simp] theorem setChain_count (c : Fin 8) (x : Chain) : (s.setChain c x).count = s.count := rfl
@[simp] theorem setChain_link (c : Fin 8) (x : Chain) : (s.setChain c x).link = s.link := rfl
@[simp] theorem setChain_plan (c : Fin 8) (x : Chain) : (s.setChain c x).plan = s.plan := rfl
@[simp] theorem setChain_lines (c : Fin 8) (x : Chain) : (s.setChain c x).lines = s.lines := rfl
@[simp] theorem setChain_stores (c : Fin 8) (x : Chain) : (s.setChain c x).stores = s.stores := rfl
@[simp] theorem setChain_watches (c : Fin 8) (x : Chain) : (s.setChain c x).watches = s.watches := rfl
@[simp] theorem setChain_attn (c : Fin 8) (x : Chain) : (s.setChain c x).attn = s.attn := rfl
@[simp] theorem setChain_pending (c : Fin 8) (x : Chain) : (s.setChain c x).pending = s.pending := rfl
@[simp] theorem setChain_entry (c : Fin 8) (x : Chain) (i : Fin 128) : (s.setChain c x).entry i = s.entry i := rfl
@[simp] theorem setChain_line (c : Fin 8) (x : Chain) (i : Fin 4) : (s.setChain c x).line i = s.line i := rfl
@[simp] theorem setChain_store (c : Fin 8) (x : Chain) (i : Fin 4) : (s.setChain c x).store i = s.store i := rfl
@[simp] theorem setChain_watch (c : Fin 8) (x : Chain) (i : Fin 32) : (s.setChain c x).watch i = s.watch i := rfl

/-! ### setLine -/

@[simp] theorem setLine_count (l : Fin 4) (x : Line) : (s.setLine l x).count = s.count := rfl
@[simp] theorem setLine_link (l : Fin 4) (x : Line) : (s.setLine l x).link = s.link := rfl
@[simp] theorem setLine_plan (l : Fin 4) (x : Line) : (s.setLine l x).plan = s.plan := rfl
@[simp] theorem setLine_chains (l : Fin 4) (x : Line) : (s.setLine l x).chains = s.chains := rfl
@[simp] theorem setLine_stores (l : Fin 4) (x : Line) : (s.setLine l x).stores = s.stores := rfl
@[simp] theorem setLine_watches (l : Fin 4) (x : Line) : (s.setLine l x).watches = s.watches := rfl
@[simp] theorem setLine_attn (l : Fin 4) (x : Line) : (s.setLine l x).attn = s.attn := rfl
@[simp] theorem setLine_pending (l : Fin 4) (x : Line) : (s.setLine l x).pending = s.pending := rfl
@[simp] theorem setLine_entry (l : Fin 4) (x : Line) (i : Fin 128) : (s.setLine l x).entry i = s.entry i := rfl
@[simp] theorem setLine_chain (l : Fin 4) (x : Line) (i : Fin 8) : (s.setLine l x).chain i = s.chain i := rfl
@[simp] theorem setLine_store (l : Fin 4) (x : Line) (i : Fin 4) : (s.setLine l x).store i = s.store i := rfl
@[simp] theorem setLine_watch (l : Fin 4) (x : Line) (i : Fin 32) : (s.setLine l x).watch i = s.watch i := rfl

/-! ### setStore -/

@[simp] theorem setStore_count (l : Fin 4) (x : Store) : (s.setStore l x).count = s.count := rfl
@[simp] theorem setStore_link (l : Fin 4) (x : Store) : (s.setStore l x).link = s.link := rfl
@[simp] theorem setStore_plan (l : Fin 4) (x : Store) : (s.setStore l x).plan = s.plan := rfl
@[simp] theorem setStore_chains (l : Fin 4) (x : Store) : (s.setStore l x).chains = s.chains := rfl
@[simp] theorem setStore_lines (l : Fin 4) (x : Store) : (s.setStore l x).lines = s.lines := rfl
@[simp] theorem setStore_watches (l : Fin 4) (x : Store) : (s.setStore l x).watches = s.watches := rfl
@[simp] theorem setStore_attn (l : Fin 4) (x : Store) : (s.setStore l x).attn = s.attn := rfl
@[simp] theorem setStore_pending (l : Fin 4) (x : Store) : (s.setStore l x).pending = s.pending := rfl
@[simp] theorem setStore_entry (l : Fin 4) (x : Store) (i : Fin 128) : (s.setStore l x).entry i = s.entry i := rfl
@[simp] theorem setStore_chain (l : Fin 4) (x : Store) (i : Fin 8) : (s.setStore l x).chain i = s.chain i := rfl
@[simp] theorem setStore_line (l : Fin 4) (x : Store) (i : Fin 4) : (s.setStore l x).line i = s.line i := rfl
@[simp] theorem setStore_watch (l : Fin 4) (x : Store) (i : Fin 32) : (s.setStore l x).watch i = s.watch i := rfl

/-! ### setWatch -/

@[simp] theorem setWatch_count (w : Fin 32) (x : Option Watch) : (s.setWatch w x).count = s.count := rfl
@[simp] theorem setWatch_link (w : Fin 32) (x : Option Watch) : (s.setWatch w x).link = s.link := rfl
@[simp] theorem setWatch_plan (w : Fin 32) (x : Option Watch) : (s.setWatch w x).plan = s.plan := rfl
@[simp] theorem setWatch_chains (w : Fin 32) (x : Option Watch) : (s.setWatch w x).chains = s.chains := rfl
@[simp] theorem setWatch_lines (w : Fin 32) (x : Option Watch) : (s.setWatch w x).lines = s.lines := rfl
@[simp] theorem setWatch_stores (w : Fin 32) (x : Option Watch) : (s.setWatch w x).stores = s.stores := rfl
@[simp] theorem setWatch_attn (w : Fin 32) (x : Option Watch) : (s.setWatch w x).attn = s.attn := rfl
@[simp] theorem setWatch_pending (w : Fin 32) (x : Option Watch) : (s.setWatch w x).pending = s.pending := rfl
@[simp] theorem setWatch_entry (w : Fin 32) (x : Option Watch) (i : Fin 128) : (s.setWatch w x).entry i = s.entry i := rfl
@[simp] theorem setWatch_chain (w : Fin 32) (x : Option Watch) (i : Fin 8) : (s.setWatch w x).chain i = s.chain i := rfl
@[simp] theorem setWatch_line (w : Fin 32) (x : Option Watch) (i : Fin 4) : (s.setWatch w x).line i = s.line i := rfl
@[simp] theorem setWatch_store (w : Fin 32) (x : Option Watch) (i : Fin 4) : (s.setWatch w x).store i = s.store i := rfl

/-! ### setAttn -/

@[simp] theorem setAttn_count (a : Attention) : (s.setAttn a).count = s.count := rfl
@[simp] theorem setAttn_link (a : Attention) : (s.setAttn a).link = s.link := rfl
@[simp] theorem setAttn_plan (a : Attention) : (s.setAttn a).plan = s.plan := rfl
@[simp] theorem setAttn_chains (a : Attention) : (s.setAttn a).chains = s.chains := rfl
@[simp] theorem setAttn_lines (a : Attention) : (s.setAttn a).lines = s.lines := rfl
@[simp] theorem setAttn_stores (a : Attention) : (s.setAttn a).stores = s.stores := rfl
@[simp] theorem setAttn_watches (a : Attention) : (s.setAttn a).watches = s.watches := rfl
@[simp] theorem setAttn_pending (a : Attention) : (s.setAttn a).pending = s.pending := rfl
@[simp] theorem setAttn_entry (a : Attention) (i : Fin 128) : (s.setAttn a).entry i = s.entry i := rfl
@[simp] theorem setAttn_chain (a : Attention) (i : Fin 8) : (s.setAttn a).chain i = s.chain i := rfl
@[simp] theorem setAttn_line (a : Attention) (i : Fin 4) : (s.setAttn a).line i = s.line i := rfl
@[simp] theorem setAttn_store (a : Attention) (i : Fin 4) : (s.setAttn a).store i = s.store i := rfl
@[simp] theorem setAttn_watch (a : Attention) (i : Fin 32) : (s.setAttn a).watch i = s.watch i := rfl
@[simp] theorem setAttn_attn (a : Attention) : (s.setAttn a).attn = a := rfl

/-! ### setLink -/

@[simp] theorem setLink_count (k : LinkPort) : (s.setLink k).count = s.count := rfl
@[simp] theorem setLink_plan (k : LinkPort) : (s.setLink k).plan = s.plan := rfl
@[simp] theorem setLink_chains (k : LinkPort) : (s.setLink k).chains = s.chains := rfl
@[simp] theorem setLink_lines (k : LinkPort) : (s.setLink k).lines = s.lines := rfl
@[simp] theorem setLink_stores (k : LinkPort) : (s.setLink k).stores = s.stores := rfl
@[simp] theorem setLink_watches (k : LinkPort) : (s.setLink k).watches = s.watches := rfl
@[simp] theorem setLink_attn (k : LinkPort) : (s.setLink k).attn = s.attn := rfl
@[simp] theorem setLink_pending (k : LinkPort) : (s.setLink k).pending = s.pending := rfl
@[simp] theorem setLink_entry (k : LinkPort) (i : Fin 128) : (s.setLink k).entry i = s.entry i := rfl
@[simp] theorem setLink_chain (k : LinkPort) (i : Fin 8) : (s.setLink k).chain i = s.chain i := rfl
@[simp] theorem setLink_line (k : LinkPort) (i : Fin 4) : (s.setLink k).line i = s.line i := rfl
@[simp] theorem setLink_store (k : LinkPort) (i : Fin 4) : (s.setLink k).store i = s.store i := rfl
@[simp] theorem setLink_watch (k : LinkPort) (i : Fin 32) : (s.setLink k).watch i = s.watch i := rfl
@[simp] theorem setLink_link (k : LinkPort) : (s.setLink k).link = k := rfl

/-! ### modChain -/

@[simp] theorem modChain_count (c : Fin 8) (f : Chain → Chain) : (s.modChain c f).count = s.count := rfl
@[simp] theorem modChain_link (c : Fin 8) (f : Chain → Chain) : (s.modChain c f).link = s.link := rfl
@[simp] theorem modChain_plan (c : Fin 8) (f : Chain → Chain) : (s.modChain c f).plan = s.plan := rfl
@[simp] theorem modChain_lines (c : Fin 8) (f : Chain → Chain) : (s.modChain c f).lines = s.lines := rfl
@[simp] theorem modChain_stores (c : Fin 8) (f : Chain → Chain) : (s.modChain c f).stores = s.stores := rfl
@[simp] theorem modChain_watches (c : Fin 8) (f : Chain → Chain) : (s.modChain c f).watches = s.watches := rfl
@[simp] theorem modChain_attn (c : Fin 8) (f : Chain → Chain) : (s.modChain c f).attn = s.attn := rfl
@[simp] theorem modChain_pending (c : Fin 8) (f : Chain → Chain) : (s.modChain c f).pending = s.pending := rfl
@[simp] theorem modChain_entry (c : Fin 8) (f : Chain → Chain) (i : Fin 128) : (s.modChain c f).entry i = s.entry i := rfl
@[simp] theorem modChain_line (c : Fin 8) (f : Chain → Chain) (i : Fin 4) : (s.modChain c f).line i = s.line i := rfl
@[simp] theorem modChain_store (c : Fin 8) (f : Chain → Chain) (i : Fin 4) : (s.modChain c f).store i = s.store i := rfl
@[simp] theorem modChain_watch (c : Fin 8) (f : Chain → Chain) (i : Fin 32) : (s.modChain c f).watch i = s.watch i := rfl

/-! ### modLine -/

@[simp] theorem modLine_count (l : Fin 4) (f : Line → Line) : (s.modLine l f).count = s.count := rfl
@[simp] theorem modLine_link (l : Fin 4) (f : Line → Line) : (s.modLine l f).link = s.link := rfl
@[simp] theorem modLine_plan (l : Fin 4) (f : Line → Line) : (s.modLine l f).plan = s.plan := rfl
@[simp] theorem modLine_chains (l : Fin 4) (f : Line → Line) : (s.modLine l f).chains = s.chains := rfl
@[simp] theorem modLine_stores (l : Fin 4) (f : Line → Line) : (s.modLine l f).stores = s.stores := rfl
@[simp] theorem modLine_watches (l : Fin 4) (f : Line → Line) : (s.modLine l f).watches = s.watches := rfl
@[simp] theorem modLine_attn (l : Fin 4) (f : Line → Line) : (s.modLine l f).attn = s.attn := rfl
@[simp] theorem modLine_pending (l : Fin 4) (f : Line → Line) : (s.modLine l f).pending = s.pending := rfl
@[simp] theorem modLine_entry (l : Fin 4) (f : Line → Line) (i : Fin 128) : (s.modLine l f).entry i = s.entry i := rfl
@[simp] theorem modLine_chain (l : Fin 4) (f : Line → Line) (i : Fin 8) : (s.modLine l f).chain i = s.chain i := rfl
@[simp] theorem modLine_store (l : Fin 4) (f : Line → Line) (i : Fin 4) : (s.modLine l f).store i = s.store i := rfl
@[simp] theorem modLine_watch (l : Fin 4) (f : Line → Line) (i : Fin 32) : (s.modLine l f).watch i = s.watch i := rfl

/-! ### Reading the element that was set, and another one -/

@[simp] theorem setEntry_entry_self (e : Fin 128) (x : Option PlanEntry) : (s.setEntry e x).entry e = x := by
  simp [State.setEntry, State.entry]

theorem setEntry_entry_ne (e i : Fin 128) (x : Option PlanEntry) (h : i ≠ e) : (s.setEntry e x).entry i = s.entry i := by
  have h' : e.val ≠ i.val := fun e => h (Fin.ext e.symm)
  simp [State.setEntry, State.entry, Vector.getElem_set_ne, h']

theorem setEntry_entry (e i : Fin 128) (x : Option PlanEntry) : (s.setEntry e x).entry i = if i = e then x else s.entry i := by
  by_cases h : i = e
  · subst h; simp
  · simp [setEntry_entry_ne, h]

@[simp] theorem setChain_chain_self (c : Fin 8) (x : Chain) : (s.setChain c x).chain c = x := by
  simp [State.setChain, State.chain]

theorem setChain_chain_ne (c i : Fin 8) (x : Chain) (h : i ≠ c) : (s.setChain c x).chain i = s.chain i := by
  have h' : c.val ≠ i.val := fun e => h (Fin.ext e.symm)
  simp [State.setChain, State.chain, Vector.getElem_set_ne, h']

theorem setChain_chain (c i : Fin 8) (x : Chain) : (s.setChain c x).chain i = if i = c then x else s.chain i := by
  by_cases h : i = c
  · subst h; simp
  · simp [setChain_chain_ne, h]

@[simp] theorem setLine_line_self (l : Fin 4) (x : Line) : (s.setLine l x).line l = x := by
  simp [State.setLine, State.line]

theorem setLine_line_ne (l i : Fin 4) (x : Line) (h : i ≠ l) : (s.setLine l x).line i = s.line i := by
  have h' : l.val ≠ i.val := fun e => h (Fin.ext e.symm)
  simp [State.setLine, State.line, Vector.getElem_set_ne, h']

theorem setLine_line (l i : Fin 4) (x : Line) : (s.setLine l x).line i = if i = l then x else s.line i := by
  by_cases h : i = l
  · subst h; simp
  · simp [setLine_line_ne, h]

@[simp] theorem setStore_store_self (l : Fin 4) (x : Store) : (s.setStore l x).store l = x := by
  simp [State.setStore, State.store]

theorem setStore_store_ne (l i : Fin 4) (x : Store) (h : i ≠ l) : (s.setStore l x).store i = s.store i := by
  have h' : l.val ≠ i.val := fun e => h (Fin.ext e.symm)
  simp [State.setStore, State.store, Vector.getElem_set_ne, h']

theorem setStore_store (l i : Fin 4) (x : Store) : (s.setStore l x).store i = if i = l then x else s.store i := by
  by_cases h : i = l
  · subst h; simp
  · simp [setStore_store_ne, h]

@[simp] theorem setWatch_watch_self (w : Fin 32) (x : Option Watch) : (s.setWatch w x).watch w = x := by
  simp [State.setWatch, State.watch]

theorem setWatch_watch_ne (w i : Fin 32) (x : Option Watch) (h : i ≠ w) : (s.setWatch w x).watch i = s.watch i := by
  have h' : w.val ≠ i.val := fun e => h (Fin.ext e.symm)
  simp [State.setWatch, State.watch, Vector.getElem_set_ne, h']

theorem setWatch_watch (w i : Fin 32) (x : Option Watch) : (s.setWatch w x).watch i = if i = w then x else s.watch i := by
  by_cases h : i = w
  · subst h; simp
  · simp [setWatch_watch_ne, h]

@[simp] theorem modChain_chain_self (c : Fin 8) (f : Chain → Chain) : (s.modChain c f).chain c = f (s.chain c) :=
  setChain_chain_self s c _

theorem modChain_chain_ne (c i : Fin 8) (f : Chain → Chain) (h : i ≠ c) : (s.modChain c f).chain i = s.chain i :=
  setChain_chain_ne s c i _ h

theorem modChain_chain (c i : Fin 8) (f : Chain → Chain) : (s.modChain c f).chain i = if i = c then f (s.chain c) else s.chain i :=
  setChain_chain s c i _

@[simp] theorem modLine_line_self (c : Fin 4) (f : Line → Line) : (s.modLine c f).line c = f (s.line c) :=
  setLine_line_self s c _

theorem modLine_line_ne (c i : Fin 4) (f : Line → Line) (h : i ≠ c) : (s.modLine c f).line i = s.line i :=
  setLine_line_ne s c i _ h

theorem modLine_line (c i : Fin 4) (f : Line → Line) : (s.modLine c f).line i = if i = c then f (s.line c) else s.line i :=
  setLine_line s c i _

end Sys2Proof.Machine
end

