-- ==== Sys2Proof/Laws/Attention.lean ====
section
/-! SUPPORT. The Attention Unit: what a raise, a withdrawal and a level judgement do to detail sets, mask and ATTN#. -/

set_option Elab.async false

namespace Sys2Proof.Machine

theorem AttnClass.idx_inj {c d : AttnClass} : c.idx = d.idx ↔ c = d := by cases c <;> cases d <;> decide

theorem AttnClass.mem_all (c : AttnClass) : c ∈ AttnClass.all := by cases c <;> decide

theorem memberBit_getLsbD (k k' : Nat) : (memberBit k).getLsbD k' = decide (k' = k ∧ k < 32) := by
  unfold memberBit
  rw [BitVec.getLsbD_shiftLeft]
  by_cases h : k' < 32
  · by_cases h2 : k' < k
    · simp [h, h2]; omega
    · have e : decide (k' - k = 0) = decide (k' = k ∧ k < 32) := by apply decide_eq_decide.mpr; omega
      simp [h, h2, e]
  · simp [h]; omega

@[simp] theorem Attention.judge_set (a : Attention) (c : AttnClass) : a.judge.set c = a.set c := rfl
@[simp] theorem Attention.judge_masked (a : Attention) : a.judge.masked = a.masked := rfl
@[simp] theorem Attention.judge_isMasked (a : Attention) (c : AttnClass) : a.judge.isMasked c = a.isMasked c := rfl
@[simp] theorem Attention.judge_asserted (a : Attention) : a.judge.asserted = a.wants := rfl
@[simp] theorem Attention.judge_wants (a : Attention) : a.judge.wants = a.wants := rfl

/-- R145: ATTN# is wanted exactly while some unmasked class is pending. -/
theorem Attention.wants_iff (a : Attention) : a.wants = true ↔ ∃ d : AttnClass, a.set d ≠ 0 ∧ a.isMasked d = false := by
  simp only [Attention.wants, List.any_eq_true, Attention.pending]
  constructor
  · rintro ⟨c, -, h⟩; exact ⟨c, by simpa using h⟩
  · rintro ⟨c, h⟩; exact ⟨c, c.mem_all, by simpa using h⟩

theorem Attention.put_set (a : Attention) (c d : AttnClass) (w : Word) :
    (a.put c w).set d = if d = c then w else a.set d := by
  simp only [Attention.put, Attention.judge_set]
  unfold Attention.set
  by_cases h : d = c
  · subst h; simp
  · have : c.idx.val ≠ d.idx.val := fun e => h (AttnClass.idx_inj.mp (Fin.ext e.symm))
    simp [h, this]

@[simp] theorem Attention.put_masked (a : Attention) (c : AttnClass) (w : Word) : (a.put c w).masked = a.masked := rfl
@[simp] theorem Attention.put_asserted (a : Attention) (c : AttnClass) (w : Word) :
    (a.put c w).asserted = (a.put c w).wants := rfl

/-! ### Raise and retract -/

theorem raise_eq (s : State) (c : AttnClass) (k : Nat) : s.raise c k = { s with attn := (s.raise c k).attn } := rfl
theorem retract_eq (s : State) (c : AttnClass) (d : Word) : s.retract c d = { s with attn := (s.retract c d).attn } := rfl

/-- R143: a raise adds one member to one class. -/
theorem raise_gained (s : State) (c : AttnClass) (k : Nat) : s.attn.gained (s.raise c k).attn c k := by
  refine ⟨fun k' => ?_, fun d hd => ?_, rfl, rfl⟩
  · simp [State.raise, Attention.put_set, BitVec.getLsbD_or, memberBit_getLsbD]
  · simp [State.raise, Attention.put_set, hd]

theorem raise_set (s : State) (c d : AttnClass) (k : Nat) :
    (s.raise c k).attn.set d = if d = c then s.attn.set c ||| memberBit k else s.attn.set d := by
  simp [State.raise, Attention.put_set]

theorem retract_set (s : State) (c d : AttnClass) (w : Word) :
    (s.retract c w).attn.set d = if d = c then s.attn.set c &&& ~~~w else s.attn.set d := by
  simp [State.retract, Attention.put_set]

@[simp] theorem raise_masked (s : State) (c : AttnClass) (k : Nat) : (s.raise c k).attn.masked = s.attn.masked := rfl
@[simp] theorem raise_asserted (s : State) (c : AttnClass) (k : Nat) :
    (s.raise c k).attn.asserted = (s.raise c k).attn.wants := rfl
@[simp] theorem retract_masked (s : State) (c : AttnClass) (w : Word) : (s.retract c w).attn.masked = s.attn.masked := rfl

/-! ### Class sets -/

/-- R161: bit `k` of a class set is set exactly when the class of code `k` is in it. -/
theorem classByte_iff (p : AttnClass → Bool) (k : Nat) :
    (classByte p).getLsbD k = true ↔ ∃ c : AttnClass, c.idx.val = k ∧ p c = true := by
  have key : ∀ (cs : List AttnClass) (b : Byte),
      (cs.foldl (fun b c => if p c then b ||| (1#8 <<< c.idx.val) else b) b).getLsbD k =
        (b.getLsbD k || cs.any fun c => decide (c.idx.val = k) && p c) := by
    intro cs
    induction cs with
    | nil => simp
    | cons c cs ih =>
      intro b
      rw [List.foldl_cons, ih, List.any_cons]
      cases hp : p c
      · simp
      · have hc : c.idx.val < 8 := by omega
        have hbit : (1#8 <<< c.idx.val).getLsbD k = decide (c.idx.val = k) := by
          rw [BitVec.getLsbD_shiftLeft]
          by_cases h : k < 8
          · by_cases h2 : k < c.idx.val
            · simp [h, h2]; omega
            · have e : decide (k - c.idx.val = 0) = decide (c.idx.val = k) := by apply decide_eq_decide.mpr; omega
              simp [h, h2, e]
          · simp [h]; omega
        rw [if_pos rfl, BitVec.getLsbD_or, hbit]
        simp [Bool.or_assoc]
  unfold classByte
  rw [key]
  have h0 : (0 : Byte).getLsbD k = false := BitVec.getLsbD_zero
  rw [h0, Bool.false_or]
  simp only [List.any_eq_true, Bool.and_eq_true, decide_eq_true_eq]
  constructor
  · rintro ⟨c, -, h⟩; exact ⟨c, h⟩
  · rintro ⟨c, h⟩; exact ⟨c, c.mem_all, h⟩

theorem classByte_bit (p : AttnClass → Bool) (c : AttnClass) : (classByte p).getLsbD c.idx.val = p c := by
  rw [Bool.eq_iff_iff, classByte_iff]
  constructor
  · rintro ⟨d, hd, h⟩; rwa [AttnClass.idx_inj.mp (Fin.ext hd)] at h
  · exact fun h => ⟨c, rfl, h⟩

theorem classByte_seven (p : AttnClass → Bool) : (classByte p).getLsbD 7 = false := by
  rw [Bool.eq_false_iff, ne_eq, classByte_iff]
  rintro ⟨c, h, -⟩
  omega

/-! ### STORE-LEVEL -/

theorem judgeLevel_eq (s : State) (l : Fin 4) : s.judgeLevel l = { s with attn := (s.judgeLevel l).attn } := by
  unfold State.judgeLevel; split <;> rfl

/-- R116, R144: after a judgement the bit of the line is its membership, and nothing else has changed. -/
theorem judgeLevel_judged (s : State) (l : Fin 4) : s.levelJudged (s.judgeLevel l) l := by
  have hl : l.val < 32 := by omega
  have hline : (s.judgeLevel l).line l = s.line l := by rw [judgeLevel_eq]; rfl
  have hstore : (s.judgeLevel l).store l = s.store l := by rw [judgeLevel_eq]; rfl
  have hm : decide (1 ≤ (s.line l).settings.storeThreshold ∧
      (s.line l).settings.storeThreshold ≤ (s.store l).records.length) = s.levelMember l := by
    simp [State.levelMember]
  refine ⟨fun k => ?_, fun d hd => ?_, ?_, ?_⟩
  · rw [hline, hstore, hm]
    unfold State.judgeLevel
    cases h : s.levelMember l
    · simp only [Bool.false_eq_true, if_false, retract_set, if_true, BitVec.getLsbD_and, BitVec.getLsbD_not,
        memberBit_getLsbD]
      by_cases hk : k = l.val
      · simp [hk, hl]
      · by_cases hk2 : k < 32
        · simp [hk, hk2]
        · simp [hk, hk2, BitVec.getLsbD_of_ge _ _ (Nat.le_of_not_lt hk2)]
    · simp only [if_true, raise_set, BitVec.getLsbD_or, memberBit_getLsbD]
      by_cases hk : k = l.val <;> simp [hk, hl]
  · unfold State.judgeLevel; split
    · simp [raise_set, hd]
    · simp [retract_set, hd]
  · unfold State.judgeLevel; split <;> rfl
  · unfold State.judgeLevel; split <;> rfl

end Sys2Proof.Machine
end

