-- ==== Sys2Proof/Laws/Store.lean ====
section
/-! SUPPORT. The Reply Store: what an offer and a removal do, and that they keep a store sound. -/

set_option Elab.async false

namespace Sys2Proof.Machine

/-! ### One store -/

theorem fits_iff (st : Store) (r : Record) :
    st.fits r = true ↔ st.records.length < 32 ∧ st.payloadBytes + r.payloadLen ≤ 2048 := by
  simp only [Store.fits, Bool.and_eq_true, decide_eq_true_eq]; rfl

/-- R108, R109: the store after an offer. -/
theorem offered_eq (st : Store) (r : Record) : st.offered r = if st.fits r then st.append r else st.drop := by
  simp only [Store.offered, ← fits_iff]
  split <;> simp_all [Store.append, Store.drop]

theorem consecutive_append {rs : List Record} {r : Record} (h : consecutive rs)
    (hr : r.gap = true ∨ ∀ x ∈ rs.getLast?, r.seq = x.seq + 1) : consecutive (rs ++ [r]) := by
  induction rs with
  | nil => trivial
  | cons a rest ih =>
    cases rest with
    | nil =>
      refine ⟨?_, trivial⟩
      rcases hr with h1 | h1
      · exact .inl h1
      · exact .inr (h1 a (by simp))
    | cons b rest => exact ⟨h.1, ih h.2 (by simpa using hr)⟩

theorem consecutive_tail {rs : List Record} (h : consecutive rs) : consecutive rs.tail := by
  match rs, h with
  | [], _ => trivial
  | [_], _ => trivial
  | _ :: _ :: _, h => exact h.2

theorem payloadBytes_append (st : Store) (r : Record) :
    (st.append r).payloadBytes = st.payloadBytes + r.payloadLen := by
  simp [Store.payloadBytes, Store.append, Record.payloadLen]

/-- R104, R111: an append of a record that fits keeps the store sound. -/
theorem storeSound_append {st : Store} {r : Record} (h : storeSound st) (hf : st.fits r = true) :
    storeSound (st.append r) := by
  obtain ⟨h1, h2, h3, h4⟩ := h
  rw [fits_iff] at hf
  refine ⟨?_, ?_, ?_, ?_⟩
  · simp [Store.append, Config.recordCapacity]; omega
  · rw [payloadBytes_append]; exact hf.2
  · refine consecutive_append h3 ?_
    cases hg : st.gapPending
    · exact .inr fun x hx => h4 hg x hx
    · exact .inl rfl
  · intro _ x hx
    simp [Store.append] at hx
    subst hx; rfl

theorem storeSound_drop {st : Store} (h : storeSound st) : storeSound st.drop :=
  ⟨h.1, h.2.1, h.2.2.1, fun hg => by simp [Store.drop] at hg⟩

theorem storeSound_offered {st : Store} {r : Record} (h : storeSound st) : storeSound (st.offered r) := by
  rw [offered_eq]; split
  · exact storeSound_append h ‹_›
  · exact storeSound_drop h

theorem storeSound_tail {st : Store} (h : storeSound st) : storeSound { st with records := st.records.tail } := by
  obtain ⟨h1, h2, h3, h4⟩ := h
  refine ⟨?_, ?_, consecutive_tail h3, ?_⟩
  · simp only [List.length_tail]; omega
  · refine le_trans ?_ h2
    unfold Store.payloadBytes
    cases st.records <;> simp
  · intro hg r hr
    refine h4 hg r ?_
    revert hr
    cases hrs : st.records with
    | nil => simp
    | cons a rest =>
      cases rest with
      | nil => simp
      | cons b rest => simp [List.getLast?_cons_cons]

theorem storeSound_clear {st : Store} (_ : storeSound st) : storeSound { st with records := [] } :=
  ⟨by simp [Config.recordCapacity], by simp [Store.payloadBytes, Config.payloadCapacity], trivial, by simp⟩

theorem storeSound_empty : storeSound Store.empty :=
  ⟨by decide, by decide, trivial, by simp [Store.empty]⟩

/-! ### An offer in the whole part -/

theorem offer_eq (s : State) (l : Fin 4) (r : Record) :
    s.offer l r = { s with stores := (s.offer l r).stores, attn := (s.offer l r).attn } := by
  unfold State.offer; split
  · rw [judgeLevel_eq]; rfl
  · rfl

@[simp] theorem offer_line (s : State) (l k : Fin 4) (r : Record) : (s.offer l r).line k = s.line k := by
  rw [offer_eq]; rfl
@[simp] theorem offer_chain (s : State) (l : Fin 4) (r : Record) (c : Fin 8) : (s.offer l r).chain c = s.chain c := by
  rw [offer_eq]; rfl
@[simp] theorem offer_watch (s : State) (l : Fin 4) (r : Record) (w : Fin 32) : (s.offer l r).watch w = s.watch w := by
  rw [offer_eq]; rfl
@[simp] theorem offer_entry (s : State) (l : Fin 4) (r : Record) (e : Fin 128) : (s.offer l r).entry e = s.entry e := by
  rw [offer_eq]; rfl
@[simp] theorem offer_count (s : State) (l : Fin 4) (r : Record) : (s.offer l r).count = s.count := by
  rw [offer_eq]
@[simp] theorem offer_lines (s : State) (l : Fin 4) (r : Record) : (s.offer l r).lines = s.lines := by
  rw [offer_eq]
@[simp] theorem offer_chains (s : State) (l : Fin 4) (r : Record) : (s.offer l r).chains = s.chains := by
  rw [offer_eq]
@[simp] theorem offer_plan (s : State) (l : Fin 4) (r : Record) : (s.offer l r).plan = s.plan := by
  rw [offer_eq]

theorem judgeLevel_stores (s : State) (l : Fin 4) : (s.judgeLevel l).stores = s.stores := by
  rw [judgeLevel_eq]

@[simp] theorem judgeLevel_store (s : State) (l k : Fin 4) : (s.judgeLevel l).store k = s.store k := by
  rw [judgeLevel_eq]; rfl

/-- R107: an offer reaches the store of its own line and no other. -/
theorem offer_store (s : State) (l k : Fin 4) (r : Record) :
    (s.offer l r).store k = if k = l then (s.store l).offered r else s.store k := by
  unfold State.offer
  rw [offered_eq]
  split
  · by_cases h : k = l
    · subst h; simp
    · simp [h, setStore_store_ne]
  · by_cases h : k = l
    · subst h; simp [State.raise]
    · simp [h, State.raise, setStore_store_ne]

end Sys2Proof.Machine
end

