-- ==== Sys2Proof/Laws/Kept.lean ====
section
/-! SUPPORT. Once for all shared operations: what an operation on a line can do at all. A property that the smallest changes
keep is kept by every operation built from them. A chain raises members, takes and clears held positions, and changes fields
of chains other than their definition (`HeldKept`). An operation on line `l` does that, offers records to the store of `l`,
changes line `l` but not its settings, and changes the dynamic fields of watches (`Kept l`). -/

set_option Elab.async false

namespace Sys2Proof.Machine

/-- The property survives what a chain does to the rest of the part. -/
structure HeldKept (P : State → Prop) : Prop where
  raise : ∀ s c k, c ≠ .storeLevel → k < c.members → P s → P (s.raise c k)
  take : ∀ s k h, P s → P (s.modLine k fun x => x.takeHeld h)
  clear : ∀ s k, P s → P (s.modLine k Line.clearHeld)
  chain : ∀ s c f, (∀ x : Chain, (f x).defn = x.defn) → P s → P (s.modChain c f)

/-- The property survives what an operation on line `l` does. -/
structure Kept (l : Fin 4) (P : State → Prop) : Prop extends HeldKept P where
  offer : ∀ s r, P s → P (s.offer l r)
  line : ∀ s f, (∀ x : Line, (f x).settings = x.settings) → P s → P (s.modLine l f)
  watch : ∀ s w x y, s.watch w = some x → y.cleared = x.cleared → P s → P (s.setWatch w (some y))

/-- R143, R144: a member of any class but STORE-LEVEL stays, whatever an operation on a line does. -/
theorem member_kept {c : AttnClass} (hc : c ≠ .storeLevel) (k : Nat) (l : Fin 4) :
    Kept l fun s => (s.attn.set c).getLsbD k = true where
  raise s d j _ _ h := by rw [raise_set]; split <;> simp_all
  take _ _ _ h := h
  clear _ _ h := h
  chain _ _ _ _ h := h
  offer s r h := by
    unfold State.offer
    split
    · rw [(judgeLevel_judged (s.setStore l _) l).2.1 c hc]; exact h
    · rw [raise_set]; split <;> simp_all [State.setStore]
  line _ _ _ h := h
  watch _ _ _ _ _ _ h := h

/-- The evaluation of the watches adds members to WATCH, changes dynamic fields of watches, and injects. -/
theorem evalWatches_kept {P : State → Prop} (raise : ∀ s k, k < 32 → P s → P (s.raise .watch k))
    (watch : ∀ s w x y, s.watch w = some x → y.cleared = x.cleared → P s → P (s.setWatch w (some y))) {inject : Injector}
    (hi : ∀ w e v s, P s → P (inject w e v s).1) {s : State} (h : P s) (e : Fin 128) (o : ExchOutcome)
    (payload : List Byte) : P (s.evalWatches inject e o payload) := by
  have hfor : ∀ s, P s → ∀ w t v, P (State.injectFor inject s w t v) := by
    intro s h w t v
    unfold State.injectFor
    simp only []
    split
    · rename_i x hx
      exact watch _ _ x _ hx rfl (hi _ _ _ _ h)
    · exact hi _ _ _ _ h
  have hact : ∀ s, P s → ∀ w a, P (State.watchAct inject s w a) := by
    intro s h w a
    unfold State.watchAct
    split
    · exact h
    · exact raise _ _ w.isLt h
    · exact hfor _ h _ _ _
    · exact hfor _ (raise _ _ w.isLt h) _ _ _
  have hone : ∀ s, P s → ∀ w, P (State.evalWatch inject e o payload s w) := by
    intro s h w
    unfold State.evalWatch
    split
    · exact h
    · rename_i x hx
      split
      · exact h
      · split
        · split
          · exact watch _ _ _ _ hx rfl h
          · rename_i v _
            have h1 := watch s w x (x.takeValue v s.count) hx rfl h
            simp only []
            split
            · exact hact _ h1 _ _
            · exact h1
        all_goals first | exact h | exact watch _ _ _ _ hx rfl h
  unfold State.evalWatches
  generalize List.finRange 32 = ws
  induction ws generalizing s with
  | nil => exact h
  | cons w ws ih => exact ih (hone _ h w)

namespace HeldKept

variable {P : State → Prop} (H : HeldKept P) {s : State}
include H

theorem onChain (c : Fin 8) (f : Chain → Chain) (h : P s)
    (hf : ∀ x : Chain, (f x).defn = x.defn := by intro _; rfl) : P (s.modChain c f) := H.chain s c f hf h

variable (h : P s)
include h

theorem dropHold (c : Fin 8) : P (s.dropHold c) := by
  unfold State.dropHold
  split
  · exact H.clear _ _ h
  · exact h

theorem chainFault (c : Fin 8) (r : FaultReason) : P (s.chainFault c r) :=
  H.raise _ _ _ (by decide) c.isLt (H.onChain _ _ (H.dropHold h c))

theorem holdChain (c : Fin 8) (l : Fin 4) (e : Fin 128) (r : HeldReason) : P (s.holdChain c l e r) :=
  H.onChain _ _ (H.take _ _ _ h)

theorem roundStart (c : Fin 8) : P (s.roundStart c) := by
  unfold State.roundStart
  split
  · exact h
  · split
    · exact H.chainFault h _ _
    · split
      · exact H.onChain _ _ (H.take _ _ _ h)
      · split
        · exact H.chainFault h _ _
        · exact H.onChain _ _ h

theorem roundEnd (c : Fin 8) : P (s.roundEnd c) := by
  unfold State.roundEnd
  split
  · exact h
  · rename_i d _
    have go : ∀ s2, P s2 → P (if d.period = 0 then s2.modChain c Chain.toIdle
        else if (s2.chain c).roundDue then
          (s2.modChain c fun ch => { ch with late := min Config.countLimit (ch.late + 1) }).roundStart c
        else s2.modChain c fun ch => { ch with state := .armed, position := none }) := by
      intro s2 h2
      split
      · exact H.onChain _ _ h2
      · split
        · exact H.roundStart (H.onChain _ _ h2) _
        · exact H.onChain _ _ h2
    have h1 : P (s.modChain c fun ch => { ch with rounds := ch.rounds + 1 }) := H.onChain _ _ h
    refine go _ ?_
    split
    · exact H.raise _ _ _ (by decide) c.isLt h1
    · exact h1

theorem linkFollow (c : Fin 8) (p : PlanEntry) : P (s.linkFollow c p) := by
  unfold State.linkFollow
  split
  · exact H.roundEnd h _
  · split
    · exact H.chainFault h _ _
    · split
      · exact h
      · split
        · exact H.onChain _ _ h
        · exact H.chainFault h _ _

theorem scanEnd (c : Fin 8) (l : Fin 4) (ex : Exchange) (o : ExchOutcome) : P (s.scanEnd c l ex o) := by
  unfold State.scanEnd
  split
  · have h1 : P (s.modChain c fun ch => { ch with inFlight := false }) := H.onChain _ _ h
    simp only []
    split
    · exact H.onChain _ _ h1
    · split <;> first | exact H.holdChain h1 _ _ _ _ | exact H.linkFollow h1 _ _
    all_goals exact h1
  · exact h

theorem chainLineOff (l : Fin 4) : P (s.chainLineOff l) := by
  unfold State.chainLineOff
  split
  · split <;> first | exact H.chainFault h _ _ | exact h
  · exact h

theorem faultHold (l : Fin 4) : P (s.faultHold l) := by
  unfold State.faultHold
  split
  · split
    · split
      · exact h
      · exact H.holdChain h _ _ _ _
    · exact h
  · exact h

theorem boundaryHold (l : Fin 4) : P (s.boundaryHold l) := by
  unfold State.boundaryHold
  split
  · exact H.holdChain h _ _ _ _
  · exact h

end HeldKept

namespace Kept

variable {l : Fin 4} {P : State → Prop} (K : Kept l P) {s : State}
include K

theorem onLine (f : Line → Line) (h : P s)
    (hf : ∀ x : Line, (f x).settings = x.settings := by intro _; rfl) : P (s.modLine l f) := K.line s f hf h

theorem onChain (c : Fin 8) (f : Chain → Chain) (h : P s)
    (hf : ∀ x : Chain, (f x).defn = x.defn := by intro _; rfl) : P (s.modChain c f) := K.chain s c f hf h

variable (h : P s)
include h

/-! ### Lines -/

theorem syncRound : P (s.syncRound l) := K.onLine _ h

theorem closeBlock : P (s.closeBlock l) := by
  unfold State.closeBlock
  split
  · exact h
  · exact K.onLine _ (K.offer _ _ h)

theorem enterOff : P (s.enterOff l) := K.toHeldKept.chainLineOff (K.onLine _ (K.closeBlock h)) l

theorem powerDown : P (s.powerDown l) := by
  unfold State.powerDown
  split
  · exact K.enterOff h
  · exact h

theorem withdraw : P (s.withdraw l) := K.powerDown (K.syncRound h)

/-! ### Filing -/

theorem fileRecord (ex : Exchange) (o : ExchOutcome) : P (s.fileRecord l ex o) := by
  unfold State.fileRecord
  split
  · exact K.offer _ _ h
  · exact h

theorem fileOrigin (ex : Exchange) (o : ExchOutcome) : P (s.fileOrigin l ex o) := by
  unfold State.fileOrigin
  split
  · exact K.toHeldKept.scanEnd h _ _ _ _
  all_goals exact K.onLine _ h

theorem evalWatches {inject : Injector} (hi : ∀ w e v s, P s → P (inject w e v s).1) (e : Fin 128) (o : ExchOutcome)
    (payload : List Byte) : P (s.evalWatches inject e o payload) :=
  evalWatches_kept (fun _ _ hk => K.raise _ _ _ (by decide) hk) K.watch hi h e o payload

theorem fileWith {inject : Injector} (hi : ∀ w e v s, P s → P (inject w e v s).1) (ex : Exchange) (o : ExchOutcome) :
    P (s.fileWith inject l ex o) :=
  K.withdraw (K.fileOrigin (K.evalWatches (K.fileRecord (K.onLine _ h) ex o) hi _ _ _) ex o)

theorem fileQuiet (ex : Exchange) (o : ExchOutcome) : P (s.fileQuiet l ex o) :=
  K.fileWith h (fun _ _ _ _ h => h) ex o

theorem endOutside (o : ExchOutcome) : P (s.endOutside l o) := by
  unfold State.endOutside
  split
  · exact h
  · split
    · split
      · exact h
      · exact K.onLine _ h
    · exact K.fileQuiet h _ _

theorem preempt : P (s.preempt l) := by
  unfold State.preempt
  split
  · split
    · exact K.endOutside h _
    · exact h
  · exact h

/-! ### Faults and the supply -/

theorem faultExchange : P (s.faultExchange l) := by
  unfold State.faultExchange
  split
  · exact K.fileQuiet h _ _
  · exact h

theorem faultQueued (q : Injected) : P (State.faultQueued l s q) := by
  unfold State.faultQueued
  split
  · split
    · exact K.offer _ _ h
    · exact h
  · exact h

theorem faultQueue (q : List Injected) : P (q.foldl (State.faultQueued l) s) := by
  induction q generalizing s with
  | nil => exact h
  | cons x q ih => exact ih (K.faultQueued h x)

theorem faultHandling : P (s.faultHandling l) := by
  unfold State.faultHandling
  refine K.raise _ _ _ (by decide) l.isLt (K.toHeldKept.faultHold (K.onLine _ ?_) l)
  refine K.faultQueue (K.faultExchange (K.onLine _ ?_)) _
  exact K.closeBlock h

theorem enterSettling : P (s.enterSettling l) := by
  have h1 := K.onLine (fun x =>
    { x with power := .settling, lnPwr := true, settleTimer := .running s.count (x.settings.settleSteps * 50) }) h
  unfold State.enterSettling
  simp only []
  split
  · exact K.faultHandling h1
  · exact h1

theorem powerUp : P (s.powerUp l) := by
  unfold State.powerUp
  split
  · exact K.enterSettling h
  · exact h

theorem settleDemand : P (s.settleDemand l) := K.powerUp (K.withdraw h)

/-! ### Injected requests -/

theorem urgentJoined (j : Bool) : P (s.urgentJoined l j) := by
  unfold State.urgentJoined
  split
  · exact K.preempt h
  · exact h

theorem mergeAsk (x : Injected) (v : Level) : P (s.mergeAsk l x v) := K.urgentJoined (K.onLine _ h) _

theorem appendAsk (x : Injected) : P (s.appendAsk l x) := K.urgentJoined (K.powerUp (K.onLine _ h)) _

omit K in
theorem askAt (e : Fin 128) (v : Level) (o : Origin) (K : ∀ p, s.entry e = some p → Kept p.line P) :
    P (s.askAt e v o).1 := by
  unfold State.askAt
  split
  · exact h
  · rename_i p hp
    simp only []
    split
    · exact h
    · split
      · exact (K p hp).mergeAsk h _ _
      · split
        · exact h
        · exact (K p hp).appendAsk h _

theorem fileEnd (hk : ∀ k, k ≠ l → Kept k P) (ex : Exchange) (o : ExchOutcome) : P (s.fileEnd l ex o) := by
  refine K.fileWith h (fun w e v s h => Kept.askAt h e v _ fun p _ => ?_) ex o
  by_cases hl : p.line = l
  · rw [hl]; exact K
  · exact hk _ hl

theorem cancelAsk (e : Fin 128) : P (s.cancelAsk l e) := K.withdraw (K.onLine _ h)

/-! ### The scheduler -/

theorem startExchange (ex : Exchange) : P (s.startExchange l ex) := K.onLine _ h

theorem startScan (c : Fin 8) (e : Fin 128) (r : Bool) : P (s.startScan l c e r) := by
  unfold State.startScan
  split
  · split
    · exact K.startExchange (K.onChain _ _ h) _
    · exact K.withdraw (K.toHeldKept.chainFault h _ _)
  · exact K.withdraw (K.toHeldKept.chainFault h _ _)

theorem restore (x : Held) : P (s.restore l x) := K.startScan (K.onLine _ h) _ _ _

theorem startInjected (x : Injected) : P (s.startInjected l x) := by
  unfold State.startInjected
  split
  · exact K.startExchange (K.onLine _ h) _
  · exact h

theorem choose : P (s.choose l) := by
  unfold State.choose
  simp only []
  split
  · exact K.restore h _
  · split
    · exact K.restore h _
    · exact K.startInjected (K.toHeldKept.boundaryHold h _) _
  · exact K.startInjected (K.toHeldKept.boundaryHold h _) _
  · split
    · exact K.startScan h _ _ _
    · exact h

/-! ### The engine, up to the end of an exchange -/

theorem captureChar (c : LineChar) : P (s.captureChar l c) := by
  have h1 := K.onLine (fun x =>
    { x with block := x.block ++ [c.data], blockParity := x.blockParity || faultyChar c }) h
  unfold State.captureChar
  simp only []
  split
  · exact K.closeBlock h1
  · exact h1

/-! ### Requests on chains and lines -/

theorem startChain (c : Fin 8) : P (s.startChain c l) :=
  K.settleDemand (K.toHeldKept.roundStart (K.onChain _ _ h) c)

theorem hostDemand : P (s.hostDemand l) := K.powerUp (K.onLine _ h)

theorem dropHost : P (s.dropHost l) := K.withdraw (K.onLine _ h)

theorem leaveFault : P (s.leaveFault l) := by
  have h1 := K.onLine (fun x => { x with power := .off }) h
  unfold State.leaveFault
  simp only []
  split
  · exact K.settleDemand (K.toHeldKept.chainFault h1 _ _)
  · exact K.settleDemand h1

theorem linePowerOff : P (s.linePowerOff l).1 := by
  unfold State.linePowerOff
  split
  · exact h
  · exact K.leaveFault h
  all_goals
    split
    · exact h
    · exact K.dropHost h

theorem linePowerOn : P (s.linePowerOn l).1 := by
  unfold State.linePowerOn
  split
  · exact h
  · exact K.hostDemand h

theorem resume : P (s.resume l) := K.enterSettling (K.syncRound (K.onLine _ h))

end Kept

/-- The property survives what an operation on any line does. -/
abbrev KeptOnAll (P : State → Prop) : Prop := ∀ l, Kept l P

namespace KeptOnAll

variable {P : State → Prop} (K : KeptOnAll P) {s : State} (h : P s)
include K h

theorem watchTrigger (w : Fin 32) (e : Fin 128) (v : Level) : P (Machine.watchTrigger w e v s).1 :=
  Kept.askAt h e v _ fun _ _ => K _

theorem fileEnd (l : Fin 4) (ex : Exchange) (o : ExchOutcome) : P (s.fileEnd l ex o) :=
  (K l).fileEnd h (fun _ _ => K _) ex o

/-! ### The engine -/

theorem failAttempt (l : Fin 4) (ex : Exchange) (o : ExchOutcome) : P (s.failAttempt l ex o) := by
  unfold State.failAttempt
  split
  · exact (K l).onLine _ h
  · exact fileEnd K h _ _ _

theorem collide (l : Fin 4) (ex : Exchange) : P (s.collide l ex) := by
  unfold State.collide
  simp only []
  split
  · exact fileEnd K h _ _ _
  · exact (K l).onLine _ h

theorem frameSent (l : Fin 4) (ex : Exchange) : P (s.frameSent l ex) := by
  unfold State.frameSent
  split
  · exact fileEnd K h _ _ _
  · exact (K l).onLine _ h

theorem judgeSent (l : Fin 4) (ex : Exchange) (r : Option LineChar) : P (s.judgeSent l ex r) := by
  unfold State.judgeSent
  split
  · exact fileEnd K h _ _ _
  · split
    · exact frameSent K h _ _
    · split
      · exact collide K h _ _
      · split
        · exact (K l).onLine _ h
        · exact frameSent K h _ _

theorem judgeReply (l : Fin 4) (ex : Exchange) : P (s.judgeReply l ex) := by
  unfold State.judgeReply
  split
  · simp only []
    split
    · exact failAttempt K h _ _ _
    · split
      · exact failAttempt K h _ _ _
      · split <;> exact fileEnd K h _ _ _
  · exact failAttempt K h _ _ _

theorem receiveReply (l : Fin 4) (ex : Exchange) (c : LineChar) : P (s.receiveReply l ex c) := by
  unfold State.receiveReply
  simp only []
  split
  · exact failAttempt K h _ _ _
  · split
    · exact judgeReply K h _ _
    · exact (K l).onLine _ h

theorem judgeReceived (l : Fin 4) (c : LineChar) : P (s.judgeReceived l c) := by
  unfold State.judgeReceived
  split
  · exact receiveReply K h _ _ _
  · exact receiveReply K h _ _ _
  · exact (K l).captureChar h _
  · exact h

/-! ### Requests on chains -/

theorem idleChain (c : Fin 8) : P (s.idleChain c) := by
  have h1 := (K 0).onChain c Chain.toIdle ((K 0).toHeldKept.dropHold h c)
  unfold State.idleChain
  simp only []
  split
  · exact (K _).settleDemand h1
  · exact h1

theorem stopChain (c : Fin 8) : P (s.stopChain c) := by
  unfold State.stopChain
  split
  · split
    · exact (K 0).onChain _ _ h
    · exact idleChain K h c
  all_goals first | exact idleChain K h c | exact h

theorem abortChain (c : Fin 8) : P (s.abortChain c) := by
  unfold State.abortChain
  split
  · exact (K _).settleDemand ((K _).endOutside ((K 0).onChain _ _ ((K _).onLine _ h)) _)
  · exact stopChain K h c

theorem roundExpiry (c : Fin 8) : P (s.roundExpiry c) := by
  have h1 := (K 0).onChain c (fun ch => { ch with timer := .expired }) h
  unfold State.roundExpiry
  simp only []
  split
  · split
    · exact (K _).settleDemand ((K 0).toHeldKept.roundStart h1 _)
    · exact h1
  all_goals first | exact (K 0).onChain _ _ h1 | exact h1

end KeptOnAll

end Sys2Proof.Machine
end

