-- ==== Sys2Proof/Laws/Config.lean ====
section
/-! SUPPORT. What every shared operation keeps, as instances of `Kept`: the configuration of the part, sound stores, and a
sound Attention Unit. -/

set_option Elab.async false

namespace Sys2Proof.Machine

/-- An operation on any line does no more than change any line, offer to any store, and what a chain does. -/
theorem keptOnAll {P : State → Prop} (raise : ∀ s c k, c ≠ .storeLevel → k < c.members → P s → P (s.raise c k))
    (offer : ∀ s l r, P s → P (s.offer l r))
    (line : ∀ s l f, (∀ x : Line, (f x).settings = x.settings) → P s → P (s.modLine l f))
    (chain : ∀ s c f, (∀ x : Chain, (f x).defn = x.defn) → P s → P (s.modChain c f))
    (watch : ∀ s w x y, s.watch w = some x → y.cleared = x.cleared → P s → P (s.setWatch w (some y))) : KeptOnAll P :=
  fun l =>
    { raise, chain, watch
      take := fun s k h hs => line s k (fun x => x.takeHeld h) (fun _ => rfl) hs
      clear := fun s k hs => line s k Line.clearHeld (fun _ => rfl) hs
      offer := fun s r hs => offer s l r hs
      line := fun s f hf hs => line s l f hf hs }

/-! ### Configuration -/

/-- The plan, the settings, the static fields of chains, the definitions of watches, the mask, the count, the Link Port and the
queue of commands are those of `s`. -/
def SameConfig (s t : State) : Prop :=
  t.plan = s.plan ∧ (∀ l, (t.line l).settings = (s.line l).settings) ∧ (∀ k, (t.chain k).defn = (s.chain k).defn) ∧
    (∀ w, (t.watch w).map Watch.cleared = (s.watch w).map Watch.cleared) ∧ t.attn.masked = s.attn.masked ∧
    t.count = s.count ∧ t.link = s.link ∧ t.pending = s.pending

theorem SameConfig.refl (s : State) : SameConfig s s :=
  ⟨rfl, fun _ => rfl, fun _ => rfl, fun _ => rfl, rfl, rfl, rfl, rfl⟩

@[simp] theorem offer_watches (s : State) (l : Fin 4) (r : Record) : (s.offer l r).watches = s.watches := by
  rw [offer_eq]
@[simp] theorem offer_link (s : State) (l : Fin 4) (r : Record) : (s.offer l r).link = s.link := by
  rw [offer_eq]
@[simp] theorem offer_pending (s : State) (l : Fin 4) (r : Record) : (s.offer l r).pending = s.pending := by
  rw [offer_eq]
@[simp] theorem judgeLevel_masked (s : State) (l : Fin 4) : (s.judgeLevel l).attn.masked = s.attn.masked :=
  (judgeLevel_judged s l).2.2.1
@[simp] theorem offer_masked (s : State) (l : Fin 4) (r : Record) : (s.offer l r).attn.masked = s.attn.masked := by
  unfold State.offer; split
  · simp
  · simp

theorem sameConfig_kept (s : State) : KeptOnAll (SameConfig s) := by
  refine keptOnAll ?_ ?_ ?_ ?_ ?_
  · intro t c k _ _ h
    exact h
  · intro t l r h
    obtain ⟨h1, h2, h3, h4, h5, h6, h7, h8⟩ := h
    exact ⟨by simpa using h1, by simpa using h2, by simpa using h3, by simpa using h4, by simpa using h5,
      by simpa using h6, by simpa using h7, by simpa using h8⟩
  · intro t l f hf h
    obtain ⟨h1, h2, h3, h4, h5, h6, h7, h8⟩ := h
    refine ⟨h1, fun k => ?_, h3, h4, h5, h6, h7, h8⟩
    rw [modLine_line]
    split
    · rename_i e; rw [hf, ← h2 k, e]
    · exact h2 k
  · intro t c f hf h
    obtain ⟨h1, h2, h3, h4, h5, h6, h7, h8⟩ := h
    refine ⟨h1, h2, fun k => ?_, h4, h5, h6, h7, h8⟩
    rw [modChain_chain]
    split
    · rename_i e; rw [hf, ← h3 k, e]
    · exact h3 k
  · intro t w x y hx hy h
    obtain ⟨h1, h2, h3, h4, h5, h6, h7, h8⟩ := h
    refine ⟨h1, h2, h3, fun k => ?_, h5, h6, h7, h8⟩
    rw [setWatch_watch]
    split
    · rename_i e
      rw [← h4 k, e, hx, Option.map_some, Option.map_some, hy]
    · exact h4 k

/-! ### Stores -/

theorem storesSound_kept : KeptOnAll storesSound := by
  refine keptOnAll ?_ ?_ ?_ ?_ ?_
  · intro t c k _ _ h
    exact h
  · intro t l r h k
    rw [offer_store]
    split
    · exact storeSound_offered (h l)
    · exact h k
  · intro t l f _ h
    exact h
  · intro t c f _ h
    exact h
  · intro t w x y _ _ h
    exact h

/-! ### Attention -/

theorem outsideRange_raise {c d : AttnClass} {k : Nat} {s : State} (hk : k < c.members)
    (h : outsideRange d (s.attn.set d) = false) : outsideRange d ((s.raise c k).attn.set d) = false := by
  rw [raise_set]
  split
  · rename_i e; subst e
    simp only [outsideRange, decide_eq_false_iff_not, Nat.not_le, BitVec.toNat_or] at h ⊢
    refine Nat.or_lt_two_pow h ?_
    have h32 : d.members ≤ 32 := by cases d <;> decide
    simp only [memberBit, BitVec.toNat_shiftLeft, BitVec.toNat_ofNat]
    refine lt_of_le_of_lt (Nat.mod_le _ _) ?_
    rw [Nat.shiftLeft_eq]
    simpa using Nat.pow_lt_pow_right (by decide : 1 < 2) hk
  · exact h

theorem outsideRange_retract {c d : AttnClass} {w : Word} {s : State}
    (h : outsideRange d (s.attn.set d) = false) : outsideRange d ((s.retract c w).attn.set d) = false := by
  rw [retract_set]
  split
  · rename_i e; subst e
    simp only [outsideRange, decide_eq_false_iff_not, Nat.not_le, BitVec.toNat_and] at h ⊢
    exact lt_of_le_of_lt Nat.and_le_left h
  · exact h

theorem attnSound_raise {s : State} {c : AttnClass} {k : Nat} (hk : k < c.members) (h : attnSound s.attn) :
    attnSound (s.raise c k).attn :=
  ⟨rfl, fun d hd => outsideRange_raise hk (h.2 d hd)⟩

theorem attnSound_retract {s : State} {c : AttnClass} {w : Word} (h : attnSound s.attn) :
    attnSound (s.retract c w).attn :=
  ⟨rfl, fun d hd => outsideRange_retract (h.2 d hd)⟩

theorem attnSound_judgeLevel {s : State} {l : Fin 4} (h : attnSound s.attn) : attnSound (s.judgeLevel l).attn := by
  unfold State.judgeLevel
  split
  · exact attnSound_raise l.isLt h
  · exact attnSound_retract h

/-- R116: after line `l` is judged, every line is a member as it should be, if every other one was. -/
theorem levelSound_judgeLevel {s : State} {l : Fin 4}
    (h : ∀ k : Fin 4, k ≠ l → (s.attn.set .storeLevel).getLsbD k.val = s.levelMember k) : levelSound (s.judgeLevel l) := by
  intro k
  have hm : (s.judgeLevel l).levelMember k = s.levelMember k := by
    rw [judgeLevel_eq]; rfl
  rw [hm, (judgeLevel_judged s l).1]
  have hline : (s.judgeLevel l).line l = s.line l := by rw [judgeLevel_eq]; rfl
  have hstore : (s.judgeLevel l).store l = s.store l := by rw [judgeLevel_eq]; rfl
  split
  · rename_i e
    rw [Fin.ext e, hline, hstore]
    simp [State.levelMember]
  · rename_i e
    exact h k fun e2 => e (congrArg Fin.val e2)

theorem levelSound_raise {s : State} {c : AttnClass} {k : Nat} (hc : c ≠ .storeLevel) (h : levelSound s) :
    levelSound (s.raise c k) := by
  intro l
  rw [raise_set, if_neg (Ne.symm hc)]
  exact h l

theorem attentionSound_kept : KeptOnAll attentionSound := by
  refine keptOnAll ?_ ?_ ?_ ?_ ?_
  · intro t c k hc hk h
    exact ⟨attnSound_raise hk h.1, levelSound_raise hc h.2⟩
  · intro t l r h
    unfold State.offer
    split
    · refine ⟨attnSound_judgeLevel h.1, levelSound_judgeLevel fun k hk => ?_⟩
      have : (t.setStore l ((t.store l).append r)).levelMember k = t.levelMember k := by
        unfold State.levelMember
        rw [setStore_store_ne _ _ _ _ hk]
        rfl
      rw [this]
      exact h.2 k
    · refine ⟨attnSound_raise (s := t.setStore l (t.store l).drop) l.isLt h.1, levelSound_raise (by decide) fun k => ?_⟩
      have : (t.setStore l (t.store l).drop).levelMember k = t.levelMember k := by
        unfold State.levelMember
        rw [setStore_store]
        split
        · rename_i e; subst e; rfl
        · rfl
      rw [this]
      exact h.2 k
  · intro t l f hf h
    refine ⟨h.1, fun k => ?_⟩
    have : (t.modLine l f).levelMember k = t.levelMember k := by
      unfold State.levelMember
      rw [modLine_line]
      split
      · rename_i e; subst e; rw [hf]; rfl
      · rfl
    rw [this]
    exact h.2 k
  · intro t c f _ h
    exact h
  · intro t w x y _ _ h
    exact h

end Sys2Proof.Machine
end

