-- ==== Sys2Proof/Laws/Queue.lean ====
section
/-! SUPPORT. The injection queue (R67, R70): where a new element and a promoted one stand, and that the order and the limits
are kept. -/

set_option Elab.async false

namespace Sys2Proof.Machine

theorem insertUrgent_eq (x : Injected) (q : List Injected) : insertUrgent x q = urgentPlaced x q := by
  induction q with
  | nil => rfl
  | cons y ys ih =>
    by_cases h : y.level = .urgent
    · simp [insertUrgent, urgentPlaced, h, ih]
    · simp [insertUrgent, urgentPlaced, h]

theorem insertUrgent_perm (x : Injected) (q : List Injected) : (insertUrgent x q).Perm (x :: q) := by
  induction q with
  | nil => exact List.Perm.refl _
  | cons y ys ih =>
    unfold insertUrgent
    split
    · exact (ih.cons y).trans (List.Perm.swap x y ys)
    · exact List.Perm.refl _

theorem mem_insertUrgent {x y : Injected} {q : List Injected} : y ∈ insertUrgent x q ↔ y = x ∨ y ∈ q := by
  rw [(insertUrgent_perm x q).mem_iff, List.mem_cons]

theorem insertUrgent_ne_nil (x : Injected) (q : List Injected) : insertUrgent x q ≠ [] := by
  cases q with
  | nil => simp [insertUrgent]
  | cons y ys => unfold insertUrgent; split <;> simp

/-- R67: an URGENT element goes behind the URGENT ones and ahead of the PROMPT ones. -/
theorem pairwise_insertUrgent {x : Injected} {q : List Injected} (hx : x.level = .urgent)
    (h : q.Pairwise fun a b => b.level = .urgent → a.level = .urgent) :
    (insertUrgent x q).Pairwise fun a b => b.level = .urgent → a.level = .urgent := by
  induction q with
  | nil => simp [insertUrgent]
  | cons y ys ih =>
    rw [List.pairwise_cons] at h
    unfold insertUrgent
    split
    · rename_i hy
      exact List.Pairwise.cons (fun _ _ _ => hy) (ih h.2)
    · exact List.Pairwise.cons (fun _ _ _ => hx) (List.Pairwise.cons h.1 h.2)

theorem level_prompt {v : Level} (h : v ≠ .urgent) : v = .prompt := by cases v <;> simp_all

/-- R67: the queue after an append. -/
theorem queueSound_append {x : Injected} {q : List Injected} (h : queueSound q) (hn : q.length < Config.queueCapacity)
    (hf : ∀ y ∈ q, y.entry ≠ x.entry) (ho : x.origin.injects = true) : queueSound (appendInjected x q) := by
  obtain ⟨h1, h2, h3, h4⟩ := h
  have hx : x.entry ∉ q.map Injected.entry := by
    rw [List.mem_map]
    rintro ⟨y, hy, e⟩
    exact hf y hy e
  unfold appendInjected
  split
  · rename_i hu
    refine ⟨?_, ?_, pairwise_insertUrgent hu h3, fun y hy => ?_⟩
    · rw [(insertUrgent_perm x q).length_eq, List.length_cons]; exact hn
    · rw [((insertUrgent_perm x q).map _).nodup_iff, List.map_cons, List.nodup_cons]; exact ⟨hx, h2⟩
    · rcases mem_insertUrgent.mp hy with rfl | hy
      · exact ho
      · exact h4 y hy
  · rename_i hp
    refine ⟨?_, ?_, ?_, fun y hy => ?_⟩
    · rw [List.length_append]; exact hn
    · rw [List.map_append, List.nodup_append]
      refine ⟨h2, by simp, ?_⟩
      rintro a ha b hb rfl
      simp only [List.map_cons, List.map_nil, List.mem_singleton] at hb
      exact hx (hb ▸ ha)
    · rw [List.pairwise_append]
      refine ⟨h3, by simp, ?_⟩
      intro a _ b hb hbu
      rw [List.mem_singleton] at hb
      rw [hb, hp] at hbu
      cases hbu
    · rcases List.mem_append.mp hy with hy | hy
      · exact h4 y hy
      · rw [List.mem_singleton.mp hy]; exact ho

theorem queueSound_filter {q : List Injected} (p : Injected → Bool) (h : queueSound q) : queueSound (q.filter p) :=
  ⟨le_trans (List.length_filter_le _ _) h.1, h.2.1.sublist ((List.filter_sublist).map _), h.2.2.1.filter _,
    fun x hx => h.2.2.2 x (List.mem_filter.mp hx).1⟩

theorem queueSound_tail {q : List Injected} (h : queueSound q) : queueSound q.tail := by
  cases q with
  | nil => exact h
  | cons y ys =>
    obtain ⟨h1, h2, h3, h4⟩ := h
    rw [List.map_cons, List.nodup_cons] at h2
    rw [List.pairwise_cons] at h3
    exact ⟨le_trans (Nat.le_succ _) h1, h2.2, h3.2, fun x hx => h4 x (List.mem_cons_of_mem _ hx)⟩

theorem queueSound_nil : queueSound [] := ⟨Nat.zero_le _, List.nodup_nil, List.Pairwise.nil, fun _ h => by cases h⟩

theorem findEntry_some {e : Fin 128} {q : List Injected} {x : Injected} (h : findEntry e q = some x) :
    x ∈ q ∧ x.entry = e :=
  ⟨List.mem_of_find?_eq_some h, by simpa using List.find?_some h⟩

theorem findEntry_none {e : Fin 128} {q : List Injected} (h : findEntry e q = none) : ∀ y ∈ q, y.entry ≠ e := by
  intro y hy
  have := List.find?_eq_none.mp h y hy
  simpa using this

/-- In a queue that names no entry twice, the element found is the only one of its entry. -/
theorem findEntry_mem {q : List Injected} (h : (q.map Injected.entry).Nodup) {x : Injected} (hx : x ∈ q) :
    findEntry x.entry q = some x := by
  induction q with
  | nil => cases hx
  | cons y ys ih =>
    rw [List.map_cons, List.nodup_cons] at h
    unfold findEntry
    rcases List.mem_cons.mp hx with rfl | hx
    · simp
    · have : y.entry ≠ x.entry := fun e => h.1 (e ▸ List.mem_map_of_mem hx)
      simp only [List.find?_cons, this, decide_false]
      exact ih h.2 hx

theorem removeEntry_length {q : List Injected} {x : Injected} (hx : x ∈ q) :
    (removeEntry x.entry q).length < q.length := by
  unfold removeEntry
  exact List.length_filter_lt_length_iff_exists.mpr ⟨x, hx, by simp⟩

/-- R70: the queue after a merge. -/
theorem queueSound_merge {x : Injected} {v : Level} {q : List Injected} (h : queueSound q) (hx : x ∈ q) :
    queueSound (mergeInjected x v q) := by
  unfold mergeInjected
  split
  · have hr := queueSound_filter (fun y => decide (y.entry ≠ x.entry)) h
    have h1 := queueSound_append (x := { x.merge with level := .urgent }) hr
      (lt_of_lt_of_le (removeEntry_length hx) h.1) (fun y hy => by
        show y.entry ≠ x.entry
        simpa using (List.mem_filter.mp hy).2) (h.2.2.2 x hx)
    exact h1
  · obtain ⟨h1, h2, h3, h4⟩ := h
    have hid : ∀ y ∈ q, (if y.entry = x.entry then x.merge else y).level = y.level ∧
        (if y.entry = x.entry then x.merge else y).entry = y.entry := by
      intro y hy
      split
      · rename_i e
        have hxy : y = x := by
          have e1 := findEntry_mem h2 hy
          have e2 := findEntry_mem h2 hx
          rw [e, e2] at e1
          exact (Option.some.inj e1).symm
        subst hxy
        exact ⟨rfl, rfl⟩
      · exact ⟨rfl, rfl⟩
    refine ⟨by rw [List.length_map]; exact h1, ?_, ?_, fun y hy => ?_⟩
    · have : (q.map fun y => if y.entry = x.entry then x.merge else y).map Injected.entry = q.map Injected.entry := by
        rw [List.map_map]
        exact List.map_congr_left fun y hy => (hid y hy).2
      rw [this]; exact h2
    · rw [List.pairwise_map]
      refine List.Pairwise.imp_of_mem ?_ h3
      intro a b ha hb hab
      rw [(hid a ha).1, (hid b hb).1]
      exact hab
    · obtain ⟨z, hz, rfl⟩ := List.mem_map.mp hy
      split
      · exact h4 x hx
      · exact h4 z hz

theorem mergeInjected_ne_nil {x : Injected} {v : Level} {q : List Injected} (hx : x ∈ q) : mergeInjected x v q ≠ [] := by
  unfold mergeInjected
  split
  · exact insertUrgent_ne_nil _ _
  · intro h
    rw [List.map_eq_nil_iff] at h
    rw [h] at hx
    cases hx

theorem appendInjected_ne_nil (x : Injected) (q : List Injected) : appendInjected x q ≠ [] := by
  unfold appendInjected
  split
  · exact insertUrgent_ne_nil _ _
  · simp

/-- A merge changes no entry named in the queue. -/
theorem mem_merge_entry {x y : Injected} {v : Level} {q : List Injected} (hx : x ∈ q) (hy : y ∈ mergeInjected x v q) :
    ∃ z ∈ q, z.entry = y.entry := by
  unfold mergeInjected at hy
  split at hy
  · rcases mem_insertUrgent.mp hy with rfl | hy
    · exact ⟨x, hx, rfl⟩
    · exact ⟨y, (List.mem_filter.mp hy).1, rfl⟩
  · obtain ⟨z, hz, rfl⟩ := List.mem_map.mp hy
    refine ⟨z, hz, ?_⟩
    split
    · rename_i e; exact e
    · rfl

theorem mem_append_entry {x y : Injected} {q : List Injected} (hy : y ∈ appendInjected x q) : y = x ∨ y ∈ q := by
  unfold appendInjected at hy
  split at hy
  · exact mem_insertUrgent.mp hy
  · rcases List.mem_append.mp hy with h | h
    · exact .inr h
    · exact .inl (List.mem_singleton.mp h)

end Sys2Proof.Machine
end

