-- ==== Sys2Proof/Laws/Lines.lean ====
section
/-! SUPPORT. What every shared operation does to the soundness of the lines (`linesSound`). An operation may leave the demand
set of a line unjudged until the operation that calls it judges it; `LinesBut hole` says that the lines are sound but for the
demand sets of the lines in `hole`. -/

set_option Elab.async false

namespace Sys2Proof.Machine

/-- The lines are sound, but for the demand sets of the lines in `hole`. -/
def LinesBut (hole : Fin 4 → Prop) (s : State) : Prop :=
  ∀ k, lineShape (s.line k) ∧ exchangeSound (s.line k) ∧ (¬ hole k → demandSound (s.line k))

theorem linesSound_iff {s : State} : linesSound s ↔ LinesBut (fun _ => False) s :=
  ⟨fun h k => ⟨(h k).1, (h k).2.2, fun _ => (h k).2.1⟩, fun h k => ⟨(h k).1, (h k).2.2 not_false, (h k).2.1⟩⟩

/-! ### One line -/

theorem shape_busy {x : Line} (h : lineShape x) (he : x.exch ≠ none) :
    x.power = .on ∧ x.settings.mode = .framed ∧ x.engine ≠ .idle ∧ x.engine ≠ .listening := by
  obtain ⟨-, -, -, h, -⟩ := h
  unfold engineFits at h
  cases hx : x.exch with
  | none => exact absurd hx he
  | some ex => cases hen : x.engine <;> simp_all

theorem shape_free {x : Line} (h : lineShape x) (he : x.exch = none) : x.engine = .idle ∨ x.engine = .listening := by
  obtain ⟨-, -, -, h, -⟩ := h
  unfold engineFits at h
  cases hen : x.engine <;> simp_all

theorem shape_unpowered {x : Line} (h : lineShape x) (hp : x.power ≠ .on) : x.exch = none ∧ x.engine = .idle := by
  obtain ⟨-, -, -, h, -⟩ := h
  unfold engineFits at h
  cases hen : x.engine <;> simp_all

theorem shape_framed {x : Line} (h : lineShape x) (he : x.exch = none) (hm : x.settings.mode = .framed) :
    x.engine = .idle := by
  rcases shape_free h he with hi | hl
  · exact hi
  · obtain ⟨-, -, -, h, -⟩ := h
    unfold engineFits at h
    simp_all

theorem settle_stopped {x : Line} (h : lineShape x) (hp : x.power ≠ .settling) : x.settleTimer = .stopped := by
  obtain ⟨-, -, h, -⟩ := h
  unfold settleFits at h
  cases ht : x.settleTimer <;> simp_all

theorem blockSize_pos (b : BlockSize) : 0 < b.bytes := by cases b <;> decide

theorem exchangeSound_none {x : Line} (h : x.exch = none) : exchangeSound x := by
  intro ex hex
  rw [h] at hex
  cases hex

theorem demandSound_exch {x : Line} (hs : x.supplied = true) (he : x.exch ≠ none) : demandSound x := by
  unfold demandSound
  rw [if_pos hs]
  exact .inr he

theorem demandSound_some {x : Line} (hs : x.supplied = true) (hd : x.demand.isEmpty = false) : demandSound x := by
  unfold demandSound
  rw [if_pos hs]
  exact .inl hd

theorem demandSound_unsupplied {x : Line} (hs : x.supplied = false) (hd : x.demand.isEmpty = true) : demandSound x := by
  unfold demandSound
  rw [hs, if_neg (by simp)]
  exact hd

/-! ### The whole set of lines -/

theorem LinesBut.congr {hole : Fin 4 → Prop} {s t : State} (h : LinesBut hole s) (hl : ∀ k, t.line k = s.line k) :
    LinesBut hole t := fun k => by rw [hl k]; exact h k

theorem LinesBut.mono {h1 h2 : Fin 4 → Prop} {s : State} (h : LinesBut h1 s) (hh : ∀ k, h1 k → h2 k) : LinesBut h2 s :=
  fun k => ⟨(h k).1, (h k).2.1, fun hk => (h k).2.2 fun h1k => hk (hh k h1k)⟩

/-- One line has changed. -/
theorem LinesBut.change {hole hole' : Fin 4 → Prop} {s : State} {l : Fin 4} {f : Line → Line}
    (h : ∀ k, k ≠ l → lineShape (s.line k) ∧ exchangeSound (s.line k) ∧ (¬ hole k → demandSound (s.line k)))
    (h1 : lineShape (f (s.line l))) (h2 : exchangeSound (f (s.line l))) (h3 : ¬ hole' l → demandSound (f (s.line l)))
    (hh : ∀ k, k ≠ l → hole k → hole' k) : LinesBut hole' (s.modLine l f) := by
  intro k
  rw [modLine_line]
  split
  · rename_i e; subst e; exact ⟨h1, h2, h3⟩
  · rename_i e
    exact ⟨(h k e).1, (h k e).2.1, fun hk => (h k e).2.2 fun h1k => hk (hh k e h1k)⟩

theorem LinesBut.modLine {hole : Fin 4 → Prop} {s : State} {l : Fin 4} {f : Line → Line} (h : LinesBut hole s)
    (h1 : lineShape (f (s.line l))) (h2 : exchangeSound (f (s.line l)))
    (h3 : ¬ hole l → demandSound (f (s.line l))) : LinesBut hole (s.modLine l f) :=
  LinesBut.change (fun k _ => h k) h1 h2 h3 fun _ _ hk => hk

/-- One line has changed, its demand set being left for later. -/
theorem LinesBut.open_ {hole : Fin 4 → Prop} {s : State} {l : Fin 4} {f : Line → Line} (h : LinesBut hole s)
    (h1 : lineShape (f (s.line l))) (h2 : exchangeSound (f (s.line l))) :
    LinesBut (fun k => hole k ∨ k = l) (s.modLine l f) :=
  LinesBut.change (fun k _ => h k) h1 h2 (fun hk => absurd (.inr rfl) hk) fun _ _ hk => .inl hk

/-- One line has changed, and its demand set is judged at last. -/
theorem LinesBut.close {hole : Fin 4 → Prop} {s : State} {l : Fin 4} {f : Line → Line}
    (h : LinesBut (fun k => hole k ∨ k = l) s) (h1 : lineShape (f (s.line l))) (h2 : exchangeSound (f (s.line l)))
    (h3 : ¬ hole l → demandSound (f (s.line l))) : LinesBut hole (s.modLine l f) :=
  LinesBut.change (fun k _ => h k) h1 h2 h3 fun _ hk hh => hh.resolve_right hk

theorem LinesBut.settle {hole : Fin 4 → Prop} {s : State} {l : Fin 4} (h : LinesBut (fun k => hole k ∨ k = l) s)
    (hd : demandSound (s.line l)) : LinesBut hole s := fun k =>
  ⟨(h k).1, (h k).2.1, fun hk => by
    by_cases e : k = l
    · rw [e]; exact hd
    · exact (h k).2.2 fun hh => hh.elim hk e⟩

/-! ### Holds and chains -/

theorem linesBut_held (hole : Fin 4 → Prop) : HeldKept (LinesBut hole) where
  raise s c k _ _ h := h
  take s k x h := by
    refine h.modLine ?_ (h k).2.1 (h k).2.2
    obtain ⟨h1, h2, h3, h4, h5, h6, -, -, h9, h10⟩ := (h k).1
    exact ⟨h1, h2, h3, h4, h5, h6, fun _ => rfl, Nat.zero_le _, h9, h10⟩
  clear s k h := by
    refine h.modLine ?_ (h k).2.1 (h k).2.2
    obtain ⟨h1, h2, h3, h4, h5, h6, -, -, h9, h10⟩ := (h k).1
    exact ⟨h1, h2, h3, h4, h5, h6, fun _ => rfl, Nat.zero_le _, h9, h10⟩
  chain s c f _ h := h

/-- A fact about one line that no held position bears on is kept by whatever happens on the others. -/
theorem otherLine_kept {l k : Fin 4} (hk : k ≠ l) {R : Line → Prop} (ht : ∀ x h, R x → R (x.takeHeld h))
    (hc : ∀ x, R x → R x.clearHeld) : Kept k fun s => R (s.line l) where
  raise s c m _ _ h := h
  take s j x h := by
    rw [modLine_line]; split
    · rename_i e; subst e; exact ht _ _ h
    · exact h
  clear s j h := by
    rw [modLine_line]; split
    · rename_i e; subst e; exact hc _ h
    · exact h
  chain s c f _ h := h
  offer s r h := by rw [offer_line]; exact h
  line s f _ h := by rw [modLine_line_ne _ _ _ _ (Ne.symm hk)]; exact h
  watch s w x y _ _ h := h

theorem Kept.and {l : Fin 4} {P Q : State → Prop} (K : Kept l P) (M : Kept l Q) : Kept l fun s => P s ∧ Q s where
  raise _ _ _ h1 h2 h := ⟨K.raise _ _ _ h1 h2 h.1, M.raise _ _ _ h1 h2 h.2⟩
  take _ _ _ h := ⟨K.take _ _ _ h.1, M.take _ _ _ h.2⟩
  clear _ _ h := ⟨K.clear _ _ h.1, M.clear _ _ h.2⟩
  chain _ _ _ hf h := ⟨K.chain _ _ _ hf h.1, M.chain _ _ _ hf h.2⟩
  offer _ _ h := ⟨K.offer _ _ h.1, M.offer _ _ h.2⟩
  line _ _ hf h := ⟨K.line _ _ hf h.1, M.line _ _ hf h.2⟩
  watch _ _ _ _ hx hy h := ⟨K.watch _ _ _ _ hx hy h.1, M.watch _ _ _ _ hx hy h.2⟩

theorem HeldKept.and {P Q : State → Prop} (K : HeldKept P) (M : HeldKept Q) : HeldKept fun s => P s ∧ Q s where
  raise _ _ _ h1 h2 h := ⟨K.raise _ _ _ h1 h2 h.1, M.raise _ _ _ h1 h2 h.2⟩
  take _ _ _ h := ⟨K.take _ _ _ h.1, M.take _ _ _ h.2⟩
  clear _ _ h := ⟨K.clear _ _ h.1, M.clear _ _ h.2⟩
  chain _ _ _ hf h := ⟨K.chain _ _ _ hf h.1, M.chain _ _ _ hf h.2⟩

/-- A fact about one line that no held position bears on is kept by whatever a chain does. -/
theorem line_held (l : Fin 4) {R : Line → Prop} (ht : ∀ x h, R x → R (x.takeHeld h)) (hc : ∀ x, R x → R x.clearHeld) :
    HeldKept fun s => R (s.line l) where
  raise s c m _ _ h := h
  take s j x h := by
    rw [modLine_line]; split
    · rename_i e; subst e; exact ht _ _ h
    · exact h
  clear s j h := by
    rw [modLine_line]; split
    · rename_i e; subst e; exact hc _ h
    · exact h
  chain s c f _ h := h

/-! ### Capture blocks, and going OFF -/

theorem closeBlock_line (s : State) (l k : Fin 4) :
    (s.closeBlock l).line k =
      if k = l ∧ (s.line l).block ≠ [] then { s.line l with block := [], blockParity := false } else s.line k := by
  unfold State.closeBlock
  by_cases hb : (s.line l).block = []
  · simp [hb]
  · rw [if_neg hb, modLine_line]
    by_cases hk : k = l
    · subst hk; simp [hb]
    · simp [hk]

theorem shape_closed {x : Line} (h : lineShape x) : lineShape { x with block := [], blockParity := false } := by
  obtain ⟨h1, h2, h3, h4, h5, h6, h7, h8, -, -⟩ := h
  exact ⟨h1, h2, h3, h4, h5, h6, h7, h8, blockSize_pos _, fun _ => ⟨rfl, rfl⟩⟩

theorem linesBut_closeBlock {hole : Fin 4 → Prop} {s : State} (h : LinesBut hole s) (l : Fin 4) :
    LinesBut hole (s.closeBlock l) := by
  intro k
  rw [closeBlock_line]
  split
  · rename_i e
    obtain ⟨rfl, -⟩ := e
    exact ⟨shape_closed (h k).1, (h k).2.1, (h k).2.2⟩
  · exact h k

/-- A line that is supplied, has no exchange and no demand, and enters OFF. -/
theorem linesBut_enterOff {hole : Fin 4 → Prop} {s : State} {l : Fin 4} (h : LinesBut (fun k => hole k ∨ k = l) s)
    (hx : (s.line l).exch = none) (hd : (s.line l).demand.isEmpty = true) : LinesBut hole (s.enterOff l) := by
  unfold State.enterOff
  refine (linesBut_held hole).chainLineOff ?_ l
  have hl : ∃ b p, (s.closeBlock l).line l = { s.line l with block := b, blockParity := p } := by
    rw [closeBlock_line]; split
    · exact ⟨[], false, rfl⟩
    · exact ⟨(s.line l).block, (s.line l).blockParity, rfl⟩
  obtain ⟨b, p, hl⟩ := hl
  obtain ⟨-, -, -, -, h5, h6, h7, h8, -, -⟩ := (h l).1
  refine (linesBut_closeBlock h l).close ?_ ?_ ?_ <;> rw [hl]
  · have hde : (s.line l).lnDe = false := by
      rw [(h l).1.2.1]
      rcases shape_free (h l).1 hx with e | e <;> rw [e] <;> rfl
    exact ⟨rfl, hde, rfl, by simp [engineFits, hx], h5, h6, h7, h8, blockSize_pos _, fun _ => ⟨rfl, rfl⟩⟩
  · exact exchangeSound_none hx
  · intro _; exact hd

theorem linesBut_powerDown {hole : Fin 4 → Prop} {s : State} {l : Fin 4} (h : LinesBut (fun k => hole k ∨ k = l) s)
    (hd : (s.line l).supplied = false → (s.line l).demand.isEmpty = true) : LinesBut hole (s.powerDown l) := by
  unfold State.powerDown
  split
  · rename_i hc
    exact linesBut_enterOff h hc.2.2 hc.2.1
  · rename_i hc
    refine h.settle ?_
    unfold demandSound
    split
    · rename_i hs
      by_cases he : (s.line l).exch = none
      · left
        by_contra hne
        refine hc ⟨?_, by simpa using hne, he⟩
        revert hs
        cases hp : (s.line l).power <;> simp [Line.supplied, hp]
      · exact .inr he
    · rename_i hs
      exact hd (by simpa using hs)

theorem syncRound_line (s : State) (l k : Fin 4) :
    (s.syncRound l).line k =
      if k = l then { s.line l with demand := { (s.line l).demand with round := s.roundWanted l } } else s.line k := by
  unfold State.syncRound
  rw [modLine_line]

theorem linesBut_syncRound {hole : Fin 4 → Prop} {s : State} (h : LinesBut hole s) (l : Fin 4) :
    LinesBut (fun k => hole k ∨ k = l) (s.syncRound l) := h.open_ (h l).1 (h l).2.1

theorem roundWanted_fault {s : State} {l : Fin 4} (h : (s.line l).power = .fault) : s.roundWanted l = false := by
  simp [State.roundWanted, h]

/-- Of a line that is supplied, or that is FAULT and has no other demand. -/
theorem linesBut_withdraw {hole : Fin 4 → Prop} {s : State} {l : Fin 4} (h : LinesBut (fun k => hole k ∨ k = l) s)
    (hp : (s.line l).power ≠ .off)
    (hd : (s.line l).power = .fault → (s.line l).demand.host = false ∧ (s.line l).demand.ask = false) :
    LinesBut hole (s.withdraw l) := by
  refine linesBut_powerDown ((linesBut_syncRound h l).mono (by rintro k ((a | b) | c) <;> simp_all)) ?_
  rw [syncRound_line, if_pos rfl]
  intro hs
  have hf : (s.line l).power = .fault := by
    revert hs hp
    cases hq : (s.line l).power <;> simp [Line.supplied, hq]
  simp [DemandSet.isEmpty, hd hf, roundWanted_fault hf]

/-! ### Filing -/

theorem demand_of_fault {hole : Fin 4 → Prop} {s : State} {l : Fin 4} (h : LinesBut hole s) (hl : ¬ hole l)
    (hp : (s.line l).supplied = false) : (s.line l).demand.isEmpty = true := by
  have := (h l).2.2 hl
  unfold demandSound at this
  rwa [hp, if_neg (by simp)] at this

/-- A line whose exchange is being filed. -/
def FilingOn (l : Fin 4) (p : PowerState) (hole : Fin 4 → Prop) (s : State) : Prop :=
  LinesBut (fun k => hole k ∨ k = l) s ∧ ((s.line l).power = p ∧ (s.line l).exch = none)

theorem filingOn_held (l : Fin 4) (p : PowerState) (hole : Fin 4 → Prop) : HeldKept (FilingOn l p hole) :=
  HeldKept.and (linesBut_held _) (line_held l (R := fun x => x.power = p ∧ x.exch = none) (fun _ _ h => h) fun _ h => h)

theorem FilingOn.congr {l : Fin 4} {p : PowerState} {hole : Fin 4 → Prop} {s t : State} (h : FilingOn l p hole s)
    (hl : ∀ k, t.line k = s.line k) : FilingOn l p hole t := ⟨h.1.congr hl, by rw [hl l]; exact h.2⟩

theorem fileRecord_line (s : State) (l k : Fin 4) (ex : Exchange) (o : ExchOutcome) :
    (s.fileRecord l ex o).line k = s.line k := by
  unfold State.fileRecord; split <;> simp

theorem shape_injectedFiled {x : Line} (h : lineShape x) : lineShape x.injectedFiled := by
  obtain ⟨h1, h2, h3, h4, h5, h6, h7, h8, h9, h10⟩ := h
  refine ⟨h1, h2, h3, h4, h5, ?_, ?_, ?_, h9, h10⟩
  · intro hq
    have hq' : x.queue ≠ [] := hq
    simp [Line.injectedFiled, h6 hq', hq']
  · intro hh
    have hh' : x.held = none := hh
    simp [Line.injectedFiled, hh', h7 hh']
  · simp only [Line.injectedFiled]
    split
    · exact Nat.min_le_left _ _
    · exact h8

/-- What is left of a filing after the watches: the way back to the origin, and the power. -/
theorem linesBut_fileOrigin {l : Fin 4} {p : PowerState} {hole : Fin 4 → Prop} {s : State} (h : FilingOn l p hole s)
    (ex : Exchange) (o : ExchOutcome) : FilingOn l p hole (s.fileOrigin l ex o) := by
  have hinj : FilingOn l p hole (s.modLine l Line.injectedFiled) := by
    refine ⟨(h.1.open_ (shape_injectedFiled (h.1 l).1) ?_).mono (by rintro k ((a | b) | c) <;> simp_all), ?_⟩
    · exact (h.1 l).2.1
    · rw [modLine_line_self]; exact h.2
  unfold State.fileOrigin
  split
  · exact (filingOn_held l p hole).scanEnd h _ _ _ _
  all_goals exact hinj

/-- R37: a filing on a line that is ON, with any way to inject that keeps it. -/
theorem linesBut_fileWith {hole : Fin 4 → Prop} {s : State} {l : Fin 4} (h : LinesBut hole s)
    (hx : (s.line l).exch ≠ none) {inject : Injector}
    (hi : ∀ w e v s, FilingOn l .on hole s → FilingOn l .on hole (inject w e v s).1) (ex : Exchange) (o : ExchOutcome) :
    LinesBut hole (s.fileWith inject l ex o) := by
  obtain ⟨hp, hm, he, hl⟩ := shape_busy (h l).1 hx
  have h0 : FilingOn l .on hole (s.modLine l Line.freeEngine) := by
    refine ⟨h.open_ ?_ (exchangeSound_none rfl), by rw [modLine_line_self]; exact ⟨hp, rfl⟩⟩
    obtain ⟨h1, -, h3, -, h5, h6, h7, h8, h9, h10⟩ := (h l).1
    exact ⟨h1, rfl, h3, by simp [engineFits, Line.freeEngine, hm], h5, h6, h7, h8, h9, fun _ => h10 hl⟩
  have h1 := linesBut_fileOrigin (evalWatches_kept (P := FilingOn l .on hole) (fun _ _ _ h => h) (fun _ _ _ _ _ _ h => h) hi
    (h0.congr (fileRecord_line _ l · ex o)) ex.entry o ((ex.reply.map Reply.payload).getD [])) ex o
  exact linesBut_withdraw h1.1 (by rw [h1.2.1]; decide) (by rw [h1.2.1]; exact fun hf => by cases hf)

theorem linesBut_fileQuiet {hole : Fin 4 → Prop} {s : State} {l : Fin 4} (h : LinesBut hole s)
    (hx : (s.line l).exch ≠ none) (ex : Exchange) (o : ExchOutcome) : LinesBut hole (s.fileQuiet l ex o) :=
  linesBut_fileWith h hx (fun _ _ _ _ h => h) ex o

/-- R34. -/
theorem linesBut_endOutside {hole : Fin 4 → Prop} {s : State} (h : LinesBut hole s) (l : Fin 4) {o : ExchOutcome}
    (ho : o = .preempted ∨ o = .aborted) : LinesBut hole (s.endOutside l o) := by
  unfold State.endOutside
  split
  · exact h
  · rename_i ex hx
    have hx' : (s.line l).exch ≠ none := by rw [hx]; simp
    split
    · rename_i hs
      split
      · exact h
      · obtain ⟨h1, h2, h3, h4, h5, h6, h7, h8, h9, h10⟩ := (h l).1
        have hb := shape_busy (h l).1 hx'
        refine h.modLine ⟨h1, h2, h3, ?_, h5, h6, h7, h8, h9, h10⟩ ?_ ?_
        · simp [engineFits, hs, hb.1, hb.2.1]
        · intro ex' hex'
          cases hex'
          obtain ⟨a, b, c, -⟩ := (h l).2.1 ex hx
          refine ⟨a, b, c, ?_⟩
          intro o' ho'
          cases ho'
          exact ⟨hs, ho⟩
        · intro _
          exact demandSound_exch (by simp [Line.supplied, hb.1]) (by simp)
    · exact linesBut_fileQuiet h hx' _ _

theorem linesBut_preempt {hole : Fin 4 → Prop} {s : State} (h : LinesBut hole s) (l : Fin 4) :
    LinesBut hole (s.preempt l) := by
  unfold State.preempt
  split
  · split
    · exact linesBut_endOutside h l (.inl rfl)
    · exact h
  · exact h

theorem linesBut_urgentJoined {hole : Fin 4 → Prop} {s : State} (h : LinesBut hole s) (l : Fin 4) (j : Bool) :
    LinesBut hole (s.urgentJoined l j) := by
  unfold State.urgentJoined
  split
  · exact linesBut_preempt h l
  · exact h

/-! ### Faults and the supply -/

theorem withdraw_fault {s : State} {l : Fin 4} (hp : (s.line l).power = .fault) : s.withdraw l = s.syncRound l := by
  unfold State.withdraw State.powerDown
  rw [if_neg]
  rw [syncRound_line, if_pos rfl]
  rintro ⟨h | h, -⟩ <;> simp [hp] at h

theorem faultQueued_line (l k : Fin 4) (s : State) (q : Injected) : (State.faultQueued l s q).line k = s.line k := by
  unfold State.faultQueued
  split
  · split <;> simp
  · rfl

theorem faultQueue_line (l k : Fin 4) (q : List Injected) (s : State) :
    (q.foldl (State.faultQueued l) s).line k = s.line k := by
  induction q generalizing s with
  | nil => rfl
  | cons x q ih => rw [List.foldl_cons, ih, faultQueued_line]

/-- R94, up to the end of step 2: the line is FAULT and the exchange it had is filed. -/
theorem linesBut_faultExchange {hole : Fin 4 → Prop} {s : State} {l : Fin 4}
    (h : ∀ k, k ≠ l → lineShape (s.line k) ∧ exchangeSound (s.line k) ∧ (¬ hole k → demandSound (s.line k)))
    (h1 : lineShape (s.line l).freeEngine) (hp : (s.line l).power = .fault)
    (hn : (s.line l).exch = none → (s.line l).engine = .idle ∧ (s.line l).lnDe = false) :
    FilingOn l .fault hole (s.faultExchange l) := by
  have h0 : FilingOn l .fault hole (s.modLine l Line.freeEngine) := by
    refine ⟨LinesBut.change h h1 (exchangeSound_none rfl) (fun hk => absurd (.inr rfl) hk) fun _ _ hk => .inl hk, ?_⟩
    rw [modLine_line_self]; exact ⟨hp, rfl⟩
  unfold State.faultExchange
  split
  · rename_i ex hx
    have h2 := linesBut_fileOrigin (evalWatches_kept (P := FilingOn l .fault hole) (inject := noInject) (fun _ _ _ h => h)
      (fun _ _ _ _ _ _ h => h) (fun _ _ _ _ h => h)
      (h0.congr (fileRecord_line _ l · ex (ex.pendingEnd.getD .lineFault))) ex.entry (ex.pendingEnd.getD .lineFault)
      ((ex.reply.map Reply.payload).getD [])) ex (ex.pendingEnd.getD .lineFault)
    unfold State.fileQuiet State.fileWith
    simp only []
    rw [withdraw_fault h2.2.1]
    refine ⟨(linesBut_syncRound h2.1 l).mono (by rintro k ((a | b) | c) <;> simp_all), ?_⟩
    rw [syncRound_line, if_pos rfl]; exact h2.2
  · rename_i hx
    refine ⟨fun k => ?_, hp, hx⟩
    by_cases hk : k = l
    · subst hk
      refine ⟨?_, exchangeSound_none hx, fun hh => absurd (.inr rfl) hh⟩
      obtain ⟨a, b, c, d, e, f, g, i, j, m⟩ := h1
      have he := hn hx
      exact ⟨a, by rw [he.1, he.2]; rfl, c, by simp [engineFits, he.1, hx, hp], e, f, g, i, j, fun _ => m (by simp [Line.freeEngine])⟩
    · exact ⟨(h k hk).1, (h k hk).2.1, fun hh => (h k hk).2.2 fun hole => hh (.inl hole)⟩

/-- R93, R94: an overload on a line that is supplied. -/
theorem linesBut_faultHandling {hole : Fin 4 → Prop} {s : State} {l : Fin 4} (h : LinesBut hole s) :
    LinesBut hole (s.faultHandling l) := by
  have hcl := linesBut_closeBlock h l
  unfold State.faultHandling
  refine (linesBut_held hole).raise _ _ _ (by decide) l.isLt ((linesBut_held hole).faultHold ?_ l)
  have h2 : FilingOn l .fault hole (((s.closeBlock l).modLine l fun x =>
      { x with power := .fault, lnPwr := false, lnDe := false, settleTimer := .stopped, engine := .idle, block := [],
               blockParity := false }).faultExchange l) := by
    apply linesBut_faultExchange
    · intro k hk
      rw [modLine_line_ne _ _ _ _ hk]
      exact hcl k
    · rw [modLine_line_self]
      obtain ⟨-, -, -, -, h5, h6, h7, h8, -, -⟩ := (hcl l).1
      exact ⟨rfl, rfl, rfl, by simp [engineFits, Line.freeEngine], h5, h6, h7, h8, blockSize_pos _, fun _ => ⟨rfl, rfl⟩⟩
    · rw [modLine_line_self]
    · rw [modLine_line_self]; exact fun _ => ⟨rfl, rfl⟩
  generalize State.faultExchange _ l = s2 at h2
  have h3 := FilingOn.congr h2 (faultQueue_line l · (s2.line l).queue s2)
  generalize List.foldl (State.faultQueued l) s2 (s2.line l).queue = s3 at h3
  obtain ⟨a, b, c, d, -, -, g, i, j, m⟩ := (h3.1 l).1
  refine h3.1.close ⟨a, b, c, d, queueSound_nil, fun hh => absurd rfl hh, g, i, j, m⟩ (h3.1 l).2.1 fun _ => ?_
  exact demandSound_unsupplied (by simp [Line.supplied, h3.2.1]) rfl

/-- R90: a line with a demand, and nothing on it, enters SETTLING. -/
theorem linesBut_enterSettling {hole : Fin 4 → Prop} {s : State} {l : Fin 4} (h : LinesBut (fun k => hole k ∨ k = l) s)
    (hx : (s.line l).exch = none ∧ (s.line l).engine = .idle) (hde : (s.line l).demand.isEmpty = false) :
    LinesBut hole (s.enterSettling l) := by
  have h1 : LinesBut hole (s.modLine l fun x =>
      { x with power := .settling, lnPwr := true, settleTimer := .running s.count (x.settings.settleSteps * 50) }) := by
    obtain ⟨-, b, -, -, e, f, g, i, j, m⟩ := (h l).1
    refine h.close ⟨rfl, b, rfl, by simp [engineFits, hx.1, hx.2], e, f, g, i, j, m⟩ (exchangeSound_none hx.1) fun _ => ?_
    exact .inl hde
  unfold State.enterSettling
  simp only []
  split
  · exact linesBut_faultHandling h1
  · exact h1

/-- R90: a line that is OFF and has a demand powers up. -/
theorem linesBut_powerUp {hole : Fin 4 → Prop} {s : State} {l : Fin 4} (h : LinesBut (fun k => hole k ∨ k = l) s)
    (hd : (s.line l).power ≠ .off → demandSound (s.line l)) : LinesBut hole (s.powerUp l) := by
  unfold State.powerUp
  split
  · rename_i hc
    exact linesBut_enterSettling h (shape_unpowered (h l).1 (by rw [hc.1]; decide)) (by simpa using hc.2)
  · rename_i hc
    refine h.settle ?_
    by_cases hp : (s.line l).power = .off
    · have hs : (s.line l).supplied = false := by simp [Line.supplied, hp]
      unfold demandSound
      rw [hs, if_neg (by simp)]
      by_contra hne
      exact hc ⟨hp, by simpa using hne⟩
    · exact hd hp

theorem withdraw_off {s : State} {l : Fin 4} (hp : (s.line l).power = .off) : s.withdraw l = s.syncRound l := by
  unfold State.withdraw State.powerDown
  rw [if_neg]
  rw [syncRound_line, if_pos rfl]
  rintro ⟨h | h, -⟩ <;> simp [hp] at h

/-- R49, R90 to R92: the demand set of a line is judged and the line follows it. -/
theorem linesBut_settleDemand {hole : Fin 4 → Prop} {s : State} {l : Fin 4} (h : LinesBut hole s) (hl : ¬ hole l) :
    LinesBut hole (s.settleDemand l) := by
  unfold State.settleDemand
  by_cases hp : (s.line l).power = .off
  · rw [withdraw_off hp]
    refine linesBut_powerUp (linesBut_syncRound h l) ?_
    rw [syncRound_line, if_pos rfl]
    exact fun hh => absurd hp hh
  · have h1 : LinesBut hole (s.withdraw l) := by
      refine linesBut_withdraw (h.mono fun _ => .inl) hp fun hf => ?_
      have := demand_of_fault h hl (by simp [Line.supplied, hf])
      simp [DemandSet.isEmpty] at this
      exact ⟨this.1.1, this.2⟩
    exact linesBut_powerUp (h1.mono fun _ => .inl) fun _ => (h1 l).2.2 hl

end Sys2Proof.Machine
end

