-- ==== Sys2Proof/Laws/Bytes.lean ====
section
/-! SUPPORT. Bytes and codes: what each byte of a request reads back as. -/

set_option Elab.async false

namespace Sys2Proof.Machine

theorem finOf_finByte {n : Nat} (h : n ≤ 256) (i : Fin n) : finOf n (finByte i) = some i := by
  have hi := i.isLt
  have : (finByte i).toNat = i.val := by simp [finByte, natByte]; omega
  simp [finOf, this]

theorem finOf_none {n : Nat} {b : Byte} (h : n ≤ b.toNat) : finOf n b = none := by
  simp [finOf]; omega

theorem finOf_eq_some {n : Nat} {b : Byte} {i : Fin n} (hn : n ≤ 256) : finOf n b = some i ↔ b = finByte i := by
  constructor
  · intro h
    simp only [finOf] at h
    split at h
    · cases h; ext1; simp [finByte, natByte]
    · cases h
  · rintro rfl; exact finOf_finByte hn i

@[simp] theorem finOf4 (i : Fin 4) : finOf 4 (finByte i) = some i := finOf_finByte (by decide) i
@[simp] theorem finOf8 (i : Fin 8) : finOf 8 (finByte i) = some i := finOf_finByte (by decide) i
@[simp] theorem finOf32 (i : Fin 32) : finOf 32 (finByte i) = some i := finOf_finByte (by decide) i
@[simp] theorem finOf128 (i : Fin 128) : finOf 128 (finByte i) = some i := finOf_finByte (by decide) i

@[simp] theorem boolOf_boolByte (b : Bool) : boolOf (boolByte b) = some b := by cases b <;> decide
@[simp] theorem levelOf_code (v : Level) : levelOf v.code = some v := by cases v <;> decide
@[simp] theorem policyOf_code (p : RecordPolicy) : policyOf p.code = some p := by cases p <;> decide
@[simp] theorem classOf_idx (c : AttnClass) : classOf (finByte c.idx) = some c := by cases c <;> decide
@[simp] theorem modeOf_code (m : Mode) : modeOf m.code = some m := by cases m <;> decide
@[simp] theorem baudOf_code (b : Baud) : baudOf b.code = some b := by cases b <;> decide
@[simp] theorem blockSizeOf_code (b : BlockSize) : blockSizeOf b.code = some b := by cases b <;> decide
@[simp] theorem kindOf_code (k : Kind) : kindOf k.code = some k := by cases k <;> decide

theorem boolOf_none {b : Byte} (h : 1 < b.toNat) : boolOf b = none := by
  revert h; revert b; decide
theorem levelOf_none {b : Byte} (h : 1 < b.toNat) : levelOf b = none := by
  revert h; revert b; decide
theorem policyOf_none {b : Byte} (h : 2 < b.toNat) : policyOf b = none := by
  revert h; revert b; decide
theorem modeOf_none {b : Byte} (h : 1 < b.toNat) : modeOf b = none := by
  revert h; revert b; decide
theorem baudOf_none {b : Byte} (h : 3 < b.toNat) : baudOf b = none := by
  revert h; revert b; decide
theorem blockSizeOf_none {b : Byte} (h : 3 < b.toNat) : blockSizeOf b = none := by
  revert h; revert b; decide
theorem classOf_none {b : Byte} (h : 7 ≤ b.toNat) : classOf b = none := by
  revert h; revert b; decide

/-- R161: a 16-bit field reads back. -/
@[simp] theorem ofLe16_le16 (x : Half) : ofLe16 (x.extractLsb' 0 8) (x.extractLsb' 8 8) = x := by
  apply BitVec.eq_of_getLsbD_eq
  intro i hi
  simp only [ofLe16, BitVec.getLsbD_append, BitVec.getLsbD_extractLsb']
  by_cases h : i < 8
  · simp [h]
  · have : i - 8 < 8 := by omega
    have e : 8 + (i - 8) = i := by omega
    simp [h, this, e]

/-- R161: a 32-bit field reads back. -/
@[simp] theorem ofLe32_le32 (x : Word) :
    ofLe32 (x.extractLsb' 0 8) (x.extractLsb' 8 8) (x.extractLsb' 16 8) (x.extractLsb' 24 8) = x := by
  apply BitVec.eq_of_getLsbD_eq
  intro i hi
  simp only [ofLe32, BitVec.getLsbD_append, BitVec.getLsbD_extractLsb']
  by_cases h0 : i < 8
  · simp [h0]
  · by_cases h1 : i - 8 < 8
    · have e : 8 + (i - 8) = i := by omega
      simp [h0, h1, e]
    · by_cases h2 : i - 8 - 8 < 8
      · have e : 16 + (i - 8 - 8) = i := by omega
        simp [h0, h1, h2, e]
      · have h3 : i - 8 - 8 - 8 < 8 := by omega
        have e : 24 + (i - 8 - 8 - 8) = i := by omega
        simp [h0, h1, h2, h3, e]

end Sys2Proof.Machine
end

