-- ==== Sys2Proof/Laws/Link.lean ====
section
/-! SUPPORT. The Link Port: how a request that finds the transmitter IDLE reaches its block, and what happens to one that
finds it SENDING. -/

set_option Elab.async false

namespace Sys2Proof.Machine

theorem startReply_replying (t : State) (m : Message) (body : List Byte) :
    t.startReply m body false = t.replying (m.kind + 0x80) m.tag body := rfl

/-- R155, R156: with the transmitter IDLE a request whose body has the right length goes to its block, and its reply
begins. -/
theorem handOver_request {m : Message} {r : Request} {s : State} (h : s.ready) (hp : parse m = .request r)
    (hr : r ≠ .restart) :
    handOver m s = (process r s).1.replying (m.kind + 0x80) m.tag (process r s).2 := by
  unfold handOver
  rw [h.1, h.2]
  simp only [takeRequest, hp, hr, decide_false]
  rfl

theorem submit_request {k : Kind} {tag : Byte} {body : List Byte} {r : Request} {s : State} (h : s.ready)
    (hp : parseBody k body = some r) (hr : r ≠ .restart) :
    submit k tag body s = .next ((process r s).1.replying (k.code + 0x80) tag (process r s).2) := by
  unfold submit
  rw [handOver_request h (r := r) (by simp [parse, hp]) hr]

theorem submit_badLength {k : Kind} {tag : Byte} {body : List Byte} {s : State} (h : s.ready)
    (hp : parseBody k body = none) : submit k tag body s = .next (s.replying (k.code + 0x80) tag [0x15]) := by
  unfold submit handOver
  rw [h.1, h.2]
  simp only [takeRequest, parse, kindOf_code, hp]
  rfl

/-- R155: while a reply is being sent a request is placed in the slot, or discarded with OVERRUN. -/
theorem handOver_sending {m : Message} {s : State} {f : List Byte} {r : Bool}
    (h : s.link.transmitter = .sending f r) (hr : s.link.rstHeld = false) :
    handOver m s =
      match s.link.slot with
      | none => { s with link := { s.link with slot := some m } }
      | some _ => s.raise .linkError 3 := by
  unfold handOver
  rw [h, hr]
  rfl

/-- R160: while RST# is asserted no request arrives. -/
theorem handOver_held {m : Message} {s : State} (h : s.link.rstHeld = true) : handOver m s = s := by
  unfold handOver
  rw [if_pos h]

/-- Every host request is its message handed over. -/
theorem exec_request {c : Instr} {m : Message} (h : requestOf c = some m) (s : State) :
    exec c s = .next (handOver m s) := by
  cases c <;> simp only [requestOf, Option.some.injEq, reduceCtorEq] at h <;> try (subst h; rfl)
  case watchWrite inj =>
    cases inj with
    | none => simp only [Option.some.injEq] at h; subst h; rfl
    | some i => obtain ⟨g, v⟩ := i; simp only [Option.some.injEq] at h; subst h; rfl

end Sys2Proof.Machine
end

