-- ==== Sys2Proof/Laws/LineEvents.lean ====
section
/-! SUPPORT. Sound lines through the injected requests, the scheduler, the engine and the requests on chains and lines. -/

set_option Elab.async false

namespace Sys2Proof.Machine

/-- R71, R70: a line whose queue has taken a request in, the ASK demand being present. -/
theorem shape_asked {x : Line} (h : lineShape x) {q : List Injected} (hq : queueSound q) (ask : Bool)
    (ha : q ≠ [] → ask = true) : lineShape { x with queue := q, demand := { x.demand with ask } } := by
  obtain ⟨h1, h2, h3, h4, -, -, h7, h8, h9, h10⟩ := h
  exact ⟨h1, h2, h3, h4, hq, ha, h7, h8, h9, h10⟩

theorem demandSound_ask {x : Line} {q : List Injected} (hp : x.supplied = true) :
    demandSound { x with queue := q, demand := { x.demand with ask := true } } :=
  demandSound_some hp (by simp [DemandSet.isEmpty])

theorem linesBut_appendAsk {hole : Fin 4 → Prop} {s : State} {l : Fin 4} (h : LinesBut hole s)
    {x : Injected} (hf : (s.line l).power ≠ .fault) (hn : (s.line l).queue.length < Config.queueCapacity)
    (he : ∀ y ∈ (s.line l).queue, y.entry ≠ x.entry) (ho : x.origin.injects = true) : LinesBut hole (s.appendAsk l x) := by
  unfold State.appendAsk
  refine linesBut_urgentJoined ?_ l _
  refine linesBut_powerUp (h.open_ (shape_asked (h l).1 (queueSound_append (h l).1.2.2.2.2.1 hn he ho) true fun _ => rfl)
    (h l).2.1) ?_
  rw [modLine_line_self]
  intro hp
  refine demandSound_ask ?_
  cases hq : (s.line l).power <;> simp_all [Line.supplied]

theorem linesBut_mergeAsk {hole : Fin 4 → Prop} {s : State} {l : Fin 4} (h : LinesBut hole s) {x : Injected}
    (hx : x ∈ (s.line l).queue) (v : Level) : LinesBut hole (s.mergeAsk l x v) := by
  unfold State.mergeAsk
  refine linesBut_urgentJoined ?_ l _
  obtain ⟨h1, h2, h3, h4, h5, h6, h7, h8, h9, h10⟩ := (h l).1
  refine h.modLine ⟨h1, h2, h3, h4, queueSound_merge h5 hx, fun _ => h6 ?_, h7, h8, h9, h10⟩ (h l).2.1 (h l).2.2
  intro e
  rw [e] at hx
  cases hx

theorem askBarred_false {x : Line} (h : ¬ x.askBarred = true) :
    x.settings.mode = .framed ∧ x.power ≠ .fault ∧ (x.power = .off → x.settings.autoPower = true) := by
  simp only [Line.askBarred, Bool.or_eq_true, decide_eq_true_eq, Bool.and_eq_true, Bool.not_eq_true', not_or,
    not_and] at h
  refine ⟨?_, h.1.2, fun hp => by simpa using h.2 hp⟩
  cases hm : x.settings.mode
  · rfl
  · exact absurd hm h.1.1

theorem linesBut_askAt {hole : Fin 4 → Prop} {s : State} (h : LinesBut hole s) (e : Fin 128) (v : Level) {o : Origin}
    (ho : o.injects = true) : LinesBut hole (s.askAt e v o).1 := by
  unfold State.askAt
  split
  · exact h
  · rename_i p hp
    simp only []
    split
    · exact h
    · rename_i hb
      split
      · rename_i q hq
        exact linesBut_mergeAsk h (findEntry_some hq).1 v
      · rename_i hq
        split
        · exact h
        · rename_i hc
          exact linesBut_appendAsk h (askBarred_false hb).2.1 (Nat.lt_of_not_le hc) (findEntry_none hq) ho

/-! ### An injection while an exchange is being filed -/

theorem filingOn_askAt {s : State} {l : Fin 4} (h : FilingOn l .on (fun _ => False) s) (e : Fin 128) (v : Level)
    {o : Origin} (ho : o.injects = true) : FilingOn l .on (fun _ => False) (s.askAt e v o).1 := by
  by_cases hk : ∀ p, s.entry e = some p → p.line ≠ l
  · refine ⟨linesBut_askAt h.1 e v ho, ?_⟩
    exact Kept.askAt (P := fun s => (s.line l).power = .on ∧ (s.line l).exch = none) h.2 e v o fun p hp =>
      otherLine_kept (R := fun x => x.power = .on ∧ x.exch = none) (hk p hp) (fun _ _ h => h) fun _ h => h
  · push Not at hk
    obtain ⟨p, hp, hpl⟩ := hk
    subst hpl
    unfold State.askAt
    simp only [hp]
    split
    · exact h
    · rename_i hb
      have hnop : ∀ (t : State) (j : Bool), (t.line p.line).exch = none → t.urgentJoined p.line j = t := by
        intro t j ht
        unfold State.urgentJoined State.preempt
        split
        · rw [ht]
        · rfl
      split
      · rename_i q hq
        unfold State.mergeAsk
        rw [hnop _ _ (by rw [modLine_line_self]; exact h.2.2)]
        obtain ⟨h1, h2, h3, h4, h5, h6, h7, h8, h9, h10⟩ := (h.1 p.line).1
        refine ⟨h.1.modLine ⟨h1, h2, h3, h4, queueSound_merge h5 (findEntry_some hq).1, fun _ => h6 ?_, h7, h8, h9, h10⟩
          (h.1 p.line).2.1 (h.1 p.line).2.2, by rw [modLine_line_self]; exact h.2⟩
        intro e0
        have := (findEntry_some hq).1
        rw [e0] at this
        cases this
      · rename_i hq
        split
        · exact h
        · rename_i hc
          have hx : (s.modLine p.line fun y => { y with
              queue := appendInjected { entry := e, level := v, origin := o, merged := 0, arrival := s.count } y.queue,
              demand := { y.demand with ask := true } }).powerUp p.line = (s.modLine p.line fun y => { y with
              queue := appendInjected { entry := e, level := v, origin := o, merged := 0, arrival := s.count } y.queue,
              demand := { y.demand with ask := true } }) := by
            unfold State.powerUp
            rw [if_neg]
            rw [modLine_line_self]
            rintro ⟨h0, -⟩
            rw [h.2.1] at h0
            cases h0
          unfold State.appendAsk
          rw [hx, hnop _ _ (by rw [modLine_line_self]; exact h.2.2)]
          refine ⟨(h.1.open_ (shape_asked (h.1 p.line).1 (queueSound_append (h.1 p.line).1.2.2.2.2.1 (Nat.lt_of_not_le hc)
            (findEntry_none hq) ho) true fun _ => rfl) (h.1 p.line).2.1).mono ?_, by rw [modLine_line_self]; exact h.2⟩
          rintro k ((a | b) | c) <;> simp_all

theorem linesBut_fileEnd {s : State} {l : Fin 4} (h : LinesBut (fun _ => False) s) (hx : (s.line l).exch ≠ none)
    (ex : Exchange) (o : ExchOutcome) : LinesBut (fun _ => False) (s.fileEnd l ex o) :=
  linesBut_fileWith h hx (fun _ _ _ _ h => filingOn_askAt h _ _ rfl) ex o

/-! ### ASK-CANCEL and the scheduler -/

theorem linesBut_cancelAsk {s : State} {l : Fin 4} (h : LinesBut (fun _ => False) s) (hq : (s.line l).queue ≠ [])
    (e : Fin 128) : LinesBut (fun _ => False) (s.cancelAsk l e) := by
  have hsup : (s.line l).supplied = true := by
    by_contra hs
    have := demand_of_fault h not_false (by simpa using hs)
    simp [DemandSet.isEmpty, (h l).1.2.2.2.2.2.1 hq] at this
  unfold State.cancelAsk
  refine linesBut_withdraw (h.open_ (shape_asked (h l).1 (queueSound_filter _ (h l).1.2.2.2.2.1) _ ?_) (h l).2.1) ?_ ?_
  · intro hne
    have hne' : (removeEntry e (s.line l).queue).isEmpty = false := by
      cases hr : removeEntry e (s.line l).queue
      · exact absurd hr hne
      · rfl
    rw [(h l).1.2.2.2.2.2.1 hq, hne']
    rfl
  · rw [modLine_line_self]
    intro hp
    have hp' : (s.line l).power = .off := hp
    simp [Line.supplied, hp'] at hsup
  · rw [modLine_line_self]
    intro hp
    have hp' : (s.line l).power = .fault := hp
    simp [Line.supplied, hp'] at hsup

/-- A line that may start an exchange. -/
theorem free_iff {x : Line} : x.free = true ↔ x.power = .on ∧ x.settings.mode = .framed ∧ x.exch = none := by
  simp [Line.free, and_assoc]

theorem linesBut_startExchange {hole : Fin 4 → Prop} {s : State} {l : Fin 4} (h : LinesBut hole s)
    (hf : (s.line l).free = true) (p : PlanEntry) (e : Fin 128) (o : Origin) (r : Bool) (m : Nat) (w : Bool) :
    LinesBut hole (s.startExchange l (newExchange p e o r m w)) := by
  rw [free_iff] at hf
  obtain ⟨hp, hm, hx⟩ := hf
  have hi := shape_framed (h l).1 hx hm
  obtain ⟨h1, h2, h3, -, h5, h6, h7, h8, h9, h10⟩ := (h l).1
  refine h.modLine ⟨h1, ?_, h3, by simp [engineFits, hp, hm], h5, h6, h7, h8, h9, fun _ => h10 (by rw [hi]; decide)⟩ ?_ ?_
  · show (s.line l).lnDe = _
    rw [h2, hi]; rfl
  · intro ex hex
    cases hex
    exact ⟨le_refl _, Nat.le_add_right _ _, Nat.zero_le _, fun o ho => by cases ho⟩
  · intro _
    exact demandSound_exch (by simp [Line.supplied, hp]) (by simp)

theorem linesBut_withdraw_on {hole : Fin 4 → Prop} {s : State} {l : Fin 4} (h : LinesBut hole s)
    (hp : (s.line l).power = .on) : LinesBut hole (s.withdraw l) :=
  linesBut_withdraw (h.mono fun _ => .inl) (by rw [hp]; decide) (by rw [hp]; exact fun h => by cases h)

theorem held_free {l : Fin 4} : HeldKept fun s => (s.line l).free = true :=
  line_held l (R := fun x => x.free = true) (fun _ _ h => h) fun _ h => h

theorem linesBut_startScan {hole : Fin 4 → Prop} {s : State} {l : Fin 4} (h : LinesBut hole s)
    (hf : (s.line l).free = true) (c : Fin 8) (e : Fin 128) (r : Bool) : LinesBut hole (s.startScan l c e r) := by
  have hfail : ∀ f, LinesBut hole ((s.chainFault c f).withdraw l) := fun f =>
    linesBut_withdraw_on ((linesBut_held hole).chainFault h c f)
      (free_iff.mp (held_free.chainFault hf c f)).1
  unfold State.startScan
  split
  · split
    · exact linesBut_startExchange ((linesBut_held hole).onChain c _ h) hf _ _ _ _ _ _
    · exact hfail _
  · exact hfail _

theorem linesBut_startInjected {hole : Fin 4 → Prop} {s : State} {l : Fin 4} (h : LinesBut hole s)
    (hf : (s.line l).free = true) (hq : (s.line l).queue ≠ []) (x : Injected) : LinesBut hole (s.startInjected l x) := by
  unfold State.startInjected
  split
  · refine linesBut_startExchange ?_ (by rw [modLine_line_self]; exact hf) _ _ _ _ _ _
    obtain ⟨h1, h2, h3, h4, h5, h6, h7, h8, h9, h10⟩ := (h l).1
    exact h.modLine ⟨h1, h2, h3, h4, queueSound_tail h5, fun _ => h6 hq, h7, h8, h9, h10⟩ (h l).2.1 (h l).2.2
  · exact h

theorem linesBut_choose {hole : Fin 4 → Prop} {s : State} {l : Fin 4} (h : LinesBut hole s)
    (hf : (s.line l).free = true) : LinesBut hole (s.choose l) := by
  have hrestore : ∀ x, LinesBut hole (s.restore l x) := fun x =>
    linesBut_startScan ((linesBut_held hole).clear _ _ h) (by rw [modLine_line_self]; exact hf) _ _ _
  have hinj : ∀ q rest, (s.line l).queue = q :: rest → LinesBut hole ((s.boundaryHold l).startInjected l q) := by
    intro q rest hq
    have hk := HeldKept.and (held_free (l := l)) (line_held l (R := fun x => x.queue ≠ []) (fun _ _ h => h) fun _ h => h)
    have h1 := hk.boundaryHold ⟨hf, by rw [hq]; simp⟩ l
    exact linesBut_startInjected ((linesBut_held hole).boundaryHold h l) h1.1 h1.2 q
  unfold State.choose
  simp only []
  split
  · exact hrestore _
  · split
    · exact hrestore _
    · rename_i hq _; exact hinj _ _ hq
  · rename_i hq; exact hinj _ _ hq
  · split
    · exact linesBut_startScan h hf _ _ _
    · exact h

/-! ### The engine -/

/-- The engine goes from one state of an exchange to another. -/
theorem linesBut_engine {hole : Fin 4 → Prop} {s : State} {l : Fin 4} (h : LinesBut hole s)
    (hx : (s.line l).exch ≠ none) {f : Line → Line} {en : EngineState} {de : Bool} {ex : Exchange} {t : Timer} {a w : Bool}
    (hf : f (s.line l) = { s.line l with
      engine := en, lnDe := de, exch := some ex, replyTimer := t, arriving := a, waitIdle := w })
    (hen : en ≠ .idle ∧ en ≠ .listening) (hde : de = decide (en = .sending))
    (hex : 1 ≤ ex.attempts ∧ ex.attempts ≤ 1 + ex.copy.retries ∧ ex.collisions ≤ (s.line l).settings.collisionBudget ∧
      (∀ o ∈ ex.pendingEnd, en = .sending ∧ (o = .preempted ∨ o = .aborted))) : LinesBut hole (s.modLine l f) := by
  obtain ⟨hp, hm, -, hl⟩ := shape_busy (h l).1 hx
  obtain ⟨h1, -, h3, -, h5, h6, h7, h8, h9, h10⟩ := (h l).1
  refine h.modLine ?_ ?_ ?_ <;> rw [hf]
  · refine ⟨h1, hde, h3, ?_, h5, h6, h7, h8, h9, fun _ => h10 hl⟩
    cases en <;> simp_all [engineFits]
  · intro ex' he
    cases he
    exact hex
  · intro _
    exact demandSound_exch (by simp [Line.supplied, hp]) (by simp)

/-- What an exchange of a sound line satisfies while no end is pending. -/
def exchangeFits (x : Line) (ex : Exchange) : Prop :=
  1 ≤ ex.attempts ∧ ex.attempts ≤ 1 + ex.copy.retries ∧ ex.collisions ≤ x.settings.collisionBudget ∧ ex.pendingEnd = none

theorem exchangeFits_of {x : Line} {ex : Exchange} (h : exchangeSound x) (hx : x.exch = some ex)
    (hn : ex.pendingEnd = none) : exchangeFits x ex := by
  obtain ⟨a, b, c, -⟩ := h ex hx
  exact ⟨a, b, c, hn⟩

theorem exchangeFits_notSending {x : Line} {ex : Exchange} (h : exchangeSound x) (hx : x.exch = some ex)
    (hs : x.engine ≠ .sending) : exchangeFits x ex := by
  obtain ⟨a, b, c, d⟩ := h ex hx
  refine ⟨a, b, c, ?_⟩
  cases ho : ex.pendingEnd with
  | none => rfl
  | some o => exact absurd (d o ho).1 hs

theorem linesBut_failAttempt {s : State} {l : Fin 4} (h : LinesBut (fun _ => False) s) (hx : (s.line l).exch ≠ none)
    {ex : Exchange} (hex : exchangeFits (s.line l) ex) (o : ExchOutcome) :
    LinesBut (fun _ => False) (s.failAttempt l ex o) := by
  unfold State.failAttempt
  split
  · refine linesBut_engine h hx rfl (by decide) rfl ⟨Nat.le_add_left _ _, by assumption, hex.2.2.1, ?_⟩
    intro o ho
    have : ex.pendingEnd = some o := ho
    rw [hex.2.2.2] at this
    cases this
  · exact linesBut_fileEnd h hx _ _

theorem linesBut_collide {s : State} {l : Fin 4} (h : LinesBut (fun _ => False) s) (hx : (s.line l).exch ≠ none)
    {ex : Exchange} (hex : exchangeFits (s.line l) ex) : LinesBut (fun _ => False) (s.collide l ex) := by
  unfold State.collide
  simp only []
  split
  · exact linesBut_fileEnd h hx _ _
  · refine linesBut_engine h hx rfl (by decide) rfl ⟨hex.1, hex.2.1, Nat.le_of_not_lt (by assumption), ?_⟩
    intro o ho
    have : ex.pendingEnd = some o := ho
    rw [hex.2.2.2] at this
    cases this

theorem linesBut_frameSent {s : State} {l : Fin 4} (h : LinesBut (fun _ => False) s) (hx : (s.line l).exch ≠ none)
    {ex : Exchange} (hex : exchangeFits (s.line l) ex) : LinesBut (fun _ => False) (s.frameSent l ex) := by
  unfold State.frameSent
  split
  · exact linesBut_fileEnd h hx _ _
  · refine linesBut_engine h hx rfl (by decide) rfl ⟨hex.1, hex.2.1, hex.2.2.1, ?_⟩
    intro o ho
    have : ex.pendingEnd = some o := ho
    rw [hex.2.2.2] at this
    cases this

theorem linesBut_judgeSent {s : State} {l : Fin 4} (h : LinesBut (fun _ => False) s) {ex : Exchange}
    (hx : (s.line l).exch = some ex) (hs : (s.line l).engine = .sending) (r : Option LineChar) :
    LinesBut (fun _ => False) (s.judgeSent l ex r) := by
  have hx' : (s.line l).exch ≠ none := by rw [hx]; simp
  unfold State.judgeSent
  split
  · exact linesBut_fileEnd h hx' _ _
  · rename_i hn
    have hfit := exchangeFits_of (h l).2.1 hx hn
    split
    · exact linesBut_frameSent h hx' hfit
    · split
      · exact linesBut_collide h hx' hfit
      · split
        · refine linesBut_engine h hx' (ex := { ex with sent := ex.sent + 1 }) (en := .sending) (de := true)
            (t := (s.line l).replyTimer) (a := (s.line l).arriving) (w := (s.line l).waitIdle) ?_ (by decide) rfl
            ⟨hfit.1, hfit.2.1, hfit.2.2.1, ?_⟩
          · have hde : (s.line l).lnDe = true := by rw [(h l).1.2.1, hs]; rfl
            simp only [← hs, ← hde]
          · intro o ho
            have : ex.pendingEnd = some o := ho
            rw [hn] at this
            cases this
        · exact linesBut_frameSent h hx' hfit

theorem linesBut_judgeReply {s : State} {l : Fin 4} (h : LinesBut (fun _ => False) s) (hx : (s.line l).exch ≠ none)
    {ex : Exchange} (hex : exchangeFits (s.line l) ex) : LinesBut (fun _ => False) (s.judgeReply l ex) := by
  unfold State.judgeReply
  split
  · simp only []
    split
    · exact linesBut_failAttempt h hx hex _
    · split
      · exact linesBut_failAttempt h hx hex _
      · split <;> exact linesBut_fileEnd h hx _ _
  · exact linesBut_failAttempt h hx hex _

theorem linesBut_receiveReply {s : State} {l : Fin 4} (h : LinesBut (fun _ => False) s) {ex : Exchange}
    (hx : (s.line l).exch = some ex) (hs : (s.line l).engine ≠ .sending) (c : LineChar) :
    LinesBut (fun _ => False) (s.receiveReply l ex c) := by
  have hx' : (s.line l).exch ≠ none := by rw [hx]; simp
  have hfit := exchangeFits_notSending (h l).2.1 hx hs
  unfold State.receiveReply
  simp only []
  split
  · exact linesBut_failAttempt h hx' (ex := { ex with kept := [] }) ⟨hfit.1, hfit.2.1, hfit.2.2.1, hfit.2.2.2⟩ _
  · split
    · exact linesBut_judgeReply h hx' (ex := { ex with kept := ex.kept ++ [c.data] })
        ⟨hfit.1, hfit.2.1, hfit.2.2.1, hfit.2.2.2⟩
    · refine linesBut_engine h hx' (ex := { ex with kept := ex.kept ++ [c.data] }) (en := .receiving) (de := false) (t := .stopped)
        (a := (s.line l).arriving) (w := (s.line l).waitIdle) ?_ (by decide) rfl
        ⟨hfit.1, hfit.2.1, hfit.2.2.1, ?_⟩
      · have hde : (s.line l).lnDe = false := by rw [(h l).1.2.1]; simpa using hs
        simp only [← hde]
      · intro o ho
        have : ex.pendingEnd = some o := ho
        rw [hfit.2.2.2] at this
        cases this

theorem linesBut_captureChar {s : State} {l : Fin 4} (h : LinesBut (fun _ => False) s)
    (hs : (s.line l).engine = .listening) (c : LineChar) : LinesBut (fun _ => False) (s.captureChar l c) := by
  obtain ⟨h1, h2, h3, h4, h5, h6, h7, h8, h9, h10⟩ := (h l).1
  unfold State.captureChar
  simp only []
  split
  · intro k
    rw [closeBlock_line]
    by_cases hk : k = l
    · subst hk
      rw [if_pos ⟨rfl, by rw [modLine_line_self]; simp⟩, modLine_line_self]
      exact ⟨⟨h1, h2, h3, h4, h5, h6, h7, h8, blockSize_pos _, fun _ => ⟨rfl, rfl⟩⟩, (h k).2.1, (h k).2.2⟩
    · rw [if_neg (by simp [hk]), modLine_line_ne _ _ _ _ hk]
      exact h k
  · rename_i hlt
    rw [modLine_line_self] at hlt
    exact h.modLine ⟨h1, h2, h3, h4, h5, h6, h7, h8, Nat.lt_of_not_le hlt, fun hh => absurd hs hh⟩ (h l).2.1 (h l).2.2

theorem linesBut_judgeReceived {s : State} {l : Fin 4} (h : LinesBut (fun _ => False) s) (c : LineChar) :
    LinesBut (fun _ => False) (s.judgeReceived l c) := by
  unfold State.judgeReceived
  split
  · rename_i hs hx; exact linesBut_receiveReply h hx (by rw [hs]; decide) c
  · rename_i hs hx; exact linesBut_receiveReply h hx (by rw [hs]; decide) c
  · rename_i hs; exact linesBut_captureChar h hs c
  · exact h

/-! ### Requests on chains and lines -/

theorem linesBut_startChain {s : State} (h : LinesBut (fun _ => False) s) (c : Fin 8) (l : Fin 4) :
    LinesBut (fun _ => False) (s.startChain c l) :=
  linesBut_settleDemand ((linesBut_held _).roundStart ((linesBut_held _).onChain c _ h) c) not_false

theorem linesBut_idleChain {s : State} (h : LinesBut (fun _ => False) s) (c : Fin 8) :
    LinesBut (fun _ => False) (s.idleChain c) := by
  have h1 := (linesBut_held _).onChain c Chain.toIdle ((linesBut_held _).dropHold h c)
  unfold State.idleChain
  simp only []
  split
  · exact linesBut_settleDemand h1 not_false
  · exact h1

theorem linesBut_stopChain {s : State} (h : LinesBut (fun _ => False) s) (c : Fin 8) :
    LinesBut (fun _ => False) (s.stopChain c) := by
  unfold State.stopChain
  split
  · split
    · exact (linesBut_held _).onChain c _ h
    · exact linesBut_idleChain h c
  all_goals first | exact linesBut_idleChain h c | exact h

theorem linesBut_orphanExchange {s : State} (h : LinesBut (fun _ => False) s) (c : Fin 8) (l : Fin 4) :
    LinesBut (fun _ => False) (s.orphanExchange c l) := by
  cases hx : (s.line l).exch with
  | none =>
    have : (s.orphanExchange c l) = s.modLine l fun x => x := by
      unfold State.orphanExchange State.modLine
      simp only [hx, Option.map_none]
      rw [← hx]
    rw [this]
    exact h.modLine (h l).1 (h l).2.1 (h l).2.2
  | some ex =>
    have hx' : (s.line l).exch ≠ none := by rw [hx]; simp
    obtain ⟨-, -, he1, he2⟩ := shape_busy (h l).1 hx'
    unfold State.orphanExchange
    refine linesBut_engine h hx' (ex := if ex.origin = .chain c then { ex with orphan := true } else ex)
      (en := (s.line l).engine) (de := (s.line l).lnDe) (t := (s.line l).replyTimer) (a := (s.line l).arriving)
      (w := (s.line l).waitIdle) ?_ ⟨he1, he2⟩ (h l).1.2.1 ?_
    · simp only [hx, Option.map_some]
    · have := (h l).2.1 ex hx
      split <;> exact this

theorem linesBut_abortChain {s : State} (h : LinesBut (fun _ => False) s) (c : Fin 8) :
    LinesBut (fun _ => False) (s.abortChain c) := by
  unfold State.abortChain
  split
  · exact linesBut_settleDemand (linesBut_endOutside ((linesBut_held _).onChain c _ (linesBut_orphanExchange h c _)) _
      (.inr rfl)) not_false
  · exact linesBut_stopChain h c

theorem linesBut_roundExpiry {s : State} (h : LinesBut (fun _ => False) s) (c : Fin 8) :
    LinesBut (fun _ => False) (s.roundExpiry c) := by
  have h1 := (linesBut_held _).onChain c (fun ch => { ch with timer := .expired }) h
  unfold State.roundExpiry
  simp only []
  split
  · split
    · exact linesBut_settleDemand ((linesBut_held _).roundStart h1 c) not_false
    · exact h1
  · exact (linesBut_held _).onChain c _ h1
  · exact (linesBut_held _).onChain c _ h1
  · exact h1
  · exact h1

theorem linesBut_hostDemand {s : State} (h : LinesBut (fun _ => False) s) (l : Fin 4) (hf : (s.line l).power ≠ .fault) :
    LinesBut (fun _ => False) (s.hostDemand l) := by
  unfold State.hostDemand
  refine linesBut_powerUp (h.open_ (h l).1 (h l).2.1) ?_
  rw [modLine_line_self]
  intro hp
  have hs : (s.line l).supplied = true := by
    have hp' : (s.line l).power ≠ .off := hp
    cases hq : (s.line l).power <;> simp_all [Line.supplied]
  exact demandSound_some hs (by simp [DemandSet.isEmpty])

theorem linesBut_dropHost {s : State} (h : LinesBut (fun _ => False) s) (l : Fin 4) (hs : (s.line l).supplied = true) :
    LinesBut (fun _ => False) (s.dropHost l) := by
  unfold State.dropHost
  refine linesBut_withdraw (h.open_ (h l).1 (h l).2.1) ?_ ?_ <;> rw [modLine_line_self]
  · intro hp
    have hp' : (s.line l).power = .off := hp
    simp [Line.supplied, hp'] at hs
  · intro hp
    have hp' : (s.line l).power = .fault := hp
    simp [Line.supplied, hp'] at hs

theorem linesBut_leaveFault {s : State} (h : LinesBut (fun _ => False) s) (l : Fin 4) (hf : (s.line l).power = .fault) :
    LinesBut (fun _ => False) (s.leaveFault l) := by
  have hu := shape_unpowered (h l).1 (by rw [hf]; decide)
  have h1 : LinesBut (fun _ => False) (s.modLine l fun x => { x with power := .off }) := by
    obtain ⟨a, b, -, -, e, f, g, i, j, m⟩ := (h l).1
    have hst := settle_stopped (h l).1 (by rw [hf]; decide)
    have hpw : (s.line l).lnPwr = false := by rw [a]; simp [Line.supplied, hf]
    refine h.modLine ⟨hpw, b, by simp [settleFits, hst], by simp [engineFits, hu.1, hu.2], e, f, g, i, j, m⟩
      (exchangeSound_none hu.1) fun _ => ?_
    exact demandSound_unsupplied rfl (demand_of_fault h not_false (by simp [Line.supplied, hf]))
  unfold State.leaveFault
  simp only []
  split
  · exact linesBut_settleDemand ((linesBut_held _).chainFault h1 _ _) not_false
  · exact linesBut_settleDemand h1 not_false

theorem linesBut_linePowerOn {s : State} (h : LinesBut (fun _ => False) s) (l : Fin 4) :
    LinesBut (fun _ => False) (s.linePowerOn l).1 := by
  unfold State.linePowerOn
  split
  · exact h
  · exact linesBut_hostDemand h l (by assumption)

theorem linesBut_linePowerOff {s : State} (h : LinesBut (fun _ => False) s) (l : Fin 4) :
    LinesBut (fun _ => False) (s.linePowerOff l).1 := by
  unfold State.linePowerOff
  split
  · exact h
  · exact linesBut_leaveFault h l (by assumption)
  all_goals
    rename_i hp
    split
    · exact h
    · exact linesBut_dropHost h l (by simp [Line.supplied, hp])

theorem linesBut_resume {s : State} (h : LinesBut (fun _ => False) s) (l : Fin 4) (hf : (s.line l).power = .fault) :
    LinesBut (fun _ => False) (s.resume l) := by
  have hu := shape_unpowered (h l).1 (by rw [hf]; decide)
  have key : ∀ (t : State) (d : DemandSet) (p : PowerState), (∀ k, k ≠ l → t.line k = s.line k) → d.host = true →
      (d.ask = (s.line l).demand.ask) → t.line l = { s.line l with power := p, demand := d } →
      LinesBut (fun _ => False) (t.enterSettling l) := by
    intro t d p hk hd ha hl
    have h1 : LinesBut (fun _ => False) (t.modLine l fun x =>
        { x with power := .settling, lnPwr := true, settleTimer := .running t.count (x.settings.settleSteps * 50) }) := by
      obtain ⟨-, b, -, -, e, f, g, i, j, m⟩ := (h l).1
      refine LinesBut.change (hole := fun _ => False) (fun k hkl => by rw [hk k hkl]; exact h k) ?_ ?_ ?_ (fun _ _ h => h) <;> rw [hl]
      · exact ⟨rfl, b, rfl, by simp [engineFits, hu.1, hu.2], e, fun hq => ha.trans (f hq), g, i, j, m⟩
      · exact exchangeSound_none hu.1
      · intro _
        exact .inl (by simp [DemandSet.isEmpty, hd])
    unfold State.enterSettling
    simp only []
    split
    · exact linesBut_faultHandling h1
    · exact h1
  unfold State.resume
  generalize ht : (s.modLine l fun x => { x with power := .settling, demand := { x.demand with host := true } }) = t
  have hl : t.line l =
      { s.line l with power := .settling, demand := { (s.line l).demand with host := true } } := by
    rw [← ht, modLine_line_self]
  refine key (t.syncRound l) { (s.line l).demand with host := true, round := t.roundWanted l } .settling
    (fun k hk => ?_) rfl rfl ?_
  · rw [syncRound_line, if_neg hk, ← ht, modLine_line_ne _ _ _ _ hk]
  · rw [syncRound_line, if_pos rfl, hl]

end Sys2Proof.Machine
end

