-- ==== Sys2Proof/Laws/Agree.lean ====
section
/-! SUPPORT. The agreement of lines, chains, demand sets and plan (`chainsSound`, `demandTrue`, `useSound`), line by line. While
an exchange is being filed its context has left the line and its end has not yet reached its chain or the ASK demand; `Virtual`
stands for it, and leaves the ROUND demand of the line unjudged. -/

set_option Elab.async false

namespace Sys2Proof.Machine

/-- An exchange that has left its line and whose end is still on its way: the chain it runs for, or whether it was injected. -/
structure Virtual where
  flight : Option (Fin 8)
  injected : Bool

/-- Nothing is on its way; only the ROUND demand is unjudged. -/
def Virtual.unjudged : Virtual := { flight := none, injected := false }

/-- The chain an exchange in flight runs for, unless CHAIN-ABORT has cut it off. -/
def flies (x : Line) (c : Fin 8) : Bool := x.exch.any fun ex => decide (ex.origin = .chain c) && !ex.orphan

/-- What one line, the chains on it and the plan agree on. -/
structure AgreeAt (o : Option Virtual) (s : State) (l : Fin 4) : Prop where
  one : ∀ c d : Fin 8, ((s.chain c).active && (s.chain c).onLine l) = true →
    ((s.chain d).active && (s.chain d).onLine l) = true → c = d
  hold : ∀ c : Fin 8, (decide ((s.chain c).state = .held) && (s.chain c).onLine l) = true ↔
    (s.line l).held.map Held.owner = some c
  flight : ∀ c : Fin 8, ((s.chain c).inFlight && (s.chain c).onLine l) = true ↔
    (flies (s.line l) c = true ∨ o.bind Virtual.flight = some c)
  round : o = none → (s.line l).demand.round = s.roundWanted l
  ask : (s.line l).demand.ask =
    (!(s.line l).queue.isEmpty || (s.line l).injectedInFlight || o.any Virtual.injected)
  queue : ∀ q ∈ (s.line l).queue, s.entryOn q.entry l = true
  exch : ∀ ex ∈ (s.line l).exch, s.entry ex.entry = some ex.copy ∧ ex.copy.line = l
  held : ∀ h ∈ (s.line l).held, h.reason = .again → s.entryOn h.entry l = true

/-- Every line agrees, and the fields of every chain fit its state. -/
def Agree (H : Fin 4 → Option Virtual) (s : State) : Prop :=
  (∀ l, AgreeAt (H l) s l) ∧ ∀ c : Fin 8, chainSound (s.chain c) = true

theorem agree_iff {s : State} : (chainsSound s ∧ demandTrue s ∧ useSound s) ↔ Agree (fun _ => none) s := by
  constructor
  · rintro ⟨⟨h1, h2, h3, h4⟩, h5, h6⟩
    refine ⟨fun l => ⟨h1 l, h2 l, fun c => ?_, fun _ => (h5 l).1, ?_, (h6 l).1, (h6 l).2.1, (h6 l).2.2⟩, h4⟩
    · rw [h3 l c]; simp [flies]
    · rw [(h5 l).2]; simp
  · rintro ⟨h, h4⟩
    refine ⟨⟨fun l => (h l).one, fun l => (h l).hold, fun l c => ?_, h4⟩, fun l => ⟨(h l).round rfl, ?_⟩,
      fun l => ⟨(h l).queue, (h l).exch, (h l).held⟩⟩
    · rw [(h l).flight c]; simp [flies]
    · rw [(h l).ask]; simp

/-! ### Lines and chains apart -/

theorem onLine_iff {ch : Chain} {l : Fin 4} : ch.onLine l = true ↔ ∃ d, ch.defn = some d ∧ d.line = l := by
  unfold Chain.onLine
  cases ch.defn with
  | none => simp
  | some d => simp

theorem onLine_unique {ch : Chain} {l k : Fin 4} (h : ch.onLine l = true) (h' : ch.onLine k = true) : l = k := by
  obtain ⟨d, hd, rfl⟩ := onLine_iff.mp h
  obtain ⟨d', hd', rfl⟩ := onLine_iff.mp h'
  rw [hd] at hd'
  cases hd'
  rfl

theorem onLine_of_defn {ch ch' : Chain} (h : ch'.defn = ch.defn) (l : Fin 4) : ch'.onLine l = ch.onLine l := by
  unfold Chain.onLine; rw [h]

theorem isPowered_of_defn {ch ch' : Chain} (h : ch'.defn = ch.defn) : ch'.isPowered = ch.isPowered := by
  unfold Chain.isPowered; rw [h]

theorem entryOn_of_plan {s t : State} (h : t.plan = s.plan) (e : Fin 128) (l : Fin 4) : t.entryOn e l = s.entryOn e l := by
  unfold State.entryOn State.entry; rw [h]

theorem entry_of_plan {s t : State} (h : t.plan = s.plan) (e : Fin 128) : t.entry e = s.entry e := by
  unfold State.entry; rw [h]

/-- R49: what the ROUND demand depends on. -/
theorem roundWanted_congr {s t : State} {l : Fin 4} (hp : (t.line l).power = .fault ↔ (s.line l).power = .fault)
    (hc : ∀ c, (t.chain c).onLine l = (s.chain c).onLine l)
    (hr : ∀ c, (s.chain c).onLine l = true →
      ((t.chain c).isPowered && (t.chain c).inRound) = ((s.chain c).isPowered && (s.chain c).inRound))
    (hx : (t.line l).exch = (s.line l).exch) : t.roundWanted l = s.roundWanted l := by
  unfold State.roundWanted
  rw [hx]
  congr 1
  · exact decide_eq_decide.mpr (not_congr hp)
  · congr 1
    refine congrArg (fun f => List.any _ f) (funext fun c => ?_)
    rw [hc c]
    cases h : (s.chain c).onLine l
    · rfl
    · simp only [Bool.true_and]; exact hr c h

/-- What two states must share at a line for it to agree in both. -/
structure SameAt (s t : State) (l : Fin 4) : Prop where
  line : t.line l = s.line l
  on : ∀ c, (t.chain c).onLine l = (s.chain c).onLine l
  chain : ∀ c, (s.chain c).onLine l = true → t.chain c = s.chain c
  plan : t.plan = s.plan

theorem SameAt.roundWanted {s t : State} {l : Fin 4} (h : SameAt s t l) : t.roundWanted l = s.roundWanted l :=
  roundWanted_congr (by rw [h.line]) h.on (fun c hc => by rw [h.chain c hc]) (by rw [h.line])

theorem AgreeAt.congr {o : Option Virtual} {s t : State} {l : Fin 4} (h : AgreeAt o s l) (hs : SameAt s t l) :
    AgreeAt o t l := by
  have hand : ∀ (f : Chain → Bool) (c : Fin 8), (f (t.chain c) && (t.chain c).onLine l) = (f (s.chain c) && (s.chain c).onLine l) := by
    intro f c
    rw [hs.on c]
    cases hc : (s.chain c).onLine l
    · simp
    · rw [hs.chain c hc]
  refine ⟨fun c d => ?_, fun c => ?_, fun c => ?_, fun ho => ?_, ?_, fun q => ?_, fun ex => ?_, fun x => ?_⟩
  · rw [hand Chain.active c, hand Chain.active d]; exact h.one c d
  · rw [hand (fun ch => decide (ch.state = .held)) c, hs.line]; exact h.hold c
  · rw [hand Chain.inFlight c, hs.line]; exact h.flight c
  · rw [hs.roundWanted, hs.line]; exact h.round ho
  · rw [hs.line]; exact h.ask
  · rw [hs.line, entryOn_of_plan hs.plan]; exact h.queue q
  · rw [hs.line, entry_of_plan hs.plan]; exact h.exch ex
  · rw [hs.line, entryOn_of_plan hs.plan]; exact h.held x

/-- Nothing that the agreement is about has changed. -/
theorem Agree.congr {H : Fin 4 → Option Virtual} {s t : State} (h : Agree H s) (hl : ∀ l, t.line l = s.line l)
    (hc : ∀ c, t.chain c = s.chain c) (hp : t.plan = s.plan) : Agree H t :=
  ⟨fun l => (h.1 l).congr ⟨hl l, fun c => by rw [hc c], fun c _ => hc c, hp⟩, fun c => by rw [hc c]; exact h.2 c⟩

/-- One line has changed. -/
theorem Agree.line {H H' : Fin 4 → Option Virtual} {s : State} {k : Fin 4} {f : Line → Line} (h : Agree H s)
    (hk : AgreeAt (H' k) (s.modLine k f) k) (hne : ∀ j, j ≠ k → H' j = H j) : Agree H' (s.modLine k f) := by
  refine ⟨fun l => ?_, h.2⟩
  by_cases e : l = k
  · rw [e]; exact hk
  · rw [hne l e]
    exact (h.1 l).congr ⟨modLine_line_ne _ _ _ _ e, fun _ => rfl, fun _ _ => rfl, rfl⟩

/-- One chain and the line it is on have changed. -/
theorem Agree.chain {H H' : Fin 4 → Option Virtual} {s t : State} {k : Fin 4} {c : Fin 8} (h : Agree H s)
    (hp : t.plan = s.plan) (hl : ∀ j, j ≠ k → t.line j = s.line j) (hc : ∀ c', c' ≠ c → t.chain c' = s.chain c')
    (hon : (s.chain c).onLine k = true) (hdef : (t.chain c).defn = (s.chain c).defn) (hcs : chainSound (t.chain c) = true)
    (hk : AgreeAt (H' k) t k) (hne : ∀ j, j ≠ k → H' j = H j) : Agree H' t := by
  refine ⟨fun l => ?_, fun c' => ?_⟩
  · by_cases e : l = k
    · rw [e]; exact hk
    · rw [hne l e]
      have hon' : ∀ c', (t.chain c').onLine l = (s.chain c').onLine l := by
        intro c'
        by_cases e' : c' = c
        · rw [e']; exact onLine_of_defn hdef l
        · rw [hc c' e']
      refine (h.1 l).congr ⟨hl l e, hon', fun c' hc' => hc c' ?_, hp⟩
      rintro rfl
      exact e (onLine_unique hc' hon)
  · by_cases e' : c' = c
    · rw [e']; exact hcs
    · rw [hc c' e']; exact h.2 c'

/-! ### One line -/

/-- A change of a line that leaves its held position, its exchange, its queue and its ASK demand. -/
theorem AgreeAt.power {o o' : Option Virtual} {s : State} {k : Fin 4} {f : Line → Line} (h : AgreeAt o s k)
    (hh : (f (s.line k)).held = (s.line k).held) (hx : (f (s.line k)).exch = (s.line k).exch)
    (hq : (f (s.line k)).queue = (s.line k).queue) (ha : (f (s.line k)).demand.ask = (s.line k).demand.ask)
    (hf : o'.bind Virtual.flight = o.bind Virtual.flight) (hi : o'.any Virtual.injected = o.any Virtual.injected)
    (hr : o' = none → (f (s.line k)).demand.round = (s.modLine k f).roundWanted k) : AgreeAt o' (s.modLine k f) k := by
  refine ⟨h.one, fun c => ?_, fun c => ?_, fun ho => ?_, ?_, fun q => ?_, fun ex => ?_, fun x => ?_⟩ <;>
    try rw [modLine_line_self]
  · rw [hh]; exact h.hold c
  · rw [hf]; unfold flies; rw [hx]; exact h.flight c
  · exact hr ho
  · rw [ha, hq, hi]; unfold Line.injectedInFlight; rw [hx]; exact h.ask
  · rw [hq]; exact h.queue q
  · rw [hx]; exact h.exch ex
  · rw [hh]; exact h.held x

/-! ### One chain on its line -/

/-- What a change of chain `c` and of the held position of its line must satisfy. -/
theorem AgreeAt.chainStep {o o' : Option Virtual} {s t : State} {k : Fin 4} {c : Fin 8} (h : AgreeAt o s k)
    (hp : t.plan = s.plan) (hc : ∀ c', c' ≠ c → t.chain c' = s.chain c') (hon : (s.chain c).onLine k = true)
    (hdef : (t.chain c).defn = (s.chain c).defn) (hq : (t.line k).queue = (s.line k).queue)
    (hx : (t.line k).exch = (s.line k).exch) (hd : (t.line k).demand = (s.line k).demand)
    (hone : (t.chain c).active = true → (s.chain c).active = true ∨
      ∀ c', (s.chain c').onLine k = true → (s.chain c').active = false)
    (hhold : (t.chain c).state = .held ↔ (t.line k).held.map Held.owner = some c)
    (hhold' : ∀ c', c' ≠ c → ((t.line k).held.map Held.owner = some c' ↔ (s.line k).held.map Held.owner = some c'))
    (hfl : (t.chain c).inFlight = true ↔ (flies (s.line k) c = true ∨ o'.bind Virtual.flight = some c))
    (hfl' : ∀ c', c' ≠ c → (o'.bind Virtual.flight = some c' ↔ o.bind Virtual.flight = some c'))
    (hi : o'.any Virtual.injected = o.any Virtual.injected)
    (hr : o' = none → (t.line k).demand.round = t.roundWanted k)
    (hheld : ∀ x ∈ (t.line k).held, x.reason = .again → s.entryOn x.entry k = true) : AgreeAt o' t k := by
  have hon' : (t.chain c).onLine k = true := by rw [onLine_of_defn hdef]; exact hon
  refine ⟨fun a b ha hb => ?_, fun a => ?_, fun a => ?_, hr, ?_, fun q => ?_, fun ex => ?_, fun x hx' hre => ?_⟩
  · have key : ∀ a, ((t.chain a).active && (t.chain a).onLine k) = true → a ≠ c →
        ((s.chain a).active && (s.chain a).onLine k) = true := by
      intro a ha e; rw [← hc a e]; exact ha
    have hcAct : ∀ a, a ≠ c → ((t.chain a).active && (t.chain a).onLine k) = true → (t.chain c).active = true →
        a = c := by
      intro a e ha hact
      have ha' := key a ha e
      rcases hone hact with h1 | h1
      · exact h.one a c ha' (by simp [h1, hon])
      · simp only [Bool.and_eq_true] at ha'
        rw [h1 a ha'.2] at ha'
        exact absurd ha'.1 (by simp)
    by_cases e1 : a = c
    · by_cases e2 : b = c
      · rw [e1, e2]
      · subst e1
        simp only [Bool.and_eq_true] at ha
        exact (hcAct b e2 hb ha.1).symm
    · by_cases e2 : b = c
      · subst e2
        simp only [Bool.and_eq_true] at hb
        exact hcAct a e1 ha hb.1
      · exact h.one a b (key a ha e1) (key b hb e2)
  · by_cases e : a = c
    · subst e
      rw [hon', Bool.and_true, decide_eq_true_eq]
      exact hhold
    · rw [hc a e, hhold' a e]; exact h.hold a
  · by_cases e : a = c
    · subst e
      rw [hon', Bool.and_true]
      unfold flies; rw [hx]
      exact hfl
    · rw [hc a e, hfl' a e]; unfold flies; rw [hx]; exact h.flight a
  · rw [hd, hq, hi]; unfold Line.injectedInFlight; rw [hx]; exact h.ask
  · rw [hq, entryOn_of_plan hp]; exact h.queue q
  · rw [hx, entry_of_plan hp]; exact h.exch ex
  · rw [entryOn_of_plan hp]; exact hheld x hx' hre

/-! ### What agreement says of the chain at work -/

theorem activeChain_some {s : State} {l : Fin 4} {c : Fin 8} (h : s.activeChain l = some c) :
    (s.chain c).active = true ∧ (s.chain c).onLine l = true := by
  have := List.find?_some h
  simpa using this

theorem activeChain_eq {o : Option Virtual} {s : State} {l : Fin 4} (h : AgreeAt o s l) {c : Fin 8}
    (ha : (s.chain c).active = true) (hon : (s.chain c).onLine l = true) : s.activeChain l = some c := by
  cases hx : s.activeChain l with
  | none =>
    have := List.find?_eq_none.mp hx c (List.mem_finRange c)
    simp [ha, hon] at this
  | some d =>
    obtain ⟨h1, h2⟩ := activeChain_some hx
    rw [h.one c d (by simp [ha, hon]) (by simp [h1, h2])]

theorem activeChain_none {s : State} {l : Fin 4} :
    s.activeChain l = none ↔ ∀ c, (s.chain c).onLine l = true → (s.chain c).active = false := by
  unfold State.activeChain
  rw [List.find?_eq_none]
  constructor
  · intro h c hc
    have := h c (List.mem_finRange c)
    simpa [hc] using this
  · intro h c _ hh
    simp only [Bool.and_eq_true] at hh
    rw [h c hh.2] at hh
    exact absurd hh.1 (by simp)

/-- R68: the held position of a line is that of a HELD chain on it. -/
theorem held_owner {o : Option Virtual} {s : State} {l : Fin 4} (h : AgreeAt o s l) {x : Held}
    (hx : (s.line l).held = some x) : (s.chain x.owner).state = .held ∧ (s.chain x.owner).onLine l = true := by
  have := (h.hold x.owner).mpr (by rw [hx]; rfl)
  simpa using this

/-- While a chain that is not HELD is active on a line, or none is, the held position is clear. -/
theorem held_none {o : Option Virtual} {s : State} {l : Fin 4} (h : AgreeAt o s l)
    (hn : ∀ c, (s.chain c).onLine l = true → (s.chain c).state ≠ .held) : (s.line l).held = none := by
  cases hx : (s.line l).held with
  | none => rfl
  | some x =>
    obtain ⟨h1, h2⟩ := held_owner h hx
    exact absurd h1 (hn _ h2)

theorem held_none_of_active {o : Option Virtual} {s : State} {l : Fin 4} (h : AgreeAt o s l) {c : Fin 8}
    (ha : (s.chain c).active = true) (hon : (s.chain c).onLine l = true) (hs : (s.chain c).state ≠ .held) :
    (s.line l).held = none := by
  refine held_none h fun c' hon' hh => ?_
  have : c' = c := h.one c' c (by simp [Chain.active, hh, hon']) (by simp [ha, hon])
  subst this
  exact hs hh

theorem active_of {ch : Chain} {st : ChainState} (h : ch.state = st) (hst : st ≠ .idle) : ch.active = true := by
  simp [Chain.active, h, hst]

theorem chainSound_inFlight {ch : Chain} (h : chainSound ch = true) (hf : ch.inFlight = true) :
    ch.state = .running ∨ ch.state = .stopping := by
  unfold chainSound at h
  cases hs : ch.state <;> simp_all

theorem chainSound_defn {ch : Chain} (h : chainSound ch = true) (hs : ch.state ≠ .idle) : ∃ d, ch.defn = some d := by
  unfold chainSound at h
  cases hd : ch.defn with
  | none => cases hst : ch.state <;> simp_all
  | some d => exact ⟨d, rfl⟩

end Sys2Proof.Machine
end

