-- ==== Sys2Proof/Laws/AgreeChain.lean ====
section
/-! SUPPORT. What the Chain Controller's operations do to a chain and to the held position of its line, and that lines and
chains still agree after them, the ROUND demand of the line being left for the caller to judge. -/

set_option Elab.async false

namespace Sys2Proof.Machine

/-! ### What the operations change -/

@[simp] theorem raise_chain (s : State) (a : AttnClass) (m : Nat) (c : Fin 8) : (s.raise a m).chain c = s.chain c := rfl
@[simp] theorem raise_line (s : State) (a : AttnClass) (m : Nat) (l : Fin 4) : (s.raise a m).line l = s.line l := rfl
@[simp] theorem raise_store (s : State) (a : AttnClass) (m : Nat) (l : Fin 4) : (s.raise a m).store l = s.store l := rfl
@[simp] theorem raise_watch (s : State) (a : AttnClass) (m : Nat) (w : Fin 32) : (s.raise a m).watch w = s.watch w := rfl
@[simp] theorem raise_plan (s : State) (a : AttnClass) (m : Nat) : (s.raise a m).plan = s.plan := rfl
@[simp] theorem raise_count (s : State) (a : AttnClass) (m : Nat) : (s.raise a m).count = s.count := rfl
@[simp] theorem raise_entryOn (s : State) (a : AttnClass) (m : Nat) (e : Fin 128) (l : Fin 4) :
    (s.raise a m).entryOn e l = s.entryOn e l := rfl

theorem dropHold_chain (s : State) (c c' : Fin 8) : (s.dropHold c).chain c' = s.chain c' := by
  unfold State.dropHold; split <;> rfl

theorem dropHold_plan (s : State) (c : Fin 8) : (s.dropHold c).plan = s.plan := by
  unfold State.dropHold; split <;> rfl

theorem dropHold_line (s : State) (c : Fin 8) (l : Fin 4) :
    (s.dropHold c).line l =
      if (s.chain c).state = .held ∧ (s.chain c).onLine l = true then (s.line l).clearHeld else s.line l := by
  unfold State.dropHold
  split
  · rename_i d hs hd
    rw [modLine_line]
    have hon : (s.chain c).onLine l = true ↔ d.line = l := by simp [onLine_iff, hd]
    simp only [hs, true_and, hon]
    by_cases e : l = d.line
    · subst e; simp
    · simp [e, Ne.symm e]
  · rename_i hn
    rw [if_neg]
    rintro ⟨hs, hon⟩
    obtain ⟨d, hd, -⟩ := onLine_iff.mp hon
    exact hn d hs hd

theorem chainFault_plan (s : State) (c : Fin 8) (r : FaultReason) : (s.chainFault c r).plan = s.plan :=
  dropHold_plan s c

theorem chainFault_chain (s : State) (c c' : Fin 8) (r : FaultReason) :
    (s.chainFault c r).chain c' = if c' = c then { (s.chain c).toIdle with reason := r } else s.chain c' := by
  unfold State.chainFault
  rw [raise_chain, modChain_chain, dropHold_chain, dropHold_chain]

/-- R60, step 2: only a HELD chain has a held position to clear. -/
theorem chainFault_line (s : State) (c : Fin 8) (r : FaultReason) (l : Fin 4) :
    (s.chainFault c r).line l =
      if (s.chain c).state = .held ∧ (s.chain c).onLine l = true then (s.line l).clearHeld else s.line l := by
  unfold State.chainFault
  rw [raise_line, modChain_line, dropHold_line]

/-- R60: the part after a chain fault of a chain that is not HELD. -/
theorem chainFault_eq {s : State} {c : Fin 8} (h : (s.chain c).state ≠ .held) (r : FaultReason) :
    s.chainFault c r = (s.modChain c fun ch => { ch.toIdle with reason := r }).raise .chainFault c.val := by
  unfold State.chainFault State.dropHold
  split
  · rename_i hs _; exact absurd hs h
  · rfl

theorem holdChain_plan (s : State) (c : Fin 8) (l : Fin 4) (e : Fin 128) (r : HeldReason) :
    (s.holdChain c l e r).plan = s.plan := rfl

theorem holdChain_chain (s : State) (c c' : Fin 8) (l : Fin 4) (e : Fin 128) (r : HeldReason) :
    (s.holdChain c l e r).chain c' = if c' = c then { s.chain c with state := .held, position := none } else s.chain c' := by
  unfold State.holdChain
  rw [modChain_chain]; rfl

theorem holdChain_line (s : State) (c : Fin 8) (l k : Fin 4) (e : Fin 128) (r : HeldReason) :
    (s.holdChain c l e r).line k =
      if k = l then (s.line l).takeHeld { entry := e, reason := r, owner := c } else s.line k := by
  unfold State.holdChain
  rw [modChain_line, modLine_line]

/-! ### Agreement -/

/-- Chain `c` of line `k` has no exchange any more: what is left on its way is `w`. -/
structure Ends (o : Option Virtual) (w : Virtual) (s : State) (k : Fin 4) (c : Fin 8) : Prop where
  line : flies (s.line k) c = false
  self : w.flight ≠ some c
  others : ∀ c', c' ≠ c → (w.flight = some c' ↔ o.bind Virtual.flight = some c')
  injected : w.injected = o.any Virtual.injected

theorem Ends.again {o : Option Virtual} {w : Virtual} {s t : State} {k : Fin 4} {c : Fin 8} (h : Ends o w s k c)
    (hx : (t.line k).exch = (s.line k).exch) : Ends (some w) w t k c :=
  ⟨by unfold flies; rw [hx]; exact h.line, h.self, fun _ _ => Iff.rfl, rfl⟩

/-- A chain whose exchange in flight is no, nothing being on its way to it. -/
theorem Ends.of_not_inFlight {o : Option Virtual} {s : State} {k : Fin 4} {c : Fin 8} (h : AgreeAt o s k)
    (hf : (s.chain c).inFlight = false) :
    Ends o (o.getD Virtual.unjudged) s k c := by
  have hn : ¬ (flies (s.line k) c = true ∨ o.bind Virtual.flight = some c) := by
    rw [← h.flight c, hf]; simp
  push Not at hn
  refine ⟨by simpa using hn.1, ?_, ?_, ?_⟩
  · cases o with
    | none => simp [Virtual.unjudged]
    | some w => simpa using hn.2
  · intro c' _
    cases o <;> simp [Virtual.unjudged]
  · cases o <;> simp [Virtual.unjudged]

variable {H : Fin 4 → Option Virtual} {s : State} {k : Fin 4} {c : Fin 8} {w : Virtual}

/-- A change of the fields of a chain that neither takes nor leaves the held position. -/
theorem agree_modChain {o' : Option Virtual} {f : Chain → Chain} (h : Agree H s) (hon : (s.chain c).onLine k = true)
    (hdef : (f (s.chain c)).defn = (s.chain c).defn) (hcs : chainSound (f (s.chain c)) = true)
    (hact : (f (s.chain c)).active = true → (s.chain c).active = true ∨
      ∀ c', (s.chain c').onLine k = true → (s.chain c').active = false)
    (hheld : (f (s.chain c)).state = .held ↔ (s.chain c).state = .held)
    (hfl : (f (s.chain c)).inFlight = true ↔ (flies (s.line k) c = true ∨ o'.bind Virtual.flight = some c))
    (hfl' : ∀ c', c' ≠ c → (o'.bind Virtual.flight = some c' ↔ (H k).bind Virtual.flight = some c'))
    (hi : o'.any Virtual.injected = (H k).any Virtual.injected)
    (hr : o' = none → H k = none ∧
      ((f (s.chain c)).isPowered && (f (s.chain c)).inRound) = ((s.chain c).isPowered && (s.chain c).inRound)) :
    Agree (Function.update H k o') (s.modChain c f) := by
  have hself : (s.modChain c f).chain c = f (s.chain c) := modChain_chain_self _ _ _
  have hne : ∀ c', c' ≠ c → (s.modChain c f).chain c' = s.chain c' := fun c' => modChain_chain_ne s c c' f
  have hk := h.1 k
  refine h.chain (k := k) (c := c) rfl (fun _ _ => rfl) hne hon (by rw [hself]; exact hdef) (by rw [hself]; exact hcs) ?_
    fun j hj => Function.update_of_ne hj _ _
  rw [Function.update_self]
  refine hk.chainStep rfl hne hon (by rw [hself]; exact hdef) rfl rfl rfl (by rw [hself]; exact hact) ?_
    (fun _ _ => Iff.rfl) (by rw [hself]; exact hfl) hfl' hi ?_ hk.held
  · rw [hself, hheld, modChain_line, ← hk.hold c]; simp [hon]
  · intro ho
    obtain ⟨h0, h1⟩ := hr ho
    rw [modChain_line, hk.round h0]
    refine (roundWanted_congr (s := s) (t := s.modChain c f) Iff.rfl (fun c' => ?_) (fun c' _ => ?_) rfl).symm
    · by_cases e : c' = c
      · rw [e, hself]; exact onLine_of_defn hdef k
      · rw [hne c' e]
    · by_cases e : c' = c
      · rw [e, hself]; exact h1
      · rw [hne c' e]

/-- A chain fault. -/
theorem agree_chainFault (h : Agree H s) (hon : (s.chain c).onLine k = true) (he : Ends (H k) w s k c) (r : FaultReason) :
    Agree (Function.update H k (some w)) (s.chainFault c r) := by
  have hk := h.1 k
  have hself : (s.chainFault c r).chain c = { (s.chain c).toIdle with reason := r } := by rw [chainFault_chain, if_pos rfl]
  have hne : ∀ c', c' ≠ c → (s.chainFault c r).chain c' = s.chain c' := fun c' e => by rw [chainFault_chain, if_neg e]
  have hline : (s.chainFault c r).line k = if (s.chain c).state = .held then (s.line k).clearHeld else s.line k := by
    rw [chainFault_line]; simp [hon]
  have hfields : ((s.chainFault c r).line k).queue = (s.line k).queue ∧ ((s.chainFault c r).line k).exch = (s.line k).exch ∧
      ((s.chainFault c r).line k).demand = (s.line k).demand := by
    rw [hline]; split <;> exact ⟨rfl, rfl, rfl⟩
  refine h.chain (k := k) (c := c) (chainFault_plan s c r) (fun j hj => ?_) hne hon (by rw [hself]; rfl) (by rw [hself]; rfl)
    ?_ fun j hj => Function.update_of_ne hj _ _
  · rw [chainFault_line, if_neg]
    rintro ⟨-, hj'⟩
    exact hj (onLine_unique hj' hon)
  rw [Function.update_self]
  refine hk.chainStep (chainFault_plan s c r) hne hon (by rw [hself]; rfl) hfields.1 hfields.2.1 hfields.2.2 ?_ ?_ ?_ ?_
    (fun c' hc' => he.others c' hc') he.injected (fun ho => by cases ho) ?_
  · rw [hself]; intro hh; simp [Chain.active, Chain.toIdle] at hh
  · rw [hself, hline]
    by_cases hs : (s.chain c).state = .held
    · simp [hs, Chain.toIdle, Line.clearHeld]
    · rw [if_neg hs, ← hk.hold c]; simp [Chain.toIdle, hs]
  · intro c' hc'
    rw [hline]
    split
    · rename_i hs
      have hc : (s.line k).held.map Held.owner = some c := (hk.hold c).mp (by simp [hs, hon])
      rw [hc]
      simp [Line.clearHeld, Ne.symm hc']
    · rfl
  · rw [hself]
    simp [Chain.toIdle, he.line, he.self]
  · intro x hx hre
    rw [hline] at hx
    split at hx
    · simp [Line.clearHeld] at hx
    · exact hk.held x hx hre

/-- A chain that goes IDLE, its held position being discarded. -/
theorem agree_dropIdle (h : Agree H s) (hon : (s.chain c).onLine k = true) (he : Ends (H k) w s k c) :
    Agree (Function.update H k (some w)) ((s.dropHold c).modChain c Chain.toIdle) := by
  have hk := h.1 k
  have hself : ((s.dropHold c).modChain c Chain.toIdle).chain c = (s.chain c).toIdle := by
    rw [modChain_chain_self, dropHold_chain]
  have hne : ∀ c', c' ≠ c → ((s.dropHold c).modChain c Chain.toIdle).chain c' = s.chain c' := fun c' e => by
    rw [modChain_chain_ne _ _ _ _ e, dropHold_chain]
  have hline : ((s.dropHold c).modChain c Chain.toIdle).line k =
      if (s.chain c).state = .held then (s.line k).clearHeld else s.line k := by
    rw [modChain_line, dropHold_line]; simp [hon]
  have hfields : (((s.dropHold c).modChain c Chain.toIdle).line k).queue = (s.line k).queue ∧
      (((s.dropHold c).modChain c Chain.toIdle).line k).exch = (s.line k).exch ∧
      (((s.dropHold c).modChain c Chain.toIdle).line k).demand = (s.line k).demand := by
    rw [hline]; split <;> exact ⟨rfl, rfl, rfl⟩
  refine h.chain (k := k) (c := c) (dropHold_plan s c) (fun j hj => ?_) hne hon (by rw [hself]; rfl) (by rw [hself]; rfl)
    ?_ fun j hj => Function.update_of_ne hj _ _
  · rw [modChain_line, dropHold_line, if_neg]
    rintro ⟨-, hj'⟩
    exact hj (onLine_unique hj' hon)
  rw [Function.update_self]
  refine hk.chainStep (dropHold_plan s c) hne hon (by rw [hself]; rfl) hfields.1 hfields.2.1 hfields.2.2 ?_ ?_ ?_ ?_
    (fun c' hc' => he.others c' hc') he.injected (fun ho => by cases ho) ?_
  · rw [hself]; intro hh; simp [Chain.active, Chain.toIdle] at hh
  · rw [hself, hline]
    by_cases hs : (s.chain c).state = .held
    · simp [hs, Chain.toIdle, Line.clearHeld]
    · rw [if_neg hs, ← hk.hold c]; simp [Chain.toIdle, hs]
  · intro c' hc'
    rw [hline]
    split
    · rename_i hs
      have hc : (s.line k).held.map Held.owner = some c := (hk.hold c).mp (by simp [hs, hon])
      rw [hc]
      simp [Line.clearHeld, Ne.symm hc']
    · rfl
  · rw [hself]
    simp [Chain.toIdle, he.line, he.self]
  · intro x hx hre
    rw [hline] at hx
    split at hx
    · simp [Line.clearHeld] at hx
    · exact hk.held x hx hre

/-- A chain that was not HELD takes the held position of its line, which is clear. -/
theorem agree_take {f : Chain → Chain} {x : Held} (h : Agree H s) (hon : (s.chain c).onLine k = true)
    (he : Ends (H k) w s k c) (hdef : (f (s.chain c)).defn = (s.chain c).defn) (hst : (f (s.chain c)).state = .held)
    (hcs : chainSound (f (s.chain c)) = true)
    (hact : (s.chain c).active = true ∨ ∀ c', (s.chain c').onLine k = true → (s.chain c').active = false)
    (hnone : (s.line k).held = none) (hxo : x.owner = c) (hxe : x.reason = .again → s.entryOn x.entry k = true) :
    Agree (Function.update H k (some w)) ((s.modLine k fun y => y.takeHeld x).modChain c f) := by
  have hk := h.1 k
  have hself : ((s.modLine k fun y => y.takeHeld x).modChain c f).chain c = f (s.chain c) := modChain_chain_self _ _ _
  have hne : ∀ c', c' ≠ c → ((s.modLine k fun y => y.takeHeld x).modChain c f).chain c' = s.chain c' := fun c' e =>
    modChain_chain_ne _ _ _ _ e
  have hline : ((s.modLine k fun y => y.takeHeld x).modChain c f).line k = (s.line k).takeHeld x := by
    rw [modChain_line, modLine_line_self]
  have hinf : (f (s.chain c)).inFlight = false := by
    unfold chainSound at hcs; rw [hst] at hcs; simp at hcs; exact hcs.2
  refine h.chain (k := k) (c := c) rfl (fun j hj => ?_) hne hon (by rw [hself]; exact hdef) (by rw [hself]; exact hcs)
    ?_ fun j hj => Function.update_of_ne hj _ _
  · rw [modChain_line, modLine_line_ne _ _ _ _ hj]
  rw [Function.update_self]
  refine hk.chainStep rfl hne hon (by rw [hself]; exact hdef) (by rw [hline]; rfl) (by rw [hline]; rfl) (by rw [hline]; rfl)
    (fun _ => hact) ?_ ?_ ?_ (fun c' hc' => he.others c' hc') he.injected (fun ho => by cases ho) ?_
  · rw [hself, hline, hst]; simp [Line.takeHeld, hxo]
  · intro c' hc'
    rw [hline, hnone]
    simp [Line.takeHeld, hxo, Ne.symm hc']
  · rw [hself, hinf]
    simp [he.line, he.self]
  · intro y hy hre
    rw [hline] at hy
    cases hy
    exact hxe hre

/-- R48: a round starts on a chain that is not HELD, no other chain being active on its line. -/
theorem agree_roundStart (h : Agree H s) (hon : (s.chain c).onLine k = true) (he : Ends (H k) w s k c)
    (hst : (s.chain c).state ≠ .held)
    (hact : (s.chain c).active = true ∨ ∀ c', (s.chain c').onLine k = true → (s.chain c').active = false) :
    Agree (Function.update H k (some w)) (s.roundStart c) := by
  obtain ⟨d, hd, rfl⟩ := onLine_iff.mp hon
  have hnone : (s.line d.line).held = none := by
    rcases hact with ha | ha
    · exact held_none_of_active (h.1 _) ha hon hst
    · refine held_none (h.1 _) fun c' hc' hh => ?_
      have := ha c' hc'
      simp [Chain.active, hh] at this
  unfold State.roundStart
  rw [hd]
  simp only []
  split
  · exact agree_chainFault h hon he _
  · split
    · exact agree_take h hon he rfl rfl (by simp [chainSound, hd]) hact hnone rfl (fun hh => by cases hh)
    · split
      · exact agree_chainFault h hon he _
      · refine agree_modChain h hon rfl (by simp [chainSound, hd]) (fun _ => hact) ?_ ?_ (fun c' hc' => he.others c' hc') he.injected
          (fun ho => by cases ho)
        · simp [hst]
        · simp [he.line, he.self]

/-- R53, R55: a round ends. -/
theorem agree_roundEnd (h : Agree H s) (hon : (s.chain c).onLine k = true) (he : Ends (H k) w s k c)
    (hst : (s.chain c).state = .running) (hinf : (s.chain c).inFlight = false) :
    Agree (Function.update H k (some w)) (s.roundEnd c) := by
  obtain ⟨d, hd, hdl⟩ := onLine_iff.mp hon
  have hcs := h.2 c
  have hact : (s.chain c).active = true := active_of hst (by decide)
  have go : ∀ t : State, Agree (Function.update H k (some w)) t → (t.chain c).onLine k = true →
      (t.chain c).state = .running → (t.chain c).inFlight = false → (t.line k).exch = (s.line k).exch →
      (t.chain c).defn = some d →
      Agree (Function.update H k (some w)) (if d.period = 0 then t.modChain c Chain.toIdle
        else if (t.chain c).roundDue then
          (t.modChain c fun ch => { ch with late := min Config.countLimit (ch.late + 1) }).roundStart c
        else t.modChain c fun ch => { ch with state := .armed, position := none }) := by
    intro t ht hton hts hti htx htd
    have hact' : (t.chain c).active = true := active_of hts (by decide)
    have he' : Ends ((Function.update H k (some w)) k) w t k c := by
      rw [Function.update_self]; exact he.again htx
    have hidem : Function.update (Function.update H k (some w)) k (some w) = Function.update H k (some w) := by
      rw [Function.update_idem]
    split
    · have := agree_modChain (f := Chain.toIdle) (o' := some w) ht hton rfl rfl (fun hh => by simp [Chain.active, Chain.toIdle] at hh)
        (by simp [Chain.toIdle, hts]) (by simp [Chain.toIdle, he'.line, he'.self]) (fun c' hc' => he'.others c' hc')
        he'.injected (fun ho => by cases ho)
      rw [hidem] at this
      exact this
    · split
      · have h1 := agree_modChain (f := fun ch => { ch with late := min Config.countLimit (ch.late + 1) }) (o' := some w) ht hton
          rfl (by have := ht.2 c; exact this) (fun _ => .inl hact') Iff.rfl
          (by simp [hti, he'.line, he'.self])
          (fun c' hc' => he'.others c' hc') he'.injected (fun ho => by cases ho)
        rw [hidem] at h1
        have h2 := agree_roundStart (c := c) (k := k) (w := w) h1 (by rw [modChain_chain_self]; exact hton)
          (by rw [Function.update_self]; exact he.again htx) (by rw [modChain_chain_self]; simp [hts])
          (.inl (by rw [modChain_chain_self]; exact hact'))
        rw [hidem] at h2
        exact h2
      · rename_i hdue
        have := agree_modChain (f := fun ch => { ch with state := .armed, position := none }) (o' := some w) ht hton rfl
          (by simp [chainSound, htd, hti, hdue]) (fun _ => .inl hact') (by simp [hts])
          (by simp [hti, he'.line, he'.self]) (fun c' hc' => he'.others c' hc') he'.injected (fun ho => by cases ho)
        rw [hidem] at this
        exact this
  unfold State.roundEnd
  rw [hd]
  simp only []
  have h1 := agree_modChain (f := fun ch => { ch with rounds := ch.rounds + 1 }) (o' := some w) h hon rfl
    (by exact hcs) (fun _ => .inl hact) Iff.rfl (by simp [hinf, he.line, he.self]) (fun c' hc' => he.others c' hc')
    he.injected (fun ho => by cases ho)
  have hch : (s.modChain c fun ch => { ch with rounds := ch.rounds + 1 }).chain c =
      { s.chain c with rounds := (s.chain c).rounds + 1 } := modChain_chain_self _ _ _
  refine go _ ?_ ?_ ?_ ?_ ?_ ?_
  · split
    · exact h1.congr (fun _ => rfl) (fun _ => rfl) rfl
    · exact h1
  all_goals
    first
    | (split <;> simp only [raise_chain, hch] <;> assumption)
    | (split <;> rfl)

/-- R52: the link of the entry copy is followed. -/
theorem agree_linkFollow (h : Agree H s) (hon : (s.chain c).onLine k = true) (he : Ends (H k) w s k c)
    (hst : (s.chain c).state = .running) (hinf : (s.chain c).inFlight = false) (p : PlanEntry) :
    Agree (Function.update H k (some w)) (s.linkFollow c p) := by
  obtain ⟨d, hd, hdl⟩ := onLine_iff.mp hon
  unfold State.linkFollow
  split
  · exact agree_roundEnd h hon he hst hinf
  · split
    · exact agree_chainFault h hon he _
    · rw [hd]
      simp only []
      split
      · exact agree_modChain h hon rfl (by simp [chainSound, hst, hd]) (fun _ => .inl (active_of hst (by decide))) Iff.rfl
          (by simp [hinf, he.line, he.self]) (fun c' hc' => he.others c' hc') he.injected (fun ho => by cases ho)
      · exact agree_chainFault h hon he _

/-- R51: the end of a scan exchange that was on its way to its chain. -/
theorem agree_scanEnd {o : ExchOutcome} {ex : Exchange} (h : Agree H s) (hon : (s.chain c).onLine k = true)
    (hinf : (s.chain c).inFlight = true) (hor : ex.orphan = false) (he : Ends (H k) w s k c)
    (hex : s.entryOn ex.entry k = true) : Agree (Function.update H k (some w)) (s.scanEnd c k ex o) := by
  have hcs := h.2 c
  obtain ⟨d, hd, hdl⟩ := onLine_iff.mp hon
  unfold State.scanEnd
  rw [if_pos (by simp [hinf, hor])]
  simp only []
  rcases chainSound_inFlight hcs hinf with hst | hst
  · have hact : (s.chain c).active = true := active_of hst (by decide)
    have hnone := held_none_of_active (h.1 k) hact hon (by rw [hst]; decide)
    have hpos : (s.chain c).position.isSome = true := by
      unfold chainSound at hcs; rw [hst] at hcs; simp at hcs; exact hcs.2
    have h1 := agree_modChain (f := fun ch => { ch with inFlight := false }) (o' := some w) h hon rfl
      (by simp [chainSound, hst, hd, hpos]) (fun _ => .inl hact) Iff.rfl (by simp [he.line, he.self])
      (fun c' hc' => he.others c' hc') he.injected (fun ho => by cases ho)
    have hch : (s.modChain c fun ch => { ch with inFlight := false }).chain c = { s.chain c with inFlight := false } :=
      modChain_chain_self _ _ _
    generalize hs1 : (s.modChain c fun ch => { ch with inFlight := false }) = s1 at h1 hch
    have hl1 : s1.line k = s.line k := by rw [← hs1]; rfl
    have he1 : Ends ((Function.update H k (some w)) k) w s1 k c := by
      rw [Function.update_self]; exact he.again (by rw [hl1])
    have hon1 : (s1.chain c).onLine k = true := by rw [hch]; exact hon
    have hidem : Function.update (Function.update H k (some w)) k (some w) = Function.update H k (some w) := by
      rw [Function.update_idem]
    have hlink : Agree (Function.update H k (some w)) (s1.linkFollow c ex.copy) := by
      have := agree_linkFollow h1 hon1 he1 (by rw [hch]; exact hst) (by rw [hch]) ex.copy
      rwa [hidem] at this
    have hhold : Agree (Function.update H k (some w)) (s1.holdChain c k ex.entry .again) := by
      have := agree_take (x := { entry := ex.entry, reason := .again, owner := c })
        (f := fun ch => { ch with state := .held, position := none }) h1 hon1 he1 rfl rfl
        (by rw [hch]; simp [chainSound, hd]) (.inl (by rw [hch]; exact hact)) (by rw [hl1]; exact hnone) rfl
        (fun _ => by rw [entryOn_of_plan (by rw [← hs1])]; exact hex)
      rwa [hidem] at this
    rw [hst]
    simp only []
    split <;> first | exact hhold | exact hlink
  · rw [hst]
    simp only []
    have hcc : ((s.modChain c fun ch => { ch with inFlight := false }).modChain c Chain.toIdle) =
        s.modChain c Chain.toIdle := by
      unfold State.modChain
      rw [setChain_chain_self]
      unfold State.setChain
      simp [Chain.toIdle]
    rw [hcc]
    exact agree_modChain h hon rfl rfl (fun hh => by simp [Chain.active, Chain.toIdle] at hh) (by simp [Chain.toIdle, hst])
      (by simp [Chain.toIdle, he.line, he.self]) (fun c' hc' => he.others c' hc') he.injected (fun ho => by cases ho)

end Sys2Proof.Machine
end

