-- ==== Sys2Proof/Laws/AgreeLine.lean ====
section
/-! SUPPORT. Lines, chains, demand sets and plan agree after what happens on a line: its power, the filing of an exchange, an
overload, and requests that join its queue. -/

set_option Elab.async false

namespace Sys2Proof.Machine

/-- Nothing is on its way; the ROUND demand may be unjudged. -/
def Settled (o : Option Virtual) : Prop := o.bind Virtual.flight = none ∧ o.any Virtual.injected = false

theorem settled_none : Settled none := ⟨rfl, rfl⟩
theorem settled_unjudged : Settled (some Virtual.unjudged) := ⟨rfl, rfl⟩

/-- What stands for an exchange that has left its line. -/
def virtualOf (ex : Exchange) : Virtual :=
  { flight := match ex.origin with
      | .chain c => if ex.orphan then none else some c
      | .host => none
      | .watch _ => none
      | .listen => none
    injected := !ex.isScan }

variable {H : Fin 4 → Option Virtual} {s : State} {k : Fin 4}

theorem AgreeAt.withRound {o o' : Option Virtual} (h : AgreeAt o s k)
    (hf : o'.bind Virtual.flight = o.bind Virtual.flight) (hi : o'.any Virtual.injected = o.any Virtual.injected)
    (hr : o' = none → (s.line k).demand.round = s.roundWanted k) : AgreeAt o' s k :=
  ⟨h.one, h.hold, by rw [hf]; exact h.flight, hr, by rw [hi]; exact h.ask, h.queue, h.exch, h.held⟩

/-- The ROUND demand of a line has been found right. -/
theorem Agree.settle (h : Agree H s) (hs : Settled (H k)) (hr : (s.line k).demand.round = s.roundWanted k) :
    Agree (Function.update H k none) s := by
  refine ⟨fun l => ?_, h.2⟩
  by_cases e : l = k
  · subst e
    rw [Function.update_self]
    exact (h.1 l).withRound hs.1.symm hs.2.symm fun _ => hr
  · rw [Function.update_of_ne e]; exact h.1 l

/-- The ROUND demand of a line is left unjudged. -/
theorem Agree.unjudged (h : Agree H s) (hs : Settled (H k)) : Agree (Function.update H k (some Virtual.unjudged)) s := by
  refine ⟨fun l => ?_, h.2⟩
  by_cases e : l = k
  · subst e
    rw [Function.update_self]
    exact (h.1 l).withRound hs.1.symm hs.2.symm fun ho => by cases ho
  · rw [Function.update_of_ne e]; exact h.1 l

theorem Agree.of_update {o : Option Virtual} (h : Agree (Function.update H k o) s) (ho : H k = o) : Agree H s := by
  rwa [← ho, Function.update_eq_self] at h

theorem update_twice (H : Fin 4 → Option Virtual) (k : Fin 4) (a b : Option Virtual) :
    Function.update (Function.update H k a) k b = Function.update H k b := Function.update_idem _ _ _

/-! ### Changes of one line -/

/-- A change of a line that leaves its held position, exchange, queue and demand set, and whether it is FAULT. -/
theorem agree_lineSame {f : Line → Line} (h : Agree H s) (hh : (f (s.line k)).held = (s.line k).held)
    (hx : (f (s.line k)).exch = (s.line k).exch) (hq : (f (s.line k)).queue = (s.line k).queue)
    (ha : (f (s.line k)).demand.ask = (s.line k).demand.ask) (hro : (f (s.line k)).demand.round = (s.line k).demand.round)
    (hp : (f (s.line k)).power = .fault ↔ (s.line k).power = .fault) : Agree H (s.modLine k f) := by
  refine h.line ((h.1 k).power hh hx hq ha rfl rfl fun ho => ?_) fun _ _ => rfl
  rw [hro, (h.1 k).round ho]
  exact (roundWanted_congr (s := s) (t := s.modLine k f) (by rw [modLine_line_self]; exact hp) (fun _ => rfl) (fun _ _ => rfl)
    (by rw [modLine_line_self]; exact hx)).symm

theorem roundWanted_modLine {f : Line → Line} (hp : (f (s.line k)).power = (s.line k).power)
    (hx : (f (s.line k)).exch = (s.line k).exch) : (s.modLine k f).roundWanted k = s.roundWanted k :=
  roundWanted_congr (s := s) (t := s.modLine k f) (by rw [modLine_line_self, hp]) (fun _ => rfl) (fun _ _ => rfl)
    (by rw [modLine_line_self]; exact hx)

/-- A change of a line that may make its ROUND demand wrong. -/
theorem agree_lineUnjudged {f : Line → Line} (h : Agree H s) (hs : Settled (H k))
    (hh : (f (s.line k)).held = (s.line k).held)
    (hx : (f (s.line k)).exch = (s.line k).exch) (hq : (f (s.line k)).queue = (s.line k).queue)
    (ha : (f (s.line k)).demand.ask = (s.line k).demand.ask) :
    Agree (Function.update H k (some Virtual.unjudged)) (s.modLine k f) := by
  refine h.line ?_ fun j hj => Function.update_of_ne hj _ _
  rw [Function.update_self]
  exact (h.1 k).power hh hx hq ha hs.1.symm hs.2.symm fun ho => by cases ho

/-- The exchange in flight goes on. -/
theorem agree_exch {f : Line → Line} {ex ex' : Exchange} (h : Agree H s) (hx : (s.line k).exch = some ex)
    (hx' : (f (s.line k)).exch = some ex') (he : ex'.entry = ex.entry) (hcp : ex'.copy = ex.copy)
    (ho : ex'.origin = ex.origin) (hor : ex'.orphan = ex.orphan) (hpw : ex'.powered = ex.powered)
    (hh : (f (s.line k)).held = (s.line k).held) (hq : (f (s.line k)).queue = (s.line k).queue)
    (hd : (f (s.line k)).demand = (s.line k).demand) (hp : (f (s.line k)).power = (s.line k).power) :
    Agree H (s.modLine k f) := by
  have hk := h.1 k
  have hfl : ∀ c, flies (f (s.line k)) c = flies (s.line k) c := by
    intro c; unfold flies; rw [hx, hx']; simp [ho, hor]
  have hsc : ex'.isScan = ex.isScan := by unfold Exchange.isScan; rw [ho]
  refine h.line ⟨hk.one, fun c => ?_, fun c => ?_, fun hn => ?_, ?_, fun q => ?_, fun y hy => ?_, fun x => ?_⟩ fun _ _ => rfl <;>
    try rw [modLine_line_self]
  · rw [hh]; exact hk.hold c
  · rw [hfl]; exact hk.flight c
  · rw [hd, hk.round hn]
    unfold State.roundWanted
    rw [modLine_line_self, hp, hx, hx']
    simp [hsc, hpw]
  · have := hk.ask
    unfold Line.injectedInFlight at this ⊢
    rw [hx] at this
    rw [hd, hq, hx']
    simp only [hsc]
    exact this
  · rw [hq]; exact hk.queue q
  · rw [modLine_line_self, hx'] at hy
    cases hy
    obtain ⟨h1, h2⟩ := hk.exch ex hx
    exact ⟨by rw [he, hcp]; exact h1, by rw [hcp]; exact h2⟩
  · rw [hh]; exact hk.held x

theorem agree_offer (h : Agree H s) (l : Fin 4) (r : Record) : Agree H (s.offer l r) :=
  h.congr (fun _ => offer_line _ _ _ _) (fun _ => offer_chain _ _ _ _) (offer_plan _ _ _)

theorem agree_closeBlock (h : Agree H s) (l : Fin 4) : Agree H (s.closeBlock l) := by
  unfold State.closeBlock
  split
  · exact h
  · exact agree_lineSame (agree_offer h l _) rfl rfl rfl rfl rfl Iff.rfl

/-! ### Going OFF -/

theorem agree_syncRound (h : Agree H s) (hs : Settled (H k)) : Agree (Function.update H k none) (s.syncRound k) := by
  have h1 := agree_lineUnjudged (f := fun x => { x with demand := { x.demand with round := s.roundWanted k } }) h hs rfl rfl
    rfl rfl
  have h2 := h1.settle (k := k) (by rw [Function.update_self]; exact settled_unjudged) ?_
  · rwa [update_twice] at h2
  · rw [modLine_line_self]
    exact (roundWanted_congr (s := s) (t := s.modLine k fun x =>
      { x with demand := { x.demand with round := s.roundWanted k } }) (by rw [modLine_line_self]) (fun _ => rfl)
      (fun _ _ => rfl) (by rw [modLine_line_self])).symm

/-- R61: a chain fault takes no round up. -/
theorem roundWanted_chainFault {c : Fin 8} {r : FaultReason} (h : s.roundWanted k = false) :
    (s.chainFault c r).roundWanted k = false := by
  have hl : ((s.chainFault c r).line k).power = (s.line k).power ∧ ((s.chainFault c r).line k).exch = (s.line k).exch := by
    rw [chainFault_line]; split <;> exact ⟨rfl, rfl⟩
  unfold State.roundWanted at h ⊢
  rw [hl.1, hl.2]
  rw [Bool.and_eq_false_iff] at h ⊢
  rcases h with h | h
  · exact .inl h
  · right
    rw [Bool.or_eq_false_iff] at h ⊢
    refine ⟨?_, h.2⟩
    rw [List.any_eq_false] at h ⊢
    intro c' hc'
    rw [chainFault_chain]
    split
    · simp [Chain.toIdle, Chain.inRound]
    · exact h.1 c' hc'

theorem flies_none {x : Line} (h : x.exch = none) (c : Fin 8) : flies x c = false := by
  unfold flies; rw [h]; rfl

/-- With no exchange on the line and none on its way, no chain on it has one in flight. -/
theorem not_inFlight {o : Option Virtual} (h : AgreeAt o s k) (hs : Settled o) (hx : (s.line k).exch = none) {c : Fin 8}
    (hon : (s.chain c).onLine k = true) : (s.chain c).inFlight = false := by
  have := h.flight c
  rw [flies_none hx, hs.1, hon] at this
  simpa using this

theorem agree_chainLineOff (h : Agree H s) (hk : H k = none) (hx : (s.line k).exch = none)
    (hd : (s.line k).demand.round = false) : Agree H (s.chainLineOff k) := by
  have hw : s.roundWanted k = false := by rw [← (h.1 k).round hk, hd]
  have hfault : ∀ c r, (s.chain c).onLine k = true → Agree H (s.chainFault c r) := by
    intro c r hon
    have he : Ends (H k) Virtual.unjudged s k c := by
      have := Ends.of_not_inFlight (h.1 k) (not_inFlight (h.1 k) (by rw [hk]; exact settled_none) hx hon)
      rwa [hk] at this ⊢
    have h1 := agree_chainFault h hon he r
    have h2 := h1.settle (k := k) (by rw [Function.update_self]; exact settled_unjudged) ?_
    · rw [update_twice] at h2
      exact h2.of_update hk
    · rw [roundWanted_chainFault hw, chainFault_line]
      split <;> exact hd
  unfold State.chainLineOff
  split
  · rename_i c hc
    have hon := (activeChain_some hc).2
    split <;> first | exact hfault c _ hon | exact h
  · exact h

theorem agree_enterOff (h : Agree H s) (hk : H k = none) (hp : (s.line k).power ≠ .fault) (hx : (s.line k).exch = none)
    (hd : (s.line k).demand.round = false) : Agree H (s.enterOff k) := by
  have hl : ∃ b p, (s.closeBlock k).line k = { s.line k with block := b, blockParity := p } := by
    rw [closeBlock_line]; split
    · exact ⟨[], false, rfl⟩
    · exact ⟨(s.line k).block, (s.line k).blockParity, rfl⟩
  obtain ⟨b, p, hl⟩ := hl
  unfold State.enterOff
  refine agree_chainLineOff (agree_lineSame (agree_closeBlock h k) rfl rfl rfl rfl rfl ?_) hk ?_ ?_
  · rw [hl]; simp [hp]
  · rw [modLine_line_self, hl]; exact hx
  · rw [modLine_line_self, hl]; exact hd

theorem agree_powerDown (h : Agree H s) (hk : H k = none) : Agree H (s.powerDown k) := by
  unfold State.powerDown
  split
  · rename_i hc
    refine agree_enterOff h hk ?_ hc.2.2 ?_
    · rcases hc.1 with e | e <;> rw [e] <;> decide
    · have := hc.2.1
      simp [DemandSet.isEmpty] at this
      exact this.1.2
  · exact h

theorem agree_withdraw (h : Agree H s) (hs : Settled (H k)) : Agree (Function.update H k none) (s.withdraw k) :=
  agree_powerDown (agree_syncRound h hs) (Function.update_self _ _ _)

/-! ### Filing -/

/-- R37, step 3: the end of an exchange reaches its chain, or the ASK demand. -/
theorem agree_fileOrigin {ex : Exchange} (h : Agree H s) (hk : H k = some (virtualOf ex)) (hx : (s.line k).exch = none)
    (hex : s.entryOn ex.entry k = true) (o : ExchOutcome) :
    Agree (Function.update H k (some Virtual.unjudged)) (s.fileOrigin k ex o) := by
  have hinj : (∀ c, ex.origin ≠ .chain c) →
      Agree (Function.update H k (some Virtual.unjudged)) (s.modLine k Line.injectedFiled) := by
    intro hno
    have hkk := h.1 k
    have hv : H k = some { flight := none, injected := true } := by
      rw [hk]; unfold virtualOf Exchange.isScan
      cases ho : ex.origin <;> first | exact absurd ho (hno _) | rfl
    rw [hv] at hkk
    refine h.line ?_ fun j hj => Function.update_of_ne hj _ _
    rw [Function.update_self]
    refine ⟨hkk.one, fun c => ?_, fun c => ?_, fun hn => (by cases hn), ?_, fun q => ?_, fun y => ?_, fun x => ?_⟩ <;>
      rw [modLine_line_self]
    · exact hkk.hold c
    · exact hkk.flight c
    · have ha : (s.line k).demand.ask = true := by rw [hkk.ask]; simp
      have hni : (s.line k).injectedFiled.injectedInFlight = false := by
        unfold Line.injectedInFlight Line.injectedFiled; rw [hx]
      rw [hni]
      simp [Line.injectedFiled, ha, Virtual.unjudged]
    · exact hkk.queue q
    · exact hkk.exch y
    · exact hkk.held x
  unfold State.fileOrigin
  split
  · rename_i c ho
    cases hor : ex.orphan with
    | true =>
      have : s.scanEnd c k ex o = s := by unfold State.scanEnd; rw [if_neg (by simp [hor])]
      rw [this]
      exact h.unjudged (by rw [hk]; simp [virtualOf, Settled, ho, hor, Exchange.isScan])
    | false =>
      have hv : virtualOf ex = { flight := some c, injected := false } := by
        simp [virtualOf, ho, hor, Exchange.isScan]
      have hf := ((h.1 k).flight c).mpr (.inr (by rw [hk, hv]; rfl))
      simp only [Bool.and_eq_true] at hf
      refine agree_scanEnd h hf.2 hf.1 hor ⟨flies_none hx c, by simp [Virtual.unjudged], fun c' hc' => ?_, ?_⟩ hex
      · rw [hk, hv]; simp [Virtual.unjudged, Ne.symm hc']
      · rw [hk, hv]; rfl
  all_goals
    rename_i ho
    exact hinj fun c hc => by rw [ho] at hc; cases hc

/-- The exchange leaves its line; its end is on its way. -/
theorem agree_freeEngine {ex0 ex : Exchange} (h : Agree H s) (hs : Settled (H k)) (hx : (s.line k).exch = some ex0)
    (ho : ex.origin = ex0.origin) (hor : ex.orphan = ex0.orphan) :
    Agree (Function.update H k (some (virtualOf ex))) (s.modLine k Line.freeEngine) := by
  have hk := h.1 k
  have hsc : ex0.isScan = ex.isScan := by unfold Exchange.isScan; rw [ho]
  refine h.line ?_ fun j hj => Function.update_of_ne hj _ _
  rw [Function.update_self]
  refine ⟨hk.one, fun c => ?_, fun c => ?_, fun hn => (by cases hn), ?_, fun q => ?_, fun y hy => ?_, fun x => ?_⟩ <;>
    try rw [modLine_line_self]
  · exact hk.hold c
  · rw [show (s.modLine k Line.freeEngine).chain c = s.chain c from rfl, hk.flight c, flies_none (x := (s.line k).freeEngine) rfl, hs.1]
    unfold flies
    rw [hx]
    cases hoo : ex.origin <;> cases hoo2 : ex.orphan <;> simp [← ho, ← hor, hoo, hoo2, virtualOf]
  · have := hk.ask
    unfold Line.injectedInFlight at this ⊢
    rw [hx, hs.2] at this
    simp only [Line.freeEngine, Option.any_some, virtualOf, ← hsc, Bool.or_false] at this ⊢
    exact this
  · exact hk.queue q
  · rw [modLine_line_self] at hy
    cases hy
  · exact hk.held x

theorem fileRecord_congr (h : Agree H s) (ex : Exchange) (o : ExchOutcome) : Agree H (s.fileRecord k ex o) := by
  unfold State.fileRecord
  split
  · exact agree_offer h _ _
  · exact h

/-- R33, R37: the filing of an exchange, with any way to inject under which `P` holds. -/
theorem agree_fileWith {inject : Injector} {P : State → Prop} {ex0 ex : Exchange} {o : ExchOutcome} (h : Agree H s)
    (hs : Settled (H k)) (hx : (s.line k).exch = some ex0) (ho : ex.origin = ex0.origin) (hor : ex.orphan = ex0.orphan)
    (he : ex.entry = ex0.entry)
    (hraise : ∀ s m, m < 32 → P s → P (s.raise .watch m))
    (hwatch : ∀ s w x y, s.watch w = some x → y.cleared = x.cleared → P s → P (s.setWatch w (some y)))
    (hi : ∀ w e v t, (P t ∧ Agree (Function.update H k (some (virtualOf ex))) t ∧ t.plan = s.plan ∧ (t.line k).exch = none) →
      P (inject w e v t).1 ∧ Agree (Function.update H k (some (virtualOf ex))) (inject w e v t).1 ∧
        (inject w e v t).1.plan = s.plan ∧ ((inject w e v t).1.line k).exch = none)
    (h0 : P ((s.modLine k Line.freeEngine).fileRecord k ex o)) :
    Agree (Function.update H k none) (s.fileWith inject k ex o) := by
  have hentry : s.entryOn ex.entry k = true := by
    obtain ⟨h1, h2⟩ := (h.1 k).exch ex0 hx
    unfold State.entryOn
    rw [he, h1]
    simpa using h2
  have h1 := fileRecord_congr (k := k) (agree_freeEngine h hs hx ho hor) ex o
  have hline : (((s.modLine k Line.freeEngine).fileRecord k ex o).line k).exch = none := by
    rw [fileRecord_line, modLine_line_self]; rfl
  have hplan : ((s.modLine k Line.freeEngine).fileRecord k ex o).plan = s.plan := by
    unfold State.fileRecord; split <;> simp
  obtain ⟨-, h2, h3, h4⟩ := evalWatches_kept
    (P := fun t => P t ∧ Agree (Function.update H k (some (virtualOf ex))) t ∧ t.plan = s.plan ∧ (t.line k).exch = none)
    (fun t m hm ht => ⟨hraise t m hm ht.1, ht.2.1.congr (fun _ => rfl) (fun _ => rfl) rfl, ht.2.2⟩)
    (fun t w x y hx hy ht => ⟨hwatch t w x y hx hy ht.1, ht.2.1.congr (fun _ => rfl) (fun _ => rfl) rfl, ht.2.2⟩)
    hi ⟨h0, h1, hplan, hline⟩ ex.entry o ((ex.reply.map Reply.payload).getD [])
  have h5 := agree_fileOrigin h2 (Function.update_self _ _ _) h4 (by rw [entryOn_of_plan h3]; exact hentry) o
  rw [update_twice] at h5
  have h6 := agree_withdraw (k := k) h5 (by rw [Function.update_self]; exact settled_unjudged)
  rw [update_twice] at h6
  exact h6

theorem agree_fileQuiet {ex0 ex : Exchange} {o : ExchOutcome} (h : Agree H s) (hs : Settled (H k))
    (hx : (s.line k).exch = some ex0) (ho : ex.origin = ex0.origin) (hor : ex.orphan = ex0.orphan)
    (he : ex.entry = ex0.entry) : Agree (Function.update H k none) (s.fileQuiet k ex o) :=
  agree_fileWith (P := fun _ => True) h hs hx ho hor he (fun _ _ _ _ => trivial) (fun _ _ _ _ _ _ _ => trivial)
    (fun _ _ _ _ ht => ht) trivial

/-- R34. -/
theorem agree_endOutside (h : Agree H s) (hs : Settled (H k)) (o : ExchOutcome) :
    Agree (Function.update H k (some Virtual.unjudged)) (s.endOutside k o) := by
  unfold State.endOutside
  split
  · exact h.unjudged hs
  · rename_i ex hx
    split
    · split
      · exact h.unjudged hs
      · exact (agree_exch (ex' := { ex with pendingEnd := some o }) h hx rfl rfl rfl rfl rfl rfl rfl rfl rfl rfl).unjudged hs
    · have := (agree_fileQuiet (o := o) h hs hx rfl rfl rfl).unjudged (k := k) (by rw [Function.update_self]; exact settled_none)
      rwa [update_twice] at this

theorem agree_preempt (h : Agree H s) (hk : H k = none) : Agree H (s.preempt k) := by
  have hs : Settled (H k) := by rw [hk]; exact settled_none
  unfold State.preempt State.endOutside
  split
  · rename_i ex hx
    split
    · simp only [hx]
      split
      · split
        · exact h
        · exact agree_exch h hx rfl rfl rfl rfl rfl rfl rfl rfl rfl rfl
      · exact (agree_fileQuiet h hs hx rfl rfl rfl).of_update hk
    · exact h
  · exact h

theorem agree_urgentJoined (h : Agree H s) (hk : H k = none) (j : Bool) : Agree H (s.urgentJoined k j) := by
  unfold State.urgentJoined
  split
  · exact agree_preempt h hk
  · exact h

/-! ### What a filing leaves on its line -/

/-- A fact about a line that survives the end of a filing on it. -/
structure AfterFiling (R : Line → Prop) : Prop where
  take : ∀ x h, R x → R (x.takeHeld h)
  clear : ∀ x, R x → R x.clearHeld
  injected : ∀ x, R x → R x.injectedFiled
  round : ∀ x b, R x → R { x with demand := { x.demand with round := b } }
  off : ∀ x, R x → x.power ≠ .fault → R { x with
    power := .off, lnPwr := false, settleTimer := .stopped, engine := .idle, block := [], blockParity := false }
  block : ∀ x, R x → R { x with block := [], blockParity := false }

theorem fileOrigin_line {R : Line → Prop} (hR : AfterFiling R) (h : R (s.line k)) (ex : Exchange) (o : ExchOutcome) :
    R ((s.fileOrigin k ex o).line k) := by
  have hinj : R ((s.modLine k Line.injectedFiled).line k) := by rw [modLine_line_self]; exact hR.injected _ h
  unfold State.fileOrigin
  split
  · exact (line_held k hR.take hR.clear).scanEnd h _ _ _ _
  all_goals exact hinj

theorem withdraw_line {R : Line → Prop} (hR : AfterFiling R) (h : R (s.line k)) : R ((s.withdraw k).line k) := by
  have h1 : R ((s.syncRound k).line k) := by rw [syncRound_line, if_pos rfl]; exact hR.round _ _ h
  unfold State.withdraw State.powerDown
  split
  · rename_i hc
    unfold State.enterOff
    refine (line_held k hR.take hR.clear).chainLineOff ?_ k
    rw [modLine_line_self, closeBlock_line]
    split
    · refine hR.off _ (hR.block _ h1) ?_
      rcases hc.1 with e | e <;> intro hf <;> (have hf' : ((s.syncRound k).line k).power = .fault := hf) <;>
        rw [e] at hf' <;> cases hf'
    · refine hR.off _ h1 ?_
      rcases hc.1 with e | e <;> rw [e] <;> decide
  · exact h1

theorem fileWith_line {inject : Injector} {R : Line → Prop} (hR : AfterFiling R)
    (hi : ∀ w e v t, R (t.line k) → R ((inject w e v t).1.line k)) (h : R (s.line k).freeEngine) (ex : Exchange)
    (o : ExchOutcome) : R ((s.fileWith inject k ex o).line k) := by
  unfold State.fileWith
  refine withdraw_line hR (fileOrigin_line hR ?_ _ _)
  refine evalWatches_kept (P := fun t => R (t.line k)) (fun _ _ _ h => h) (fun _ _ _ _ _ _ h => h) hi ?_ _ _ _
  rw [fileRecord_line, modLine_line_self]
  exact h

theorem fileQuiet_line {R : Line → Prop} (hR : AfterFiling R) (h : R (s.line k).freeEngine) (ex : Exchange)
    (o : ExchOutcome) : R ((s.fileQuiet k ex o).line k) := fileWith_line hR (fun _ _ _ _ h => h) h ex o

/-! ### Faults and the supply -/

/-- A FAULT line with no exchange. -/
theorem afterFiling_fault : AfterFiling fun x => x.power = .fault ∧ x.exch = none where
  take _ _ h := h
  clear _ h := h
  injected _ h := h
  round _ _ h := h
  off _ h hf := absurd h.1 hf
  block _ h := h

theorem faultExchange_line (hp : (s.line k).power = .fault) :
    ((s.faultExchange k).line k).power = .fault ∧ ((s.faultExchange k).line k).exch = none := by
  unfold State.faultExchange
  split
  · exact fileQuiet_line afterFiling_fault ⟨hp, rfl⟩ _ _
  · rename_i hx; exact ⟨hp, hx⟩

theorem agree_faultExchange (h : Agree H s) (hs : Settled (H k)) :
    Agree (Function.update H k (some Virtual.unjudged)) (s.faultExchange k) := by
  unfold State.faultExchange
  split
  · rename_i ex hx
    have := (agree_fileQuiet (o := ex.pendingEnd.getD .lineFault) h hs hx rfl rfl rfl).unjudged (k := k)
      (by rw [Function.update_self]; exact settled_none)
    rwa [update_twice] at this
  · exact h.unjudged hs

theorem faultQueue_frame (l : Fin 4) (q : List Injected) (s : State) :
    (∀ c, (q.foldl (State.faultQueued l) s).chain c = s.chain c) ∧ (q.foldl (State.faultQueued l) s).plan = s.plan := by
  induction q generalizing s with
  | nil => exact ⟨fun _ => rfl, rfl⟩
  | cons x q ih =>
    have h1 : (∀ c, (State.faultQueued l s x).chain c = s.chain c) ∧ (State.faultQueued l s x).plan = s.plan := by
      unfold State.faultQueued
      split
      · split
        · exact ⟨fun c => offer_chain _ _ _ _, offer_plan _ _ _⟩
        · exact ⟨fun _ => rfl, rfl⟩
      · exact ⟨fun _ => rfl, rfl⟩
    obtain ⟨a, b⟩ := ih (State.faultQueued l s x)
    exact ⟨fun c => (a c).trans (h1.1 c), b.trans h1.2⟩

/-- A FAULT line has no ROUND demand to judge. -/
theorem Agree.settleFault (h : Agree H s) (hs : Settled (H k)) (hp : (s.line k).power = .fault)
    (hr : (s.line k).demand.round = false) : Agree (Function.update H k none) s :=
  h.settle hs (by rw [hr, roundWanted_fault hp])

theorem agree_faultHold (h : Agree H s) (hk : H k = none) (hp : (s.line k).power = .fault)
    (hr : (s.line k).demand.round = false) : Agree H (s.faultHold k) := by
  unfold State.faultHold
  split
  · rename_i c hc
    obtain ⟨ha, hon⟩ := activeChain_some hc
    split
    · rename_i p hst hpos
      split
      · exact h
      · rename_i hinf
        have he : Ends (H k) Virtual.unjudged s k c := by
          have := Ends.of_not_inFlight (h.1 k) (by simpa using hinf)
          rwa [hk] at this ⊢
        have h1 := agree_take (x := { entry := p, reason := .next, owner := c })
          (f := fun ch => { ch with state := .held, position := none }) h hon he rfl rfl
          (by obtain ⟨d, hd⟩ := chainSound_defn (h.2 c) (by rw [hst]; decide); simp [chainSound, hd, hinf]) (.inl ha)
          (held_none_of_active (h.1 k) ha hon (by rw [hst]; decide)) rfl (fun hh => by cases hh)
        have h2 := h1.settleFault (k := k) (by rw [Function.update_self]; exact settled_unjudged)
          (by rw [modChain_line, modLine_line_self]; exact hp) (by rw [modChain_line, modLine_line_self]; exact hr)
        rw [update_twice] at h2
        exact h2.of_update hk
    · exact h
  · exact h

/-- R93, R94. -/
theorem agree_faultHandling (h : Agree H s) (hk : H k = none) : Agree H (s.faultHandling k) := by
  unfold State.faultHandling
  have h1 := agree_lineUnjudged (k := k) (f := fun x =>
    { x with power := .fault, lnPwr := false, lnDe := false, settleTimer := .stopped, engine := .idle, block := [],
             blockParity := false }) (agree_closeBlock h k) (by rw [hk]; exact settled_none) rfl rfl rfl rfl
  generalize hs1 : ((s.closeBlock k).modLine k fun x =>
    { x with power := .fault, lnPwr := false, lnDe := false, settleTimer := .stopped, engine := .idle, block := [],
             blockParity := false }) = s1 at h1
  have hp1 : (s1.line k).power = .fault := by rw [← hs1, modLine_line_self]
  have h2 := agree_faultExchange (k := k) h1 (by rw [Function.update_self]; exact settled_unjudged)
  rw [update_twice] at h2
  have hl2 := faultExchange_line hp1
  simp only []
  generalize s1.faultExchange k = s2 at h2 hl2
  have hq := faultQueue_frame k (s2.line k).queue s2
  have h3 : Agree _ ((s2.line k).queue.foldl (State.faultQueued k) s2) :=
    h2.congr (fun j => faultQueue_line k j (s2.line k).queue s2) hq.1 hq.2
  have hl3 := faultQueue_line k k (s2.line k).queue s2
  generalize (s2.line k).queue.foldl (State.faultQueued k) s2 = s3 at h3 hl3
  have h4 : Agree H (s3.modLine k fun x => { x with queue := [], demand := DemandSet.empty }) := by
    have hkk := h3.1 k
    rw [Function.update_self] at hkk
    have hpow : ((s3.modLine k fun x => { x with queue := [], demand := DemandSet.empty }).line k).power = .fault := by
      rw [modLine_line_self, hl3]; exact hl2.1
    have := h3.line (H' := Function.update H k none) (k := k) (f := fun x => { x with queue := [], demand := DemandSet.empty })
      ?_ fun j hj => by rw [Function.update_of_ne hj, Function.update_of_ne hj]
    · exact this.of_update hk
    · rw [Function.update_self]
      refine ⟨hkk.one, fun c => ?_, fun c => ?_, fun _ => ?_, ?_, fun q hq => ?_, fun y => ?_, fun x => ?_⟩
      · rw [modLine_line_self]; exact hkk.hold c
      · rw [modLine_line_self]; exact hkk.flight c
      · rw [roundWanted_fault hpow, modLine_line_self]; rfl
      · rw [modLine_line_self, hl3]
        simp [DemandSet.empty, Line.injectedInFlight, hl2.2]
      · rw [modLine_line_self] at hq; cases hq
      · rw [modLine_line_self]; exact hkk.exch y
      · rw [modLine_line_self]; exact hkk.held x
  exact (agree_faultHold h4 hk (by rw [modLine_line_self, hl3]; exact hl2.1) (by rw [modLine_line_self]; rfl)).congr
    (fun _ => rfl) (fun _ => rfl) rfl

/-- R90. -/
theorem agree_enterSettling (h : Agree H s) (hk : H k = none) (hp : (s.line k).power ≠ .fault) :
    Agree H (s.enterSettling k) := by
  have h1 := agree_lineSame (k := k) (f := fun x =>
    { x with power := .settling, lnPwr := true, settleTimer := .running s.count (x.settings.settleSteps * 50) }) h rfl rfl
    rfl rfl rfl (by simp [hp])
  unfold State.enterSettling
  simp only []
  split
  · exact agree_faultHandling h1 hk
  · exact h1

theorem agree_powerUp (h : Agree H s) (hk : H k = none) : Agree H (s.powerUp k) := by
  unfold State.powerUp
  split
  · rename_i hc
    exact agree_enterSettling h hk (by rw [hc.1]; decide)
  · exact h

theorem agree_settleDemand (h : Agree H s) (hs : Settled (H k)) : Agree (Function.update H k none) (s.settleDemand k) :=
  agree_powerUp (agree_withdraw h hs) (Function.update_self _ _ _)

/-! ### Injected requests -/

/-- R71: a new element, and the ASK demand. -/
theorem agreeAt_append {o : Option Virtual} {x : Injected} (h : AgreeAt o s k) (hx : s.entryOn x.entry k = true) :
    AgreeAt o (s.modLine k fun y =>
      { y with queue := appendInjected x y.queue, demand := { y.demand with ask := true } }) k := by
  have hl : (s.modLine k fun y =>
      { y with queue := appendInjected x y.queue, demand := { y.demand with ask := true } }).line k =
      { s.line k with queue := appendInjected x (s.line k).queue, demand := { (s.line k).demand with ask := true } } :=
    modLine_line_self _ _ _
  refine ⟨h.one, fun c => ?_, fun c => ?_, fun hn => ?_, ?_, fun q hq => ?_, fun y => ?_, fun z => ?_⟩
  · rw [hl]; exact h.hold c
  · rw [hl]; exact h.flight c
  · rw [hl]
    exact (h.round hn).trans (roundWanted_modLine rfl rfl).symm
  · rw [hl]
    have : (appendInjected x (s.line k).queue).isEmpty = false := by
      cases hq : appendInjected x (s.line k).queue
      · exact absurd hq (appendInjected_ne_nil _ _)
      · rfl
    simp [this]
  · rw [hl] at hq
    rcases mem_append_entry hq with rfl | hq
    · exact hx
    · exact h.queue q hq
  · rw [hl]; exact h.exch y
  · rw [hl]; exact h.held z

/-- R70: a merge. -/
theorem agreeAt_merge {o : Option Virtual} {x : Injected} {v : Level} (h : AgreeAt o s k) (hx : x ∈ (s.line k).queue) :
    AgreeAt o (s.modLine k fun y => { y with queue := mergeInjected x v y.queue }) k := by
  have hl : (s.modLine k fun y => { y with queue := mergeInjected x v y.queue }).line k =
      { s.line k with queue := mergeInjected x v (s.line k).queue } := modLine_line_self _ _ _
  refine ⟨h.one, fun c => ?_, fun c => ?_, fun hn => ?_, ?_, fun q hq => ?_, fun y => ?_, fun z => ?_⟩
  · rw [hl]; exact h.hold c
  · rw [hl]; exact h.flight c
  · rw [hl]
    exact (h.round hn).trans (roundWanted_modLine rfl rfl).symm
  · rw [hl]
    have h1 : (mergeInjected x v (s.line k).queue).isEmpty = (s.line k).queue.isEmpty := by
      cases hq : mergeInjected x v (s.line k).queue with
      | nil => exact absurd hq (mergeInjected_ne_nil hx)
      | cons a b =>
        cases hq2 : (s.line k).queue with
        | nil => rw [hq2] at hx; cases hx
        | cons c d => rfl
    simp only [h1]
    exact h.ask
  · rw [hl] at hq
    obtain ⟨z, hz, e⟩ := mem_merge_entry hx hq
    have := h.queue z hz
    rw [e] at this
    exact this
  · rw [hl]; exact h.exch y
  · rw [hl]; exact h.held z

theorem agree_askAt (h : Agree H s) (e : Fin 128) (v : Level) (o : Origin)
    (hk : ∀ p, s.entry e = some p → H p.line = none) : Agree H (s.askAt e v o).1 := by
  unfold State.askAt
  split
  · exact h
  · rename_i p hp
    have hkp := hk p hp
    have hon : s.entryOn e p.line = true := by unfold State.entryOn; rw [hp]; simp
    simp only []
    split
    · exact h
    · split
      · rename_i q hq
        exact agree_urgentJoined (h.line (agreeAt_merge (h.1 _) (findEntry_some hq).1) fun _ _ => rfl) hkp _
      · split
        · exact h
        · exact agree_urgentJoined (agree_powerUp (h.line (agreeAt_append (h.1 _) hon) fun _ _ => rfl) hkp) hkp _

/-- An injection while an exchange of line `k` is being filed. -/
theorem agree_askAt_filing (h : Agree H s) (hn : ∀ j, j ≠ k → H j = none) (hp : (s.line k).power = .on)
    (hx : (s.line k).exch = none) (e : Fin 128) (v : Level) (o : Origin) : Agree H (s.askAt e v o).1 := by
  by_cases hne : ∀ p, s.entry e = some p → p.line ≠ k
  · exact agree_askAt h e v o fun p hpp => hn _ (hne p hpp)
  · push Not at hne
    obtain ⟨p, hpp, hpl⟩ := hne
    subst hpl
    have hon : s.entryOn e p.line = true := by unfold State.entryOn; rw [hpp]; simp
    have hnop : ∀ (t : State) (j : Bool), (t.line p.line).exch = none → t.urgentJoined p.line j = t := by
      intro t j ht
      unfold State.urgentJoined State.preempt
      split
      · rw [ht]
      · rfl
    unfold State.askAt
    simp only [hpp]
    split
    · exact h
    · split
      · rename_i q hq
        unfold State.mergeAsk
        rw [hnop _ _ (by rw [modLine_line_self]; exact hx)]
        exact h.line (agreeAt_merge (h.1 _) (findEntry_some hq).1) fun _ _ => rfl
      · split
        · exact h
        · unfold State.appendAsk
          have hup : ∀ t : State, (t.line p.line).power = .on → t.powerUp p.line = t := by
            intro t ht
            unfold State.powerUp
            rw [if_neg]
            rintro ⟨h0, -⟩
            rw [ht] at h0
            cases h0
          rw [hup _ (by rw [modLine_line_self]; exact hp), hnop _ _ (by rw [modLine_line_self]; exact hx)]
          exact h.line (agreeAt_append (h.1 _) hon) fun _ _ => rfl

/-- R33, R37: an exchange ends by itself. -/
theorem agree_fileEnd {ex0 ex : Exchange} {o : ExchOutcome} (h : Agree (fun _ => none) s)
    (hl : LinesBut (fun _ => False) s) (hx : (s.line k).exch = some ex0) (ho : ex.origin = ex0.origin)
    (hor : ex.orphan = ex0.orphan) (he : ex.entry = ex0.entry) : Agree (fun _ => none) (s.fileEnd k ex o) := by
  have hx' : (s.line k).exch ≠ none := by rw [hx]; simp
  obtain ⟨hp, hm, -, hls⟩ := shape_busy (hl k).1 hx'
  have h0 : FilingOn k .on (fun _ => False) (s.modLine k Line.freeEngine) := by
    refine ⟨hl.open_ ?_ (exchangeSound_none rfl), by rw [modLine_line_self]; exact ⟨hp, rfl⟩⟩
    obtain ⟨h1, -, h3, -, h5, h6, h7, h8, h9, h10⟩ := (hl k).1
    exact ⟨h1, rfl, h3, by simp [engineFits, Line.freeEngine, hm], h5, h6, h7, h8, h9, fun _ => h10 hls⟩
  refine (agree_fileWith (P := FilingOn k .on fun _ => False) h settled_none hx ho hor he (fun _ _ _ h => h)
    (fun _ _ _ _ _ _ h => h) ?_ (h0.congr (fileRecord_line _ k · ex o))).of_update rfl
  rintro w e v t ⟨h1, h2, h3, h4⟩
  have hf := filingOn_askAt h1 e v (o := .watch w) rfl
  refine ⟨hf, agree_askAt_filing h2 (fun j hj => Function.update_of_ne hj _ _) h1.2.1 h1.2.2 e v (.watch w), ?_, hf.2.2⟩
  have := Kept.askAt (P := SameConfig t) (SameConfig.refl t) e v (.watch w) fun _ _ => sameConfig_kept t _
  exact this.1.trans h3

/-- R74. -/
theorem agree_cancelAsk (h : Agree H s) (hk : H k = none) (e : Fin 128) : Agree H (s.cancelAsk k e) := by
  unfold State.cancelAsk
  have hkk := h.1 k
  rw [hk] at hkk
  have hl := modLine_line_self s k (fun x : Line =>
    { x with queue := removeEntry e x.queue
             demand := { x.demand with
               ask := x.demand.ask && (!(removeEntry e x.queue).isEmpty || x.injectedInFlight) } })
  have h1 : Agree H (s.modLine k fun x =>
    { x with queue := removeEntry e x.queue
             demand := { x.demand with
               ask := x.demand.ask && (!(removeEntry e x.queue).isEmpty || x.injectedInFlight) } }) := by
    refine h.line ?_ fun _ _ => rfl
    rw [hk]
    refine ⟨hkk.one, fun c => ?_, fun c => ?_, fun hn => ?_, ?_, fun q hq => ?_, fun y => ?_, fun z => ?_⟩
    · rw [hl]; exact hkk.hold c
    · rw [hl]; exact hkk.flight c
    · rw [hl]
      exact (hkk.round hn).trans (roundWanted_modLine rfl rfl).symm
    · rw [hl]
      have ha := hkk.ask
      have hr : (removeEntry e (s.line k).queue).isEmpty = false → (s.line k).queue.isEmpty = false := by
        intro hh
        cases hq : (s.line k).queue with
        | nil => rw [hq] at hh; exact hh
        | cons a b => rfl
      unfold Line.injectedInFlight at ha ⊢
      simp only [ha, Option.any_none, Bool.or_false]
      cases h1 : (removeEntry e (s.line k).queue).isEmpty
      · rw [hr h1]; simp
      · cases (s.line k).exch <;> simp
        rename_i ex
        cases ex.isScan <;> simp
    · rw [hl] at hq
      exact hkk.queue q (List.mem_filter.mp hq).1
    · rw [hl]; exact hkk.exch y
    · rw [hl]; exact hkk.held z
  exact (agree_withdraw h1 (by rw [hk]; exact settled_none)).of_update hk

end Sys2Proof.Machine
end

