-- ==== Sys2Proof/Laws/AgreeEvents.lean ====
section
/-! SUPPORT. Lines, chains, demand sets and plan agree after each event of the engine, each choice of the scheduler and each
request on a chain, a line or a plan entry. -/

set_option Elab.async false

namespace Sys2Proof.Machine

/-- Lines, chains, demand sets and plan agree. -/
abbrev Agrees (s : State) : Prop := Agree (fun _ => none) s

variable {s : State} {k : Fin 4} {c : Fin 8} {ex ex0 : Exchange}

/-- What the engine keeps of an exchange as it goes on. -/
structure SameExchange (ex0 ex : Exchange) : Prop where
  entry : ex.entry = ex0.entry
  copy : ex.copy = ex0.copy
  origin : ex.origin = ex0.origin
  orphan : ex.orphan = ex0.orphan
  powered : ex.powered = ex0.powered

theorem SameExchange.refl (ex : Exchange) : SameExchange ex ex := ⟨rfl, rfl, rfl, rfl, rfl⟩

/-- The exchange in flight goes on in another state of the engine. -/
theorem agrees_engine {f : Line → Line} (h : Agrees s) (hx : (s.line k).exch = some ex0) {ex' : Exchange}
    (hs : SameExchange ex0 ex') (hf : ∃ en de t a w, f (s.line k) = { s.line k with
      engine := en, lnDe := de, exch := some ex', replyTimer := t, arriving := a, waitIdle := w }) :
    Agrees (s.modLine k f) := by
  obtain ⟨en, de, t, a, w, hf⟩ := hf
  refine agree_exch h hx (ex' := ex') ?_ hs.entry hs.copy hs.origin hs.orphan hs.powered ?_ ?_ ?_ ?_ <;> rw [hf]

theorem agrees_fileEnd {o : ExchOutcome} (h : Agrees s) (hl : LinesBut (fun _ => False) s)
    (hx : (s.line k).exch = some ex0) (hs : SameExchange ex0 ex) : Agrees (s.fileEnd k ex o) :=
  agree_fileEnd h hl hx hs.origin hs.orphan hs.entry

/-! ### The engine -/

theorem agrees_failAttempt (h : Agrees s) (hl : LinesBut (fun _ => False) s) (hx : (s.line k).exch = some ex0)
    (hs : SameExchange ex0 ex) (o : ExchOutcome) : Agrees (s.failAttempt k ex o) := by
  unfold State.failAttempt
  split
  · exact agrees_engine h hx (ex' := { ex with attempts := ex.attempts + 1, sent := 0, kept := [] })
      ⟨hs.entry, hs.copy, hs.origin, hs.orphan, hs.powered⟩ ⟨_, _, _, _, _, rfl⟩
  · exact agrees_fileEnd h hl hx hs

theorem agrees_collide (h : Agrees s) (hl : LinesBut (fun _ => False) s) (hx : (s.line k).exch = some ex) :
    Agrees (s.collide k ex) := by
  unfold State.collide
  simp only []
  split
  · exact agrees_fileEnd h hl hx ⟨rfl, rfl, rfl, rfl, rfl⟩
  · exact agrees_engine h hx (ex' := { ex with collisions := ex.collisions + 1, sent := 0 }) ⟨rfl, rfl, rfl, rfl, rfl⟩
      ⟨_, _, _, _, _, rfl⟩

theorem agrees_frameSent (h : Agrees s) (hl : LinesBut (fun _ => False) s) (hx : (s.line k).exch = some ex) :
    Agrees (s.frameSent k ex) := by
  unfold State.frameSent
  split
  · exact agrees_fileEnd h hl hx (SameExchange.refl _)
  · exact agrees_engine h hx (ex' := { ex with sent := ex.sent + 1, kept := [] }) ⟨rfl, rfl, rfl, rfl, rfl⟩
      ⟨_, _, _, _, _, rfl⟩

theorem agrees_judgeSent (h : Agrees s) (hl : LinesBut (fun _ => False) s) (hx : (s.line k).exch = some ex)
    (r : Option LineChar) : Agrees (s.judgeSent k ex r) := by
  unfold State.judgeSent
  split
  · exact agrees_fileEnd h hl hx (SameExchange.refl _)
  · split
    · exact agrees_frameSent h hl hx
    · split
      · exact agrees_collide h hl hx
      · split
        · exact agrees_engine h hx (ex' := { ex with sent := ex.sent + 1 }) ⟨rfl, rfl, rfl, rfl, rfl⟩ ⟨_, _, _, _, _, rfl⟩
        · exact agrees_frameSent h hl hx

theorem agrees_judgeReply (h : Agrees s) (hl : LinesBut (fun _ => False) s) (hx : (s.line k).exch = some ex0)
    (hs : SameExchange ex0 ex) : Agrees (s.judgeReply k ex) := by
  unfold State.judgeReply
  split
  · simp only []
    split
    · exact agrees_failAttempt h hl hx hs _
    · split
      · exact agrees_failAttempt h hl hx hs _
      · split
        · exact agrees_fileEnd h hl hx hs
        · exact agrees_fileEnd h hl hx ⟨hs.entry, hs.copy, hs.origin, hs.orphan, hs.powered⟩
  · exact agrees_failAttempt h hl hx hs _

theorem agrees_receiveReply (h : Agrees s) (hl : LinesBut (fun _ => False) s) (hx : (s.line k).exch = some ex)
    (x : LineChar) : Agrees (s.receiveReply k ex x) := by
  unfold State.receiveReply
  simp only []
  split
  · exact agrees_failAttempt h hl hx (ex := { ex with kept := [] }) ⟨rfl, rfl, rfl, rfl, rfl⟩ _
  · split
    · exact agrees_judgeReply h hl hx (ex := { ex with kept := ex.kept ++ [x.data] }) ⟨rfl, rfl, rfl, rfl, rfl⟩
    · exact agrees_engine h hx (ex' := { ex with kept := ex.kept ++ [x.data] }) ⟨rfl, rfl, rfl, rfl, rfl⟩
        ⟨_, _, _, _, _, rfl⟩

theorem agrees_captureChar (h : Agrees s) (x : LineChar) : Agrees (s.captureChar k x) := by
  have h1 : Agrees (s.modLine k fun y =>
    { y with block := y.block ++ [x.data], blockParity := y.blockParity || faultyChar x }) :=
    agree_lineSame h rfl rfl rfl rfl rfl Iff.rfl
  unfold State.captureChar
  simp only []
  split
  · exact agree_closeBlock h1 k
  · exact h1

theorem agrees_judgeReceived (h : Agrees s) (hl : LinesBut (fun _ => False) s) (x : LineChar) :
    Agrees (s.judgeReceived k x) := by
  unfold State.judgeReceived
  split
  · exact agrees_receiveReply h hl (by assumption) x
  · exact agrees_receiveReply h hl (by assumption) x
  · exact agrees_captureChar h x
  · exact h

/-- R34. -/
theorem agrees_endOutside (h : Agrees s) (k : Fin 4) (o : ExchOutcome) : Agrees (s.endOutside k o) := by
  unfold State.endOutside
  split
  · exact h
  · rename_i ex hx
    split
    · split
      · exact h
      · exact agree_exch (ex' := { ex with pendingEnd := some o }) h hx rfl rfl rfl rfl rfl rfl rfl rfl rfl rfl
    · exact (agree_fileQuiet h settled_none hx rfl rfl rfl).of_update rfl

/-! ### The scheduler -/

/-- A chain at work on a line has no exchange in flight while the line has none. -/
theorem agrees_not_inFlight (h : Agrees s) (hx : (s.line k).exch = none) (hon : (s.chain c).onLine k = true) :
    (s.chain c).inFlight = false := not_inFlight (h.1 k) settled_none hx hon

theorem agrees_ends (h : Agrees s) (hx : (s.line k).exch = none) (hon : (s.chain c).onLine k = true) :
    Ends none Virtual.unjudged s k c := Ends.of_not_inFlight (h.1 k) (agrees_not_inFlight h hx hon)

/-- A chain fault on a line with no exchange, whose demand set is judged at once. -/
theorem agrees_chainFault (h : Agrees s) (hx : (s.line k).exch = none) (hon : (s.chain c).onLine k = true)
    (r : FaultReason) : Agrees ((s.chainFault c r).withdraw k) := by
  have h1 := agree_withdraw (k := k) (agree_chainFault h hon (agrees_ends h hx hon) r)
    (by rw [Function.update_self]; exact settled_unjudged)
  rw [update_twice] at h1
  exact h1.of_update rfl

/-- R80, R62: a RUNNING chain with no exchange in flight goes HELD. -/
theorem agrees_holdChain (h : Agrees s) (hx : (s.line k).exch = none) (hst : (s.chain c).state = .running)
    (hon : (s.chain c).onLine k = true) (e : Fin 128) : Agrees (s.holdChain c k e .next) := by
  have hinf := agrees_not_inFlight h hx hon
  have hact : (s.chain c).active = true := active_of hst (by decide)
  obtain ⟨d, hd⟩ := chainSound_defn (h.2 c) (by rw [hst]; decide)
  have h1 := agree_take (x := { entry := e, reason := .next, owner := c })
    (f := fun ch => { ch with state := .held, position := none }) h hon (agrees_ends h hx hon) rfl rfl
    (by simp [chainSound, hd, hinf]) (.inl hact) (held_none_of_active (h.1 k) hact hon (by rw [hst]; decide)) rfl
    (fun hh => by cases hh)
  have h2 := h1.settle (k := k) (by rw [Function.update_self]; exact settled_unjudged) ?_
  · rw [update_twice] at h2
    exact h2.of_update rfl
  · rw [modChain_line, modLine_line_self]
    refine ((h.1 k).round rfl).trans (roundWanted_congr ?_ (fun c' => ?_) (fun c' _ => ?_) ?_).symm
    · rw [modChain_line, modLine_line_self]; rfl
    · rw [modChain_chain]; split
      · rename_i e; rw [e]; rfl
      · rfl
    · rw [modChain_chain]; split
      · rename_i e; rw [e]; simp [Chain.isPowered, Chain.inRound, hst]
      · rfl
    · rw [modChain_line, modLine_line_self]; rfl

theorem offered_some {q : Fin 8 × Fin 128} (h : s.offered k = some q) :
    (s.chain q.1).state = .running ∧ (s.chain q.1).onLine k = true ∧ (s.chain q.1).inFlight = false := by
  unfold State.offered at h
  split at h
  · rename_i c hc
    split at h <;> cases h
    rename_i hst _ hinf
    exact ⟨hst, (activeChain_some hc).2, hinf⟩
  · cases h

/-- R80. -/
theorem agrees_boundaryHold (h : Agrees s) (hx : (s.line k).exch = none) : Agrees (s.boundaryHold k) := by
  unfold State.boundaryHold
  split
  · rename_i hq
    obtain ⟨h1, h2, -⟩ := offered_some hq
    exact agrees_holdChain h hx h1 h2 _
  · exact h

/-- R50, R12: a scan exchange has started for a chain that was RUNNING or HELD. -/
theorem agrees_begin {t : State} {e : Fin 128} {p : PlanEntry} {r b : Bool} (h : Agrees s) (hx : (s.line k).exch = none)
    (hon : (s.chain c).onLine k = true) (hst : (s.chain c).state = .running ∨ (s.chain c).state = .held)
    (hp : s.entry e = some p) (hpl : p.line = k) (hplan : t.plan = s.plan) (hl : ∀ j, j ≠ k → t.line j = s.line j)
    (hc : ∀ c', c' ≠ c → t.chain c' = s.chain c') (hcc : t.chain c = (s.chain c).begin e b)
    (htx : (t.line k).exch = some (newExchange p e (.chain c) r 0 (s.chain c).isPowered))
    (hth : (t.line k).held = none) (htq : (t.line k).queue = (s.line k).queue)
    (htd : (t.line k).demand = (s.line k).demand) (htp : (t.line k).power = (s.line k).power) : Agrees t := by
  have hact : (s.chain c).active = true := by rcases hst with e | e <;> exact active_of e (by decide)
  have hround : (s.chain c).inRound = true := by rcases hst with e | e <;> simp [Chain.inRound, e]
  have hk := h.1 k
  obtain ⟨d, hd⟩ := chainSound_defn (h.2 c) (by rcases hst with e | e <;> rw [e] <;> decide)
  have hon' : ∀ c', (t.chain c').onLine k = (s.chain c').onLine k := by
    intro c'
    by_cases e : c' = c
    · rw [e, hcc]; rfl
    · rw [hc c' e]
  have hactive : ∀ c', (t.chain c').active = (s.chain c').active := by
    intro c'
    by_cases e : c' = c
    · rw [e, hcc, hact]; rfl
    · rw [hc c' e]
  refine Agree.chain (k := k) (c := c) h hplan hl hc hon (by rw [hcc]; rfl)
    (by rw [hcc]; simp [chainSound, Chain.begin, hd]) ?_ fun _ _ => rfl
  refine ⟨fun a b' ha hb => ?_, fun a => ?_, fun a => ?_, fun _ => ?_, ?_, fun q hq => ?_, fun y hy => ?_, fun y hy => ?_⟩
  · rw [hactive, hon'] at ha hb
    exact hk.one a b' ha hb
  · rw [hth, hon']
    refine iff_of_false ?_ (by simp)
    by_cases e : a = c
    · rw [e, hcc]; simp [Chain.begin]
    · rw [hc a e]
      intro hh
      simp only [Bool.and_eq_true, decide_eq_true_eq] at hh
      exact e (hk.one a c (by simp [active_of hh.1, hh.2]) (by simp [hact, hon]))
  · rw [hon']
    unfold flies
    rw [htx]
    by_cases e : a = c
    · rw [e, hcc, hon]; simp [Chain.begin, newExchange]
    · rw [hc a e]
      refine iff_of_false (fun hh => ?_) (by simp [newExchange, Ne.symm e])
      simp only [Bool.and_eq_true] at hh
      rw [agrees_not_inFlight h hx hh.2] at hh
      exact absurd hh.1 (by simp)
  · rw [htd, hk.round rfl]
    have hany : (List.finRange 8).any (fun c => (t.chain c).onLine k && (t.chain c).isPowered && (t.chain c).inRound) =
        (List.finRange 8).any (fun c => (s.chain c).onLine k && (s.chain c).isPowered && (s.chain c).inRound) := by
      refine congrArg (fun f => List.any _ f) (funext fun c' => ?_)
      by_cases e : c' = c
      · rw [e, hcc, hround]; rfl
      · rw [hc c' e]
    have hpow : (s.chain c).isPowered = true → (List.finRange 8).any (fun c =>
        (s.chain c).onLine k && (s.chain c).isPowered && (s.chain c).inRound) = true := by
      intro hp
      exact List.any_eq_true.mpr ⟨c, List.mem_finRange c, by simp [hon, hp, hround]⟩
    unfold State.roundWanted
    rw [hany, htp, htx, hx]
    cases hp : (s.chain c).isPowered
    · simp [newExchange]
    · rw [hpow hp]; simp
  · have := hk.ask
    unfold Line.injectedInFlight at this ⊢
    rw [hx] at this
    rw [htd, htq, htx, this]
    simp [newExchange, Exchange.isScan]
  · rw [htq] at hq
    rw [entryOn_of_plan hplan]
    exact hk.queue q hq
  · rw [htx] at hy
    cases hy
    rw [entry_of_plan hplan]
    exact ⟨hp, hpl⟩
  · rw [hth] at hy
    cases hy

/-- R50, R12. -/
theorem agrees_startScan (h : Agrees s) (hx : (s.line k).exch = none) (hst : (s.chain c).state = .running)
    (hon : (s.chain c).onLine k = true) (e : Fin 128) (r : Bool) : Agrees (s.startScan k c e r) := by
  have hnone := held_none_of_active (h.1 k) (active_of hst (by decide)) hon (by rw [hst]; decide)
  unfold State.startScan State.startExchange
  split
  · split
    · refine agrees_begin (r := r) (b := !r) h hx hon (.inl hst) (by assumption) (by assumption) rfl (fun j hj => ?_) (fun c' hc' => ?_) ?_ ?_ ?_
        ?_ ?_ ?_
      · rw [modLine_line_ne _ _ _ _ hj, modChain_line]
      · rw [modLine_chain, modChain_chain_ne _ _ _ _ hc']
      · rw [modLine_chain, modChain_chain_self]
      · rw [modLine_line_self]
      all_goals rw [modLine_line_self, modChain_line]
      exact hnone
    · exact agrees_chainFault h hx hon _
  · exact agrees_chainFault h hx hon _

theorem chainFault_cleared (hst : (s.chain c).state = .held) (hon : (s.chain c).onLine k = true) (r : FaultReason) :
    (s.modLine k Line.clearHeld).chainFault c r = s.chainFault c r := by
  obtain ⟨d, hd, rfl⟩ := onLine_iff.mp hon
  have h1 : (s.modLine d.line Line.clearHeld).dropHold c = s.dropHold c := by
    unfold State.dropHold
    rw [modLine_chain, hst, hd]
    simp only []
    unfold State.modLine
    rw [setLine_line_self]
    unfold State.setLine
    simp [Line.clearHeld]
  unfold State.chainFault
  rw [h1]

/-- R81. -/
theorem agrees_restore {x : Held} (h : Agrees s) (hx : (s.line k).exch = none) (hh : (s.line k).held = some x) :
    Agrees (s.restore k x) := by
  obtain ⟨hst, hon⟩ := held_owner (h.1 k) hh
  unfold State.restore State.startScan State.startExchange
  split
  · split
    · refine agrees_begin (r := decide (x.reason = .again)) (b := !decide (x.reason = .again)) h hx hon (.inr hst)
        (by assumption) (by assumption) rfl (fun j hj => ?_) (fun c' hc' => ?_) ?_ ?_ ?_ ?_ ?_ ?_
      · rw [modLine_line_ne _ _ _ _ hj, modChain_line, modLine_line_ne _ _ _ _ hj]
      · rw [modLine_chain, modChain_chain_ne _ _ _ _ hc', modLine_chain]
      · rw [modLine_chain, modChain_chain_self, modLine_chain]
      · rw [modLine_line_self]; rfl
      all_goals rw [modLine_line_self, modChain_line, modLine_line_self]; rfl
    · rw [chainFault_cleared hst hon]; exact agrees_chainFault h hx hon _
  · rw [chainFault_cleared hst hon]; exact agrees_chainFault h hx hon _

/-- R79. -/
theorem agrees_startInjected {q : Injected} {rest : List Injected} (h : Agrees s) (hx : (s.line k).exch = none)
    (hq : (s.line k).queue = q :: rest) (ho : q.origin.injects = true) : Agrees (s.startInjected k q) := by
  have hscan : ∀ c', q.origin ≠ .chain c' := by
    intro c' e
    rw [e] at ho
    cases ho
  have hk := h.1 k
  unfold State.startInjected State.startExchange
  split
  · rename_i p hp
    have hl : ∀ t : State, ((t.modLine k fun y => { y with queue := y.queue.tail }).modLine k fun x =>
        { x with engine := .gapWait, exch := some (newExchange p q.entry q.origin false q.merged false) }) =
        t.modLine k fun x => { x with queue := x.queue.tail, engine := .gapWait
                                      exch := some (newExchange p q.entry q.origin false q.merged false) } := by
      intro t
      unfold State.modLine
      rw [setLine_line_self]
      unfold State.setLine
      simp
    rw [hl]
    refine h.line ?_ fun _ _ => rfl
    have hns : (newExchange p q.entry q.origin false q.merged false).isScan = false := by
      unfold Exchange.isScan newExchange
      cases hoo : q.origin <;> first | exact absurd hoo (hscan _) | rfl
    refine ⟨hk.one, fun a => ?_, fun a => ?_, fun _ => ?_, ?_, fun y hy => ?_, fun y hy => ?_, fun y => ?_⟩
    · rw [modLine_line_self]; exact hk.hold a
    · rw [modLine_line_self, modLine_chain, hk.flight a]
      unfold flies
      rw [hx]
      simp [newExchange, hscan]
    · rw [modLine_line_self]
      refine (hk.round rfl).trans ?_
      unfold State.roundWanted
      rw [modLine_line_self, hx]
      simp only [hns, modLine_chain]
      rfl
    · rw [modLine_line_self]
      have := hk.ask
      rw [hq] at this
      unfold Line.injectedInFlight
      simp only [hns]
      simpa using this
    · rw [modLine_line_self] at hy
      exact hk.queue y (List.mem_of_mem_tail hy)
    · rw [modLine_line_self] at hy
      cases hy
      have := hk.queue q (by rw [hq]; simp)
      unfold State.entryOn at this
      rw [hp] at this
      exact ⟨hp, of_decide_eq_true this⟩
    · rw [modLine_line_self]; exact hk.held y
  · exact h

/-- R78. -/
theorem agrees_choose (h : Agrees s) (hl : LinesBut (fun _ => False) s) (hx : (s.line k).exch = none) :
    Agrees (s.choose k) := by
  have hinj : ∀ q rest, (s.line k).queue = q :: rest → Agrees ((s.boundaryHold k).startInjected k q) := by
    intro q rest hq
    have ho := (hl k).1.2.2.2.2.1.2.2.2 q (by rw [hq]; simp)
    have hK := line_held k (R := fun x => x.exch = none ∧ x.queue = q :: rest) (fun _ _ h => h) fun _ h => h
    have h1 := hK.boundaryHold ⟨hx, hq⟩ k
    exact agrees_startInjected (agrees_boundaryHold h hx) h1.1 h1.2 ho
  unfold State.choose
  simp only []
  split
  · exact agrees_restore h hx (by assumption)
  · split
    · exact agrees_restore h hx (by assumption)
    · exact hinj _ _ (by assumption)
  · exact hinj _ _ (by assumption)
  · split
    · rename_i hq
      obtain ⟨h1, h2, -⟩ := offered_some hq
      exact agrees_startScan h hx h1 h2 _ _
    · exact h

/-! ### Requests on chains -/

theorem agrees_settleDemand {w : Virtual} (h : Agree (Function.update (fun _ => none) k (some w)) s)
    (hw : Settled (some w)) : Agrees (s.settleDemand k) := by
  have h1 := agree_settleDemand (k := k) h (by rw [Function.update_self]; exact hw)
  rw [update_twice] at h1
  exact h1.of_update rfl

theorem chainSound_quiet {ch : Chain} (h : chainSound ch = true) (h1 : ch.state ≠ .running) (h2 : ch.state ≠ .stopping) :
    ch.inFlight = false := by
  unfold chainSound at h
  cases hs : ch.state <;> simp_all

/-- R48: a chain that is IDLE or ARMED starts a round, and its line follows. -/
theorem agrees_roundStart (h : Agrees s) (hon : (s.chain c).onLine k = true)
    (hst : (s.chain c).state = .idle ∧ s.activeChain k = none ∨ (s.chain c).state = .armed) :
    Agrees ((s.roundStart c).settleDemand k) := by
  have hinf : (s.chain c).inFlight = false := by
    refine chainSound_quiet (h.2 c) ?_ ?_ <;> rcases hst with ⟨e, -⟩ | e <;> rw [e] <;> decide
  refine agrees_settleDemand (agree_roundStart h hon (Ends.of_not_inFlight (h.1 k) hinf) ?_ ?_) settled_unjudged
  · rcases hst with ⟨e, -⟩ | e <;> rw [e] <;> decide
  · rcases hst with ⟨-, e⟩ | e
    · exact .inr fun c' hc' => activeChain_none.mp e c' hc'
    · exact .inl (active_of e (by decide))

/-- A change of the fields of a chain that the agreement is not about. -/
theorem agrees_modChain {f : Chain → Chain} (h : Agrees s) (hdef : (f (s.chain c)).defn = (s.chain c).defn)
    (hcs : chainSound (f (s.chain c)) = true) (hact : (f (s.chain c)).active = (s.chain c).active)
    (hheld : (f (s.chain c)).state = .held ↔ (s.chain c).state = .held)
    (hin : (f (s.chain c)).inFlight = (s.chain c).inFlight) (hr : (f (s.chain c)).inRound = (s.chain c).inRound) :
    Agrees (s.modChain c f) := by
  cases hd : (s.chain c).defn with
  | some d =>
    have hon : (s.chain c).onLine d.line = true := onLine_iff.mpr ⟨d, hd, rfl⟩
    refine (agree_modChain (o' := none) h hon hdef hcs (fun ha => .inl (hact ▸ ha)) hheld ?_ (fun _ _ => Iff.rfl) rfl
      fun _ => ⟨rfl, by rw [isPowered_of_defn hdef, hr]⟩).of_update rfl
    rw [hin, ← (h.1 d.line).flight c, hon, Bool.and_true]
  | none =>
    have hoff : ∀ l, (s.chain c).onLine l = false := by intro l; unfold Chain.onLine; rw [hd]
    have hoff' : ∀ l, ((s.modChain c f).chain c).onLine l = false := by
      intro l; rw [modChain_chain_self, onLine_of_defn hdef]; exact hoff l
    refine ⟨fun l => (h.1 l).congr ⟨rfl, fun c' => ?_, fun c' hc' => ?_, rfl⟩, fun c' => ?_⟩
    · by_cases e : c' = c
      · rw [e, hoff', hoff]
      · rw [modChain_chain_ne _ _ _ _ e]
    · by_cases e : c' = c
      · rw [e, hoff] at hc'; cases hc'
      · exact modChain_chain_ne _ _ _ _ e
    · by_cases e : c' = c
      · rw [e, modChain_chain_self]; exact hcs
      · rw [modChain_chain_ne _ _ _ _ e]; exact h.2 c'

/-- R47. -/
theorem agrees_startChain (h : Agrees s) (hon : (s.chain c).onLine k = true) (hst : (s.chain c).active = false)
    (hno : s.activeChain k = none) : Agrees (s.startChain c k) := by
  have hidle : (s.chain c).state = .idle := by simpa [Chain.active] using hst
  have h1 := agrees_modChain (c := c) (f := fun ch => { ch with rounds := 0, late := 0, reason := .none }) h rfl (h.2 c) rfl
    Iff.rfl rfl rfl
  unfold State.startChain
  refine agrees_roundStart h1 (by rw [modChain_chain_self]; exact hon) (.inl ⟨by rw [modChain_chain_self]; exact hidle, ?_⟩)
  rw [activeChain_none] at hno ⊢
  intro c' hc'
  by_cases e : c' = c
  · rw [e, modChain_chain_self]; exact hst
  · rw [modChain_chain_ne _ _ _ _ e] at hc' ⊢
    exact hno c' hc'

/-- R56. -/
theorem agrees_roundExpiry (h : Agrees s) (hst : (s.chain c).state ≠ .idle) : Agrees (s.roundExpiry c) := by
  have hcs : chainSound { s.chain c with timer := .expired } = true := by
    have := h.2 c
    unfold chainSound at this ⊢
    cases hs : (s.chain c).state <;> simp_all
  have h1 := agrees_modChain (c := c) (f := fun ch => { ch with timer := .expired }) h rfl hcs rfl Iff.rfl rfl rfl
  have hself : (s.modChain c fun ch => { ch with timer := .expired }).chain c = { s.chain c with timer := .expired } :=
    modChain_chain_self _ _ _
  have hdue : (s.chain c).state = .running ∨ (s.chain c).state = .held →
      Agrees ((s.modChain c fun ch => { ch with timer := .expired }).modChain c fun ch => { ch with roundDue := true }) := by
    intro hs
    refine agrees_modChain h1 rfl ?_ rfl Iff.rfl rfl rfl
    rw [hself]
    have := h.2 c
    unfold chainSound at this ⊢
    rcases hs with hs | hs <;> simp_all
  unfold State.roundExpiry
  simp only []
  split
  · split
    · rename_i hs _ d hd
      exact agrees_roundStart h1 (by rw [hself]; exact onLine_iff.mpr ⟨d, hd, rfl⟩) (.inr (by rw [hself]; exact hs))
    · exact h1
  · exact hdue (.inl (by assumption))
  · exact hdue (.inr (by assumption))
  · exact h1
  · exact h1

/-- R58. -/
theorem agrees_idleChain (h : Agrees s) (hinf : (s.chain c).inFlight = false) (hst : (s.chain c).state ≠ .idle) :
    Agrees (s.idleChain c) := by
  obtain ⟨d, hd⟩ := chainSound_defn (h.2 c) hst
  have hon : (s.chain c).onLine d.line = true := onLine_iff.mpr ⟨d, hd, rfl⟩
  unfold State.idleChain
  rw [hd]
  simp only []
  exact agrees_settleDemand (agree_dropIdle h hon (Ends.of_not_inFlight (h.1 d.line) hinf)) settled_unjudged

/-- R58. -/
theorem agrees_stopChain (h : Agrees s) (c : Fin 8) : Agrees (s.stopChain c) := by
  have hcs := h.2 c
  unfold State.stopChain
  split
  · rename_i hst
    split
    · rename_i hinf
      refine agrees_modChain h rfl ?_ ?_ ?_ rfl ?_
      · unfold chainSound at hcs ⊢; rw [hst] at hcs; simp at hcs; simp [hcs, hinf]
      · simp [Chain.active, hst]
      · simp [hst]
      · simp [Chain.inRound, hst]
    · rename_i hinf
      exact agrees_idleChain h (by simpa using hinf) (by rw [hst]; decide)
  · rename_i hst
    exact agrees_idleChain h (chainSound_quiet hcs (by rw [hst]; decide) (by rw [hst]; decide)) (by rw [hst]; decide)
  · rename_i hst
    exact agrees_idleChain h (chainSound_quiet hcs (by rw [hst]; decide) (by rw [hst]; decide)) (by rw [hst]; decide)
  · exact h
  · exact h

/-- R42: the exchange of a chain whose exchange in flight is yes. -/
theorem flight_exchange {d : ChainDef} (h : Agrees s) (hd : (s.chain c).defn = some d) (hi : (s.chain c).inFlight = true) :
    ∃ ex, (s.line d.line).exch = some ex ∧ ex.origin = .chain c ∧ ex.orphan = false := by
  have hf := ((h.1 d.line).flight c).mp (by simp [hi, onLine_iff, hd])
  simp only [Option.bind_none, reduceCtorEq, or_false] at hf
  unfold flies at hf
  cases hx : (s.line d.line).exch with
  | none => rw [hx] at hf; cases hf
  | some ex =>
    rw [hx] at hf
    simp only [Option.any_some, Bool.and_eq_true, decide_eq_true_eq, Bool.not_eq_true'] at hf
    exact ⟨ex, rfl, hf⟩

/-- R59: the exchange of a chain is cut off and the chain goes IDLE; the ROUND demand is left to be judged. -/
theorem agree_orphan {d : ChainDef} (h : Agrees s) (hd : (s.chain c).defn = some d) (hi : (s.chain c).inFlight = true) :
    Agree (Function.update (fun _ => none) d.line (some Virtual.unjudged))
      ((s.orphanExchange c d.line).modChain c Chain.toIdle) := by
  obtain ⟨ex, hx, ho, hor⟩ := flight_exchange h hd hi
  have hon : (s.chain c).onLine d.line = true := onLine_iff.mpr ⟨d, hd, rfl⟩
  have hst := chainSound_inFlight (h.2 c) hi
  have hk := h.1 d.line
  have hul : (s.orphanExchange c d.line).line d.line = { s.line d.line with exch := some { ex with orphan := true } } := by
    show (State.modLine s d.line _).line d.line = _
    rw [modLine_line_self, hx]; simp [ho]
  have h1 : Agree (Function.update (fun _ => none) d.line (some { flight := some c, injected := false }))
      (s.orphanExchange c d.line) := by
    refine h.line ?_ fun j hj => Function.update_of_ne hj _ _
    rw [Function.update_self]
    have hul' : (State.modLine s d.line fun x =>
        { x with exch := x.exch.map fun ex => if ex.origin = .chain c then { ex with orphan := true } else ex }).line d.line =
        _ := hul
    refine ⟨hk.one, fun c' => ?_, fun c' => ?_, fun hn => (by cases hn), ?_, fun q => ?_, fun y hy => ?_, fun x => ?_⟩ <;>
    try rw [hul']
    · exact hk.hold c'
    · refine (hk.flight c').trans ?_
      unfold flies; rw [hx]; simp [ho, hor]
    · have := hk.ask
      unfold Line.injectedInFlight at this ⊢
      rw [hx] at this
      simpa [Exchange.isScan] using this
    · exact hk.queue q
    · rw [hul'] at hy; cases hy
      exact hk.exch ex hx
    · exact hk.held x
  have hne : ((s.orphanExchange c d.line).chain c).state ≠ .held := by
    show (s.chain c).state ≠ .held
    rcases hst with h | h <;> rw [h] <;> decide
  have h2 := agree_modChain (k := d.line) (c := c) (f := Chain.toIdle) (o' := some Virtual.unjudged) h1 hon rfl rfl
    (fun hh => by simp [Chain.active, Chain.toIdle] at hh) (by simp only [Chain.toIdle, hne]; decide)
    (by rw [hul]; simp [flies, Virtual.unjudged, Chain.toIdle])
    (fun c' hc' => by rw [Function.update_self]; simp [Virtual.unjudged, Ne.symm hc'])
    (by rw [Function.update_self]; rfl) (fun h => by cases h)
  rwa [update_twice] at h2

/-- R59. -/
theorem agrees_abortChain (h : Agrees s) (c : Fin 8) : Agrees (s.abortChain c) := by
  unfold State.abortChain
  split
  · rename_i d hi hd
    have h1 := agree_endOutside (k := d.line) (agree_orphan h hd hi) (by rw [Function.update_self]; exact settled_unjudged) .aborted
    rw [update_twice] at h1
    exact agrees_settleDemand h1 settled_unjudged
  · exact agrees_stopChain h c

/-- R45: a chain that is not active is defined anew. -/
theorem agrees_setChain (h : Agrees s) (hst : (s.chain c).active = false) (d : Option ChainDef) :
    Agrees (s.setChain c (Chain.fresh d)) := by
  have hidle : (s.chain c).state = .idle := by simpa [Chain.active] using hst
  have hinf := chainSound_quiet (h.2 c) (by rw [hidle]; decide) (by rw [hidle]; decide)
  have hand : ∀ (f : Chain → Bool) (l : Fin 4), f (s.chain c) = false → f (Chain.fresh d) = false → ∀ c',
      (f ((s.setChain c (Chain.fresh d)).chain c') && ((s.setChain c (Chain.fresh d)).chain c').onLine l) =
        (f (s.chain c') && (s.chain c').onLine l) := by
    intro f l h1 h2 c'
    rw [setChain_chain]
    split
    · rename_i e; rw [e, h1, h2]; rfl
    · rfl
  refine ⟨fun l => ?_, fun c' => ?_⟩
  · have hk := h.1 l
    refine ⟨fun a b => ?_, fun a => ?_, fun a => ?_, fun _ => ?_, hk.ask, hk.queue, hk.exch, hk.held⟩
    · rw [hand Chain.active l hst rfl a, hand Chain.active l hst rfl b]; exact hk.one a b
    · rw [hand (fun ch => decide (ch.state = .held)) l (by simp [hidle]) rfl a]; exact hk.hold a
    · rw [hand Chain.inFlight l hinf rfl a]; exact hk.flight a
    · refine (hk.round rfl).trans ?_
      unfold State.roundWanted
      congr 2
      refine congrArg (fun f => List.any _ f) (funext fun c' => ?_)
      rw [setChain_chain]
      split
      · rename_i e; rw [e]; simp [Chain.inRound, hidle, Chain.fresh]
      · rfl
  · rw [setChain_chain]
    split
    · rfl
    · exact h.2 c'

/-! ### Requests on lines and entries -/

/-- R98. -/
theorem agrees_hostDemand (h : Agrees s) (k : Fin 4) : Agrees (s.hostDemand k) :=
  agree_powerUp (agree_lineSame h rfl rfl rfl rfl rfl Iff.rfl) rfl

/-- R99. -/
theorem agrees_dropHost (h : Agrees s) (k : Fin 4) : Agrees (s.dropHost k) :=
  (agree_withdraw (k := k) (agree_lineSame h rfl rfl rfl rfl rfl Iff.rfl) settled_none).of_update rfl

/-- R62, R99. -/
theorem agrees_leaveFault (h : Agrees s) (hl : LinesBut (fun _ => False) s) (hf : (s.line k).power = .fault) :
    Agrees (s.leaveFault k) := by
  have hx := (shape_unpowered (hl k).1 (by rw [hf]; decide)).1
  have h1 := agree_lineUnjudged (k := k) (f := fun x => { x with power := .off }) h settled_none rfl rfl rfl rfl
  unfold State.leaveFault
  simp only []
  split
  · rename_i c hc
    have hon := (activeChain_some hc).2
    have hon' : (s.chain c).onLine k = true := hon
    refine agrees_settleDemand (w := Virtual.unjudged) ?_ settled_unjudged
    have hE : Ends (Function.update (fun _ => none) k (some Virtual.unjudged) k) Virtual.unjudged
        (s.modLine k fun x => { x with power := .off }) k c := by
      rw [Function.update_self]
      exact (agrees_ends h hx hon').again (by rw [modLine_line_self])
    have h2 := agree_chainFault h1 hon hE .lineFault
    rwa [update_twice] at h2
  · exact agrees_settleDemand h1 settled_unjudged

/-- R97. -/
theorem agrees_resume (h : Agrees s) (k : Fin 4) : Agrees (s.resume k) := by
  have h1 := agree_lineUnjudged (k := k) (f := fun x =>
    { x with power := .settling, demand := { x.demand with host := true } }) h settled_none rfl rfl rfl rfl
  have h2 := agree_syncRound (k := k) h1 (by rw [Function.update_self]; exact settled_unjudged)
  rw [update_twice] at h2
  refine agree_enterSettling (h2.of_update rfl) rfl ?_
  rw [syncRound_line, if_pos rfl, modLine_line_self]
  exact fun hh => by cases hh

/-- R101. -/
theorem agrees_setSettings (h : Agrees s) (k : Fin 4) (x : LineSettings) : Agrees (s.setSettings k x) := by
  have h1 : Agrees (s.modLine k fun y => { y with settings := x }) := agree_lineSame h rfl rfl rfl rfl rfl Iff.rfl
  refine h1.congr (fun _ => ?_) (fun _ => ?_) ?_ <;> unfold State.setSettings <;> rw [judgeLevel_eq] <;> try rfl

/-- R6, R7, R10: an entry that is not in use is written or erased. -/
theorem agrees_setEntry {e : Fin 128} (h : Agrees s) (hu : s.inUse e = false) (x : Option PlanEntry) :
    Agrees (s.setEntry e x) := by
  have huse : ∀ p, s.entry e = some p → s.entryInFlight e p.line = false ∧ s.entryHeld e p.line = false ∧
      s.entryQueued e p.line = false := by
    intro p hp
    unfold State.inUse at hu
    rw [hp] at hu
    simpa [and_assoc] using hu
  have hon : ∀ l, s.entryOn e l = true → s.entryInFlight e l = false ∧ s.entryHeld e l = false ∧
      s.entryQueued e l = false := by
    intro l hl
    unfold State.entryOn at hl
    cases hp : s.entry e with
    | none => rw [hp] at hl; cases hl
    | some p =>
      rw [hp] at hl
      have : p.line = l := by simpa using hl
      rw [← this]
      exact huse p hp
  have hne : ∀ i l, i ≠ e → (s.setEntry e x).entryOn i l = s.entryOn i l := by
    intro i l hi
    unfold State.entryOn
    rw [setEntry_entry_ne _ _ _ _ hi]
  refine ⟨fun l => ?_, h.2⟩
  have hk := h.1 l
  refine ⟨hk.one, hk.hold, hk.flight, fun ho => ?_, hk.ask, fun q hq => ?_, fun ex hx => ?_, fun y hy hre => ?_⟩
  · exact (hk.round ho).trans (roundWanted_congr (s := s) (t := s.setEntry e x) Iff.rfl (fun _ => rfl) (fun _ _ => rfl) rfl).symm
  · have h1 := hk.queue q hq
    have : q.entry ≠ e := by
      intro he
      rw [he] at h1
      have h2 := (hon l h1).2.2
      unfold State.entryQueued at h2
      rw [List.any_eq_false] at h2
      exact h2 q hq (by simp [he])
    rw [hne _ _ this]
    exact h1
  · obtain ⟨h1, h2⟩ := hk.exch ex hx
    have : ex.entry ≠ e := by
      intro he
      have h3 := hon l (by unfold State.entryOn; rw [← he, h1]; simp [h2])
      have h4 := h3.1
      have hx' : (s.line l).exch = some ex := hx
      unfold State.entryInFlight at h4
      rw [hx'] at h4
      simp [he] at h4
    rw [setEntry_entry_ne _ _ _ _ this]
    exact ⟨h1, h2⟩
  · have h1 := hk.held y hy hre
    have hy' : (s.line l).held = some y := hy
    have : y.entry ≠ e := by
      intro he
      rw [he] at h1
      have h2 := (hon l h1).2.1
      unfold State.entryHeld at h2
      rw [hy'] at h2
      simp [he] at h2
    rw [hne _ _ this]
    exact h1

/-- A part whose chains are IDLE and whose lines have nothing on them. -/
theorem agrees_quiet (hc : ∀ c, (s.chain c).state = .idle ∧ (s.chain c).position = none ∧ (s.chain c).inFlight = false ∧
      (s.chain c).roundDue = false ∧ (s.chain c).timer = .stopped)
    (hl : ∀ l, (s.line l).held = none ∧ (s.line l).exch = none ∧ (s.line l).queue = [] ∧
      (s.line l).demand = DemandSet.empty) : Agrees s := by
  refine ⟨fun l => ?_, fun c => ?_⟩
  · obtain ⟨h1, h2, h3, h4⟩ := hl l
    refine ⟨fun a b ha => ?_, fun a => ?_, fun a => ?_, fun _ => ?_, ?_, fun q hq => ?_, fun ex hx => ?_, fun y hy => ?_⟩
    · simp [Chain.active, (hc a).1] at ha
    · simp [(hc a).1, h1]
    · simp [(hc a).2.2.1, flies, h2]
    · rw [h4]
      unfold State.roundWanted
      rw [h2]
      have : ((List.finRange 8).any fun c => (s.chain c).onLine l && (s.chain c).isPowered && (s.chain c).inRound) = false := by
        rw [List.any_eq_false]
        intro c _
        simp [Chain.inRound, (hc c).1]
      rw [this]
      simp [DemandSet.empty]
    · rw [h4, h3]; simp [DemandSet.empty, Line.injectedInFlight, h2]
    · rw [h3] at hq; cases hq
    · rw [h2] at hx; cases hx
    · rw [h1] at hy; cases hy
  · obtain ⟨h1, h2, h3, h4, h5⟩ := hc c
    unfold chainSound
    rw [h1, h2, h3, h4, h5]
    rfl

theorem agrees_restarted (s : State) : Agrees s.restarted := by
  refine agrees_quiet (fun c => ?_) fun l => ?_
  · have : s.restarted.chain c = Chain.fresh (s.chain c).defn := by simp [State.restarted, State.chain]
    rw [this]
    exact ⟨rfl, rfl, rfl, rfl, rfl⟩
  · have : s.restarted.line l = (s.line l).restarted := by simp [State.restarted, State.line]
    rw [this]
    exact ⟨rfl, rfl, rfl, rfl⟩

theorem agrees_powerOn (b : Bool) (v : Vector Bool 4) (q : List Instr) : Agrees (State.powerOn b v q) := by
  refine agrees_quiet (fun c => ?_) fun l => ?_
  · have : (State.powerOn b v q).chain c = Chain.fresh none := by simp [State.powerOn, State.chain]
    rw [this]
    exact ⟨rfl, rfl, rfl, rfl, rfl⟩
  · have : (State.powerOn b v q).line l = Line.fresh LineSettings.default v[l] := by simp [State.powerOn, State.line]
    rw [this]
    exact ⟨rfl, rfl, rfl, rfl⟩

end Sys2Proof.Machine
end

