-- ==== Sys2Proof/Laws/Follows.lean ====
section
/-! SUPPORT. A line that follows its demand set down: everything that judging the set can do, and the LINE-OFF fault of the chain on a
line that goes OFF. -/

set_option Elab.async false

namespace Sys2Proof.Machine

variable {k : Fin 4}

/-! ### Capture blocks -/

theorem closeBlock_line_ne (s : State) {j : Fin 4} (hj : j ≠ k) : (s.closeBlock k).line j = s.line j := by
  unfold State.closeBlock
  split
  · rfl
  · rw [modLine_line_ne _ _ _ _ hj, offer_line]

theorem closeBlock_store (s : State) (j : Fin 4) :
    (s.closeBlock k).store j = if j = k then (s.blockRecords k).foldl Store.offered (s.store k) else s.store j := by
  unfold State.closeBlock State.blockRecords
  split
  · split
    · rename_i e; rw [e]; rfl
    · rfl
  · rw [modLine_store, offer_store]; rfl

theorem closeBlock_eq (s : State) (k : Fin 4) :
    s.closeBlock k = { s with
      lines := (s.closeBlock k).lines, stores := (s.closeBlock k).stores, attn := (s.closeBlock k).attn } := by
  unfold State.closeBlock State.offer
  split
  · rfl
  · split
    · rw [judgeLevel_eq]; rfl
    · rfl

/-! ### Going OFF -/

/-- R61: the chain of a line that goes OFF. -/
theorem chainLineOff_some {s : State} {c : Fin 8} (h : s.activeChain k = some c)
    (hst : (s.chain c).state = .running ∨ (s.chain c).state = .held) : s.chainLineOff k = s.chainFault c .lineOff := by
  unfold State.chainLineOff
  rw [h]
  rcases hst with e | e <;> simp only [e]

theorem chainLineOff_none {s : State} (h : ∀ c, s.activeChain k = some c →
    (s.chain c).state ≠ .running ∧ (s.chain c).state ≠ .held) : s.chainLineOff k = s := by
  unfold State.chainLineOff
  split
  · rename_i c hc
    split
    · rename_i e; exact absurd e (h c hc).1
    · rename_i e; exact absurd e (h c hc).2
    all_goals rfl
  · rfl

theorem chainFault_eq_parts (s : State) (c : Fin 8) (r : FaultReason) :
    s.chainFault c r = { s with
      chains := (s.chainFault c r).chains, lines := (s.chainFault c r).lines, attn := (s.chainFault c r).attn } := by
  unfold State.chainFault State.dropHold
  split <;> rfl

/-- R91, R92, R61. -/
theorem enterOff_gone (u : State) (k : Fin 4) : u.goneOff (u.enterOff k) k := by
  have hs := closeBlock_store (k := k) u
  have hn := fun j (hj : j ≠ k) => closeBlock_line_ne (k := k) u hj
  have he := closeBlock_eq u k
  have hb : (u.closeBlock k).line k = { u.line k with block := [], blockParity := ((u.closeBlock k).line k).blockParity } := by
    rw [closeBlock_line]
    split
    · rfl
    · rename_i h
      have : (u.line k).block = [] := by simpa using h
      rw [← this]
  unfold State.enterOff
  generalize u.closeBlock k = b at hs hn he hb
  generalize hv : (b.modLine k fun x =>
    { x with power := .off, lnPwr := false, settleTimer := .stopped, engine := .idle, block := [],
             blockParity := false }) = v
  have hvl : v.line k = { u.line k with
      power := .off, lnPwr := false, settleTimer := .stopped, engine := .idle, block := [], blockParity := false } := by
    rw [← hv, modLine_line_self, hb]
  have hvn : ∀ j, j ≠ k → v.line j = u.line j ∧ v.store j = u.store j := by
    intro j hj
    rw [← hv, modLine_line_ne _ _ _ _ hj, modLine_store, hn j hj, hs j, if_neg hj]
    exact ⟨rfl, rfl⟩
  have hvs : v.store k = (u.blockRecords k).foldl Store.offered (u.store k) := by
    rw [← hv, modLine_store, hs k, if_pos rfl]
  have hve : v = { u with chains := v.chains, lines := v.lines, stores := v.stores, attn := v.attn } := by
    rw [← hv]; rw [he]; rfl
  have hvc : ∀ c, v.chain c = u.chain c := by intro c; rw [← hv, modLine_chain, he]; rfl
  have hva : v.activeChain k = u.activeChain k := by
    unfold State.activeChain; simp only [hvc]
  by_cases hc : ∃ c, u.activeChain k = some c ∧ ((u.chain c).state = .running ∨ (u.chain c).state = .held)
  · obtain ⟨c, hc, hst⟩ := hc
    have hon : (v.chain c).onLine k = true := by rw [hvc]; exact (activeChain_some hc).2
    rw [chainLineOff_some (c := c) (by rw [hva]; exact hc) (by rw [hvc]; exact hst)]
    have hstore : ∀ j, (v.chainFault c .lineOff).store j = v.store j := by
      intro j; rw [chainFault_eq_parts]; rfl
    refine ⟨?_, fun j hj => ⟨?_, ?_⟩, ?_, _, rfl, fun c' hc' _ => ?_, fun hno => ?_⟩
    · rw [chainFault_eq_parts, hve]
    · rw [chainFault_line, if_neg, (hvn j hj).1]
      rintro ⟨-, h'⟩
      exact hj (onLine_unique h' hon)
    · rw [hstore, (hvn j hj).2]
    · rw [hstore, hvs]
    · rw [hc] at hc'
      cases hc'
      refine ⟨?_, fun c' hne => ?_, ?_, ?_⟩
      · rw [chainFault_chain, if_pos rfl, hvc]; rfl
      · rw [chainFault_chain, if_neg hne, hvc]
      · unfold State.chainFault
        have := (raise_gained ((v.dropHold c).modChain c fun ch => { ch.toIdle with reason := .lineOff }) .chainFault c.val).1 c.val
        rw [this]
        simp only [true_and, Bool.or_eq_true, decide_eq_true_eq]
        right; omega
      · rw [chainFault_line, hvc, hvl]
        rw [hvc] at hon
        simp only [hon, and_true]
        rfl
    · rcases hst with e | e
      · exact absurd e (hno c hc).1
      · exact absurd e (hno c hc).2
  · push Not at hc
    rw [chainLineOff_none fun c h => by rw [hva] at h; rw [hvc]; exact hc c h]
    exact ⟨hve, hvn, hvs, _, rfl, fun c h hst => absurd hst (not_or.mpr (hc c h)),
      fun _ => ⟨hvc, hvl⟩⟩

/-- R49: the ROUND demand, spelt out. -/
theorem roundWanted_iff (u : State) (k : Fin 4) : u.roundWanted k = true ↔ (u.line k).power ≠ .fault ∧
    ((∃ c d, (u.chain c).defn = some d ∧ d.line = k ∧ d.powered = true ∧
        ((u.chain c).state = .running ∨ (u.chain c).state = .held ∨ (u.chain c).state = .stopping)) ∨
      ∃ ex c, (u.line k).exch = some ex ∧ ex.origin = .chain c ∧ ex.powered = true) := by
  unfold State.roundWanted
  rw [Bool.and_eq_true, decide_eq_true_eq, Bool.or_eq_true]
  refine and_congr_right fun _ => or_congr ?_ ?_
  · simp only [List.any_eq_true, List.mem_finRange, true_and, Bool.and_eq_true]
    constructor
    · rintro ⟨c, ⟨h1, h2⟩, h3⟩
      obtain ⟨d, hd, hl⟩ := onLine_iff.mp h1
      refine ⟨c, d, hd, hl, by simpa [Chain.isPowered, hd] using h2, ?_⟩
      unfold Chain.inRound at h3
      cases hs : (u.chain c).state <;> simp_all
    · rintro ⟨c, d, hd, hl, hp, h⟩
      refine ⟨c, ⟨onLine_iff.mpr ⟨d, hd, hl⟩, by simp [Chain.isPowered, hd, hp]⟩, ?_⟩
      unfold Chain.inRound
      rcases h with h | h | h <;> rw [h]
  · cases hx : (u.line k).exch with
    | none => simp
    | some ex =>
      simp only [Bool.and_eq_true, Option.some.injEq]
      constructor
      · rintro ⟨h1, h2⟩
        unfold Exchange.isScan at h1
        cases ho : ex.origin <;> rw [ho] at h1 <;> simp at h1
        exact ⟨ex, _, rfl, ho, h2⟩
      · rintro ⟨ex', c, rfl, ho, h⟩
        simp [Exchange.isScan, ho, h]

theorem supplied_iff (x : Line) : x.supplied = true ↔ x.power = .settling ∨ x.power = .on := by
  unfold Line.supplied; cases x.power <;> simp

/-- R49, R91, R92, R61: everything that judging the demand set of a line can do. -/
theorem withdraw_follows (u : State) (k : Fin 4) : u.followsDown (u.withdraw k) k := by
  have hs : u.syncRound k = u.setLine k { u.line k with
      demand := { (u.line k).demand with round := u.roundWanted k } } := rfl
  refine ⟨u.roundWanted k, _, rfl, roundWanted_iff u k, fun h => ?_, fun h1 h2 h3 => ?_⟩
  · unfold State.withdraw State.powerDown
    rw [hs, if_neg]
    rw [setLine_line_self, ← supplied_iff]
    rintro ⟨a, b, c⟩
    rcases h with e | e | e
    · rw [e] at a; cases a
    · rw [e] at b; cases b
    · exact e c
  · unfold State.withdraw State.powerDown
    rw [hs, if_pos]
    · exact enterOff_gone _ k
    · rw [setLine_line_self, ← supplied_iff]
      exact ⟨h1, h2, h3⟩

end Sys2Proof.Machine
end

