-- ==== Sys2Proof/Laws/Filing.lean ====
section
/-! SUPPORT. The filing of an exchange, once for all that cite it: what it leaves on its line and in its line's store, and
what an outside ending leaves alone. -/

set_option Elab.async false

namespace Sys2Proof.Machine

variable {s : State} {k : Fin 4}

/-! ### Stores -/

theorem closeBlock_empty (hb : (s.line k).block = []) : s.closeBlock k = s := by
  unfold State.closeBlock; rw [if_pos hb]

/-- What chains do leaves every store. -/
theorem stores_held (v : Vector Store 4) : HeldKept fun s => s.stores = v where
  raise _ _ _ _ _ h := h
  take _ _ _ h := h
  clear _ _ h := h
  chain _ _ _ _ h := h

theorem withdraw_stores (hb : (s.line k).block = []) : (s.withdraw k).stores = s.stores := by
  unfold State.withdraw State.powerDown
  split
  · unfold State.enterOff
    rw [closeBlock_empty (by rw [syncRound_line, if_pos rfl]; exact hb)]
    refine (stores_held s.stores).chainLineOff ?_ k
    rfl
  · rfl

theorem fileOrigin_stores (ex : Exchange) (o : ExchOutcome) : (s.fileOrigin k ex o).stores = s.stores := by
  unfold State.fileOrigin
  split
  · exact (stores_held s.stores).scanEnd rfl _ _ _ _
  all_goals rfl

theorem fileRecord_store (ex : Exchange) (o : ExchOutcome) :
    (s.fileRecord k ex o).store k =
      if ex.copy.policy.offers o then (s.store k).offered (exchangeRecord ex o s.count) else s.store k := by
  unfold State.fileRecord
  split
  · rw [offer_store, if_pos rfl]
  · rfl

/-! ### The line -/

/-- A line whose engine is free and that has no open block. -/
def Line.filed (x : Line) : Prop :=
  x.exch = none ∧ x.engine = .idle ∧ x.lnDe = false ∧ x.replyTimer = .stopped ∧ x.block = []

theorem afterFiling_filed : AfterFiling Line.filed where
  take _ _ h := h
  clear _ h := h
  injected _ h := h
  round _ _ h := h
  off _ h _ := ⟨h.1, rfl, h.2.2.1, h.2.2.2.1, rfl⟩
  block _ h := ⟨h.1, h.2.1, h.2.2.1, h.2.2.2.1, rfl⟩

/-- R129: only an OK end injects, so any other is evaluated alike with every way to inject. -/
theorem evalWatches_notOk {o : ExchOutcome} (ho : o ≠ .ok) (a b : Injector) (s : State) (e : Fin 128) (p : List Byte) :
    s.evalWatches a e o p = s.evalWatches b e o p := by
  unfold State.evalWatches
  congr 1
  funext t w
  unfold State.evalWatch
  cases o <;> first | exact absurd rfl ho | rfl

theorem injectedFiled_eq (x : Line) : x.injectedFiled = x.afterInjected := by
  unfold Line.injectedFiled Line.afterInjected
  cases hh : x.held <;> rfl

/-- R37: a filing is made of its steps in order. -/
theorem fileWith_inOrder {inject : Injector} (s : State) (k : Fin 4) (ex : Exchange) (o : ExchOutcome)
    (hw : inject = watchTrigger ∨ o ≠ .ok) : s.filedInOrder (s.fileWith inject k ex o) k ex o := by
  have hv : ((s.modLine k Line.freeEngine).fileRecord k ex o).evalWatches inject ex.entry o
      ((ex.reply.map Reply.payload).getD []) =
      ((s.modLine k Line.freeEngine).fileRecord k ex o).evalWatches watchTrigger ex.entry o
        (match ex.reply with
          | some r => r.payload
          | none => []) := by
    have hp : (ex.reply.map Reply.payload).getD [] = match ex.reply with
        | some r => r.payload
        | none => [] := by cases ex.reply <;> rfl
    rw [hp]
    rcases hw with h | h
    · rw [h]
    · exact evalWatches_notOk h _ _ _ _ _
  refine ⟨_, _, _, ((((s.modLine k Line.freeEngine).fileRecord k ex o).evalWatches inject ex.entry o
      ((ex.reply.map Reply.payload).getD [])).fileOrigin k ex o), rfl, rfl, rfl, fun c ho => ?_, fun ho => ?_, ?_⟩
  · rw [hv]; unfold State.fileOrigin; rw [ho]; rfl
  · rw [hv]
    unfold State.fileOrigin State.modLine
    rw [injectedFiled_eq]
    cases hoo : ex.origin <;> first | exact absurd hoo (ho _) | rfl
  · exact withdraw_follows _ k

/-- A filing, with any way to inject that leaves the line free and its store alone. -/
theorem fileWith_freed {inject : Injector} {P : Line → Prop} (hb : (s.line k).block = []) (hp : P (s.line k).freeEngine)
    (ex : Exchange) (o : ExchOutcome)
    (hi : ∀ w e v t, (P (t.line k) ∧ (t.line k).filed) ∧ t.store k = (((s.modLine k Line.freeEngine).fileRecord k ex o)).store k →
      (P ((inject w e v t).1.line k) ∧ ((inject w e v t).1.line k).filed) ∧
        (inject w e v t).1.store k = ((s.modLine k Line.freeEngine).fileRecord k ex o).store k) :
    let t := s.fileWith inject k ex o
    (t.line k).exch = none ∧ (t.line k).engine = .idle ∧ (t.line k).lnDe = false ∧ (t.line k).replyTimer = .stopped ∧
      t.store k = if ex.copy.policy.offers o then (s.store k).offered (exchangeRecord ex o s.count) else s.store k := by
  have h1 := evalWatches_kept (P := fun t => (P (t.line k) ∧ (t.line k).filed) ∧
      t.store k = ((s.modLine k Line.freeEngine).fileRecord k ex o).store k)
    (fun _ _ _ h => h) (fun _ _ _ _ _ _ h => h) hi
    (s := (s.modLine k Line.freeEngine).fileRecord k ex o)
    ⟨by rw [fileRecord_line, modLine_line_self]; exact ⟨hp, rfl, rfl, rfl, rfl, hb⟩, rfl⟩ ex.entry o
    ((ex.reply.map Reply.payload).getD [])
  have h2 := fileOrigin_line afterFiling_filed h1.1.2 ex o
  have h3 := withdraw_line afterFiling_filed h2
  refine ⟨h3.1, h3.2.1, h3.2.2.1, h3.2.2.2.1, ?_⟩
  unfold State.fileWith
  show (State.withdraw _ k).stores[k] = _
  rw [withdraw_stores h2.2.2.2.2, fileOrigin_stores]
  refine h1.2.trans ?_
  rw [fileRecord_store]
  rfl

/-- A filing that injects nothing. -/
theorem fileQuiet_freed (hb : (s.line k).block = []) (ex : Exchange) (o : ExchOutcome) :
    let t := s.fileQuiet k ex o
    (t.line k).exch = none ∧ (t.line k).engine = .idle ∧ (t.line k).lnDe = false ∧ (t.line k).replyTimer = .stopped ∧
      t.store k = if ex.copy.policy.offers o then (s.store k).offered (exchangeRecord ex o s.count) else s.store k :=
  fileWith_freed (P := fun _ => True) hb trivial ex o fun _ _ _ _ h => h

/-- An outside ending of an exchange. -/
theorem fileQuiet_filed (hb : (s.line k).block = []) (ex : Exchange) {o : ExchOutcome} (ho : o ≠ .ok) :
    s.exchangeFiled (s.fileQuiet k ex o) k ex o :=
  have h := fileQuiet_freed hb ex o
  ⟨h.1, h.2.1, h.2.2.1, h.2.2.2.1, h.2.2.2.2, fileWith_inOrder s k ex o (.inr ho)⟩

/-- An ASK on another line leaves this one and its store. -/
theorem otherStore_kept {l : Fin 4} (hk : k ≠ l) (st : Store) : Kept l fun s => s.store k = st where
  raise _ _ _ _ _ h := h
  take _ _ _ h := h
  clear _ _ h := h
  chain _ _ _ _ h := h
  offer s r h := by rw [offer_store, if_neg hk]; exact h
  line _ _ _ h := h
  watch _ _ _ _ _ _ h := h

theorem urgentJoined_free (h : (s.line k).exch = none) (j : Bool) : s.urgentJoined k j = s := by
  unfold State.urgentJoined State.preempt
  split
  · rw [h]
  · rfl

theorem powerUp_supplied (h : (s.line k).power ≠ .off) : s.powerUp k = s := by
  unfold State.powerUp
  rw [if_neg fun h' => h h'.1]

/-- An injection while an exchange of a line that is ON is being filed. -/
theorem askAt_filed {st : Store} (h : ((s.line k).power = .on ∧ (s.line k).filed) ∧ s.store k = st) (e : Fin 128) (v : Level)
    (o : Origin) :
    (((s.askAt e v o).1.line k).power = .on ∧ ((s.askAt e v o).1.line k).filed) ∧ (s.askAt e v o).1.store k = st := by
  by_cases hk : ∀ p, s.entry e = some p → p.line ≠ k
  · refine Kept.askAt (P := fun s => ((s.line k).power = .on ∧ (s.line k).filed) ∧ s.store k = st) h e v o fun p hp =>
      Kept.and (otherLine_kept (R := fun x => x.power = .on ∧ x.filed) (hk p hp) (fun _ _ h => h) fun _ h => h)
        (otherStore_kept (Ne.symm (hk p hp)) st)
  · push Not at hk
    obtain ⟨p, hp, rfl⟩ := hk
    obtain ⟨⟨h1, h2⟩, h3⟩ := h
    unfold State.askAt
    simp only [hp]
    split
    · exact ⟨⟨h1, h2⟩, h3⟩
    · split
      · unfold State.mergeAsk
        rw [urgentJoined_free (by rw [modLine_line_self]; exact h2.1)]
        exact ⟨by rw [modLine_line_self]; exact ⟨h1, h2⟩, h3⟩
      · split
        · exact ⟨⟨h1, h2⟩, h3⟩
        · unfold State.appendAsk
          rw [powerUp_supplied (by rw [modLine_line_self]; simp [h1]),
            urgentJoined_free (by rw [modLine_line_self]; exact h2.1)]
          exact ⟨by rw [modLine_line_self]; exact ⟨h1, h2⟩, h3⟩

/-- R33, R37: an exchange of a line that is ON ends by itself. -/
theorem fileEnd_filed (hp : (s.line k).power = .on) (hb : (s.line k).block = []) (ex : Exchange) (o : ExchOutcome) :
    s.exchangeFiled (s.fileEnd k ex o) k ex o :=
  have h := fileWith_freed (P := fun x => x.power = .on) hb hp ex o fun _ e v _ h => askAt_filed h e v _
  ⟨h.1, h.2.1, h.2.2.1, h.2.2.2.1, h.2.2.2.2, fileWith_inOrder s k ex o (.inl rfl)⟩

/-- R31. -/
theorem failAttempt_failed (hp : (s.line k).power = .on) (hb : (s.line k).block = []) (ex : Exchange) (o : ExchOutcome) :
    s.attemptFailed (s.failAttempt k ex o) k ex o := by
  unfold State.failAttempt
  refine ⟨fun h => ?_, fun h => ?_⟩
  · rw [if_pos h]; rfl
  · rw [if_neg (by omega)]; exact fileEnd_filed hp hb ex o

/-- A line with an exchange in flight is ON, in FRAMED mode, and has no block. -/
theorem busy_line (h : lineSound (s.line k)) (hx : (s.line k).exch ≠ none) :
    (s.line k).power = .on ∧ (s.line k).settings.mode = .framed ∧ (s.line k).block = [] := by
  obtain ⟨hp, hm, -, hl⟩ := shape_busy h.1 hx
  exact ⟨hp, hm, (h.1.2.2.2.2.2.2.2.2.2 hl).1⟩

theorem setLine_same (s : State) (k : Fin 4) : s.setLine k (s.line k) = s := by
  simp [State.setLine, State.line]

theorem setChain_same (s : State) (c : Fin 8) : s.setChain c (s.chain c) = s := by
  simp [State.setChain, State.chain]

/-- R34: in SENDING an outside ending becomes the pending end, unless one stands. -/
theorem endOutside_sending {ex : Exchange} (hx : (s.line k).exch = some ex) (he : (s.line k).engine = .sending)
    (o : ExchOutcome) :
    s.endOutside k o = s.setLine k { s.line k with exch := some { ex with pendingEnd := some (ex.pendingEnd.getD o) } } := by
  unfold State.endOutside
  rw [hx]
  simp only []
  rw [if_pos he]
  cases hp : ex.pendingEnd with
  | none => rfl
  | some o' =>
    have h1 : ({ ex with pendingEnd := some o' } : Exchange) = ex := by rw [← hp]
    have h2 : ({ s.line k with exch := some ex } : Line) = s.line k := by rw [← hx]
    simp only [Option.getD_some]
    rw [h1, h2, setLine_same]

/-- R34: in any other state the exchange is filed at once. -/
theorem endOutside_free {ex : Exchange} (hx : (s.line k).exch = some ex) (he : (s.line k).engine ≠ .sending)
    (o : ExchOutcome) : s.endOutside k o = s.fileQuiet k ex o := by
  unfold State.endOutside
  rw [hx]
  simp only []
  rw [if_neg he]

/-- R83, R84: everything that an URGENT request does to the line whose queue it has joined. -/
theorem preempt_preempted (hb : (s.line k).exch ≠ none → (s.line k).block = []) : s.preempted (s.preempt k) k := by
  refine ⟨fun h => ?_, fun ex c hx ho => ?_⟩
  · unfold State.preempt
    cases hx : (s.line k).exch with
    | none => rfl
    | some ex =>
      simp only []
      rw [if_neg]
      unfold Exchange.isScan
      cases ho : ex.origin <;> first | exact absurd ho (h ex _ hx) | simp
  · have hp : s.preempt k = s.endOutside k .preempted := by
      unfold State.preempt
      rw [hx]
      simp only []
      rw [if_pos (by simp [Exchange.isScan, ho])]
    refine ⟨fun he => ?_, fun he => ?_⟩
    · rw [hp, endOutside_sending hx he]
    · rw [hp, endOutside_free hx he]
      exact fileQuiet_filed (hb (by rw [hx]; simp)) ex (by decide)

end Sys2Proof.Machine
end

