-- ==== Sys2Proof/Laws/Chains.lean ====
section
/-! SUPPORT. The Chain Controller's operations, case by case: a chain fault, the start of a round, its end, and the end of a
scan exchange. -/

set_option Elab.async false

namespace Sys2Proof.Machine

variable {s : State} {c : Fin 8}

theorem setChain_twice (s : State) (c : Fin 8) (a b : Chain) : (s.setChain c a).setChain c b = s.setChain c b := by
  simp [State.setChain]

theorem setLine_twice (s : State) (l : Fin 4) (a b : Line) : (s.setLine l a).setLine l b = s.setLine l b := by
  simp [State.setLine]

theorem modChain_modChain (s : State) (c : Fin 8) (f g : Chain → Chain) :
    (s.modChain c f).modChain c g = s.setChain c (g (f (s.chain c))) := by
  unfold State.modChain
  rw [setChain_chain_self, setChain_twice]

theorem modLine_modLine (s : State) (l : Fin 4) (f g : Line → Line) :
    (s.modLine l f).modLine l g = s.setLine l (g (f (s.line l))) := by
  unfold State.modLine
  rw [setLine_line_self, setLine_twice]

/-- R60: a fault of a chain that is not HELD. -/
theorem chainFault_gained (h : (s.chain c).state ≠ .held) (r : FaultReason) :
    ∃ a, s.attn.gained a .chainFault c.val ∧
      s.chainFault c r = { s with attn := a }.setChain c { (s.chain c).gone with reason := r } := by
  rw [chainFault_eq h]
  exact ⟨_, raise_gained s .chainFault c.val, rfl⟩

/-- R48, step 1. -/
theorem roundStart_gone {d : ChainDef} (hd : (s.chain c).defn = some d) (he : s.entryOn d.head d.line = false) :
    s.roundStart c = s.chainFault c .headGone := by
  unfold State.roundStart
  simp only [hd]
  rw [if_pos (by simp [he])]

theorem roundTimer_eq (d : ChainDef) (now : Word) : roundTimer d now = roundTimerFrom d now := by
  unfold roundTimer roundTimerFrom
  by_cases h : d.period = 0
  · rw [if_pos h, if_pos (by rw [h]; rfl)]
  · rw [if_neg h, if_neg]
    exact fun h' => h (BitVec.eq_of_toNat_eq (by simpa using h'))

/-- R48, steps 4 to 6. -/
theorem roundStart_runs {d : ChainDef} (hd : (s.chain c).defn = some d) (he : s.entryOn d.head d.line = true)
    (hf : (s.line d.line).power ≠ .fault) (ho : d.powered = true ∨ (s.line d.line).power ≠ .off) :
    s.roundStart c = s.setChain c ((s.chain c).inNewRound d s.count) := by
  unfold State.roundStart
  simp only [hd]
  rw [if_neg (by simp [he]), if_neg hf, if_neg]
  · rw [roundTimer_eq]; rfl
  · intro h
    simp only [Bool.and_eq_true, Bool.not_eq_true', decide_eq_true_eq] at h
    rcases ho with ho | ho
    · rw [ho] at h; cases h.1
    · exact ho h.2

/-- R48, step 3. -/
theorem roundStart_lineOff {d : ChainDef} (hd : (s.chain c).defn = some d) (he : s.entryOn d.head d.line = true)
    (hf : (s.line d.line).power = .off) (ho : d.powered = false) : s.roundStart c = s.chainFault c .lineOff := by
  unfold State.roundStart
  simp only [hd]
  rw [if_neg (by simp [he]), if_neg (by rw [hf]; decide), if_pos (by simp [hf, ho])]

/-- R48, step 2: on a line in FAULT. -/
theorem roundStart_held {d : ChainDef} (hd : (s.chain c).defn = some d) (he : s.entryOn d.head d.line = true)
    (hf : (s.line d.line).power = .fault) :
    s.roundStart c =
      (s.setChain c { (s.chain c).inNewRound d s.count with state := .held, position := none }).setLine d.line
        { s.line d.line with held := some { entry := d.head, reason := .next, owner := c }, heldCount := 0 } := by
  unfold State.roundStart
  simp only [hd]
  rw [if_neg (by simp [he]), if_pos hf, roundTimer_eq]
  rfl

/-! ### The demand set of the line of a chain -/

theorem powerDown_same {k : Fin 4} (h : demandSound (s.line k)) : s.powerDown k = s := by
  unfold State.powerDown
  rw [if_neg]
  rintro ⟨h1, h2, h3⟩
  have hs : (s.line k).supplied = true := by rcases h1 with e | e <;> simp [Line.supplied, e]
  unfold demandSound at h
  rw [if_pos hs] at h
  rcases h with h | h
  · rw [h2] at h; cases h
  · exact h h3

theorem powerUp_same {k : Fin 4} (h : demandSound (s.line k)) : s.powerUp k = s := by
  unfold State.powerUp
  rw [if_neg]
  rintro ⟨h1, h2⟩
  unfold demandSound at h
  rw [if_neg (by simp [Line.supplied, h1])] at h
  rw [h] at h2
  cases h2

theorem syncRound_same {k : Fin 4} (h : (s.line k).demand.round = s.roundWanted k) : s.syncRound k = s := by
  unfold State.syncRound State.modLine
  rw [← h]
  exact setLine_same s k

theorem demandSound_supplied {x : Line} (h : x.supplied = true) (hd : x.demand.isEmpty = false ∨ x.exch ≠ none) :
    demandSound x := by
  unfold demandSound
  rw [if_pos h]
  exact hd

/-- R49: a line whose demand set is right stays as it is. -/
theorem settleDemand_same {k : Fin 4} (h : (s.line k).demand.round = s.roundWanted k) (hd : demandSound (s.line k)) :
    s.settleDemand k = s := by
  unfold State.settleDemand State.withdraw
  rw [syncRound_same h, powerDown_same hd, powerUp_same hd]

/-- R49: what the start of a round makes of the ROUND demand. -/
theorem roundWanted_started {d : ChainDef} (hd : (s.chain c).defn = some d) (hr : (s.chain c).inRound = false)
    (hf : (s.line d.line).power ≠ .fault) (now : Word) {x : Chain} (hx : x.defn = (s.chain c).defn) :
    (s.setChain c (x.inNewRound d now)).roundWanted d.line = (s.roundWanted d.line || d.powered) := by
  have hdx : x.defn = some d := hx.trans hd
  have hnew : ((s.setChain c (x.inNewRound d now)).chain c) = x.inNewRound d now := setChain_chain_self _ _ _
  unfold State.roundWanted
  rw [setChain_line, Bool.eq_iff_iff]
  simp only [ne_eq, hf, not_false_eq_true, decide_true, Bool.true_and, Bool.or_eq_true, List.any_eq_true,
    List.mem_finRange, true_and, Bool.and_eq_true]
  constructor
  · rintro (⟨c', ⟨h1, h2⟩, h3⟩ | h)
    · by_cases e : c' = c
      · rw [e, hnew] at h2
        right
        simpa [Chain.isPowered, Chain.inNewRound, hdx] using h2
      · rw [setChain_chain_ne _ _ _ _ e] at h1 h2 h3
        exact .inl (.inl ⟨c', ⟨h1, h2⟩, h3⟩)
    · exact .inl (.inr h)
  · rintro ((⟨c', ⟨h1, h2⟩, h3⟩ | h) | h)
    · by_cases e : c' = c
      · rw [e, hr] at h3; cases h3
      · exact .inl ⟨c', by rw [setChain_chain_ne _ _ _ _ e]; exact ⟨⟨h1, h2⟩, h3⟩⟩
    · exact .inr h
    · refine .inl ⟨c, ?_⟩
      rw [hnew]
      simp [Chain.onLine, Chain.isPowered, Chain.inRound, Chain.inNewRound, hdx, h]

/-- R48, R49, R90: the line follows the start of a round. -/
theorem settleDemand_started {d : ChainDef} {x : Chain} (hd : (s.chain c).defn = some d) (hr : (s.chain c).inRound = false)
    (hx : x.defn = (s.chain c).defn) (hs : demandSound (s.line d.line))
    (ht : (s.line d.line).demand.round = s.roundWanted d.line) (hf : (s.line d.line).power ≠ .fault)
    (ho : (s.line d.line).power ≠ .off ∨ (d.powered = true ∧ (s.line d.line).lnOvl = false)) (now : Word) :
    (s.setChain c (x.inNewRound d now)).settleDemand d.line =
      (s.setChain c (x.inNewRound d now)).setLine d.line ((s.line d.line).roundStarted d s.count) := by
  have hw := roundWanted_started (x := x) hd hr hf now hx
  generalize htt : s.setChain c (x.inNewRound d now) = t at hw
  have hl : t.line d.line = s.line d.line := by rw [← htt]; rfl
  have hc : t.count = s.count := by rw [← htt]; rfl
  have hsync : t.syncRound d.line = t.setLine d.line { s.line d.line with
      demand := { (s.line d.line).demand with round := (s.line d.line).demand.round || d.powered } } := by
    unfold State.syncRound State.modLine
    rw [hw, ← ht, hl]
  unfold State.settleDemand State.withdraw
  rw [hsync]
  by_cases hoff : (s.line d.line).power = .off
  · rcases ho with ho | ⟨hp, hov⟩
    · exact absurd hoff ho
    · have hdn : ∀ y : Line, y.power = .off → (t.setLine d.line y).powerDown d.line = t.setLine d.line y := by
        intro y hy
        unfold State.powerDown
        rw [if_neg]
        rw [setLine_line_self]
        rintro ⟨h1, -⟩
        rw [hy] at h1
        rcases h1 with h1 | h1 <;> cases h1
      rw [hdn { s.line d.line with
        demand := { (s.line d.line).demand with round := (s.line d.line).demand.round || d.powered } } hoff]
      unfold State.powerUp
      rw [setLine_line_self, if_pos ⟨hoff, by simp [DemandSet.isEmpty, hp]⟩]
      unfold State.enterSettling
      simp only [modLine_line_self, setLine_line_self]
      rw [if_neg (by simp [hov])]
      unfold State.modLine
      rw [setLine_line_self, setLine_twice]
      unfold Line.roundStarted Line.poweringUp
      rw [if_pos hoff]
      simp [hp, hc]
  · have hdem : ∀ y : Line, y = { s.line d.line with
        demand := { (s.line d.line).demand with round := (s.line d.line).demand.round || d.powered } } → demandSound y := by
      rintro y rfl
      have hsup : (s.line d.line).supplied = true := by
        revert hf hoff
        cases h : (s.line d.line).power <;> simp [Line.supplied, h]
      refine demandSound_supplied hsup ?_
      unfold demandSound at hs
      rw [if_pos hsup] at hs
      rcases hs with h | h
      · left
        revert h
        simp only [DemandSet.isEmpty]
        cases (s.line d.line).demand.host <;> cases (s.line d.line).demand.round <;> cases (s.line d.line).demand.ask <;> simp
      · exact .inr h
    rw [powerDown_same (by rw [setLine_line_self]; exact hdem _ rfl),
      powerUp_same (by rw [setLine_line_self]; exact hdem _ rfl)]
    unfold Line.roundStarted
    rw [if_neg hoff]

end Sys2Proof.Machine
end

