-- ==== Sys2Proof/Laws/Faults.lean ====
section
/-! SUPPORT. What an operation on one line leaves alone on the others, and everything that fault handling leaves behind. -/

set_option Elab.async false

namespace Sys2Proof.Machine

variable {s : State} {k : Fin 4} {c : Fin 8}

/-! ### The end of a scan exchange -/

theorem scanEnd_none {ex : Exchange} {o : ExchOutcome} (h : (s.chain c).inFlight = false ∨ ex.orphan = true) :
    s.scanEnd c k ex o = s := by
  unfold State.scanEnd
  rw [if_neg]
  rcases h with h | h <;> simp [h]

theorem scanEnd_stopping {ex : Exchange} {o : ExchOutcome} (hi : (s.chain c).inFlight = true) (ho : ex.orphan = false)
    (hs : (s.chain c).state = .stopping) : s.scanEnd c k ex o = s.setChain c (s.chain c).gone := by
  unfold State.scanEnd
  rw [if_pos (by simp [hi, ho])]
  simp only [hs]
  rw [modChain_modChain]; rfl

theorem scanEnd_again {ex : Exchange} {o : ExchOutcome} (hi : (s.chain c).inFlight = true) (ho : ex.orphan = false)
    (hs : (s.chain c).state = .running) (hp : o = .preempted ∨ o = .lineFault) :
    s.scanEnd c k ex o =
      (s.setChain c { s.chain c with state := .held, position := none, inFlight := false }).setLine k
        ((s.line k).takeHeld { entry := ex.entry, reason := .again, owner := c }) := by
  unfold State.scanEnd
  rw [if_pos (by simp [hi, ho])]
  simp only [hs]
  have : ∀ r, ((s.modChain c fun ch => { ch with inFlight := false }).holdChain c k ex.entry r) =
      (s.setChain c { s.chain c with state := .held, position := none, inFlight := false }).setLine k
        ((s.line k).takeHeld { entry := ex.entry, reason := r, owner := c }) := by
    intro r
    unfold State.holdChain
    simp [State.modChain, State.modLine, State.setChain, State.setLine, State.chain, State.line]
  rcases hp with rfl | rfl <;> exact this _

/-! ### Other lines and other chains -/

/-- From `s` on, no other line than `k` and no other chain than `c`, which is on it, has changed. -/
def OnlyChain (s : State) (k : Fin 4) (c : Fin 8) (t : State) : Prop :=
  (t.chain c).onLine k = true ∧ (∀ j, j ≠ k → t.line j = s.line j) ∧ ∀ c', c' ≠ c → t.chain c' = s.chain c'

namespace OnlyChain

variable {t : State} (h : OnlyChain s k c t)
include h

theorem modChain (f : Chain → Chain) (hf : ∀ x : Chain, (f x).defn = x.defn := by intro _; rfl) :
    OnlyChain s k c (t.modChain c f) := by
  refine ⟨?_, h.2.1, fun c' e => ?_⟩
  · rw [modChain_chain_self, onLine_of_defn (hf _) k]; exact h.1
  · rw [modChain_chain_ne _ _ _ _ e]; exact h.2.2 c' e

theorem modLine (f : Line → Line) : OnlyChain s k c (t.modLine k f) :=
  ⟨h.1, fun j e => by rw [modLine_line_ne _ _ _ _ e]; exact h.2.1 j e, h.2.2⟩

theorem raise (a : AttnClass) (m : Nat) : OnlyChain s k c (t.raise a m) := h

theorem chainFault (r : FaultReason) : OnlyChain s k c (t.chainFault c r) := by
  refine ⟨?_, fun j e => ?_, fun c' e => ?_⟩
  · rw [chainFault_chain, if_pos rfl]; exact h.1
  · rw [chainFault_line, if_neg, h.2.1 j e]
    exact fun hh => e (onLine_unique hh.2 h.1)
  · rw [chainFault_chain, if_neg e]; exact h.2.2 c' e

theorem holdChain (e : Fin 128) (r : HeldReason) : OnlyChain s k c (t.holdChain c k e r) :=
  (h.modLine _).modChain _

theorem roundStart : OnlyChain s k c (t.roundStart c) := by
  obtain ⟨d, hd, hdl⟩ := onLine_iff.mp h.1
  unfold State.roundStart
  simp only [hd]
  split
  · exact h.chainFault _
  · split
    · rw [hdl]; exact (h.modLine _).modChain _
    · split
      · exact h.chainFault _
      · exact h.modChain _

theorem roundEnd : OnlyChain s k c (t.roundEnd c) := by
  obtain ⟨d, hd, -⟩ := onLine_iff.mp h.1
  have go : ∀ t2, OnlyChain s k c t2 → OnlyChain s k c (if d.period = 0 then t2.modChain c Chain.toIdle
      else if (t2.chain c).roundDue then
        (t2.modChain c fun ch => { ch with late := min Config.countLimit (ch.late + 1) }).roundStart c
      else t2.modChain c fun ch => { ch with state := .armed, position := none }) := by
    intro t2 h2
    split
    · exact h2.modChain _
    · split
      · exact OnlyChain.roundStart (h2.modChain _)
      · exact h2.modChain _
  unfold State.roundEnd
  simp only [hd]
  refine go _ ?_
  split
  · exact (h.modChain _).raise _ _
  · exact h.modChain _

theorem linkFollow (p : PlanEntry) : OnlyChain s k c (t.linkFollow c p) := by
  unfold State.linkFollow
  split
  · exact h.roundEnd
  · split
    · exact h.chainFault _
    · split
      · exact h
      · split
        · exact h.modChain _
        · exact h.chainFault _

theorem scanEnd (ex : Exchange) (o : ExchOutcome) : OnlyChain s k c (t.scanEnd c k ex o) := by
  have h1 := h.modChain fun ch => { ch with inFlight := false }
  unfold State.scanEnd
  split
  · simp only []
    split
    · exact h1.modChain _
    · split
      all_goals first | exact h1.holdChain _ _ | exact h1.linkFollow _
    all_goals exact h1
  · exact h

end OnlyChain

theorem OnlyChain.refl (h : (s.chain c).onLine k = true) : OnlyChain s k c s := ⟨h, fun _ _ => rfl, fun _ _ => rfl⟩

/-- An exchange of a chain is in flight on the line of that chain. -/
def ChainHere (s : State) (k : Fin 4) (ex : Exchange) : Prop :=
  ∀ c, ex.origin = .chain c → (s.chain c).inFlight = true → ex.orphan = false → (s.chain c).onLine k = true

theorem fileOrigin_line_ne {ex : Exchange} (h : ChainHere s k ex) (o : ExchOutcome) {j : Fin 4} (hj : j ≠ k) :
    (s.fileOrigin k ex o).line j = s.line j := by
  unfold State.fileOrigin
  split
  · rename_i c hc
    by_cases hn : (s.chain c).inFlight = false ∨ ex.orphan = true
    · rw [scanEnd_none hn]
    · push Not at hn
      exact ((OnlyChain.refl (h c hc (by simpa using hn.1) (by simpa using hn.2))).scanEnd ex o).2.1 j hj
  all_goals exact modLine_line_ne _ _ _ _ hj

theorem chainLineOff_line_ne (s : State) {j : Fin 4} (hj : j ≠ k) : (s.chainLineOff k).line j = s.line j := by
  unfold State.chainLineOff
  split
  · rename_i c hc
    have h := OnlyChain.refl (activeChain_some hc).2
    split
    · exact (h.chainFault _).2.1 j hj
    · exact (h.chainFault _).2.1 j hj
    all_goals rfl
  · rfl

theorem withdraw_line_ne (s : State) {j : Fin 4} (hj : j ≠ k) : (s.withdraw k).line j = s.line j := by
  have h1 : (s.syncRound k).line j = s.line j := modLine_line_ne _ _ _ _ hj
  unfold State.withdraw State.powerDown
  split
  · unfold State.enterOff
    rw [chainLineOff_line_ne _ hj, modLine_line_ne _ _ _ _ hj, closeBlock_line_ne _ hj, h1]
  · exact h1

theorem withdraw_store_ne (s : State) {j : Fin 4} (hj : j ≠ k) : (s.withdraw k).store j = s.store j := by
  unfold State.withdraw State.powerDown
  split
  · unfold State.enterOff
    have : ∀ t : State, (t.chainLineOff k).stores = t.stores := fun t => (stores_held t.stores).chainLineOff rfl k
    show (State.chainLineOff _ k).stores[j] = _
    rw [this]
    show ((s.syncRound k).closeBlock k).store j = _
    rw [closeBlock_store, if_neg hj]
    rfl
  · rfl

/-- Without injections the evaluation of the watches changes watches only, WATCH aside. -/
theorem evalQuiet_frame (s : State) (e : Fin 128) (o : ExchOutcome) (p : List Byte) :
    (∀ j, (s.evalWatches noInject e o p).line j = s.line j) ∧ (s.evalWatches noInject e o p).stores = s.stores ∧
      (s.evalWatches noInject e o p).chains = s.chains ∧ (s.evalWatches noInject e o p).plan = s.plan ∧
      (s.evalWatches noInject e o p).count = s.count :=
  evalWatches_kept (inject := noInject) (P := fun t => (∀ j, t.line j = s.line j) ∧ t.stores = s.stores ∧
      t.chains = s.chains ∧ t.plan = s.plan ∧ t.count = s.count)
    (fun _ _ _ h => h) (fun _ _ _ _ _ _ h => h) (fun _ _ _ _ h => h) ⟨fun _ => rfl, rfl, rfl, rfl, rfl⟩ e o p

theorem fileRecord_frame (s : State) (ex : Exchange) (o : ExchOutcome) :
    (∀ j, (s.fileRecord k ex o).line j = s.line j) ∧ (∀ j, j ≠ k → (s.fileRecord k ex o).store j = s.store j) ∧
      (s.fileRecord k ex o).chains = s.chains ∧ (s.fileRecord k ex o).plan = s.plan ∧
      (s.fileRecord k ex o).count = s.count := by
  unfold State.fileRecord
  split
  · refine ⟨fun j => by simp, fun j hj => by rw [offer_store, if_neg hj], by simp, by simp, by simp⟩
  · exact ⟨fun _ => rfl, fun _ _ => rfl, rfl, rfl, rfl⟩

/-- The state in which the filing of an exchange ended from outside reaches its chain. -/
def State.evaluated (s : State) (k : Fin 4) (ex : Exchange) (o : ExchOutcome) : State :=
  ((s.modLine k Line.freeEngine).fileRecord k ex o).evalWatches noInject ex.entry o ((ex.reply.map Reply.payload).getD [])

theorem fileQuiet_eq (s : State) (k : Fin 4) (ex : Exchange) (o : ExchOutcome) :
    s.fileQuiet k ex o = ((s.evaluated k ex o).fileOrigin k ex o).withdraw k := rfl

theorem evaluated_frame (s : State) (k : Fin 4) (ex : Exchange) (o : ExchOutcome) :
    (∀ j, j ≠ k → (s.evaluated k ex o).line j = s.line j ∧ (s.evaluated k ex o).store j = s.store j) ∧
      (s.evaluated k ex o).line k = (s.line k).freeEngine ∧ (s.evaluated k ex o).chains = s.chains ∧
      (s.evaluated k ex o).plan = s.plan ∧ (s.evaluated k ex o).count = s.count := by
  obtain ⟨a1, a2, a3, a4, a5⟩ := evalQuiet_frame ((s.modLine k Line.freeEngine).fileRecord k ex o) ex.entry o
    ((ex.reply.map Reply.payload).getD [])
  obtain ⟨b1, b2, b3, b4, b5⟩ := fileRecord_frame (k := k) (s.modLine k Line.freeEngine) ex o
  refine ⟨fun j hj => ⟨?_, ?_⟩, ?_, a3.trans b3, a4.trans b4, a5.trans b5⟩
  · exact (a1 j).trans ((b1 j).trans (modLine_line_ne _ _ _ _ hj))
  · show (State.evaluated s k ex o).stores[j] = _
    unfold State.evaluated
    rw [a2]; exact b2 j hj
  · exact (a1 k).trans ((b1 k).trans (modLine_line_self _ _ _))

/-- An outside ending leaves every other line and every other store. -/
theorem fileQuiet_other {ex : Exchange} (h : ChainHere s k ex) (o : ExchOutcome) {j : Fin 4} (hj : j ≠ k) :
    (s.fileQuiet k ex o).line j = s.line j ∧ (s.fileQuiet k ex o).store j = s.store j := by
  obtain ⟨h1, -, h3, -, -⟩ := evaluated_frame s k ex o
  have hc : ∀ c, (s.evaluated k ex o).chain c = s.chain c := fun c => congrArg (·[c]) h3
  rw [fileQuiet_eq, withdraw_line_ne _ hj, withdraw_store_ne _ hj,
    fileOrigin_line_ne (fun c a b d => by rw [hc] at b ⊢; exact h c a b d) o hj]
  refine ⟨(h1 j hj).1, ?_⟩
  show (State.fileOrigin _ k ex o).stores[j] = _
  rw [fileOrigin_stores]
  exact (h1 j hj).2

/-! ### Fault handling -/

/-- What a line in FAULT with nothing left of its supply, its engine and its block looks like. -/
structure Line.Dead (x y : Line) : Prop where
  power : x.power = .fault
  lnPwr : x.lnPwr = false
  lnDe : x.lnDe = false
  timer : x.settleTimer = .stopped
  engine : x.engine = .idle
  exch : x.exch = none
  block : x.block = []
  ovl : x.lnOvl = y.lnOvl
  settings : x.settings = y.settings
  queue : x.queue = y.queue

theorem afterFiling_dead (y : Line) : AfterFiling fun x => x.Dead y where
  take _ _ h := ⟨h.1, h.2, h.3, h.4, h.5, h.6, h.7, h.8, h.9, h.10⟩
  clear _ h := ⟨h.1, h.2, h.3, h.4, h.5, h.6, h.7, h.8, h.9, h.10⟩
  injected _ h := ⟨h.1, h.2, h.3, h.4, h.5, h.6, h.7, h.8, h.9, h.10⟩
  round _ _ h := ⟨h.1, h.2, h.3, h.4, h.5, h.6, h.7, h.8, h.9, h.10⟩
  off _ h hf := absurd h.1 hf
  block _ h := ⟨h.1, h.2, h.3, h.4, h.5, h.6, rfl, h.8, h.9, h.10⟩

/-- R94, step 1, with the closing of the block before it. -/
def State.faultStart (s : State) (k : Fin 4) : State :=
  (s.closeBlock k).modLine k fun x =>
    { x with power := .fault, lnPwr := false, lnDe := false, settleTimer := .stopped, engine := .idle, block := [],
             blockParity := false }

/-- R94, steps 3 and 4. -/
def State.faultQueueEnd (s : State) (k : Fin 4) : State :=
  ((s.line k).queue.foldl (State.faultQueued k) s).modLine k fun x => { x with queue := [], demand := DemandSet.empty }

theorem faultHandling_eq (s : State) (k : Fin 4) :
    s.faultHandling k =
      ((((s.faultStart k).faultExchange k).faultQueueEnd k).faultHold k).raise .lineFault k.val := rfl

theorem faultStart_frame (s : State) (k : Fin 4) :
    (∀ j, j ≠ k → (s.faultStart k).line j = s.line j ∧ (s.faultStart k).store j = s.store j) ∧
      (s.faultStart k).line k = { s.line k with
        power := .fault, lnPwr := false, lnDe := false, settleTimer := .stopped, engine := .idle, block := [],
        blockParity := false } ∧
      (s.faultStart k).store k = (s.blockRecords k).foldl Store.offered (s.store k) ∧
      (s.faultStart k).chains = s.chains ∧ (s.faultStart k).plan = s.plan ∧ (s.faultStart k).count = s.count := by
  have hcb : (s.closeBlock k).chains = s.chains ∧ (s.closeBlock k).plan = s.plan ∧ (s.closeBlock k).count = s.count := by
    unfold State.closeBlock
    split
    · exact ⟨rfl, rfl, rfl⟩
    · exact ⟨offer_chains _ _ _, offer_plan _ _ _, offer_count _ _ _⟩
  refine ⟨fun j hj => ⟨?_, ?_⟩, ?_, ?_, hcb⟩
  · unfold State.faultStart; rw [modLine_line_ne _ _ _ _ hj, closeBlock_line_ne _ hj]
  · unfold State.faultStart; rw [modLine_store, closeBlock_store, if_neg hj]
  · unfold State.faultStart; rw [modLine_line_self, closeBlock_line]
    split <;> rfl
  · unfold State.faultStart; rw [modLine_store, closeBlock_store, if_pos rfl]

theorem faultQueued_fold (k : Fin 4) (q : List Injected) (s : State) :
    (∀ j, (q.foldl (State.faultQueued k) s).line j = s.line j) ∧
      (∀ j, j ≠ k → (q.foldl (State.faultQueued k) s).store j = s.store j) ∧
      (q.foldl (State.faultQueued k) s).chains = s.chains ∧ (q.foldl (State.faultQueued k) s).plan = s.plan ∧
      (q.foldl (State.faultQueued k) s).count = s.count ∧
      (q.foldl (State.faultQueued k) s).store k = (q.filterMap fun x =>
        match s.entry x.entry with
        | some p => if p.policy.offers .lineFault then some (queuedRecord x p.station s.count) else none
        | none => none).foldl Store.offered (s.store k) := by
  induction q generalizing s with
  | nil => exact ⟨fun _ => rfl, fun _ _ => rfl, rfl, rfl, rfl, rfl⟩
  | cons x q ih =>
    have h1 : (∀ j, (State.faultQueued k s x).line j = s.line j) ∧
        (∀ j, j ≠ k → (State.faultQueued k s x).store j = s.store j) ∧ (State.faultQueued k s x).chains = s.chains ∧
        (State.faultQueued k s x).plan = s.plan ∧ (State.faultQueued k s x).count = s.count ∧
        (State.faultQueued k s x).store k =
          match (match s.entry x.entry with
            | some p => if p.policy.offers .lineFault then some (queuedRecord x p.station s.count) else none
            | none => none : Option Record) with
          | some r => (s.store k).offered r
          | none => s.store k := by
      unfold State.faultQueued
      cases he : s.entry x.entry with
      | none => exact ⟨fun _ => rfl, fun _ _ => rfl, rfl, rfl, rfl, rfl⟩
      | some p =>
        simp only []
        cases ho : p.policy.offers .lineFault
        · exact ⟨fun _ => rfl, fun _ _ => rfl, rfl, rfl, rfl, rfl⟩
        · refine ⟨fun j => offer_line _ _ _ _, fun j hj => ?_, offer_chains _ _ _, offer_plan _ _ _, offer_count _ _ _, ?_⟩
          · rw [if_pos rfl, offer_store, if_neg hj]
          · rw [if_pos rfl, offer_store, if_pos rfl]; rfl
    obtain ⟨a1, a2, a3, a4, a5, a6⟩ := ih (State.faultQueued k s x)
    obtain ⟨b1, b2, b3, b4, b5, b6⟩ := h1
    have hent : ∀ e, (State.faultQueued k s x).entry e = s.entry e := fun e => by unfold State.entry; rw [b4]
    refine ⟨fun j => (a1 j).trans (b1 j), fun j hj => (a2 j hj).trans (b2 j hj), a3.trans b3, a4.trans b4, a5.trans b5, ?_⟩
    rw [List.foldl_cons, a6, b6, List.filterMap_cons, b5]
    simp only [hent]
    split <;> rename_i hh <;> simp [hh]

/-- R94, step 2: the exchange in flight is filed. -/
theorem faultExchange_frame (s : State) (k : Fin 4) (hc : ∀ ex, (s.line k).exch = some ex → ChainHere s k ex) :
    let t := (s.faultStart k).faultExchange k
    (∀ j, j ≠ k → t.line j = s.line j ∧ t.store j = s.store j) ∧ (t.line k).Dead (s.line k) ∧
      t.store k = (s.blockRecords k ++ s.flightRecords k).foldl Store.offered (s.store k) ∧ t.plan = s.plan ∧
      t.count = s.count ∧ ∀ c, t.chain c = match (s.line k).exch with
        | some ex => (((s.faultStart k).evaluated k ex (ex.pendingEnd.getD .lineFault)).fileOrigin k ex
            (ex.pendingEnd.getD .lineFault)).chain c
        | none => s.chain c := by
  obtain ⟨a1, a2, a3, a4, a5, a6⟩ := faultStart_frame s k
  have hx : ((s.faultStart k).line k).exch = (s.line k).exch := by rw [a2]
  have hb : ((s.faultStart k).line k).block = [] := by rw [a2]
  have hch : ∀ c, (s.faultStart k).chain c = s.chain c := fun c => congrArg (·[c]) a4
  intro t
  have ht : t = (s.faultStart k).faultExchange k := rfl
  unfold State.faultExchange at ht
  rw [hx] at ht
  cases hex : (s.line k).exch with
  | none =>
    rw [hex] at ht
    simp only [] at ht
    rw [ht]
    refine ⟨a1, ?_, ?_, a5, a6, hch⟩
    · rw [a2]; exact ⟨rfl, rfl, rfl, rfl, rfl, hex, rfl, rfl, rfl, rfl⟩
    · rw [a3]; simp [State.flightRecords, hex]
  | some ex =>
    rw [hex] at ht
    simp only [] at ht
    rw [ht]
    have hhere : ChainHere (s.faultStart k) k ex := by
      intro c h1 h2 h3
      rw [hch] at h2 ⊢
      exact hc ex hex c h1 h2 h3
    have hline : (((s.faultStart k).fileQuiet k ex (ex.pendingEnd.getD .lineFault)).line k).Dead (s.line k) := by
      refine fileQuiet_line (R := fun x => x.Dead (s.line k)) (afterFiling_dead _) ?_ ex _
      rw [a2]
      exact ⟨rfl, rfl, rfl, rfl, rfl, rfl, rfl, rfl, rfl, rfl⟩
    obtain ⟨e1, -, e3, e4, e5⟩ := evaluated_frame (s.faultStart k) k ex (ex.pendingEnd.getD .lineFault)
    have hpl : ((s.faultStart k).fileQuiet k ex (ex.pendingEnd.getD .lineFault)).plan = (s.faultStart k).plan ∧
        ((s.faultStart k).fileQuiet k ex (ex.pendingEnd.getD .lineFault)).count = (s.faultStart k).count := by
      have := (sameConfig_kept (s.faultStart k) k).fileQuiet (SameConfig.refl _) ex (ex.pendingEnd.getD .lineFault)
      exact ⟨this.1, this.2.2.2.2.2.1⟩
    refine ⟨fun j hj => ?_, hline, ?_, hpl.1.trans a5, hpl.2.trans a6, fun c => ?_⟩
    · obtain ⟨h1, h2⟩ := fileQuiet_other hhere (ex.pendingEnd.getD .lineFault) hj
      exact ⟨h1.trans (a1 j hj).1, h2.trans (a1 j hj).2⟩
    · rw [(fileQuiet_freed hb ex _).2.2.2.2, List.foldl_append, ← a3, a6]
      unfold State.flightRecords
      rw [hex]
      simp only []
      split <;> rfl
    · rw [fileQuiet_eq]
      have hf : ((((s.faultStart k).evaluated k ex (ex.pendingEnd.getD .lineFault)).fileOrigin k ex
          (ex.pendingEnd.getD .lineFault)).line k).power = .fault := by
        refine (fileOrigin_line (afterFiling_dead (s.line k)) ?_ _ _).1
        rw [(evaluated_frame _ k ex _).2.1, a2]
        exact ⟨rfl, rfl, rfl, rfl, rfl, rfl, rfl, rfl, rfl, rfl⟩
      rw [withdraw_fault hf]
      rfl

theorem faultQueueEnd_frame (s : State) (k : Fin 4) :
    (∀ j, j ≠ k → (s.faultQueueEnd k).line j = s.line j ∧ (s.faultQueueEnd k).store j = s.store j) ∧
      (s.faultQueueEnd k).line k = { s.line k with queue := [], demand := DemandSet.empty } ∧
      (s.faultQueueEnd k).store k = (s.queuedRecords k).foldl Store.offered (s.store k) ∧
      (s.faultQueueEnd k).chains = s.chains := by
  obtain ⟨b1, b2, b3, -, -, b6⟩ := faultQueued_fold k (s.line k).queue s
  unfold State.faultQueueEnd
  refine ⟨fun j hj => ⟨?_, ?_⟩, ?_, ?_, b3⟩
  · rw [modLine_line_ne _ _ _ _ hj]; exact b1 j
  · rw [modLine_store]; exact b2 j hj
  · rw [modLine_line_self, b1 k]
  · rw [modLine_store]; exact b6

theorem faultHold_frame (s : State) (k : Fin 4) :
    (∀ j, j ≠ k → (s.faultHold k).line j = s.line j) ∧ (s.faultHold k).stores = s.stores := by
  refine ⟨fun j hj => ?_, (stores_held s.stores).faultHold rfl k⟩
  unfold State.faultHold
  split
  · split
    · split
      · rfl
      · rw [holdChain_line, if_neg hj]
    · rfl
  · rfl

/-- A dead line with no demand stays one under a hold. -/
theorem faultHold_dead {y : Line} (h : (s.line k).Dead y ∧ (s.line k).demand = DemandSet.empty) :
    ((s.faultHold k).line k).Dead y ∧ ((s.faultHold k).line k).demand = DemandSet.empty :=
  (line_held (R := fun x => x.Dead y ∧ x.demand = DemandSet.empty) k
    (fun _ _ hx => ⟨⟨hx.1.1, hx.1.2, hx.1.3, hx.1.4, hx.1.5, hx.1.6, hx.1.7, hx.1.8, hx.1.9, hx.1.10⟩, hx.2⟩)
    (fun _ hx => ⟨⟨hx.1.1, hx.1.2, hx.1.3, hx.1.4, hx.1.5, hx.1.6, hx.1.7, hx.1.8, hx.1.9, hx.1.10⟩, hx.2⟩)).faultHold h k

theorem queuedRecords_congr {t : State} (hp : t.plan = s.plan) (hc : t.count = s.count)
    (hq : (t.line k).queue = (s.line k).queue) : t.queuedRecords k = s.queuedRecords k := by
  have he : ∀ e, t.entry e = s.entry e := fun e => by unfold State.entry; rw [hp]
  unfold State.queuedRecords
  rw [hq, hc]
  simp only [he]

/-- R94: what fault handling leaves on its line, in the stores and on the other lines. -/
theorem faultHandling_frame (s : State) (k : Fin 4) (hc : ∀ ex, (s.line k).exch = some ex → ChainHere s k ex) :
    (∀ j, j ≠ k → (s.faultHandling k).line j = s.line j ∧ (s.faultHandling k).store j = s.store j) ∧
      ((s.faultHandling k).line k).Dead { s.line k with queue := [] } ∧
      ((s.faultHandling k).line k).demand = DemandSet.empty ∧
      (s.faultHandling k).store k =
        (s.blockRecords k ++ s.flightRecords k ++ s.queuedRecords k).foldl Store.offered (s.store k) ∧
      ((s.faultHandling k).attn.set .lineFault).getLsbD k.val = true := by
  have ha := faultExchange_frame s k hc
  rw [faultHandling_eq]
  generalize (s.faultStart k).faultExchange k = t at ha ⊢
  obtain ⟨a1, a2, a3, a4, a5, -⟩ := ha
  obtain ⟨b1, b2, b3, -⟩ := faultQueueEnd_frame t k
  rw [queuedRecords_congr a4 a5 a2.10, a3, ← List.foldl_append] at b3
  have b4 : ((t.faultQueueEnd k).line k).Dead { s.line k with queue := [] } ∧
      ((t.faultQueueEnd k).line k).demand = DemandSet.empty := by
    rw [b2]
    exact ⟨⟨a2.1, a2.2, a2.3, a2.4, a2.5, a2.6, a2.7, a2.8, a2.9, rfl⟩, rfl⟩
  generalize t.faultQueueEnd k = u at b1 b2 b3 b4 ⊢
  obtain ⟨c1, c2⟩ := faultHold_frame u k
  have c3 := faultHold_dead b4
  generalize u.faultHold k = v at c1 c2 c3 ⊢
  have hst : ∀ j, v.store j = u.store j := fun j => congrArg (·[j]) c2
  refine ⟨fun j hj => ⟨?_, ?_⟩, c3.1, c3.2, ?_, ?_⟩
  · rw [raise_line, c1 j hj, (b1 j hj).1, (a1 j hj).1]
  · rw [raise_store, hst, (b1 j hj).2, (a1 j hj).2]
  · rw [raise_store, hst, b3]
  · rw [(raise_gained v .lineFault k.val).1 k.val]
    simp
    omega

/-- R94, step 5, and R62. -/
theorem faultHold_chain (s : State) (k : Fin 4) (h : s.activeChain k = some c) :
    s.faultHold k = match (s.chain c).state, (s.chain c).position with
      | .running, some p => if (s.chain c).inFlight then s else s.holdChain c k p .next
      | _, _ => s := by
  unfold State.faultHold
  rw [h]
  try rfl

end Sys2Proof.Machine
end

