-- ==== Sys2Proof/Laws/Requests.lean ====
section
/-! SUPPORT. Once for all commands: a property kept by the smallest changes of `Kept`, by those that only a request or a reset
makes, and by the Link Port and the Time Base, is kept by every command. -/

set_option Elab.async false

namespace Sys2Proof.Machine

/-- The property survives every change that a command can make. -/
structure KeptByAll (P : State → Prop) : Prop where
  events : KeptOnAll P
  entry : ∀ s e x, P s → P (s.setEntry e x)
  define : ∀ s c d, P s → P (s.setChain c (Chain.fresh d))
  watches : ∀ s w x, P s → P (s.setWatch w x)
  settings : ∀ s l x, P s → P (s.setSettings l x)
  dropOldest : ∀ s l, P s → P (s.dropOldest l)
  clearStore : ∀ s l, P s → P (s.clearStore l)
  retract : ∀ s c d, c ≠ .storeLevel → P s → P (s.retract c d)
  mask : ∀ s m, P s → P (s.setMask m)
  link : ∀ s k, k.rstHeld = s.link.rstHeld → P s → P (s.setLink k)
  count : ∀ s n, P s → P { s with count := n }
  restarted : ∀ s, P s → P s.restarted
  powerOn : ∀ b v q, P (State.powerOn b v q)

namespace KeptByAll

variable {P : State → Prop} (A : KeptByAll P) {s : State} (h : P s)
include A h

theorem process (r : Request) : P (process r s).1 := by
  have K := A.events
  cases r <;> simp only [Machine.process]
  case ident => exact h
  case restart => exact h
  case notice => exact h
  case noticeAck c d =>
    unfold doNoticeAck
    split
    · exact h
    · split
      · exact h
      · split
        · exact h
        · exact A.retract _ _ _ (by assumption) h
  case maskSet =>
    unfold doMaskSet
    split
    · exact A.mask _ _ h
    · exact h
  case lineSet =>
    unfold doLineSet
    split
    · split
      · exact h
      · exact A.settings _ _ _ h
    · exact h
  case lineRead => unfold doLineRead; split <;> exact h
  case linePower =>
    unfold doLinePower
    split
    · exact (K _).linePowerOn h
    · exact (K _).linePowerOff h
    · exact h
  case lineResume =>
    unfold doLineResume
    split
    · exact h
    · split
      · exact (K _).resume h
      · exact h
  case exchangeAbort =>
    unfold doExchangeAbort
    split
    · exact h
    · split
      · exact h
      · exact (K _).endOutside h _
  case planWrite =>
    unfold doPlanWrite
    split
    · split
      · exact h
      · exact A.entry _ _ _ h
    · exact h
  case planRead =>
    unfold doPlanRead
    split
    · exact h
    · split <;> exact h
  case planErase =>
    unfold doPlanErase
    split
    · exact h
    · split
      · exact h
      · split
        · exact h
        · exact A.entry _ _ _ h
  case chainSet =>
    unfold doChainSet
    split
    · split
      · exact h
      · exact A.define _ _ _ h
    · exact h
  case chainRead => unfold doChainRead; split <;> exact h
  case chainStart =>
    unfold doChainStart
    split
    · exact h
    · split
      · exact h
      · split
        · exact h
        · split
          · exact h
          · exact (K _).startChain h _
  case chainStop =>
    unfold doChainStop
    split
    · exact h
    · exact K.stopChain h _
  case chainAbort =>
    unfold doChainAbort
    split
    · exact h
    · exact K.abortChain h _
  case ask =>
    unfold doAsk
    split
    · exact Kept.askAt h _ _ _ fun _ _ => K _
    · exact h
  case askCancel =>
    unfold doAskCancel
    split
    · exact h
    · split
      · exact h
      · split
        · exact h
        · exact (K _).cancelAsk h _
  case queueRead => unfold doQueueRead; split <;> exact h
  case fetch =>
    unfold doFetch
    split
    · split
      · exact h
      · simp only []
        split
        · exact A.dropOldest _ _ h
        · exact h
    · exact h
  case release =>
    unfold doRelease
    split
    · split
      · exact h
      · split
        · exact A.dropOldest _ _ h
        · exact h
    · exact h
  case storeClear =>
    unfold doStoreClear
    split
    · exact A.clearStore _ _ h
    · exact h
  case watchWrite =>
    unfold doWatchWrite
    split
    · exact A.watches _ _ _ h
    · exact h
  case watchRead =>
    unfold doWatchRead
    split
    · exact h
    · split <;> exact h
  case watchErase =>
    unfold doWatchErase
    split
    · exact h
    · split
      · exact h
      · exact A.watches _ _ _ h
  case valuesRead => unfold doValuesRead; split <;> exact h

theorem takeRequest (m : Message) : P (takeRequest m s) := by
  unfold Machine.takeRequest
  split
  · exact A.link _ _ rfl h
  · exact A.link _ _ rfl h
  · exact A.link _ _ rfl (A.process h _)

theorem handOver (m : Message) : P (handOver m s) := by
  unfold Machine.handOver
  split
  · exact h
  · split
    · exact A.takeRequest h m
    · split
      · exact A.link _ _ rfl h
      · exact (A.events 0).raise _ _ _ (by decide) (by decide) h

theorem frameComplete (len : Byte) (kept : List Byte) : P (frameComplete len kept s) := by
  have h1 : P s.rxSearch := A.link _ _ rfl h
  unfold Machine.frameComplete
  simp only []
  split
  · exact (A.events 0).raise _ _ _ (by decide) (by decide) h1
  · split
    · exact A.handOver h1 _
    · exact h1

theorem judgeHostChar (b : Byte) : P (judgeHostChar b s) := by
  unfold Machine.judgeHostChar
  split
  · split
    · exact A.link _ _ rfl h
    · exact h
  · split
    · exact A.link _ _ rfl h
    · exact (A.events 0).raise _ _ _ (by decide) (by decide) (A.link _ _ rfl h)
  · split
    · exact A.frameComplete h _ _
    · exact A.link _ _ rfl h

theorem hostCharacter (b : Byte) (m : CharMoment) {t : State} (he : execHostCharacterReceived b m s = .next t) : P t := by
  cases he
  split
  · exact h
  · split
    · exact A.link _ _ rfl h
    · refine A.judgeHostChar ?_ _
      exact A.link _ _ rfl h

omit h in
/-- A property that says nothing of the Link Port holds while RST# is asserted. -/
theorem resetHeld (hl : ∀ t k, P t → P (t.setLink k)) : P s.resetHeld := hl _ _ (A.powerOn _ _ _)

theorem resets {e : ResetEvent} (ha : e = .rstAsserted → P s.resetHeld) {t : State} (he : execPowerOnReset e s = .next t) :
    P t := by
  cases he
  split
  · exact ha rfl
  · split
    · exact A.powerOn _ _ _
    · exact h
  · exact A.powerOn _ _ _

theorem restartIfDue : P s.restartIfDue := by
  unfold State.restartIfDue
  split
  · exact A.restarted _ h
  · exact h
  · exact h

theorem nextRequest : P s.nextRequest := by
  unfold State.nextRequest
  split
  · refine A.takeRequest ?_ _
    exact A.link _ _ rfl h
  · exact A.link _ _ rfl h

end KeptByAll

/-! ### Events of chains and lines -/

/-- What an event of a chain or a line keeps. -/
theorem lineEvent_kept {P : State → Prop} (K : KeptOnAll P) {s t : State} (h : P s) {c : Instr} (hc : lineEvent c = true)
    (he : exec c s = .next t) : P t := by
  cases c <;> simp only [lineEvent, Bool.false_eq_true] at hc <;> cases he
  case roundTimerExpiry =>
    split
    · exact K.roundExpiry h _
    · exact h
  case settleTimerExpiry =>
    split
    · exact (K _).onLine _ h
    · exact h
  case schedulerChoice =>
    split
    · exact (K _).choose h
    · exact h
  case gapWaitComplete =>
    split
    · exact (K _).onLine _ h
    · exact h
  case backoffComplete =>
    split
    · exact (K _).onLine _ h
    · exact h
  case characterSent l r =>
    split
    · refine K.judgeSent ((K _).onLine _ h ?_) _ _ _
      intro x
      unfold Line.readBack
      split <;> rfl
    · exact h
  case startBitDetected =>
    split
    · exact h
    · refine (K _).onLine _ h ?_
      intro x
      unfold Line.startBit
      split <;> rfl
  case replyTimerExpiry =>
    split
    · split
      · exact K.failAttempt h _ _ _
      · exact h
    · exact h
  case lineCharacterReceived =>
    split
    · exact h
    · exact K.judgeReceived ((K _).onLine _ h) _ _
  case gapLimitExpiry =>
    split
    · split
      · exact K.failAttempt h _ _ _
      · exact h
    · exact h
  case captureIdleClose =>
    split
    · exact (K _).closeBlock h
    · exact h
  case overload =>
    split
    · exact (K _).faultHandling ((K _).onLine _ h)
    · exact (K _).onLine _ h
  case lnrxReturnToIdleLevel => exact (K _).onLine _ h

/-- What every command keeps; the assertion of RST# is the one command that changes `rstHeld` to held. -/
theorem exec_kept {P : State → Prop} (A : KeptByAll P) {s t : State} (h : P s) {c : Instr}
    (ha : c = .powerOnReset .rstAsserted → P s.resetHeld) (he : exec c s = .next t) : P t := by
  cases hr : requestOf c with
  | some m =>
    rw [exec_request hr] at he
    cases he
    exact A.handOver h m
  | none =>
    cases hl : lineEvent c with
    | true => exact lineEvent_kept A.events h hl he
    | false =>
      cases c <;> simp only [requestOf, lineEvent, reduceCtorEq, Bool.true_eq_false] at hr hl
      case watchWrite inj => cases inj <;> simp at hr
      case powerOnReset => exact A.resets h (fun e => ha (e ▸ rfl)) he
      case hostCharacterReceived => exact A.hostCharacter h _ _ he
      all_goals cases he
      case none.false.partRestart.refl => exact A.restartIfDue h
      case none.false.hostTimeout.refl =>
        split
        · exact (A.events 0).raise _ _ _ (by decide) (by decide) (A.link _ _ rfl h)
        · exact h
      case none.false.replyEnd.refl =>
        split
        · exact h
        · exact A.restartIfDue h
        · exact A.nextRequest h
      case none.false.timeBaseIncrement.refl => exact A.count _ _ h
      case none.false.hrxReturnToIdleLevel.refl => exact A.link _ _ rfl h

end Sys2Proof.Machine
end

