-- ==== Sys2Proof/Laws/Held.lean ====
section
/-! SUPPORT. The part while RST# is asserted (R160): what an event of a chain or a line leaves of a part at rest, and which commands
change the level of RST#. -/

namespace Sys2Proof.Machine

/-- A change of one line that leaves it quiet leaves the part at rest. -/
theorem State.atRest.modLine {s : State} (h : s.atRest) {l : Fin 4} {f : Line → Line}
    (hf : (s.line l).quiet → (f (s.line l)).quiet) : (s.modLine l f).atRest := by
  refine ⟨fun k => ?_, h.2⟩
  by_cases hk : k = l
  · subst hk
    have := hf (h.1 k)
    simpa [modLine_line] using this
  · rw [modLine_line_ne _ _ _ _ hk]
    exact h.1 k

/-- No event of a chain or a line sets a part at rest to work. -/
theorem lineEvent_atRest {c : Instr} {s t : State} (h : s.atRest) (hc : lineEvent c = true) (he : exec c s = .next t) :
    t.atRest := by
  have hq := h.1
  cases c <;> simp only [lineEvent, Bool.false_eq_true] at hc <;> cases he
  case roundTimerExpiry c => simpa [h.2.1 c, chainCleared, Timer.due] using h
  case settleTimerExpiry l => simpa [(hq l).1] using h
  case schedulerChoice l => simpa [Line.free, (hq l).1] using h
  case gapWaitComplete l n =>
    obtain ⟨-, -, -, -, -, -, -, he, -, -, -, -, -⟩ := hq l
    simpa [Line.waitOver, he] using h
  case backoffComplete l n =>
    obtain ⟨-, -, -, -, -, -, -, he, -, -, -, -, -⟩ := hq l
    simpa [Line.waitOver, he] using h
  case characterSent l n =>
    obtain ⟨-, -, -, -, -, -, -, he, -, hx, -, -, -⟩ := hq l
    simpa [he, hx] using h
  case replyTimerExpiry l =>
    obtain ⟨-, -, -, -, -, -, -, he, -, hx, -, -, -⟩ := hq l
    simpa [he, hx] using h
  case gapLimitExpiry l n =>
    obtain ⟨-, -, -, -, -, -, -, -, -, hx, -, -, -⟩ := hq l
    simpa [hx] using h
  case captureIdleClose l n =>
    obtain ⟨-, -, -, -, -, -, -, he, -, -, -, -, -⟩ := hq l
    simpa [Line.waitOver, he] using h
  case startBitDetected l =>
    split
    · exact h
    · refine h.modLine fun q => ?_
      obtain ⟨q1, q2, q3, q4, q5, q6, q7, q8, q9, q10, q11, q12, q13⟩ := q
      unfold Line.startBit
      rw [if_neg (by simp [q8])]
      exact ⟨q1, q2, q3, q4, q5, q6, q7, q8, q9, q10, q11, q12, q13⟩
  case lineCharacterReceived l c =>
    split
    · exact h
    · have h1 : (s.modLine l fun x => x.received c).atRest := h.modLine fun q => q
      obtain ⟨-, -, -, -, -, -, -, he, -, -, -, -, -⟩ := h1.1 l
      unfold State.judgeReceived
      simpa only [he] using h1
  case overload l a =>
    rw [if_neg (by simp [(hq l).1])]
    exact h.modLine fun q => q
  case lnrxReturnToIdleLevel l => exact h.modLine fun q => q

/-- A power-on reset leaves the part at rest. -/
theorem powerOn_atRest (spd : Bool) (ovl : Vector Bool 4) (q : List Instr) : (State.powerOn spd ovl q).atRest := by
  have hl : ∀ l, (State.powerOn spd ovl q).line l = Line.fresh LineSettings.default ovl[l] := by
    simp [State.powerOn, State.line]
  refine ⟨fun l => ?_, fun c => ?_, fun c => ?_, rfl⟩
  · rw [hl]
    exact ⟨rfl, rfl, rfl, rfl, rfl, rfl, rfl, rfl, rfl, rfl, rfl, rfl, rfl⟩
  · simp [State.powerOn, State.chain, Chain.fresh, chainCleared]
  · cases c <;> simp [State.powerOn, Attention.fresh, Attention.set, Attention.isMasked]

theorem resetHeld_atRest (s : State) : s.resetHeld.atRest :=
  powerOn_atRest s.link.highSpeed (Vector.ofFn fun l => (s.line l).lnOvl) s.pending

/-- RST# stays released through every change but its own assertion. -/
theorem rstReleased_kept : KeptByAll fun s => s.link.rstHeld = false where
  events := keptOnAll (fun _ _ _ _ _ h => h) (fun _ _ _ h => by simpa using h) (fun _ _ _ _ h => h) (fun _ _ _ _ h => h)
    fun _ _ _ _ _ _ h => h
  entry _ _ _ h := h
  define _ _ _ h := h
  watches _ _ _ h := h
  settings _ _ _ h := by unfold State.setSettings; rw [judgeLevel_eq]; exact h
  dropOldest _ _ h := by unfold State.dropOldest; rw [judgeLevel_eq]; exact h
  clearStore _ _ h := by unfold State.clearStore; rw [judgeLevel_eq]; exact h
  retract _ _ _ _ h := h
  mask _ _ h := h
  link _ _ hk h := hk.trans h
  count _ _ h := h
  restarted _ h := h
  powerOn _ _ _ := rfl

/-- While RST# is released only its assertion changes that. -/
theorem exec_rstReleased {c : Instr} {s t : State} (h : s.link.rstHeld = false) (hc : c ≠ .powerOnReset .rstAsserted)
    (he : exec c s = .next t) : t.link.rstHeld = false :=
  exec_kept rstReleased_kept h (fun e => absurd e hc) he

end Sys2Proof.Machine
end

