-- ==== Sys2Proof/Tests/Slice0.lean ====
section
/-! SUPPORT. The model's own tests: ill-formed commands, check values and frames of the spec, single steps taken from the
spec's worked sequences, and for every obligation with hypotheses one theorem that meets them in small states. -/

open Sys2Proof Sys2Proof.Machine

namespace Sys2Proof.Tests

set_option Elab.async false

/-! ### Helpers -/

/-- The state a command leaves. -/
def after (c : Instr) (s : State) : State :=
  match exec c s with
  | .next t => t
  | .fault _ => s
  | .refused _ => s

/-- The state after a request and the end of its reply. -/
def answered (s : State) (c : Instr) : State := after .replyEnd (after c s)

/-- The body of the reply that is being sent. -/
def replyBody (s : State) : List Byte :=
  match s.link.transmitter with
  | .idle => []
  | .sending f _ => (f.drop 4).dropLast.dropLast

/-- A byte sent clean on a line. -/
def sendClean (l : Fin 4) (s : State) (b : Byte) : State := after (.characterSent l (some (cleanChar b))) s

/-- A byte received clean on a line. -/
def receiveClean (l : Fin 4) (s : State) (b : Byte) : State := after (.lineCharacterReceived l (cleanChar b)) s

/-- A line powered and settled. -/
def settled (l : Fin 4) (s : State) : State := after (.settleTimerExpiry l) { s with count := s.count + 500 }

/-- Entry 40 as written. -/
def entry40 : PlanEntry :=
  { line := 2, station := 12, control := 0x31, payload := [0xAB, 0xCD], replyLimit := 64, timeout := 25, retries := 2,
    policy := .always, link := some 41 }

/-- Entry 60 as written. -/
def entry60 : PlanEntry :=
  { line := 2, station := 20, control := 0x31, payload := [], replyLimit := 64, timeout := 25, retries := 0,
    policy := .failures, link := none }

/-- The exchange of entry 40 at its start. -/
def exchange40 : Exchange := freshExchange entry40 40 (.chain 1) false 0 true

/-- Chain 1 as defined. -/
def chain1 : ChainDef := { line := 2, head := 40, period := 100, powered := true, notify := true }

/-- The reply frame of station 12 in round 2 of the worked zone sequence, 290 in payload bytes 2 and 3. -/
def reply40 : List Byte := [0x5B, 12, 0x81, 4, 0, 0, 0x22, 0x01] ++ crcBytes [12, 0x81, 4, 0, 0, 0x22, 0x01]

/-! ### Small states: the plan on line 2 of the poll plan chapter, followed from step to step -/

/-- Chains 1 and 2 and entries 40, 41, 42 and 60 of line 2, which is ON under a HOST demand. -/
def meters : State :=
  settled 2 ([Instr.planWrite 1 40 2 12 0x31 64 25 2 0 41 2 [0xAB, 0xCD],
    .planWrite 1 41 2 13 0x31 64 25 2 0 42 2 [0xAB, 0xCD],
    .planWrite 1 42 2 0 0x40 1 1 0 2 0xFF 6 [1, 2, 3, 4, 5, 6],
    .planWrite 1 60 2 20 0x31 64 25 0 1 0xFF 0 [],
    .watchWrite 1 6 40 2 0 16 1 150 280 20 3 (some (60, 0)),
    .chainSet 1 1 2 40 100 1 1, .chainSet 1 2 2 50 0 0 0, .linePowerOn 1 2].foldl answered State.reset)

/-- Chain 1 is RUNNING at entry 40. -/
def scanning : State := answered meters (.chainStart 1 1)

/-- The exchange of entry 40 is in GAP-WAIT. -/
def gapWaiting : State := after (.schedulerChoice 2) scanning

/-- It is in SENDING. -/
def sending : State := after (.gapWaitComplete 2 44) gapWaiting

/-- The frame but for its last character has been sent. -/
def lastByte : State := (requestFrame entry40).dropLast.foldl (sendClean 2) sending

/-- It is in AWAITING. -/
def awaiting : State := ((requestFrame entry40).drop 7).foldl (sendClean 2) lastByte

/-- It is in RECEIVING, all but the last character of a 4-byte reply being in. -/
def receiving : State :=
  reply40.dropLast.foldl (receiveClean 2) awaiting

/-- The exchange has ended OK; watch 6 has injected entry 60 and the chain stands at 41. -/
def replied : State := (reply40.drop 9).foldl (receiveClean 2) receiving

/-- An URGENT request for 60 has preempted the exchange of 40; chain 1 is HELD with reason AGAIN. -/
def heldAgain : State := answered gapWaiting (.ask 1 60 0)

/-- The injected exchange of 60 is in flight while the chain is HELD. -/
def injected : State := after (.schedulerChoice 2) heldAgain

/-- An overload has struck during the exchange of 40. -/
def faulted : State := after (.overload 2 true) gapWaiting

/-- The same, the overload being over. -/
def cooled : State := after (.overload 2 false) faulted

/-- Line 3 is ON and listening in blocks of 16 bytes, one byte being in the block. -/
def listening : State :=
  receiveClean 3 (settled 3 ([Instr.lineSet 1 3 1 2 4 3 10 0 1 0, .linePowerOn 1 3].foldl answered State.reset)) 0x41

/-- Its block has closed: store 3 holds one record. -/
def captured : State := after (.captureIdleClose 3 110) listening

/-- A reply is being sent and the slot is EMPTY. -/
def busyLink : State := after (.notice 13) State.reset

/-- A reply is being sent and the slot is FULL. -/
def fullSlot : State := after (.lineRead 11 2) busyLink

/-- RST# is asserted while the exchange of 40 is in SENDING and a reply is being sent. -/
def heldReset : State := after (.powerOnReset .rstAsserted) (after (.notice 13) sending)

/-- The host's receiver is in a given state inside a frame. -/
def inFrame (r : Receiver) : State :=
  { State.reset with link := { State.reset.link with receiver := r, rxTimer := .running 0 10 } }

/-! ### Well-formed commands -/

theorem test_wf_planWrite_too_long :
    (Instr.planWrite 1 0 0 1 0 1 1 0 0 0xFF 239 (List.replicate 239 0)).wf = false := by decide +kernel

theorem test_wf_planWrite_longest :
    (Instr.planWrite 1 0 0 1 0 1 1 0 0 0xFF 238 (List.replicate 238 0)).wf = true := by decide +kernel

theorem test_wf_unknownKind_known : (Instr.unknownKind 0x22 1 [5]).wf = false := by decide +kernel

theorem test_wf_unknownKind_too_long : (Instr.unknownKind 0x06 1 (List.replicate 249 0)).wf = false := by decide +kernel

theorem test_wf_unknownKind : (Instr.unknownKind 0x06 1 (List.replicate 248 0)).wf = true := by decide +kernel

/-! ### Codes, frames and check values -/

/-- R162's example. -/
theorem test_check_value : crcBytes [0x31, 0x32, 0x33, 0x34, 0x35, 0x36, 0x37, 0x38, 0x39] = [0x29, 0xB1] := by
  decide +kernel

/-- R19: even parity. -/
theorem test_parity : cleanChar 0x07 = { data := 0x07, parity := true, stop := true } ∧
    faultyChar { data := 0x03, parity := true, stop := true } = true := by decide +kernel

/-- R161: least significant byte first. -/
theorem test_byte_order : le32 0x01020304 = [4, 3, 2, 1] ∧ ofLe16 0x34 0x12 = 0x1234 := by decide +kernel

/-- R126's example: width 12 at offset 3 and start bit 4 takes the upper bits of byte 3 and all of byte 4. -/
theorem test_field : Watch.rawField
    { entry := 0, offset := 3, startBit := 4, width := 12, signed := false, low := 0, high := 0, hysteresis := 0,
      action := .none, zone := .unknown, value := 0, valueTime := 0, status := .never, lastAction := .none }
    [0, 0, 0, 0x5A, 0xBC] = 0xBC5 := by decide +kernel

/-- R158: what IDENT says after power-on reset. -/
theorem test_ident : replyBody (after (.ident 9) State.reset) =
    [0, 0x44, 0x4B, 8, 4, 3, 0, 0, 0, 0, 0, 0, 4, 128, 8, 32, 8, 32, 0x00, 0x08] := by decide +kernel

/-! ### Steps of the worked sequences -/

theorem test_planWrite : meters.entry 40 = some entry40 := by decide +kernel

theorem test_planWrite_payload_of_17_refused :
    replyBody (after (.planWrite 1 9 0 1 0 1 1 0 0 0xFF 17 (List.replicate 17 0)) State.reset) = [0x14] := by
  decide +kernel

theorem test_planErase_in_use : replyBody (after (.planErase 1 40) gapWaiting) = [0x10] := by decide +kernel

theorem test_chainStart : (scanning.chain 1).state = .running ∧ (scanning.chain 1).position = some 40 ∧
    (scanning.chain 1).timer = .running 500 10000 ∧ (scanning.line 2).demand.code = 0x03 := by decide +kernel

theorem test_schedulerChoice : (gapWaiting.line 2).exch = some exchange40 ∧ (gapWaiting.line 2).engine = .gapWait ∧
    (gapWaiting.chain 1).taken = 1 := by decide +kernel

theorem test_gapWaitComplete : (sending.line 2).engine = .sending ∧ (sending.line 2).lnDe = true := by decide +kernel

theorem test_characterSent : (awaiting.line 2).engine = .awaiting ∧ (awaiting.line 2).lnDe = false ∧
    (awaiting.line 2).replyTimer = .running 500 250 := by decide +kernel

/-- Step 4 of the worked collision: the readback of a character differs. -/
theorem test_collision : ((after (.characterSent 2 (some (cleanChar 0x5B))) sending).line 2).engine = .backoff := by
  decide +kernel

/-- Round 2 of the worked zone sequence: 290 is above 280, so WATCH is raised and 60 appended URGENT. -/
theorem test_reply_and_watch :
    (replied.watch 6).map (fun w => (w.value, w.zone, w.status, w.lastAction)) = some (290, .high, .fresh, .queued) ∧
      (replied.line 2).queue =
        [{ entry := 60, level := .urgent, origin := .watch 6, merged := 0, arrival := 500 }] ∧
      replied.attn.set .watch = 0x40 ∧ (replied.chain 1).position = some 41 ∧ (replied.store 2).records.length = 1 := by
  decide +kernel

/-- The record as FETCH gives it (R166). -/
theorem test_fetch : replyBody (after (.fetch 1 2) replied) =
    [0, 1, 0, 0, 0, 0, 1, 40, 12, 0, 1, 0, 0x18, 0, 0xF4, 1, 0, 0, 0x81, 4, 0, 0, 0x22, 1] := by decide +kernel

/-- A character with a parity error breaks reception off and the retry begins. -/
theorem test_bad_frame :
    ((after (.lineCharacterReceived 2 { data := 0x22, parity := true, stop := true }) receiving).line 2).exch.map
      (fun ex => (ex.attempts, ex.kept)) = some (2, []) := by decide +kernel

theorem test_preempted : (heldAgain.chain 1).state = .held ∧
    (heldAgain.line 2).held = some { entry := 40, reason := .again, owner := 1 } ∧
    (heldAgain.store 2).records.map Record.outcome = [.preempted] := by decide +kernel

theorem test_ask_reply : replyBody (after (.ask 1 60 0) gapWaiting) = [0, 0, 0, 0] := by decide +kernel

theorem test_overload : (faulted.line 2).power = .fault ∧ (faulted.chain 1).state = .held ∧
    faulted.attn.set .lineFault = 4 := by decide +kernel

theorem test_capture : (captured.store 3).records.map (fun r => (r.kind, r.payload)) = [(.capture, some [0x41])] ∧
    captured.attn.set .storeLevel = 8 := by decide +kernel

/-- R94, R63: MASK-SET with only CHAIN-DONE masked, then the overload: ATTN# is asserted. -/
theorem test_attention : (after (.overload 2 true) (answered gapWaiting (.maskSet 1 0x10))).attn.asserted = true := by
  decide +kernel

/-- Steps 2 and 3 of the worked link sequence: the second request waits, the third is discarded with OVERRUN. -/
theorem test_slot : fullSlot.link.slot = some { kind := 0x11, tag := 11, body := [2] } ∧
    (after (.queueRead 12 2) fullSlot).attn.set .linkError = 8 := by decide +kernel

/-- A NOTICE frame arriving character by character is taken. -/
theorem test_host_frame : ((hostFrame 0x03 13 []).foldl (fun s b => after (.hostCharacterReceived b (.stopBit true)) s)
    State.reset).link.transmitter = busyLink.link.transmitter := by decide +kernel

/-- R153: a start bit taken first stops the timer, so the expiry that meets it discards nothing. -/
theorem test_host_start_bit :
    (after .hostTimeout (after (.hostCharacterReceived 3 .startBit) { inFrame .length with count := 10 })).link.receiver =
      .length ∧
    (after .hostTimeout { inFrame .length with count := 10 }).link.receiver = .search := by decide +kernel

/-- R160: while RST# is asserted nothing is received and no request is taken; the release reads SPD. -/
theorem test_reset_held :
    (heldReset.link.rstHeld = true ∧ heldReset.link.transmitter = .idle ∧ (heldReset.line 2).lnDe = false) ∧
    after (.hostCharacterReceived 0xA6 (.stopBit true)) heldReset = heldReset ∧ after (.ident 1) heldReset = heldReset ∧
    (after (.powerOnReset (.rstReleased true)) heldReset).link.highSpeed = true ∧
    after (.powerOnReset (.rstReleased true)) sending = sending := by decide +kernel

theorem test_timeBase_wraps : (after .timeBaseIncrement { State.reset with count := 0xFFFFFFFF }).count = 0 := by
  decide +kernel

/-! ### The states are sound -/

/-- `partSound`, part by part. -/
def checked (s : State) : Bool :=
  decide (∀ l, lineShape (s.line l)) && decide (∀ l, demandSound (s.line l)) &&
    (List.finRange 4).all (fun l => (s.line l).exch.all fun ex =>
      decide (1 ≤ ex.attempts ∧ ex.attempts ≤ 1 + ex.copy.retries ∧
        ex.collisions ≤ (s.line l).settings.collisionBudget) &&
        ex.pendingEnd.all fun o => decide ((s.line l).engine = .sending ∧ (o = .preempted ∨ o = .aborted))) &&
    decide (oneActive s) && decide (holdSound s) && decide (flightSound s) && decide (∀ c,
      chainSound (s.chain c) = true) &&
    decide (demandTrue s) && decide (useSound s)

theorem sound_of_checked {s : State} (h : checked s = true) : partSound s := by
  simp only [checked, Bool.and_eq_true, decide_eq_true_eq, List.all_eq_true] at h
  obtain ⟨⟨⟨⟨⟨⟨⟨⟨h1, h2⟩, h3⟩, h4⟩, h5⟩, h6⟩, h7⟩, h8⟩, h9⟩ := h
  refine ⟨fun l => ⟨h1 l, h2 l, fun ex hex => ?_⟩, ⟨h4, h5, h6, h7⟩, h8, h9⟩
  have := h3 l (List.mem_finRange l)
  rw [hex] at this
  simp only [Option.all_some, Bool.and_eq_true, decide_eq_true_eq] at this
  refine ⟨this.1.1, this.1.2.1, this.1.2.2, fun o ho => ?_⟩
  have h := this.2
  rw [ho] at h
  simpa using h

theorem sound_meters : partSound meters := sound_of_checked (by decide +kernel)

theorem sound_scanning : partSound scanning := sound_of_checked (by decide +kernel)

theorem sound_gapWaiting : partSound gapWaiting := sound_of_checked (by decide +kernel)

theorem sound_sending : partSound sending := sound_of_checked (by decide +kernel)

theorem sound_lastByte : partSound lastByte := sound_of_checked (by decide +kernel)

theorem sound_receiving : partSound receiving := sound_of_checked (by decide +kernel)

theorem sound_heldAgain : partSound heldAgain := sound_of_checked (by decide +kernel)

theorem sound_injected : partSound injected := sound_of_checked (by decide +kernel)

theorem sound_cooled : partSound cooled := sound_of_checked (by decide +kernel)

theorem sound_listening : partSound listening := sound_of_checked (by decide +kernel)

/-! ### For every obligation with hypotheses, states and operands that meet them -/

theorem ready_of {s : State} (h : decide s.ready = true) : s.ready := of_decide_eq_true h

theorem exec_after (c : Instr) (s : State) : exec c s = .next (after c s) := by cases c <;> rfl

theorem step_after (c : Instr) (s : State) : step { s with pending := [c] } = .next (after c { s with pending := [] })
  :=
  exec_after c _

theorem witness_StepRunsTheFrontCommand :
    ({ State.reset with pending := [.timeBaseIncrement] } : State).pending = Instr.timeBaseIncrement :: [] ∧
      State.reset.pending = [] := ⟨rfl, rfl⟩

theorem witness_PowerOnResetClearsEveryBlock :
    sending.link.rstHeld = false ∧ heldReset.link.rstHeld = true ∧
      requestOf (.notice 13) = some { kind := 0x03, tag := 13, body := [] } := by decide +kernel

theorem witness_RestartTakesEffectAtTheEndOfItsReply :
    State.reset.ready ∧ (after (.restart 7) State.reset).link.transmitter = .sending (hostFrame 0x82 7 [0]) true ∧
      ∀ f, State.reset.link.transmitter ≠ .sending f true :=
  ⟨ready_of (by decide +kernel), by decide +kernel, fun _ h => nomatch (h : Transmitter.idle = .sending _ true)⟩

theorem witness_UnknownKindOrWrongLengthIsOnlyAnswered :
    (State.reset.ready ∧ (0x06 : Byte) ∉ knownKinds) ∧
      let s := after (.lineRead 11 2) busyLink;
      ∃ f, s.link.transmitter = .sending f false ∧ s.link.slot = some { kind := 0x11, tag := 11, body := [2] } ∧
        (0x11 : Byte) ∈ knownKinds ∧ lengthFits 0x11 [2] = true ∧ lengthFits 0x11 [2, 0] = false ∧
        let t := { s with link := { s.link with slot := some { kind := 0x11, tag := 11, body := [2, 0] } } };
        t.link.transmitter = .sending f false ∧ t.link.slot = some { kind := 0x11, tag := 11, body := [2, 0] } :=
  ⟨⟨ready_of (by decide +kernel), by decide⟩, hostFrame 0x83 13 [0, 0xFF, 0, 0, 0, 0, 0, 0x7F], by decide +kernel⟩

theorem witness_RequestWaitsForTheReplyAhead :
    requestOf (.queueRead 12 2) = some { kind := 0x42, tag := 12, body := [2] } ∧
      (∃ f, busyLink.link.transmitter = .sending f false ∧ fullSlot.link.transmitter = .sending f false) ∧
      busyLink.link.slot = none ∧ fullSlot.link.slot = some { kind := 0x11, tag := 11, body := [2] } ∧
      busyLink.link.rstHeld = false ∧ fullSlot.link.rstHeld = false :=
  ⟨rfl, ⟨hostFrame 0x83 13 [0, 0xFF, 0, 0, 0, 0, 0, 0x7F], by decide +kernel⟩, by decide +kernel⟩

theorem witness_ReplyEndTakesTheWaitingRequest :
    (∃ f, busyLink.link.transmitter = .sending f false ∧ fullSlot.link.transmitter = .sending f false) ∧
      busyLink.link.slot = none ∧ requestOf (.lineRead 11 2) = some { kind := 0x11, tag := 11, body := [2] } ∧
      fullSlot.link.slot = some { kind := 0x11, tag := 11, body := [2] } ∧ fullSlot.link.rstHeld = false :=
  ⟨⟨hostFrame 0x83 13 [0, 0xFF, 0, 0, 0, 0, 0, 0x7F], by decide +kernel⟩, by decide +kernel⟩

theorem held_heldReset : heldSound heldReset := fun _ => by
  refine ⟨by decide +kernel, by decide +kernel, by decide +kernel, by decide +kernel, fun l => ?_, by decide +kernel,
    fun c => ?_, by decide +kernel⟩
  · have h : heldReset.line l = Line.fresh LineSettings.default false := by revert l; decide +kernel
    rw [h]
    exact ⟨rfl, rfl, rfl, rfl, rfl, rfl, rfl, rfl, rfl, rfl, rfl, rfl, rfl⟩
  · cases c <;> decide +kernel

theorem witness_SlotIsEmptyWhileTheTransmitterIsIdle :
    (let s := { fullSlot with pending := [.replyEnd] };
      linkSound s.link ∧ step s = .next (after .replyEnd { fullSlot with pending := [] }) ∧ fullSlot.link.slot ≠ none) ∧
    heldSound { heldReset with pending := [.overload 2 true] } ∧ heldReset.link.rstHeld = true ∧
      step { heldReset with pending := [.overload 2 true] } =
        .next (after (.overload 2 true) { heldReset with pending := [] }) :=
  ⟨⟨by decide +kernel, step_after .replyEnd fullSlot, by decide +kernel⟩, held_heldReset, by decide +kernel,
    step_after _ heldReset⟩

theorem witness_HostReceiverBuildsFrames :
    (State.reset.link.waitIdle = false ∧ State.reset.link.rstHeld = false ∧ State.reset.link.receiver = .search) ∧
      ((inFrame .length).link.waitIdle = false ∧ (inFrame .length).link.rstHeld = false ∧
        (inFrame .length).link.receiver = .length ∧
        (2 ≤ (2 : Byte).toNat ∧ (2 : Byte).toNat ≤ 250) ∧ (2 ≤ (250 : Byte).toNat ∧ (250 : Byte).toNat ≤ 250) ∧
        (1 : Byte).toNat < 2 ∧ 250 < (251 : Byte).toNat) ∧
      ((inFrame (.collect 2 [3, 4])).link.receiver = .collect 2 [3, 4] ∧
        ([3, 4] : List Byte).length + 1 < (2 : Byte).toNat + 2) ∧
      (let s := { inFrame .length with count := 10 };
        s.link.receiver ≠ .search ∧ s.link.rxTimer = .running 0 10 ∧ 10 ≤ (s.count - 0).toNat) ∧
      (let s := { inFrame .length with count := 9 };
        s.link.receiver = .search ∨ s.link.rxTimer.due s.count = false) := by decide +kernel

/-- The content of a frame that asks NOTICE under tag 13, but for its last character. -/
def noticeKept : List Byte := ([0x03, 13] ++ crcBytes [2, 0x03, 13]).dropLast

theorem witness_CompleteFrameIsCheckedAndHandedOver :
    let s := inFrame (.collect 2 noticeKept);
    let b : Byte := (crc [2, 0x03, 13]).extractLsb' 0 8;
    s.link.waitIdle = false ∧ s.link.rstHeld = false ∧ s.link.receiver = .collect 2 noticeKept ∧
      noticeKept.length + 1 = (2 : Byte).toNat + 2 ∧
      requestOf (.notice 13) = some { kind := 0x03, tag := 13, body := [] } ∧
      noticeKept ++ [b] = (0x03 :: 13 :: []) ++ crcBytes (2 :: 0x03 :: 13 :: []) ∧
      (noticeKept ++ [b + 1]).drop (2 : Byte).toNat ≠ crcBytes (2 :: (noticeKept ++ [b + 1]).take (2 : Byte).toNat) :=
        by
  decide +kernel

theorem witness_ReceiverWaitsForTheIdleLevel :
    (after (.hostCharacterReceived 0 (.stopBit false)) State.reset).link.waitIdle = true ∧
      ((after (.lineCharacterReceived 1 { data := 0, parity := false, stop := false }) State.reset).line 1).waitIdle =
        true := by decide +kernel

theorem witness_NoticeShowsTheHighestClassAndBothSets :
    State.reset.ready ∧ (∀ d : AttnClass, State.reset.attn.set d = 0 ∨ State.reset.attn.isMasked d = true) ∧
      let s := answered (State.reset.raise .chainFault 7) (.maskSet 1 0x7D);
      s.ready ∧ s.attn.set .chainFault ≠ 0 ∧ s.attn.isMasked .chainFault = false ∧
        ∀ d : AttnClass, d.idx < AttnClass.chainFault.idx → s.attn.set d = 0 ∨ s.attn.isMasked d = true :=
  ⟨ready_of (by decide +kernel), fun d => by cases d <;> decide +kernel, ready_of (by decide +kernel),
    by decide +kernel, by decide +kernel,
    fun d => by cases d <;> decide +kernel⟩

theorem witness_NoticeAckRemovesTheMembersCarried :
    State.reset.ready ∧ 7 ≤ (7 : Byte).toNat ∧ (0 : Byte) = finByte AttnClass.lineFault.idx ∧
      2 ^ AttnClass.lineFault.members ≤ (0x10 : Word).toNat ∧ (0xF : Word).toNat < 2 ^ AttnClass.lineFault.members ∧
      (3 : Byte) = finByte AttnClass.watch.idx ∧ (0xFFFFFFFF : Word).toNat < 2 ^ AttnClass.watch.members :=
  ⟨ready_of (by decide +kernel), by decide +kernel⟩

theorem witness_MaskSetReplacesTheWholeMask :
    State.reset.ready ∧ 128 ≤ (128 : Byte).toNat ∧ (127 : Byte).toNat < 128 := ⟨ready_of (by decide +kernel), by decide⟩

theorem witness_EveryStepKeepsAttentionSound :
    attentionSound { captured with pending := [.storeClear 1 3] } ∧
      step { captured with pending := [.storeClear 1 3] } = .next (after (.storeClear 1 3) { captured with pending :=
        [] }) :=
  ⟨by decide +kernel, step_after _ captured⟩

theorem witness_LineSetReplacesTheSettings :
    (meters.ready ∧ 3 < (4 : Byte).toNat ∧ 1 < (2 : Byte).toNat ∧ (1 : Byte).toNat < 2 ∧ 20 < (21 : Byte).toNat ∧
        7 < (8 : Byte).toNat ∧ 100 < (101 : Byte).toNat ∧ 32 < (33 : Byte).toNat) ∧
      (let x : LineSettings :=
        { mode := .listen, baud := .b38400, gapLimit := 20, collisionBudget := 7, settleSteps := 100, autoPower := true,
          storeThreshold := 32, blockSize := .b128 };
        (1 : Byte) = x.mode.code ∧ (3 : Byte) = x.baud.code ∧ (20 : Byte).toNat = x.gapLimit ∧
          (7 : Byte).toNat = x.collisionBudget ∧ (100 : Byte).toNat = x.settleSteps ∧
            (1 : Byte) = boolByte x.autoPower ∧
          (32 : Byte).toNat = x.storeThreshold ∧ (3 : Byte) = x.blockSize.code ∧ 2 ≤ x.gapLimit ∧ x.gapLimit ≤ 20 ∧
          x.collisionBudget ≤ 7 ∧ 1 ≤ x.settleSteps ∧ x.settleSteps ≤ 100 ∧ x.storeThreshold ≤ 32) ∧
      (2 : Byte) = finByte (2 : Fin 4) ∧ (meters.line 2).power ≠ .off ∧
      (meters.line 0).power = .off ∧ (∀ c, (meters.chain c).onLine 0 = true → (meters.chain c).active = false) ∧
      ∃ c, (scanning.chain c).active = true ∧ (scanning.chain c).onLine 2 = true :=
  ⟨⟨ready_of (by decide +kernel), by decide +kernel⟩, by decide +kernel⟩

theorem witness_LineReadShowsTheLine :
    gapWaiting.ready ∧ 3 < (4 : Byte).toNat ∧ (3 : Byte) = finByte (3 : Fin 4) := ⟨ready_of (by decide +kernel),
      by decide⟩

/-- LnOVL# is asserted on line 0, which is OFF. -/
def shorted : State := after (.overload 0 true) State.reset

theorem witness_LinePowerOnAddsTheHostDemand :
    (faulted.ready ∧ (faulted.line 2).power = .fault) ∧ (meters.ready ∧ (meters.line 2).power = .on) ∧
      ((State.reset.line 3).power = .off ∧ (State.reset.line 3).lnOvl = false) ∧
      (shorted.ready ∧ (shorted.line 0).power = .off ∧ (shorted.line 0).lnOvl = true) ∧ 3 < (4 : Byte).toNat ∧
      (3 : Byte) = finByte (3 : Fin 4) :=
  ⟨⟨ready_of (by decide +kernel), by decide +kernel⟩, ⟨ready_of (by decide +kernel), by decide +kernel⟩,
    by decide +kernel, ⟨ready_of (by decide +kernel), by decide +kernel⟩, by decide⟩

/-- Chain 3, without powered rounds, is started on line 2. -/
def unpowered : State :=
  [Instr.chainSet 1 3 2 40 0 0 0, .chainStart 1 3].foldl answered meters

theorem witness_LinePowerOffRemovesTheHostDemand :
    (State.reset.ready ∧ (State.reset.line 3).power = .off ∧ 3 < (4 : Byte).toNat) ∧
      (cooled.ready ∧ (cooled.line 2).power = .fault ∧ partSound cooled ∧ cooled.activeChain 2 = some 1) ∧
      (unpowered.ready ∧ (unpowered.line 2).power = .on ∧ (unpowered.chain 3).defn =
        some { line := 2, head := 40, period := 0, powered := false, notify := false } ∧
        (unpowered.chain 3).state ≠ .idle) ∧
      (scanning.ready ∧ (scanning.line 2).power = .on ∧ partSound scanning ∧ (scanning.line 2).demand.round = true ∧
        (∀ c d, (scanning.chain c).defn = some d → d.line = 2 → d.powered = false → (scanning.chain c).state = .idle) ∧
        ∀ ex c, (scanning.line 2).exch = some ex → ex.origin = .chain c → ex.powered = true) ∧
      (meters.ready ∧ (meters.line 2).power = .on ∧ partSound meters ∧ (meters.line 2).demand.round = false ∧
        (meters.line 2).demand.ask = false ∧
        (∀ c d, (meters.chain c).defn = some d → d.line = 2 → d.powered = false → (meters.chain c).state = .idle) ∧
        ∀ ex c, (meters.line 2).exch = some ex → ex.origin = .chain c → ex.powered = true) := by
  refine ⟨⟨ready_of (by decide +kernel), by decide +kernel⟩, ⟨ready_of (by decide +kernel), by decide +kernel,
    sound_cooled, by decide +kernel⟩, ⟨ready_of (by decide +kernel), by decide +kernel⟩,
    ⟨ready_of (by decide +kernel), by decide +kernel, sound_scanning, by decide +kernel, ?_, ?_⟩,
    ⟨ready_of (by decide +kernel), by decide +kernel, sound_meters, by decide +kernel, by decide +kernel, ?_, ?_⟩⟩
  · have h : ∀ c, (scanning.chain c).state = .idle ∨ (scanning.chain c).isPowered = true := by decide +kernel
    intro c d hd _ hp
    rcases h c with h | h
    · exact h
    · simp [Chain.isPowered, hd, hp] at h
  · have h : (scanning.line 2).exch = none := by decide +kernel
    intro ex c hx
    rw [h] at hx
    cases hx
  · have h : ∀ c, (meters.chain c).state = .idle := by decide +kernel
    exact fun c _ _ _ _ => h c
  · have h : (meters.line 2).exch = none := by decide +kernel
    intro ex c hx
    rw [h] at hx
    cases hx

theorem sound_faulted : partSound faulted := sound_of_checked (by decide +kernel)

theorem witness_LineResumeLeavesFault :
    (meters.ready ∧ (meters.line 2).power ≠ .fault ∧ 3 < (4 : Byte).toNat) ∧
      (cooled.ready ∧ (cooled.line 2).power = .fault ∧ partSound cooled ∧ (cooled.line 2).lnOvl = false) ∧
      (faulted.ready ∧ (faulted.line 2).power = .fault ∧ (faulted.line 2).lnOvl = true ∧ partSound faulted ∧
        (faulted.chain 1).state = .held ∧ (faulted.chain 1).onLine 2 = true) :=
  ⟨⟨ready_of (by decide +kernel), by decide +kernel⟩, ⟨ready_of (by decide +kernel), by decide +kernel, sound_cooled,
    by decide +kernel⟩, ⟨ready_of (by decide +kernel), by decide +kernel, by decide +kernel, sound_faulted,
    by decide +kernel⟩⟩

theorem witness_ExchangeAbortEndsTheExchangeInFlight :
    (meters.ready ∧ (meters.line 2).exch = none ∧ 3 < (4 : Byte).toNat) ∧
      (sending.ready ∧ (sending.line 2).exch = some exchange40 ∧ (sending.line 2).engine = .sending) ∧
      (gapWaiting.ready ∧ (gapWaiting.line 2).exch = some exchange40 ∧ (gapWaiting.line 2).engine ≠ .sending ∧
        linesSound gapWaiting) :=
  ⟨⟨ready_of (by decide +kernel), by decide +kernel⟩, ⟨ready_of (by decide +kernel), by decide +kernel⟩,
    ⟨ready_of (by decide +kernel), by decide +kernel, by decide +kernel, sound_gapWaiting.1⟩⟩

/-- Line 0 has just been powered up. -/
def settling : State := answered State.reset (.linePowerOn 1 0)

theorem witness_SettleTimerExpiryEntersOn :
    (let s := { settling with count := 500 };
      (s.line 0).power = .settling ∧ (s.line 0).settleTimer = .running 0 500 ∧ 500 ≤ (s.count - 0).toNat) ∧
      (let s := { settling with count := 499 };
        (s.line 0).power ≠ .settling ∨ (s.line 0).settleTimer.due s.count = false) := by decide +kernel

/-- The queued element of a PROMPT request for 60. -/
def asked60 : Injected := { entry := 60, level := .prompt, origin := .host, merged := 0, arrival := 500 }

/-- A request for 60 is queued at PROMPT while the exchange of 40 is in flight. -/
def queued : State := answered gapWaiting (.ask 1 60 1)

theorem sound_queued : partSound queued := sound_of_checked (by decide +kernel)

theorem sound_replied : partSound replied := sound_of_checked (by decide +kernel)

/-- The chain has been told to stop while its exchange is in flight. -/
def stopping : State := answered gapWaiting (.chainStop 1 1)

theorem sound_stopping : partSound stopping := sound_of_checked (by decide +kernel)

theorem witness_OverloadStopsAllWorkOnTheLine :
    ((State.reset.line 0).power = .off ∧ (faulted.line 2).power = .fault) ∧
      ((queued.line 2).power = .on ∧ partSound queued ∧ queued.activeChain 2 = some 1 ∧
        (queued.chain 1).state = .running ∧ (queued.chain 1).inFlight = true ∧
        (queued.line 2).exch = some exchange40 ∧ exchange40.pendingEnd ≠ some .aborted ∧ (queued.line 2).queue ≠ []) ∧
      ((scanning.line 2).power = .on ∧ partSound scanning ∧ scanning.activeChain 2 = some 1 ∧
        (scanning.chain 1).state = .running ∧ (scanning.chain 1).inFlight = false ∧
        (scanning.chain 1).position = some 40) ∧
      (partSound stopping ∧ stopping.activeChain 2 = some 1 ∧ (stopping.chain 1).state = .stopping) ∧
      partSound heldAgain ∧ heldAgain.activeChain 2 = some 1 ∧ (heldAgain.chain 1).state = .held :=
  ⟨by decide +kernel, ⟨by decide +kernel, sound_queued, by decide +kernel⟩,
    ⟨by decide +kernel, sound_scanning, by decide +kernel⟩, ⟨sound_stopping, by decide +kernel⟩, sound_heldAgain,
    by decide +kernel⟩

/-- The exchange of 40 is in SENDING with a pending ABORTED, and its entry links to `link`. -/
def aborting (link : Option (Fin 128)) : State :=
  (sending.setEntry 40 (some { entry40 with link })).setLine 2 { sending.line 2 with
    exch := some { exchange40 with copy := { entry40 with link }, pendingEnd := some .aborted } }

/-- The chain has these fields. -/
def abortingChain (link : Option (Fin 128)) (d : ChainDef) (taken : Nat) (roundDue : Bool) : State :=
  (aborting link).setChain 1 { sending.chain 1 with defn := some d, taken, roundDue }

theorem aborting_answered : aborting (some 41) = answered sending (.exchangeAbort 1 2) := by decide +kernel

/-- The pending ABORTED of an overload: the link is followed, is gone, or the chain has taken 128 entries; the round ends with
period 0, with no round due, with one due, and with one due whose head is gone. -/
theorem witness_OverloadEndsAPendingAbort :
    (∀ p ∈ [(some 41, chain1, 127, false), (some 41, chain1, 128, false), (some 43, chain1, 1, false),
        (none, { chain1 with period := 0 }, 1, false), (none, chain1, 1, false), (none, chain1, 1, true),
        (none, { chain1 with head := 43 }, 1, true)],
      let s := abortingChain p.1 p.2.1 p.2.2.1 p.2.2.2;
      checked s = true ∧ (s.line 2).power = .on ∧ s.activeChain 2 = some 1 ∧ (s.chain 1).state = .running ∧
        (s.chain 1).inFlight = true ∧ (s.line 2).exch.bind Exchange.pendingEnd = some .aborted ∧
        (s.line 2).exch.map (fun ex => ex.copy.link) = some p.1 ∧ (s.chain 1).defn = some p.2.1 ∧
        s.entryOn 41 2 = true ∧ s.entryOn 43 2 = false ∧ s.entryOn 40 2 = true) := by decide +kernel

theorem witness_PlanWriteDefinesAnEntryNotInUse :
    (gapWaiting.ready ∧ ([1, 2] : List Byte).length ≠ (3 : Byte).toNat ∧
        127 < (128 : Byte).toNat ∧ 16 < (List.replicate 17 (0 : Byte)).length ∧ 3 < (4 : Byte).toNat ∧
        250 < (251 : Byte).toNat ∧ 200 < (201 : Byte).toNat ∧ 7 < (8 : Byte).toNat ∧ 2 < (3 : Byte).toNat ∧
        (127 < (128 : Byte).toNat ∧ (128 : Byte) ≠ 0xFF)) ∧
      (let p : PlanEntry :=
        { line := 3, station := 250, control := 0xFF, payload := List.replicate 16 0, replyLimit := 200, timeout := 255,
          retries := 7, policy := .never, link := some 127 };
        (127 : Byte) = finByte (127 : Fin 128) ∧ (3 : Byte) = finByte p.line ∧ (250 : Byte) = p.station ∧
          (List.replicate 16 (0 : Byte)).length = (16 : Byte).toNat ∧ (200 : Byte).toNat = p.replyLimit ∧
          (255 : Byte).toNat = p.timeout ∧ (7 : Byte).toNat = p.retries ∧ (2 : Byte) = p.policy.code ∧
          (∀ k, p.link = some k → (127 : Byte) = finByte k) ∧ p.link ≠ none ∧ p.payload.length ≤ 16 ∧
          p.station.toNat ≤ 250 ∧ 1 ≤ p.replyLimit ∧ p.replyLimit ≤ 200 ∧ 1 ≤ p.timeout ∧ p.retries ≤ 7) ∧
      gapWaiting.entryUsed 40 ∧ ¬ gapWaiting.entryUsed 127 := by
  refine ⟨⟨ready_of (by decide +kernel), by decide⟩, by decide +kernel, ⟨entry40, by decide +kernel, .inl ⟨exchange40,
    by decide +kernel, rfl⟩⟩, ?_⟩
  rintro ⟨p, hp, -⟩
  rw [show gapWaiting.entry 127 = none by decide +kernel] at hp
  cases hp

theorem witness_PlanReadShowsTheEntry :
    gapWaiting.ready ∧ 127 < (128 : Byte).toNat ∧ (127 : Byte) = finByte (127 : Fin 128) ∧ gapWaiting.entry 127 = none ∧
      gapWaiting.entry 40 = some entry40 := ⟨ready_of (by decide +kernel), by decide +kernel⟩

theorem witness_PlanEraseFreesAnEntryNotInUse :
    gapWaiting.ready ∧ 127 < (128 : Byte).toNat ∧ gapWaiting.entry 127 = none ∧ gapWaiting.entryUsed 40 ∧
      meters.ready ∧ meters.entry 40 ≠ none ∧ ¬ meters.entryUsed 40 := by
  refine ⟨ready_of (by decide +kernel), by decide, by decide +kernel, ⟨entry40, by decide +kernel, .inl ⟨exchange40,
    by decide +kernel, rfl⟩⟩, ready_of (by decide +kernel),
    by decide +kernel, ?_⟩
  rintro ⟨p, hp, h⟩
  rw [show meters.entry 40 = some entry40 by decide +kernel] at hp
  cases hp
  have h1 : (meters.line entry40.line).exch = none := by decide +kernel
  have h2 : (meters.line entry40.line).held = none := by decide +kernel
  have h3 : (meters.line entry40.line).queue = [] := by decide +kernel
  rcases h with ⟨_, h, _⟩ | ⟨_, h, _⟩ | ⟨_, h, _⟩
  · rw [h1] at h; cases h
  · rw [h2] at h; cases h
  · rw [h3] at h; cases h

theorem witness_ChainSetDefinesAnIdleChain :
    (scanning.ready ∧ 7 < (8 : Byte).toNat ∧ 3 < (4 : Byte).toNat ∧ 127 < (128 : Byte).toNat ∧ 1 < (2 : Byte).toNat) ∧
      (1 : Byte) = finByte (1 : Fin 8) ∧ (2 : Byte) = finByte chain1.line ∧ (40 : Byte) = finByte chain1.head ∧
      (100 : Half) = chain1.period ∧ (1 : Byte) = boolByte chain1.powered ∧ (1 : Byte) = boolByte chain1.notify ∧
      (scanning.chain 1).state ≠ .idle ∧ meters.ready ∧ (meters.chain 1).state = .idle :=
  ⟨⟨ready_of (by decide +kernel), by decide⟩, by decide, by decide, by decide, rfl, rfl, rfl, by decide +kernel,
    ready_of (by decide +kernel), by decide +kernel⟩

theorem witness_ChainReadShowsTheDescriptor :
    heldAgain.ready ∧ 7 < (8 : Byte).toNat ∧ (7 : Byte) = finByte (7 : Fin 8) := ⟨ready_of (by decide +kernel),
      by decide⟩

/-- Chain 2 of the plan has its head gone: entry 50 is UNUSED. Line 2 is OFF, and so is line 0 with LnOVL# asserted. -/
def startable : State :=
  [Instr.overload 0 true, .planWrite 1 9 0 1 0 1 1 0 0 0xFF 0 [], .chainSet 1 4 0 9 0 1 0,
    .chainSet 1 5 0 9 0 0 0].foldl
    (fun s c => after .replyEnd (after c s)) State.reset

theorem sound_startable : partSound startable := sound_of_checked (by decide +kernel)

theorem witness_ChainStartStartsARound :
    (scanning.ready ∧ 7 < (8 : Byte).toNat ∧ (scanning.chain 7).defn = none ∧ (scanning.chain 1).defn = some chain1 ∧
        (scanning.chain 1).state ≠ .idle) ∧
      (startable.ready ∧ partSound startable ∧
        (startable.chain 5).defn = some { line := 0, head := 9, period := 0, powered := false, notify := false } ∧
        (startable.chain 5).state = .idle ∧ (∀ c',
          (startable.chain c').onLine 0 = true → (startable.chain c').state = .idle) ∧
        (startable.line 0).power = .off ∧
        (startable.chain 4).defn = some { line := 0, head := 9, period := 0, powered := true, notify := false } ∧
        (startable.chain 4).state = .idle ∧ (startable.line 0).settings.mode = .framed ∧
        startable.entryOn 9 0 = true ∧ (startable.line 0).lnOvl = true) ∧
      (meters.ready ∧ partSound meters ∧ (meters.chain 1).defn = some chain1 ∧ (meters.chain 1).state = .idle ∧
        (∀ c', (meters.chain c').onLine 2 = true → (meters.chain c').state = .idle) ∧
        (meters.line 2).settings.mode = .framed ∧ (meters.line 2).power ≠ .fault ∧ (meters.line 2).power ≠ .off ∧
        meters.entryOn 40 2 = true ∧
        (meters.chain 2).defn = some { line := 2, head := 50, period := 0, powered := false, notify := false } ∧
        (meters.chain 2).state = .idle ∧ meters.entryOn 50 2 = false) :=
  ⟨⟨ready_of (by decide +kernel), by decide +kernel⟩, ⟨ready_of (by decide +kernel), sound_startable,
    by decide +kernel⟩, ⟨ready_of (by decide +kernel), sound_meters, by decide +kernel⟩⟩

/-- Chain 4 alone keeps line 0 supplied: it is RUNNING with powered rounds and no exchange in flight. -/
def alone : State :=
  [Instr.planWrite 1 9 0 1 0 1 1 0 0 0xFF 0 [], .chainSet 1 4 0 9 100 1 0, .chainStart 1 4].foldl answered State.reset

theorem sound_alone : partSound alone := sound_of_checked (by decide +kernel)

/-- The chain has ended its round and waits for its next. -/
def armed : State :=
  { scanning.setChain 1 { scanning.chain 1 with state := .armed, position := none } with
    lines := scanning.lines.set 2 { scanning.line 2 with demand := { host := true, round := false, ask := false } } }

theorem sound_armed : partSound armed := sound_of_checked (by decide +kernel)

theorem witness_ChainStopByTheStateOfTheChain :
    (gapWaiting.ready ∧ 7 < (8 : Byte).toNat ∧ (gapWaiting.chain 1).state = .running ∧
        (gapWaiting.chain 1).inFlight = true) ∧
      (stopping.ready ∧ (stopping.chain 1).state = .stopping ∧ (stopping.chain 7).state = .idle) ∧
      (heldAgain.ready ∧ (heldAgain.chain 1).defn = some chain1 ∧ partSound heldAgain ∧
        (heldAgain.chain 1).state = .held) ∧
      (scanning.ready ∧ partSound scanning ∧ (scanning.chain 1).state = .running ∧
        (scanning.chain 1).inFlight = false) ∧
      (armed.ready ∧ partSound armed ∧ (armed.chain 1).state = .armed ∧ (armed.line 2).demand.host = true) ∧
      (alone.ready ∧ partSound alone ∧ (alone.chain 4).state = .running ∧ (alone.chain 4).inFlight = false ∧
        (alone.line 0).demand = { host := false, round := true, ask := false } ∧ (alone.line 0).exch = none ∧
        (alone.line 0).power = .settling) :=
  ⟨⟨ready_of (by decide +kernel), by decide +kernel⟩, ⟨ready_of (by decide +kernel), by decide +kernel⟩,
    ⟨ready_of (by decide +kernel), by decide +kernel, sound_heldAgain, by decide +kernel⟩,
    ⟨ready_of (by decide +kernel), sound_scanning, by decide +kernel⟩,
    ⟨ready_of (by decide +kernel), sound_armed, by decide +kernel⟩,
    ready_of (by decide +kernel), sound_alone, by decide +kernel⟩

theorem witness_ChainAbortEndsTheExchangeOfTheChain :
    (scanning.ready ∧ 7 < (8 : Byte).toNat ∧ (scanning.chain 1).inFlight = false) ∧
      (gapWaiting.ready ∧ (gapWaiting.chain 1).inFlight = true ∧ (gapWaiting.chain 1).defn = some chain1 ∧
        (gapWaiting.line 2).exch = some exchange40 ∧ partSound gapWaiting ∧ (gapWaiting.line 2).engine ≠ .sending) ∧
      (sending.ready ∧ (sending.chain 1).inFlight = true ∧ (sending.line 2).exch = some exchange40 ∧ partSound sending ∧
        (sending.line 2).engine = .sending) :=
  ⟨⟨ready_of (by decide +kernel), by decide +kernel⟩, ⟨ready_of (by decide +kernel), by decide +kernel,
    by decide +kernel, by decide +kernel, sound_gapWaiting,
    by decide +kernel⟩, ready_of (by decide +kernel), by decide +kernel, by decide +kernel, sound_sending,
      by decide +kernel⟩

/-- Chain 1 waits for its next round, and its period has passed. -/
def dueRound : State := { armed with count := 10500 }

theorem sound_dueRound : partSound dueRound := sound_of_checked (by decide +kernel)

/-- The same with the line in FAULT. -/
def dueFaulted : State := after (.overload 2 true) dueRound

theorem sound_dueFaulted : partSound dueFaulted := sound_of_checked (by decide +kernel)

/-- The same with the head erased. -/
def dueHeadless : State := answered dueRound (.planErase 1 40)

theorem sound_dueHeadless : partSound dueHeadless := sound_of_checked (by decide +kernel)

/-- An ARMED chain without powered rounds on a line that is OFF, its period having passed. -/
def dueUnpowered : State :=
  startable.setChain 5
    { startable.chain 5 with
      defn := some { line := 0, head := 9, period := 1, powered := false, notify := false }, state := .armed,
      timer := .running 0xFFFFFF9C 100 }

theorem sound_dueUnpowered : partSound dueUnpowered := sound_of_checked (by decide +kernel)

/-- An ARMED chain with powered rounds on a line that is OFF with LnOVL# asserted, its period having passed. -/
def dueShorted : State :=
  startable.setChain 4
    { startable.chain 4 with
      defn := some { line := 0, head := 9, period := 1, powered := true, notify := false }, state := .armed,
      timer := .running 0xFFFFFF9C 100 }

theorem sound_dueShorted : partSound dueShorted := sound_of_checked (by decide +kernel)

theorem witness_RoundTimerExpiryByTheStateOfTheChain :
    ((armed.chain 1).timer.due armed.count = false) ∧
      (let s := { scanning with count := 10500 };
        (s.chain 1).timer.due s.count = true ∧ (s.chain 1).state = .running) ∧
      (let s := { stopping with count := 10500 };
        (s.chain 1).timer.due s.count = true ∧ (s.chain 1).state = .stopping) ∧
      ((dueRound.chain 1).timer.due dueRound.count = true ∧ (dueRound.chain 1).state = .armed ∧
        (dueRound.chain 1).defn = some chain1 ∧ partSound dueRound ∧ dueRound.entryOn 40 2 = true ∧
        (dueRound.line 2).power = .on) ∧
      ((dueHeadless.chain 1).state = .armed ∧ partSound dueHeadless ∧ dueHeadless.entryOn 40 2 = false ∧
        (dueHeadless.chain 1).timer.due dueHeadless.count = true) ∧
      ((dueFaulted.chain 1).state = .armed ∧ partSound dueFaulted ∧ dueFaulted.entryOn 40 2 = true ∧
        (dueFaulted.line 2).power = .fault ∧ (dueFaulted.chain 1).timer.due dueFaulted.count = true) ∧
      ((dueUnpowered.chain 5).state = .armed ∧ partSound dueUnpowered ∧ dueUnpowered.entryOn 9 0 = true ∧
        (dueUnpowered.line 0).power = .off ∧ (dueUnpowered.chain 5).isPowered = false ∧
        (dueUnpowered.chain 5).timer.due dueUnpowered.count = true) ∧
      (dueShorted.chain 4).state = .armed ∧ partSound dueShorted ∧ dueShorted.entryOn 9 0 = true ∧
      (dueShorted.line 0).power = .off ∧ (dueShorted.chain 4).isPowered = true ∧ (dueShorted.line 0).lnOvl = true ∧
      (dueShorted.chain 4).timer.due dueShorted.count = true :=
  ⟨by decide +kernel, by decide +kernel, by decide +kernel,
    ⟨by decide +kernel, by decide +kernel, by decide +kernel, sound_dueRound, by decide +kernel⟩,
    ⟨by decide +kernel, sound_dueHeadless, by decide +kernel⟩, ⟨by decide +kernel, sound_dueFaulted, by decide +kernel⟩,
    ⟨by decide +kernel, sound_dueUnpowered, by decide +kernel⟩, by decide +kernel, sound_dueShorted, by decide +kernel⟩

theorem witness_ScanExchangeEndMovesItsChain :
    (gapWaiting.chain 1).defn = some chain1 ∧ (scanning.chain 1).inFlight = false ∧
      (gapWaiting.chain 1).inFlight = true ∧ exchange40.orphan = false ∧ (gapWaiting.chain 1).state = .running ∧
      exchange40.copy.link = some 41 ∧ (gapWaiting.chain 1).taken < 128 ∧ gapWaiting.entryOn 41 2 = true ∧
      gapWaiting.entryOn 43 2 = false ∧ (stopping.chain 1).state = .stopping ∧ (stopping.chain 1).inFlight = true ∧
      chain1.period ≠ 0 ∧ (gapWaiting.chain 1).roundDue = false ∧ (gapWaiting.line 2).power = .on ∧
      (let s := after (.roundTimerExpiry 1) { gapWaiting with count := 10500 };
        (s.chain 1).roundDue = true ∧ s.entryOn chain1.head chain1.line = true ∧ (s.line 2).power ≠ .fault ∧
          (s.line 2).power ≠ .off ∧ ((s.setLine 2 (faulted.line 2)).line 2).power = .fault ∧
          (s.setLine 2 (faulted.line 2)).entryOn chain1.head chain1.line = true) ∧
      (let d : ChainDef := { line := 0, head := 9, period := 1, powered := false, notify := false };
        let s := dueUnpowered.setChain 5
          { dueUnpowered.chain 5 with state := .running, position := some 9, inFlight := true, roundDue := true };
        (s.chain 5).defn = some d ∧ s.entryOn d.head d.line = true ∧ (s.line d.line).power = .off) := by decide +kernel

theorem witness_AskAppendsOrMergesARequest :
    (gapWaiting.ready ∧ 127 < (128 : Byte).toNat ∧ 1 < (2 : Byte).toNat ∧ (127 : Byte) = finByte (127 : Fin 128) ∧
        (1 : Byte) = Level.code .prompt ∧ gapWaiting.entry 127 = none) ∧
      (cooled.ready ∧ cooled.entry 60 = some entry60 ∧ (cooled.line 2).power = .fault) ∧
      (queued.ready ∧ linesSound queued ∧ queued.entry 60 = some entry60 ∧ (queued.line 2).settings.mode = .framed ∧
        (queued.line 2).power = .on ∧
        asked60 ∈ (queued.line 2).queue) ∧
      (meters.ready ∧ linesSound meters ∧ meters.entry 60 = some entry60 ∧ (meters.line 2).power = .on ∧
        (∀ q ∈ (meters.line 2).queue, q.entry ≠ 60) ∧ (meters.line 2).queue.length < 8 ∧ (meters.line 2).exch = none) ∧
      (let s := answered shorted (.planWrite 1 9 0 1 0 1 1 0 0 0xFF 0 []);
        let t := s.setLine 0 { s.line 0 with settings := { LineSettings.default with autoPower := true } };
        (t.line 0).power = .off ∧ (t.line 0).settings.autoPower = true ∧ (t.line 0).lnOvl = true ∧ t.entry 9 ≠ none) :=
  ⟨⟨ready_of (by decide +kernel), by decide +kernel⟩, ⟨ready_of (by decide +kernel), by decide +kernel⟩,
    ⟨ready_of (by decide +kernel), sound_queued.1, by decide +kernel⟩,
    ⟨ready_of (by decide +kernel), sound_meters.1, by decide +kernel⟩, by decide +kernel⟩

theorem witness_UrgentRequestPreemptsAScanExchange :
    (gapWaiting.ready ∧ partSound gapWaiting ∧ gapWaiting.entry 60 = some entry60 ∧
        (gapWaiting.line 2).exch = some exchange40 ∧ exchange40.origin = .chain 1 ∧
        (∀ q ∈ (gapWaiting.line 2).queue, q.entry ≠ 60) ∧ (gapWaiting.line 2).queue.length < 8 ∧
        (gapWaiting.line 2).engine ≠ .sending ∧ exchange40.orphan = false ∧ (gapWaiting.chain 1).state = .running) ∧
      (sending.ready ∧ partSound sending ∧ (sending.line 2).engine = .sending) ∧
      (queued.ready ∧ partSound queued ∧ ∃ q ∈ (queued.line 2).queue, q.entry = 60 ∧ q.level = .prompt) ∧
      (stopping.ready ∧ partSound stopping ∧ (stopping.chain 1).state = .stopping) :=
  ⟨⟨ready_of (by decide +kernel), sound_gapWaiting, by decide +kernel⟩, ⟨ready_of (by decide +kernel), sound_sending,
    by decide +kernel⟩,
    ⟨ready_of (by decide +kernel), sound_queued, asked60, by decide +kernel⟩,
    ready_of (by decide +kernel), sound_stopping, by decide +kernel⟩

/-- Line 0, with auto power, is supplied for the request for entry 9 alone. -/
def asking : State :=
  [Instr.lineSet 1 0 0 2 4 3 10 1 8 2, .planWrite 1 9 0 1 0 1 1 0 0 0xFF 0 [], .ask 1 9 1].foldl answered State.reset

theorem sound_asking : partSound asking := sound_of_checked (by decide +kernel)

/-- A chain without powered rounds is RUNNING on it. -/
def askingRunning : State := [Instr.chainSet 1 5 0 9 100 0 0, .chainStart 1 5].foldl answered asking

theorem sound_askingRunning : partSound askingRunning := sound_of_checked (by decide +kernel)

/-- The chain on it is HELD. -/
def askingHeld : State :=
  (askingRunning.setChain 5 { askingRunning.chain 5 with state := .held, position := none }).setLine 0
    { askingRunning.line 0 with held := some { entry := 9, reason := .next, owner := 5 } }

theorem sound_askingHeld : partSound askingHeld := sound_of_checked (by decide +kernel)

/-- R61: the line goes OFF, and the chain on it takes chain fault LINE-OFF. -/
theorem test_lineOff :
    ((after (.askCancel 1 9) askingHeld).line 0).power = .off ∧ ((after (.askCancel 1 9) askingHeld).line 0).held = none ∧
      ((after (.askCancel 1 9) askingHeld).chain 5).reason = .lineOff := by decide +kernel

theorem witness_AskCancelOfTheLastDemand :
    (asking.ready ∧ asking.entry 9 ≠ none ∧ (asking.line 0).queue.map Injected.entry = [9] ∧ partSound asking ∧
        (asking.line 0).demand = { host := false, round := false, ask := true } ∧ (asking.line 0).exch = none ∧
        asking.activeChain 0 = none) ∧
      (askingRunning.ready ∧ partSound askingRunning ∧ (askingRunning.line 0).queue.map Injected.entry = [9] ∧
        (askingRunning.line 0).demand = { host := false, round := false, ask := true } ∧
        askingRunning.activeChain 0 = some 5 ∧ (askingRunning.chain 5).state = .running) ∧
      (askingHeld.ready ∧ partSound askingHeld ∧ (askingHeld.line 0).queue.map Injected.entry = [9] ∧
        (askingHeld.line 0).demand = { host := false, round := false, ask := true } ∧
        askingHeld.activeChain 0 = some 5 ∧ (askingHeld.chain 5).state = .held) :=
  ⟨⟨ready_of (by decide +kernel), by decide +kernel, by decide +kernel, sound_asking, by decide +kernel⟩,
    ⟨ready_of (by decide +kernel), sound_askingRunning, by decide +kernel⟩,
    ready_of (by decide +kernel), sound_askingHeld, by decide +kernel⟩

theorem witness_AskCancelRemovesTheQueuedElement :
    (queued.ready ∧ 127 < (128 : Byte).toNat ∧ queued.entry 127 = none ∧ queued.entry 60 = some entry60 ∧
        (∃ q ∈ (queued.line 2).queue, q.entry = 60) ∧ partSound queued) ∧
      (meters.entry 60 = some entry60 ∧ ∀ q ∈ (meters.line 2).queue, q.entry ≠ 60) :=
  ⟨⟨ready_of (by decide +kernel), by decide, by decide +kernel, by decide +kernel,
    ⟨asked60, by decide +kernel⟩, sound_queued⟩,
    by decide +kernel⟩

theorem witness_QueueReadShowsTheQueue :
    heldAgain.ready ∧ 3 < (4 : Byte).toNat ∧ (3 : Byte) = finByte (3 : Fin 4) := ⟨ready_of (by decide +kernel),
      by decide⟩

theorem witness_SchedulerTakesTheFirstChoiceThatApplies :
    (gapWaiting.line 2).exch ≠ none ∧
      ((scanning.line 2).power = .on ∧ (scanning.line 2).settings.mode = .framed ∧ (scanning.line 2).exch = none ∧
        partSound scanning ∧ (scanning.line 2).held = none ∧ (scanning.line 2).queue = [] ∧
        (scanning.chain 1).onLine 2 = true ∧ (scanning.chain 1).state = .running ∧ (scanning.chain 1).inFlight = false ∧
        (scanning.chain 1).position = some 40 ∧ scanning.entry 40 = some entry40) ∧
      (partSound replied ∧ (replied.line 2).queue ≠ [] ∧ (replied.line 2).held = none ∧
        (replied.chain 1).position = some 41 ∧ (replied.chain 1).inFlight = false) ∧
      (let s := answered heldAgain (.askCancel 1 60);
        partSound s ∧ (s.line 2).power = .on ∧ (s.line 2).exch = none ∧ (s.line 2).queue = [] ∧
          (s.line 2).held = some { entry := 40, reason := .again, owner := 1 } ∧ s.entry 40 = some entry40) :=
  ⟨by decide +kernel, ⟨by decide +kernel, by decide +kernel, by decide +kernel, sound_scanning, by decide +kernel⟩,
    ⟨sound_replied, by decide +kernel⟩, sound_of_checked (by decide +kernel), by decide +kernel⟩

theorem witness_OfferedRecordIsAppendedOrDropped :
    ((captured.store 3).records.length < 32 ∧
        (captured.store 3).payloadBytes + (captureRecord (List.replicate 128 0) false 0).payloadLen ≤ 2048) ∧
      (let st : Store := 
          { records := List.replicate 16 (captureRecord (List.replicate 128 0) false 0), nextSeq := 16, gapPending := false };
        st.records.length < 32 ∧ 2048 < st.payloadBytes + (captureRecord [0] false 0).payloadLen ∧
          st.payloadBytes + (captureRecord [] false 0).payloadLen ≤ 2048) := by decide +kernel

theorem witness_FetchShowsTheOldestRecord :
    captured.ready ∧ 3 < (4 : Byte).toNat ∧ (3 : Byte) = finByte (3 : Fin 4) ∧ (captured.store 0).records = [] ∧
      (captured.store 3).records =
        captureRecord [0x41] false captured.count :: [] := ⟨ready_of (by decide +kernel), by decide +kernel⟩

theorem witness_ReleaseRemovesOnlyTheOldestNamed :
    captured.ready ∧ (captured.store 0).records = [] ∧
      (captured.store 3).records = captureRecord [0x41] false captured.count :: [] ∧
      (captureRecord [0x41] false captured.count).seq = 0 ∧ (captureRecord [0x41] false captured.count).seq ≠ 1 :=
  ⟨ready_of (by decide +kernel), by decide +kernel⟩

theorem witness_StoreClearRemovesEveryRecord :
    captured.ready ∧ 3 < (4 : Byte).toNat ∧ (3 : Byte) = finByte (3 : Fin 4) := ⟨ready_of (by decide +kernel),
      by decide⟩

/-- The store of line 3 in `captured` is sound, and so are the empty ones. -/
theorem stores_captured : storesSound captured := by
  intro l
  have h : l = 3 ∨ captured.store l = Store.empty := by revert l; decide +kernel
  rcases h with rfl | h
  · have e : captured.store 3 =
        { records := [captureRecord [0x41] false captured.count], nextSeq := 1,
          gapPending := false } := by decide +kernel
    rw [e]
    refine ⟨by decide, by decide, trivial, fun _ r hr => ?_⟩
    cases Option.mem_some.mp hr
    rfl
  · rw [h]
    exact ⟨by decide, by decide, trivial, fun _ r hr => by cases hr⟩

theorem witness_EveryStepKeepsTheStoresSound :
    storesSound { captured with pending := [.fetchWithRelease 1 3] } ∧
      step { captured with pending := [.fetchWithRelease 1 3] } = .next (after (.fetchWithRelease 1 3) { captured with
        pending := [] }) :=
  ⟨stores_captured, step_after _ captured⟩

/-- Watch 6 of the worked zone sequence, as it is written. -/
def watch6 : Watch :=
  { entry := 40, offset := 2, startBit := 0, width := 16, signed := true, low := 150, high := 280, hysteresis := 20,
    action := .noticeInject 60 .urgent, zone := .unknown, value := 0, valueTime := 0, status := .never,
    lastAction := .none }

theorem witness_WatchWriteDefinesAClearedWatch :
    (State.reset.ready ∧ ((1 : Byte).toNat ≤ 1 ∧ some ((60 : Byte), (0 : Byte)) ≠ none) ∧
        (2 ≤ (2 : Byte).toNat ∧ (3 : Byte).toNat ≤ 3) ∧ 31 < (32 : Byte).toNat ∧ 127 < (128 : Byte).toNat ∧
        199 < (200 : Byte).toNat ∧ 7 < (8 : Byte).toNat ∧ 32 < (33 : Byte).toNat ∧ 3 < (4 : Byte).toNat ∧
        (280 : Word).toInt < (281 : Word).toInt) ∧
      (31 : Byte) = finByte (31 : Fin 32) ∧ (40 : Byte) = finByte watch6.entry ∧ (2 : Byte).toNat = watch6.offset ∧
      watch6.offset ≤ 199 ∧ (0 : Byte).toNat = watch6.startBit ∧ (16 : Byte).toNat = watch6.width ∧ 1 ≤ watch6.width ∧
      watch6.width ≤ 32 ∧ (1 : Byte) = boolByte watch6.signed ∧ watch6.low.toInt ≤ watch6.high.toInt ∧
      some ((60 : Byte), (0 : Byte)) = some (finByte (60 : Fin 128), Level.urgent.code) :=
  ⟨⟨ready_of (by decide +kernel), by decide⟩, by decide⟩

theorem witness_WatchReadShowsTheWatch :
    meters.ready ∧ 31 < (32 : Byte).toNat ∧ (31 : Byte) = finByte (31 : Fin 32) ∧ meters.watch 31 = none ∧
      meters.watch 6 = some watch6 := ⟨ready_of (by decide +kernel), by decide +kernel⟩

theorem witness_WatchEraseFreesTheWatch :
    meters.ready ∧ 31 < (32 : Byte).toNat ∧ (6 : Byte) = finByte (6 : Fin 32) ∧ meters.watch 31 = none ∧
      meters.watch 6 ≠ none := ⟨ready_of (by decide +kernel), by decide +kernel⟩

theorem witness_ValuesReadShowsConsecutiveWatches :
    meters.ready ∧ (0 : Byte).toNat = 0 ∧ 24 < (25 : Byte).toNat ∧ 32 < (9 : Byte).toNat + (24 : Byte).toNat ∧
      1 ≤ (1 : Byte).toNat ∧ (24 : Byte).toNat ≤ 24 ∧
        (8 : Byte).toNat + (24 : Byte).toNat ≤ 32 := ⟨ready_of (by decide +kernel), by decide⟩

/-- The low end and the high end of every zone row. -/
theorem witness_WatchFieldAndZoneFollowThePayload :
    watch6.offset + (watch6.startBit + watch6.width + 7) / 8 ≤ ([0, 0, 0x22, 1] : List Byte).length ∧
      ([0, 0, 0x22] : List Byte).length < watch6.offset + (watch6.startBit + watch6.width + 7) / 8 ∧
      (150 : Int) = watch6.low.toInt ∧ (280 : Int) = watch6.high.toInt ∧ (20 : Int) = (watch6.hysteresis.toNat : Int) ∧
      watch6.zone = .unknown ∧ watch6.zoneFor 149 = .low ∧ watch6.zoneFor 150 = .normal ∧ watch6.zoneFor 281 = .high ∧
      (let x := { watch6 with zone := .low };
        x.zoneFor 169 = .low ∧ x.zoneFor 170 = .normal ∧ x.zoneFor 281 = .high) ∧
      (let x := { watch6 with zone := .high };
        x.zoneFor 149 = .low ∧ x.zoneFor 260 = .normal ∧ x.zoneFor 261 = .high) := by decide +kernel

theorem witness_WatchEvaluationByTheOutcome :
    linesSound meters ∧ meters.watch 31 = none ∧ meters.watch 6 = some watch6 ∧ watch6.entry = 40 ∧
      watch6.take? [0, 0, 0x22, 1] = some 290 ∧ watch6.take? [0, 0, 0x22] = none ∧ watch6.zoneFor 290 ≠ watch6.zone ∧
      (watch6.zone = .unknown ∧ watch6.zoneFor 215 = .normal) :=
  ⟨sound_meters.1, by decide +kernel⟩

/-- Line 0 is OFF with auto power. -/
def autoOff : State := (answered asking (.askCancel 1 9))

/-- The same with LnOVL# asserted. -/
def autoShorted : State := after (.overload 0 true) autoOff

theorem witness_WatchTriggerByTheTarget :
    gapWaiting.entry 127 = none ∧ (linesSound cooled ∧ cooled.entry 60 = some entry60 ∧ (cooled.line 2).power = .fault) ∧
      (linesSound queued ∧ queued.entry 60 = some entry60 ∧ (queued.line 2).settings.mode = .framed ∧
        (queued.line 2).power = .on ∧ asked60 ∈ (queued.line 2).queue ∧ asked60.level = .prompt ∧
        (queued.line 2).scanInFlight) ∧
      (linesSound gapWaiting ∧ (gapWaiting.line 2).queue = [] ∧ (gapWaiting.line 2).power ≠ .off ∧
        (gapWaiting.line 2).engine ≠ .sending) ∧
      (linesSound sending ∧ (sending.line 2).queue = [] ∧ (sending.line 2).engine = .sending) ∧
      (linesSound autoOff ∧ (autoOff.line 0).power = .off ∧ (autoOff.line 0).settings.autoPower = true ∧
        (autoOff.line 0).lnOvl = false ∧ (autoOff.line 0).settings.mode = .framed ∧ autoOff.entry 9 ≠ none) ∧
      (linesSound autoShorted ∧ (autoShorted.line 0).power = .off ∧ (autoShorted.line 0).settings.autoPower = true ∧
        (autoShorted.line 0).lnOvl = true) ∧
      (let s := answered meters (.planWrite 1 9 2 1 0 1 1 0 0 0xFF 0 []);
        let q := (List.finRange 8).map fun k : Fin 8 => { asked60 with entry := ⟨64 + k.val, by omega⟩ };
        let t := s.setLine 2 { s.line 2 with queue := q, demand := { (s.line 2).demand with ask := true } };
        (∀ l, lineShape (t.line l) ∧ demandSound (t.line l) ∧ (t.line l).exch = none) ∧ t.entry 9 ≠ none ∧
          (∀ y ∈ (t.line 2).queue, y.entry ≠ 9) ∧ 8 ≤ (t.line 2).queue.length) :=
  ⟨by decide +kernel, ⟨sound_cooled.1, by decide +kernel⟩,
    ⟨sound_queued.1, by decide +kernel, by decide +kernel, by decide +kernel, by decide +kernel, rfl, exchange40,
      by decide +kernel, 1, rfl⟩,
    ⟨sound_gapWaiting.1, by decide +kernel⟩, ⟨sound_sending.1, by decide +kernel⟩,
    ⟨(sound_of_checked (s := autoOff) (by decide +kernel)).1, by decide +kernel⟩,
    ⟨(sound_of_checked (s := autoShorted) (by decide +kernel)).1, by decide +kernel⟩, by decide +kernel⟩

/-- The two actions that inject, on a watch whose zone changes. -/
theorem witness_WatchEvaluationThatInjects :
    meters.watch 6 = some watch6 ∧ watch6.take? [0, 0, 0x22, 1] = some 290 ∧ watch6.zoneFor 290 ≠ watch6.zone ∧
      ¬ (watch6.zone = .unknown ∧ watch6.zoneFor 290 = .normal) ∧ watch6.action = .noticeInject 60 .urgent ∧
      (let x := { watch6 with action := .inject 60 .prompt };
        (meters.setWatch 6 (some x)).watch 6 = some x ∧ x.take? [0, 0, 0x22, 1] = some 290 ∧
          x.zoneFor 290 = .high) := by decide +kernel

/-- A collision has put the exchange of 40 in BACKOFF. -/
def backedOff : State := after (.characterSent 2 none) sending

theorem witness_WaitsEndInSendingAndStartBitsInReceiving :
    ((gapWaiting.line 2).exch = some exchange40 ∧ (gapWaiting.line 2).engine = .gapWait ∧
        (gapWaiting.line 2).arriving = false ∧ 44 ≤ 44 ∧ 43 < 44 ∧ (gapWaiting.line 2).waitIdle = false ∧
        (gapWaiting.line 2).lnDe = false) ∧
      ((backedOff.line 2).engine = .backoff ∧ (backedOff.line 2).arriving = false ∧
        (backedOff.line 2).exch.map Exchange.collisions = some 1 ∧ (20 + 10 * 1) * 11 ≤ 330) ∧
      ((awaiting.line 2).engine = .awaiting ∧ (awaiting.line 2).waitIdle = false ∧ (awaiting.line 2).lnDe = false) ∧
      ((meters.line 2).exch = none ∧ (meters.line 2).engine = .idle ∧ (meters.line 2).waitIdle = false ∧
        (meters.line 2).lnDe = false) ∧
      ((listening.line 3).engine = .listening ∧ (listening.line 3).waitIdle = false ∧ (listening.line 3).lnDe = false) ∧
      (sending.line 2).lnDe = true := by
  decide +kernel

theorem witness_CharacterSentIsJudgedByItsReadback :
    (gapWaiting.line 2).engine ≠ .sending ∧
      ((sending.line 2).engine = .sending ∧ (sending.line 2).exch = some exchange40 ∧ exchange40.pendingEnd = none ∧
        (requestFrame exchange40.copy)[exchange40.sent]? = some 0x5A ∧
        (sending.line 2).sees (some (cleanChar 0x5A)) = some (cleanChar 0x5A) ∧
        exchange40.sent + 1 < (requestFrame exchange40.copy).length ∧
          (sending.line 2).sees none ≠ some (cleanChar 0x5A) ∧
        exchange40.collisions + 1 ≤ (sending.line 2).settings.collisionBudget) ∧
      ((lastByte.line 2).exch = some { exchange40 with sent := 7 } ∧ 7 + 1 = (requestFrame exchange40.copy).length ∧
        exchange40.copy.station ≠ 0) ∧
      (linesSound sending ∧
        let s := answered sending (.ask 1 60 0);
        (s.line 2).engine = .sending ∧ (s.line 2).exch = some { exchange40 with pendingEnd := some .preempted }) ∧
      ({ sending.line 2 with waitIdle := true }).sees (some (cleanChar 0x5A)) ≠ some (cleanChar 0x5A) :=
  ⟨by decide +kernel, by decide +kernel, by decide +kernel, ⟨sound_sending.1, by decide +kernel⟩, by decide +kernel⟩

/-- The reply of 40 is 250 ms late. -/
def late : State := { awaiting with count := 750 }

theorem sound_late : partSound late := sound_of_checked (by decide +kernel)

theorem witness_SilenceFailsTheAttempt :
    (linesSound late ∧ (late.line 2).engine = .awaiting ∧ (late.line 2).replyTimer.due late.count = true) ∧
      (let s := { awaiting with count := 749 };
        (s.line 2).replyTimer.due s.count = false) ∧
      (linesSound receiving ∧ (receiving.line 2).engine = .receiving ∧ (receiving.line 2).arriving = false ∧
        (receiving.line 2).settings.gapLimit * 11 ≤ 44 ∧ 43 < (receiving.line 2).settings.gapLimit * 11) :=
  ⟨⟨sound_late.1, by decide +kernel⟩, by decide +kernel, sound_receiving.1, by decide +kernel⟩

theorem witness_ReceivedCharacterIsJudgedByTheEngineState :
    ((sending.line 2).waitIdle = false ∧ (sending.line 2).lnDe = true) ∧
      ((gapWaiting.line 2).lnDe = false ∧ (gapWaiting.line 2).engine = .gapWait ∧
        (gapWaiting.line 2).waitIdle = false) ∧
      ((listening.line 3).engine = .listening ∧ (listening.line 3).lnDe = false ∧ (listening.line 3).waitIdle = false ∧
        ((listening.line 3).block ++ [(0x42 : Byte)]).length < (listening.line 3).settings.blockSize.bytes) ∧
      (linesSound receiving ∧ (receiving.line 2).engine = .receiving ∧ (receiving.line 2).waitIdle = false ∧
        (receiving.line 2).exch.map Exchange.kept = some reply40.dropLast ∧
        reply40 = [0x5B, 12, 0x81, 4] ++ [0, 0, 0x22, 1] ++ crcBytes [12, 0x81, 4, 0, 0, 0x22, 1]) ∧
      ((awaiting.line 2).engine = .awaiting ∧ (awaiting.line 2).exch.map Exchange.kept = some [] ∧
        faultyChar (cleanChar 0x5B) = false ∧ faultyChar { data := 0x5B, parity := false, stop := true } = true) :=
  ⟨by decide +kernel, by decide +kernel, by decide +kernel, ⟨sound_receiving.1, by decide +kernel⟩, by decide +kernel⟩

theorem witness_CaptureBlockClosesAfterIdleTime :
    ((listening.line 3).engine = .listening ∧ (listening.line 3).arriving = false ∧ 110 ≤ 110 ∧
        (listening.line 3).block ≠ []) ∧ 109 < 110 ∧ (captured.line 3).block = [] := by decide +kernel

/-- The exchange of the broadcast entry 42 is in flight. -/
def broadcasting : State :=
  after (.schedulerChoice 2) (scanning.setChain 1 { scanning.chain 1 with position := some 42 })

theorem witness_FilingOfAnEndedExchange :
    (partSound gapWaiting ∧ (gapWaiting.line 2).exch = some exchange40 ∧ exchange40.copy.policy = .always ∧
        gapWaiting.watch 6 = some watch6 ∧ watch6.entry = exchange40.entry) ∧
      (partSound injected ∧ (injected.line 2).exch = some (freshExchange entry60 60 .host false 0 false) ∧
        entry60.policy = .failures ∧ (injected.line 2).held = some { entry := 40, reason := .again, owner := 1 } ∧
        ((injected.fileEnd 2 (freshExchange entry60 60 .host false 0 false) .noReply).line 2).power = .on) ∧
      (partSound receiving ∧ (receiving.line 2).exch.map (fun ex => ex.copy.policy) = some .always) ∧
      partSound broadcasting ∧ (broadcasting.line 2).exch.map (fun ex => ex.copy.policy) = some .never :=
  ⟨⟨sound_gapWaiting, by decide +kernel⟩, ⟨sound_injected, by decide +kernel⟩, ⟨sound_receiving, by decide +kernel⟩,
    sound_of_checked (by decide +kernel), by decide +kernel⟩

theorem witness_EveryStepKeepsTheLinesSound :
    linesSound { gapWaiting with pending := [.overload 2 true] } ∧
      step { gapWaiting with pending := [.overload 2 true] } =
        .next (after (.overload 2 true) { gapWaiting with pending := [] }) :=
  ⟨sound_gapWaiting.1, step_after _ gapWaiting⟩

theorem witness_EveryStepKeepsThePartSound :
    partSound { scanning with pending := [.schedulerChoice 2] } ∧
      step { scanning with pending := [.schedulerChoice 2] } =
        .next (after (.schedulerChoice 2) { scanning with pending := [] }) :=
  ⟨sound_scanning, step_after _ scanning⟩

theorem witness_LineEventsKeepTheConfiguration :
    lineEvent (.overload 2 true) = true ∧ exec (.overload 2 true) gapWaiting = .next faulted := ⟨rfl, exec_after _ _⟩

end Sys2Proof.Tests
end

section
/-! PROOFS. The poll plan (R1, R6 to R10): PLAN-WRITE, PLAN-READ, PLAN-ERASE, and the events that leave the configuration as it
is. -/

namespace Sys2Proof.Proofs

open Sys2Proof Sys2Proof.Machine

/-! ### The in-use indications -/

theorem entryInFlight_iff (s : State) (e : Fin 128) (l : Fin 4) :
    s.entryInFlight e l = true ↔ ∃ ex, (s.line l).exch = some ex ∧ ex.entry = e := by
  unfold State.entryInFlight
  cases (s.line l).exch <;> simp

theorem entryHeld_iff (s : State) (e : Fin 128) (l : Fin 4) :
    s.entryHeld e l = true ↔ ∃ h, (s.line l).held = some h ∧ h.entry = e := by
  unfold State.entryHeld
  cases (s.line l).held <;> simp

theorem entryQueued_iff (s : State) (e : Fin 128) (l : Fin 4) :
    s.entryQueued e l = true ↔ ∃ q ∈ (s.line l).queue, q.entry = e := by
  simp [State.entryQueued]

theorem inUse_iff_entryUsed (s : State) (e : Fin 128) : s.inUse e = true ↔ s.entryUsed e := by
  unfold State.inUse State.entryUsed
  cases s.entry e with
  | none => simp
  | some p => simp [entryInFlight_iff, entryHeld_iff, entryQueued_iff, or_assoc]

/-! ### The fields of an entry -/

theorem finByte_ne_absentByte (k : Fin 128) : finByte k ≠ absentByte := by
  revert k; decide

theorem linkOf_linkByte (x : Option (Fin 128)) : linkOf (linkByte x) = some x := by
  cases x with
  | none => rfl
  | some k =>
    change linkOf (finByte k) = some (some k)
    simp [linkOf, finByte_ne_absentByte]

theorem linkOf_outOfRange {b : Byte} (h : 127 < b.toNat) (ha : b ≠ absentByte) : linkOf b = none := by
  rw [linkOf, if_neg ha, finOf_none h, Option.map_none]

/-- R163: the byte that carries a link, told case by case. -/
theorem eq_linkByte {x : Option (Fin 128)} {b : Byte} (hn : x = none → b = 0xFF) (hs : ∀ k, x = some k → b = finByte k) :
    b = linkByte x := by
  cases x with
  | none => exact hn rfl
  | some k => exact hs k rfl

/-- R1: the limits of an entry's fields that their types do not already state. -/
def fieldsInRange (p : PlanEntry) : Prop :=
  p.payload.length ≤ 16 ∧ p.station.toNat ≤ 250 ∧ 1 ≤ p.replyLimit ∧ p.replyLimit ≤ 200 ∧ 1 ≤ p.timeout ∧ p.retries ≤ 7

/-- R7, step 3: fields in range read back as the entry they carry. -/
theorem planEntryOf_fields {p : PlanEntry} (hp : fieldsInRange p) {rl tm re : Byte} (hrl : rl.toNat = p.replyLimit)
    (htm : tm.toNat = p.timeout) (hre : re.toNat = p.retries) :
    planEntryOf (finByte p.line) p.station p.control rl tm re p.policy.code (linkByte p.link) p.payload = some p := by
  simp only [planEntryOf, finOf4, policyOf_code, linkOf_linkByte, hrl, htm, hre]
  exact if_pos hp

/-- R7, step 3: one field out of its range refuses them all. -/
theorem planEntryOf_outOfRange {line station control rl tm re po lk : Byte} {payload : List Byte}
    (h : 16 < payload.length ∨ 3 < line.toNat ∨ 250 < station.toNat ∨ rl.toNat = 0 ∨ 200 < rl.toNat ∨ tm.toNat = 0 ∨
      7 < re.toNat ∨ 2 < po.toNat ∨ (127 < lk.toNat ∧ lk ≠ 0xFF)) :
    planEntryOf line station control rl tm re po lk payload = none := by
  unfold planEntryOf
  split
  next l p k hl hp hk =>
    have hline : ¬ 3 < line.toNat := fun hgt => by simp [finOf_none hgt] at hl
    have hpolicy : ¬ 2 < po.toNat := fun hgt => by simp [policyOf_none hgt] at hp
    have hlink : ¬ (127 < lk.toNat ∧ lk ≠ 0xFF) := fun ⟨hgt, ha⟩ => by simp [linkOf_outOfRange hgt ha] at hk
    simp only [hline, hpolicy, hlink, or_false, false_or] at h
    refine if_neg ?_
    simp only [Config.maxEntryPayload, Config.maxReplyLen]
    omega
  next => rfl

/-! ### PLAN-WRITE -/

/-- R155, R156: PLAN-WRITE reaches the plan when the declared length is that of its payload. -/
theorem exec_planWrite {tag entry line station control rl tm re po lk n : Byte} {payload : List Byte} {s : State}
    (hs : s.ready) (hn : payload.length = n.toNat) :
    exec (.planWrite tag entry line station control rl tm re po lk n payload) s =
      .next ((doPlanWrite entry line station control rl tm re po lk payload s).1.replying 0xA0 tag
        (doPlanWrite entry line station control rl tm re po lk payload s).2) :=
  submit_request (k := .planWrite) (r := .planWrite entry line station control rl tm re po lk payload) hs (if_pos hn)
    (by simp)

theorem exec_planWrite_badLength {tag entry line station control rl tm re po lk n : Byte} {payload : List Byte} {s : State}
    (hs : s.ready) (hn : payload.length ≠ n.toNat) :
    exec (.planWrite tag entry line station control rl tm re po lk n payload) s = .next (s.replying 0xA0 tag [0x15]) :=
  submit_badLength (k := .planWrite) hs (if_neg hn)

/-- R7, steps 2 and 3. -/
theorem doPlanWrite_badArg {entry line station control rl tm re po lk : Byte} {payload : List Byte} {s : State}
    (h : finOf 128 entry = none ∨ planEntryOf line station control rl tm re po lk payload = none) :
    doPlanWrite entry line station control rl tm re po lk payload s = (s, [0x14]) := by
  unfold doPlanWrite
  split
  next he hp => simp [he, hp] at h
  next => rfl

/-- R7, steps 4 and 5. -/
theorem doPlanWrite_fields {e : Fin 128} {p : PlanEntry} {line station control rl tm re po lk : Byte} {payload : List Byte}
    {s : State} (hp : planEntryOf line station control rl tm re po lk payload = some p) :
    doPlanWrite (finByte e) line station control rl tm re po lk payload s =
      if s.inUse e then (s, [0x10]) else (s.setEntry e (some p), [0x00]) := by
  simp only [doPlanWrite, finOf128, hp]
  rfl

/-- Settles O25: the declared length first, then entry number and fields, then the use of the entry. -/
theorem planWriteDefinesAnEntryNotInUse : Obligations.PlanWriteDefinesAnEntryNotInUse := by
  intro tag entry line station control rl tm re po lk n payload s hs
  refine ⟨exec_planWrite_badLength hs, fun hn => ?_⟩
  rw [exec_planWrite hs hn]
  constructor
  · intro hbad
    rw [doPlanWrite_badArg (hbad.imp (fun he => finOf_none he) planEntryOf_outOfRange)]
  · rintro e p rfl rfl rfl rfl rfl hrl htm hre rfl hnone hsome hlen hst hrl1 hrl200 htm1 hre7
    obtain rfl := eq_linkByte hnone hsome
    have hp := planEntryOf_fields ⟨hlen, hst, hrl1, hrl200, htm1, hre7⟩ hrl htm hre
    rw [doPlanWrite_fields hp, ← inUse_iff_entryUsed]
    exact ⟨fun hu => by rw [if_pos hu], fun hu => by rw [if_neg hu]⟩

/-! ### PLAN-READ -/

theorem exec_planRead {tag entry : Byte} {s : State} (hs : s.ready) :
    exec (.planRead tag entry) s =
      .next ((doPlanRead entry s).1.replying 0xA1 tag (doPlanRead entry s).2) :=
  submit_request (k := .planRead) (r := .planRead entry) hs rfl (by simp)

theorem doPlanRead_badArg {entry : Byte} {s : State} (h : 127 < entry.toNat) : doPlanRead entry s = (s, [0x14]) := by
  simp only [doPlanRead, finOf_none (n := 128) h]
  rfl

theorem doPlanRead_unused {e : Fin 128} {s : State} (h : s.entry e = none) :
    doPlanRead (finByte e) s = (s, [0x00, finByte e, 0, 0, 0, 0]) := by
  simp only [doPlanRead, finOf128, h]
  rfl

theorem doPlanRead_defined {e : Fin 128} {p : PlanEntry} {s : State} (h : s.entry e = some p) :
    doPlanRead (finByte e) s =
      (s, [0x00, finByte e, 1, boolByte (s.entryInFlight e p.line), boolByte (s.entryHeld e p.line),
        boolByte (s.entryQueued e p.line)] ++ p.bytes) := by
  simp only [doPlanRead, finOf128, h]
  rfl

/-- Settles O26: the indications it shows are those of R6. -/
theorem planReadShowsTheEntry : Obligations.PlanReadShowsTheEntry := by
  refine ⟨rfl, fun tag entry s hs => ?_⟩
  rw [exec_planRead hs]
  refine ⟨fun hbad => by rw [doPlanRead_badArg hbad], ?_⟩
  rintro e rfl
  refine ⟨fun hunused => by rw [doPlanRead_unused hunused], fun p hp => ?_⟩
  refine ⟨s.entryInFlight e p.line, s.entryHeld e p.line, s.entryQueued e p.line, entryInFlight_iff .., entryHeld_iff ..,
    entryQueued_iff .., ?_⟩
  rw [doPlanRead_defined hp, PlanEntry.bytes]
  cases p.link <;> rfl

/-! ### PLAN-ERASE -/

theorem exec_planErase {tag entry : Byte} {s : State} (hs : s.ready) :
    exec (.planErase tag entry) s =
      .next ((doPlanErase entry s).1.replying 0xA2 tag (doPlanErase entry s).2) :=
  submit_request (k := .planErase) (r := .planErase entry) hs rfl (by simp)

theorem doPlanErase_badArg {entry : Byte} {s : State} (h : 127 < entry.toNat) : doPlanErase entry s = (s, [0x14]) := by
  simp only [doPlanErase, finOf_none (n := 128) h]
  rfl

theorem doPlanErase_unused {e : Fin 128} {s : State} (h : s.entry e = none) :
    doPlanErase (finByte e) s = (s, [0x13]) := by
  simp only [doPlanErase, finOf128, h]
  rfl

theorem doPlanErase_defined {e : Fin 128} {p : PlanEntry} {s : State} (h : s.entry e = some p) :
    doPlanErase (finByte e) s = if s.inUse e then (s, [0x10]) else (s.setEntry e none, [0x00]) := by
  simp only [doPlanErase, finOf128, h]
  rfl

/-- Settles O27: an entry in use is DEFINED, so the steps of R10 exclude each other. -/
theorem planEraseFreesAnEntryNotInUse : Obligations.PlanEraseFreesAnEntryNotInUse := by
  intro tag entry s hs
  rw [exec_planErase hs]
  refine ⟨fun hbad => by rw [doPlanErase_badArg hbad], ?_⟩
  rintro e rfl
  refine ⟨fun hunused => by rw [doPlanErase_unused hunused], fun hused => ?_, fun hdefined hfree => ?_⟩
  · obtain ⟨p, hp, -⟩ := id hused
    rw [doPlanErase_defined hp, if_pos ((inUse_iff_entryUsed s e).2 hused)]
  · obtain ⟨p, hp⟩ := Option.ne_none_iff_exists'.1 hdefined
    rw [doPlanErase_defined hp, if_neg (mt (inUse_iff_entryUsed s e).1 hfree)]

/-! ### The configuration -/

/-- Settles O60: "the configuration is that of `s`" survives the smallest changes of which every event of a chain or a line is
made (`sameConfig_kept`), and holds before the event. -/
theorem lineEventsKeepTheConfiguration : Obligations.LineEventsKeepTheConfiguration := by
  intro c s t hc he
  exact lineEvent_kept (sameConfig_kept s) (SameConfig.refl s) hc he

end Sys2Proof.Proofs
end

section
/-! PROOFS. Exchanges on a line (R17 to R41, R136): waits and start bits, the characters sent and received, the timers of a reply,
EXCHANGE-ABORT, and the filing of an exchange that ended. -/

namespace Sys2Proof.Proofs

open Sys2Proof Sys2Proof.Machine

variable {l : Fin 4} {s : State} {ex : Exchange} {o : ExchOutcome}

/-! ### Silences -/

theorem waitOver_iff {x : Line} {state : EngineState} {ct silence : Nat} :
    x.waitOver state ct silence = true ↔ x.engine = state ∧ x.arriving = false ∧ ct * 11 ≤ silence := by
  simp only [Line.waitOver, silenceReached, Bool.and_eq_true, decide_eq_true_eq, Bool.not_eq_true', and_assoc]
  rfl

theorem not_waitOver_iff {x : Line} {state : EngineState} {ct silence : Nat} :
    ¬ x.waitOver state ct silence = true ↔ x.engine ≠ state ∨ x.arriving = true ∨ silence < ct * 11 := by
  rw [waitOver_iff, not_and_or, not_and_or, Bool.not_eq_false, Nat.not_le]

/-! ### Receivers that wait for the idle level -/

theorem exec_hostCharacterReceived_waiting {b : Byte} {m : CharMoment} (h : s.link.waitIdle = true) :
    exec (.hostCharacterReceived b m) s = .next s :=
  congrArg Host.Outcome.next (if_pos (by simp [LinkPort.deaf, h]))

theorem exec_startBitDetected_deaf (h : (s.line l).waitIdle = true ∨ (s.line l).lnDe = true) :
    exec (.startBitDetected l) s = .next s :=
  congrArg Host.Outcome.next (if_pos (by simpa using h))

theorem exec_lineCharacterReceived_deaf {c : LineChar} (h : (s.line l).waitIdle = true ∨ (s.line l).lnDe = true) :
    exec (.lineCharacterReceived l c) s = .next s :=
  congrArg Host.Outcome.next (if_pos (by simpa using h))

/-- Settles O11: the mark of either receiver turns every character away, and only the return of its input clears it. -/
theorem receiverWaitsForTheIdleLevel : Obligations.ReceiverWaitsForTheIdleLevel := fun _ _ =>
  ⟨rfl, rfl, fun h _ _ => exec_hostCharacterReceived_waiting h,
    fun h => ⟨exec_startBitDetected_deaf (.inl h), fun _ => exec_lineCharacterReceived_deaf (.inl h)⟩⟩

/-! ### Waits and start bits -/

theorem startSending_of_exch {x : Line} (hx : x.exch = some ex) :
    x.startSending = { x with engine := .sending, lnDe := true, exch := some { ex with sent := 0 } } := by
  rw [Line.startSending, hx, Option.map_some]

theorem exec_gapWaitComplete (l : Fin 4) (silence : Nat) (s : State) :
    exec (.gapWaitComplete l silence) s =
      .next (if (s.line l).waitOver .gapWait 4 silence then s.setLine l (s.line l).startSending else s) := rfl

theorem exec_backoffComplete (l : Fin 4) (silence : Nat) (s : State) :
    exec (.backoffComplete l silence) s =
      .next (if (s.line l).waitOver .backoff (20 + 10 * (s.line l).collisions) silence then
          s.setLine l (s.line l).startSending
        else s) := rfl

theorem collisions_of_exch {x : Line} (hx : x.exch = some ex) : x.collisions = ex.collisions := by
  rw [Line.collisions, hx]

theorem exec_startBitDetected_heard (hw : (s.line l).waitIdle = false) (hd : (s.line l).lnDe = false) :
    exec (.startBitDetected l) s = .next (s.setLine l (s.line l).startBit) :=
  congrArg Host.Outcome.next (if_neg (by simp [hw, hd]))

/-- Settles O51: each wait is its engine state with its silence reached, and a start bit that is heard is judged by whether the
engine is AWAITING. -/
theorem waitsEndInSendingAndStartBitsInReceiving : Obligations.WaitsEndInSendingAndStartBitsInReceiving := by
  rintro l silence _ s rfl
  simp only [exec_gapWaitComplete, exec_backoffComplete]
  refine ⟨fun ex hx => ?_, fun h => by rw [if_neg (not_waitOver_iff.2 h)],
    fun h => by rw [if_neg (not_waitOver_iff.2 (.inl h))], fun hw hd => ?_, exec_startBitDetected_deaf⟩
  · rw [startSending_of_exch hx, collisions_of_exch hx]
    exact ⟨fun he ha hs => by rw [if_pos (waitOver_iff.2 ⟨he, ha, hs⟩)],
      fun he ha hs => by rw [if_pos (waitOver_iff.2 ⟨he, ha, hs⟩)],
      fun h => by rw [if_neg (not_waitOver_iff.2 h)]⟩
  · rw [exec_startBitDetected_heard hw hd, Line.startBit]
    exact ⟨fun he => by rw [if_pos he], fun he => by rw [if_neg he]⟩

/-! ### Ends and failed attempts on a sound line -/

/-- R17, R135: while an exchange is in flight the line is ON and holds no block, so it may be filed. -/
theorem on_and_blockless (h : linesSound s) (hx : (s.line l).exch = some ex) :
    (s.line l).power = .on ∧ (s.line l).block = [] :=
  have ⟨hp, _, hb⟩ := busy_line (h l) (by simp [hx])
  ⟨hp, hb⟩

/-- A line as the receiver's marks leave it: what may be filed on it is what might be filed before. -/
theorem on_and_blockless_setLine (h : linesSound s) (hx : (s.line l).exch = some ex) {y : Line}
    (hp : y.power = (s.line l).power) (hb : y.block = (s.line l).block) :
    ((s.setLine l y).line l).power = .on ∧ ((s.setLine l y).line l).block = [] := by
  rw [setLine_line_self, hp, hb]
  exact on_and_blockless h hx

/-! ### The timers of a reply -/

theorem exec_replyTimerExpiry (hx : (s.line l).exch = some ex) :
    exec (.replyTimerExpiry l) s =
      .next (if (s.line l).engine = .awaiting ∧ (s.line l).replyTimer.due s.count = true then s.failAttempt l ex .noReply
        else s) := by
  change execReplyTimerExpiry l s = _
  unfold execReplyTimerExpiry
  rw [hx]
  cases (s.line l).engine <;> simp

theorem exec_gapLimitExpiry (hx : (s.line l).exch = some ex) (silence : Nat) :
    exec (.gapLimitExpiry l silence) s =
      .next (if (s.line l).waitOver .receiving (s.line l).settings.gapLimit silence then
          s.failAttempt l { ex with kept := [] } .badFrame
        else s) := by
  change execGapLimitExpiry l silence s = _
  unfold execGapLimitExpiry
  rw [hx]

/-- Settles O53: either expiry that acts is a failed attempt on a line that is ON. -/
theorem silenceFailsTheAttempt : Obligations.SilenceFailsTheAttempt := by
  rintro l silence _ ex s rfl hx hs
  obtain ⟨hp, hb⟩ := on_and_blockless hs hx
  rw [exec_replyTimerExpiry hx, exec_gapLimitExpiry hx]
  refine ⟨fun he hd => ⟨_, by rw [if_pos ⟨he, hd⟩], failAttempt_failed hp hb ..⟩, fun h => ?_,
    fun he ha hr => ⟨_, by rw [if_pos (waitOver_iff.2 ⟨he, ha, hr⟩)], failAttempt_failed hp hb ..⟩,
    fun h => by rw [if_neg (not_waitOver_iff.2 h)]⟩
  rw [if_neg]
  rintro ⟨he, hd⟩
  simp [he, hd] at h

/-! ### EXCHANGE-ABORT -/

theorem exec_exchangeAbort {tag line : Byte} (hs : s.ready) :
    exec (.exchangeAbort tag line) s =
      .next ((doExchangeAbort line s).1.replying 0x94 tag (doExchangeAbort line s).2) :=
  submit_request (k := .exchangeAbort) (r := .exchangeAbort line) hs rfl (by simp)

theorem doExchangeAbort_badArg {line : Byte} (h : 3 < line.toNat) : doExchangeAbort line s = (s, [0x14]) := by
  simp only [doExchangeAbort, finOf_none (n := 4) h]
  rfl

theorem doExchangeAbort_empty (hx : (s.line l).exch = none) : doExchangeAbort (finByte l) s = (s, [0x02]) := by
  simp only [doExchangeAbort, finOf4, hx]
  rfl

theorem doExchangeAbort_inFlight (hx : (s.line l).exch = some ex) :
    doExchangeAbort (finByte l) s = (s.endOutside l .aborted, [0x00]) := by
  simp only [doExchangeAbort, finOf4, hx]
  rfl

/-- Settles O22: an outside ending, pending in SENDING and filed at once in any other state. -/
theorem exchangeAbortEndsTheExchangeInFlight : Obligations.ExchangeAbortEndsTheExchangeInFlight := by
  intro tag line s hs
  rw [exec_exchangeAbort hs]
  refine ⟨fun hbad => by rw [doExchangeAbort_badArg hbad], ?_⟩
  rintro l _ rfl rfl
  refine ⟨fun hx => by rw [doExchangeAbort_empty hx], fun ex hx => ?_⟩
  rw [doExchangeAbort_inFlight hx]
  refine ⟨fun he => by rw [endOutside_sending hx he], fun he hsound => ⟨_, rfl, ?_⟩⟩
  rw [endOutside_free hx he]
  exact fileQuiet_filed (on_and_blockless hsound hx).2 ex (by decide)

/-! ### Parity -/

/-- Exclusive or along a list counts its true members modulo 2. -/
theorem foldl_xor_eq_odd (p : Nat → Bool) (is : List Nat) (a : Bool) :
    is.foldl (fun b i => b.xor (p i)) a = a.xor (decide ((is.filter p).length % 2 = 1)) := by
  induction is generalizing a with
  | nil => simp
  | cons i is ih =>
    rw [List.foldl_cons, ih, List.filter_cons]
    cases p i with
    | false => simp
    | true =>
      rw [if_pos rfl, List.length_cons, Bool.xor_true, Bool.not_xor, ← Bool.xor_not, ← decide_not]
      congr 2
      exact propext (by omega)

theorem evenParity_eq_odd (d : Byte) :
    evenParity d = decide (((List.range 8).filter fun i => d.getLsbD i).length % 2 = 1) :=
  (foldl_xor_eq_odd d.getLsbD (List.range 8) false).trans (Bool.false_xor _)

theorem faultyChar_eq_false_iff (c : LineChar) : faultyChar c = false ↔
    c.stop = true ∧ c.parity = decide (((List.range 8).filter fun i => c.data.getLsbD i).length % 2 = 1) := by
  rw [← evenParity_eq_odd]
  simp [faultyChar, and_comm]

/-! ### Characters sent -/

theorem exec_characterSent_idle {readback : Option LineChar} (h : (s.line l).engine ≠ .sending ∨ (s.line l).exch = none) :
    exec (.characterSent l readback) s = .next s := by
  change execCharacterSent l readback s = _
  unfold execCharacterSent
  split
  next he hx => simp [he, hx] at h
  next => rfl

/-- R19, R23: the receiver takes its readback first, and the character is judged after. -/
theorem exec_characterSent_sending {readback : Option LineChar} (he : (s.line l).engine = .sending)
    (hx : (s.line l).exch = some ex) :
    exec (.characterSent l readback) s =
      .next ((s.setLine l ((s.line l).readBack ((s.line l).sees readback))).judgeSent l ex ((s.line l).sees readback)) := by
  change execCharacterSent l readback s = _
  unfold execCharacterSent
  simp only [he, hx]
  rfl

theorem readBack_eq {x : Line} {seen : Option LineChar} {waits : Bool} (hnone : seen = none → waits = x.waitIdle)
    (hsome : ∀ c, seen = some c → waits = !c.stop) : x.readBack seen = { x with waitIdle := waits } := by
  cases seen with
  | none => rw [hnone rfl]; rfl
  | some c => rw [hsome c rfl]; rfl

theorem judgeSent_pendingEnd {readback : Option LineChar} (h : ex.pendingEnd = some o) :
    s.judgeSent l ex readback = s.fileEnd l ex o := by
  rw [State.judgeSent, h]

theorem judgeSent_collision {readback : Option LineChar} {b : Byte} (h : ex.pendingEnd = none)
    (hb : (requestFrame ex.copy)[ex.sent]? = some b) (hr : readback ≠ some (cleanChar b)) :
    s.judgeSent l ex readback = s.collide l ex := by
  simp only [State.judgeSent, h, hb]
  exact if_pos hr

theorem judgeSent_clean {b : Byte} (h : ex.pendingEnd = none) (hb : (requestFrame ex.copy)[ex.sent]? = some b) :
    s.judgeSent l ex (some (cleanChar b)) =
      if ex.sent + 1 < (requestFrame ex.copy).length then
        s.setLine l { s.line l with exch := some { ex with sent := ex.sent + 1 } }
      else s.frameSent l ex := by
  simp only [State.judgeSent, h, hb]
  exact if_neg (not_not.2 rfl)

/-- Settles O52: with the readback taken, a pending end comes first, then a collision, and a clean character goes on or completes
the frame. -/
theorem characterSentIsJudgedByItsReadback : Obligations.CharacterSentIsJudgedByItsReadback := by
  refine ⟨fun _ => rfl, fun b => ⟨rfl, rfl, evenParity_eq_odd b⟩, ?_⟩
  rintro l readback waits _ s r rfl hwaits hr
  refine ⟨exec_characterSent_idle, fun ex he hx => ?_⟩
  have hread : (s.line l).readBack ((s.line l).sees readback) = { s.line l with waitIdle := waits } :=
    readBack_eq (fun hn => by rw [hwaits, hn]) (fun c hc => by rw [hwaits, hc])
  rw [exec_characterSent_sending he hx, hread, ← hr]
  have hon : linesSound s → (r.line l).power = .on ∧ (r.line l).block = [] := fun hs => by
    rw [hr]; exact on_and_blockless_setLine hs hx rfl rfl
  have hline : r.line l = { s.line l with waitIdle := waits } := by rw [hr, setLine_line_self]
  have hset : ∀ y, r.setLine l y = s.setLine l y := fun y => by rw [hr, setLine_twice]
  refine ⟨fun o ho hs => ⟨_, by rw [judgeSent_pendingEnd ho], fileEnd_filed (hon hs).1 (hon hs).2 ..⟩, fun b hp hb => ⟨?_, ?_⟩⟩
  · intro hclean
    have hstop : waits = false := by rw [hwaits, hclean]; rfl
    rw [hclean, judgeSent_clean hp hb]
    refine ⟨fun hlt => ?_, fun hlast hst => ?_, fun hlast hst hs => ⟨_, rfl, ?_⟩⟩
    · rw [if_pos hlt, hset, hline, hstop]
    · rw [if_neg (by omega), State.frameSent, if_neg hst, State.modLine, hset, hline, hstop, hr]
      rfl
    · rw [if_neg (by omega), State.frameSent, if_pos hst]
      exact fileEnd_filed (hon hs).1 (hon hs).2 ..
  · intro hdiff
    rw [judgeSent_collision hp hb hdiff, State.collide, hline]
    refine ⟨fun hle => ?_, fun hlt hs => ⟨_, rfl, ?_⟩⟩
    · rw [if_neg (Nat.not_lt.2 hle), State.modLine, hset, hline]
    · rw [if_pos hlt]
      exact fileEnd_filed (hon hs).1 (hon hs).2 ..

/-! ### Characters received -/

/-- R41: the receiver takes the character first, and it is judged after. -/
theorem exec_lineCharacterReceived_heard (hw : (s.line l).waitIdle = false) (hd : (s.line l).lnDe = false) (c : LineChar) :
    exec (.lineCharacterReceived l c) s = .next ((s.setLine l ((s.line l).afterCharacter c)).judgeReceived l c) :=
  congrArg Host.Outcome.next (if_neg (by simp [hw, hd]))

theorem judgeReceived_ignored {c : LineChar}
    (h : (s.line l).engine = .idle ∨ (s.line l).engine = .gapWait ∨ (s.line l).engine = .backoff) :
    s.judgeReceived l c = s := by
  unfold State.judgeReceived
  rcases h with h | h | h <;> simp only [h]

theorem judgeReceived_listening {c : LineChar} (h : (s.line l).engine = .listening) :
    s.judgeReceived l c = s.captureChar l c := by
  simp only [State.judgeReceived, h]

theorem judgeReceived_reply {c : LineChar} (h : (s.line l).engine = .awaiting ∨ (s.line l).engine = .receiving)
    (hx : (s.line l).exch = some ex) : s.judgeReceived l c = s.receiveReply l ex c := by
  rcases h with h | h <;> simp only [State.judgeReceived, h, hx]

/-! #### Capture blocks -/

/-- R136: a line whose open block a character has joined. -/
def joinBlock (x : Line) (c : LineChar) : Line :=
  { x with block := x.block ++ [c.data], blockParity := x.blockParity || faultyChar c }

theorem captureChar_room {x : Line} {c : LineChar} (hx : s.line l = x)
    (h : (x.block ++ [c.data]).length < x.settings.blockSize.bytes) : s.captureChar l c = s.setLine l (joinBlock x c) := by
  subst hx
  unfold State.captureChar
  simp only [modLine_line_self]
  exact if_neg (Nat.not_le.2 h)

theorem captureChar_full {x : Line} {c : LineChar} (hx : s.line l = x)
    (h : x.settings.blockSize.bytes ≤ (x.block ++ [c.data]).length) :
    s.captureChar l c = (s.setLine l (joinBlock x c)).closeBlock l := by
  subst hx
  unfold State.captureChar
  simp only [modLine_line_self]
  exact if_pos h

/-- R138: the closing of a block that is not empty. -/
theorem closeBlock_open (h : (s.line l).block ≠ []) :
    (s.closeBlock l).line l = { s.line l with block := [], blockParity := false } ∧
      (s.closeBlock l).store l =
        (s.store l).offered (captureRecord (s.line l).block (s.line l).blockParity s.count) := by
  constructor
  · rw [closeBlock_line, if_pos ⟨rfl, h⟩]
  · rw [closeBlock_store, if_pos rfl, State.blockRecords, if_neg h]
    rfl

/-! #### Replies -/

theorem replyBroken_iff (kept : List Byte) (d : Byte) :
    replyBroken (kept ++ [d]) = true ↔
      ((kept ++ [d]).length = 1 ∧ d ≠ 0x5B) ∨ ((kept ++ [d]).length = 4 ∧ 200 < d.toNat) := by
  match kept with
  | [] => exact decide_eq_true_iff.trans (by simp [Config.replyLead])
  | [_] => simp [replyBroken]
  | [_, _] => simp [replyBroken]
  | [_, _, _] => exact decide_eq_true_iff.trans (by simp [Config.maxReplyLen])
  | _ :: _ :: _ :: _ :: _ => simp [replyBroken]

theorem replyBroken_eq_false {kept : List Byte} {d : Byte} (h1 : (kept ++ [d]).length = 1 → d = 0x5B)
    (h4 : (kept ++ [d]).length = 4 → d.toNat ≤ 200) : replyBroken (kept ++ [d]) = false := by
  rw [← Bool.not_eq_true, replyBroken_iff]
  rintro (⟨hl, hd⟩ | ⟨hl, hd⟩)
  · exact hd (h1 hl)
  · exact absurd (h4 hl) (Nat.not_le.2 hd)

theorem replyComplete_iff (kept : List Byte) :
    replyComplete kept = true ↔ ∃ n, kept[3]? = some n ∧ n.toNat + 6 ≤ kept.length := by
  match kept with
  | [] => simp [replyComplete]
  | [_] => simp [replyComplete]
  | [_, _] => simp [replyComplete]
  | [_, _, _] => simp [replyComplete]
  | _ :: _ :: _ :: _ :: _ => simp [replyComplete]

theorem replyComplete_eq_false {kept : List Byte}
    (h : kept.length < 4 ∨ ∃ n, kept[3]? = some n ∧ kept.length < n.toNat + 6) : replyComplete kept = false := by
  rw [← Bool.not_eq_true, replyComplete_iff]
  rintro ⟨n, hn, hlen⟩
  rcases h with h | ⟨m, hm, h⟩
  · obtain ⟨h3, -⟩ := List.getElem?_eq_some_iff.1 hn
    omega
  · obtain rfl : m = n := Option.some.inj (hm.symm.trans hn)
    omega

theorem receiveReply_broken {c : LineChar} (h : faultyChar c = true ∨ replyBroken (ex.kept ++ [c.data]) = true) :
    s.receiveReply l ex c = s.failAttempt l { ex with kept := [] } .badFrame :=
  if_pos (by simpa using h)

theorem receiveReply_complete {c : LineChar} (hf : faultyChar c = false) (hb : replyBroken (ex.kept ++ [c.data]) = false)
    (hc : replyComplete (ex.kept ++ [c.data]) = true) :
    s.receiveReply l ex c = s.judgeReply l { ex with kept := ex.kept ++ [c.data] } := by
  simp [State.receiveReply, hf, hb, hc]

theorem receiveReply_goesOn {c : LineChar} (hf : faultyChar c = false) (hb : replyBroken (ex.kept ++ [c.data]) = false)
    (hc : replyComplete (ex.kept ++ [c.data]) = false) :
    s.receiveReply l ex c = s.setLine l { s.line l with
      engine := .receiving, replyTimer := .stopped, exch := some { ex with kept := ex.kept ++ [c.data] } } := by
  simp only [State.receiveReply, hf, hb, hc]
  rfl

/-- R30: the checks of a reply of the length its LEN names, in their order. -/
theorem judgeReply_eq {lead addr ctrl len hi lo : Byte} {payload : List Byte}
    (hk : ex.kept = [lead, addr, ctrl, len] ++ payload ++ [hi, lo]) (hlen : payload.length = len.toNat) :
    s.judgeReply l ex =
      if [hi, lo] ≠ crcBytes ([addr, ctrl, len] ++ payload) then s.failAttempt l ex .badCheck
      else if addr ≠ ex.copy.station then s.failAttempt l ex .wrongStation
      else if ex.copy.replyLimit < len.toNat then s.fileEnd l ex .overlength
      else s.fileEnd l { ex with reply := some { control := ctrl, payload } } .ok := by
  have hk' : ex.kept = lead :: addr :: ctrl :: len :: (payload ++ [hi, lo]) := by simpa using hk
  simp only [State.judgeReply, hk', List.take_left' hlen, List.drop_left' hlen]
  rfl

/-- Settles O54: the character is judged by the engine state; in AWAITING and RECEIVING by whether it breaks the reply off, joins
it or completes it, and a complete reply by the checks of R30. -/
theorem receivedCharacterIsJudgedByTheEngineState : Obligations.ReceivedCharacterIsJudgedByTheEngineState := by
  refine ⟨faultyChar_eq_false_iff, ?_⟩
  rintro l c _ s r rfl hw hr
  have hline : r.line l = (s.line l).afterCharacter c := by rw [hr, setLine_line_self]
  have hexec : (s.line l).lnDe = false → exec (.lineCharacterReceived l c) s = .next (r.judgeReceived l c) := fun hd => by
    rw [exec_lineCharacterReceived_heard hw hd, ← hr]
  refine ⟨fun hd => exec_lineCharacterReceived_deaf (.inr hd), fun hd he => ?_, fun hd he => ?_, ?_⟩
  · rw [hexec hd, judgeReceived_ignored (by rw [hline]; exact he)]
  · rw [hexec hd, judgeReceived_listening (by rw [hline]; exact he)]
    refine ⟨fun hroom => by rw [captureChar_room hline hroom]; rfl, fun hfull => ⟨_, rfl, ?_⟩⟩
    rw [captureChar_full hline hfull]
    have hjoin : (r.setLine l (joinBlock ((s.line l).afterCharacter c) c)).line l =
        joinBlock ((s.line l).afterCharacter c) c := setLine_line_self ..
    obtain ⟨hl, hst⟩ := closeBlock_open (by rw [hjoin]; simp [joinBlock] : (State.line _ l).block ≠ [])
    refine ⟨?_, hl.trans (by rw [hjoin]; rfl), hst.trans (by rw [hjoin, hr]; rfl)⟩
    rw [closeBlock_eq, hr]
    rfl
  · rintro ex _ hd he hx hs rfl
    obtain ⟨hp, hb⟩ : (r.line l).power = .on ∧ (r.line l).block = [] := by
      rw [hr]; exact on_and_blockless_setLine hs hx rfl rfl
    rw [hexec hd, judgeReceived_reply (ex := ex) (by rw [hline]; exact he) (by rw [hline]; exact hx)]
    refine ⟨fun hbreak => ⟨_, rfl, ?_⟩, fun hf h1 h4 hshort => ?_, ?_⟩
    · rw [receiveReply_broken (hbreak.imp id (replyBroken_iff ..).2)]
      exact failAttempt_failed hp hb ..
    · rw [receiveReply_goesOn hf (replyBroken_eq_false h1 h4) (replyComplete_eq_false hshort), hline, hr]
    · rintro lead addr ctrl len hi lo payload hf hk hlen
      have hlong : (ex.kept ++ [c.data]).length = len.toNat + 6 := by rw [hk]; simp [hlen]
      have hfourth : (ex.kept ++ [c.data])[3]? = some len := by rw [hk]; rfl
      rw [receiveReply_complete hf (replyBroken_eq_false (by omega) (by omega))
          ((replyComplete_iff _).2 ⟨len, hfourth, hlong.ge⟩), judgeReply_eq hk hlen]
      refine ⟨fun hcrc => ⟨_, by rw [if_pos hcrc], failAttempt_failed hp hb ..⟩, fun hcrc => ?_⟩
      rw [if_neg (not_not.2 hcrc)]
      refine ⟨fun hst => ⟨_, by rw [if_pos hst], failAttempt_failed hp hb ..⟩, fun hst hlim => ?_, fun hst hlim => ?_⟩
      · exact ⟨_, by rw [if_neg (not_not.2 hst), if_pos hlim], fileEnd_filed hp hb ..⟩
      · rw [if_neg (not_not.2 hst), if_neg (Nat.not_lt.2 hlim)]
        exact ⟨_, rfl, fileEnd_filed hp hb ..⟩

/-! ### The filing of an exchange that ended -/

/-- R33, R37: an end other than OK injects nothing, so it is filed as one from outside. -/
theorem fileEnd_eq_fileQuiet (ho : o ≠ .ok) (s : State) (l : Fin 4) (ex : Exchange) :
    s.fileEnd l ex o = s.fileQuiet l ex o := by
  unfold State.fileEnd State.fileQuiet State.fileWith
  simp only [evalWatches_notOk ho watchTrigger noInject]

theorem offers_of {p : RecordPolicy} (h : p = .always ∨ (p = .failures ∧ o ≠ .ok)) : p.offers o = true := by
  rcases h with rfl | ⟨rfl, ho⟩
  · rfl
  · exact decide_eq_true ho

theorem not_offers_of {p : RecordPolicy} (h : p = .never ∨ (p = .failures ∧ o = .ok)) : p.offers o = false := by
  rcases h with rfl | ⟨rfl, ho⟩
  · rfl
  · exact decide_eq_false (not_not.2 ho)

/-- R42, R51: a scan exchange in flight is that of a chain on its line. -/
theorem chainHere_of_flightSound (h : flightSound s) (hx : (s.line l).exch = some ex) : ChainHere s l ex := by
  intro c ho _ horphan
  have := (h l c).2 (by simp [hx, ho, horphan])
  rw [Bool.and_eq_true] at this
  exact this.2

/-! #### The watches -/

/-- R129: what an end other than OK makes of a watch. -/
def afterFailure (entry : Fin 128) (o : ExchOutcome) (x : Watch) : Watch :=
  if x.entry = entry ∧ o ≠ .preempted ∧ o ≠ .aborted then { x with status := .stale } else x

theorem setWatch_same {w : Fin 32} {x : Watch} (hx : s.watch w = some x) : s.setWatch w (some x) = s := by
  rw [← hx]
  simp [State.setWatch, State.watch]

theorem evalWatch_failure (ho : o ≠ .ok) {w : Fin 32} {x : Watch} (hx : s.watch w = some x) (inject : Injector)
    (entry : Fin 128) (payload : List Byte) :
    s.evalWatch inject entry o payload w = s.setWatch w (some (afterFailure entry o x)) := by
  simp only [State.evalWatch, hx]
  by_cases he : x.entry = entry
  · rw [if_neg (not_not.2 he)]
    cases o
    case ok => exact absurd rfl ho
    case preempted | aborted => rw [afterFailure, if_neg (by simp), setWatch_same hx]
    all_goals rw [afterFailure, if_pos ⟨he, by decide, by decide⟩]
  · rw [if_pos he, afterFailure, if_neg fun h => he h.1, setWatch_same hx]

theorem evalWatch_failure_watch (ho : o ≠ .ok) (inject : Injector) (s : State) (entry : Fin 128) (payload : List Byte)
    (w i : Fin 32) :
    (s.evalWatch inject entry o payload w).watch i =
      if i = w then (s.watch w).map (afterFailure entry o) else s.watch i := by
  cases hx : s.watch w with
  | none =>
    simp only [State.evalWatch, hx]
    split
    next hi => rw [hi, hx]; rfl
    next => rfl
  | some x => rw [evalWatch_failure ho hx, setWatch_watch]; rfl

theorem evalWatches_failure (ho : o ≠ .ok) (inject : Injector) (s : State) (entry : Fin 128) (payload : List Byte)
    (w : Fin 32) :
    (s.evalWatches inject entry o payload).watch w = (s.watch w).map (afterFailure entry o) := by
  have hfold : ∀ (ws : List (Fin 32)) (u : State), ws.Nodup →
      (ws.foldl (State.evalWatch inject entry o payload) u).watch w =
        if w ∈ ws then (u.watch w).map (afterFailure entry o) else u.watch w := by
    intro ws
    induction ws with
    | nil => intro u _; rfl
    | cons v ws ih =>
      intro u hnd
      obtain ⟨hv, hws⟩ := List.nodup_cons.1 hnd
      rw [List.foldl_cons, ih _ hws, evalWatch_failure_watch ho]
      by_cases hw : w = v
      · subst hw
        simp [hv]
      · simp [hw]
  exact (hfold _ s (List.nodup_finRange 32)).trans (if_pos (List.mem_finRange w))

theorem fileOrigin_watches (s : State) (l : Fin 4) (ex : Exchange) (o : ExchOutcome) :
    (s.fileOrigin l ex o).watches = s.watches := by
  unfold State.fileOrigin
  split
  · exact HeldKept.scanEnd (P := fun t => t.watches = s.watches)
      ⟨fun _ _ _ _ _ h => h, fun _ _ _ h => h, fun _ _ h => h, fun _ _ _ _ h => h⟩ rfl ..
  all_goals rfl

/-! #### The line -/

theorem goneOff_keeps {u t : State} (h : u.goneOff t l) :
    t.watches = u.watches ∧ (t.line l).demand = (u.line l).demand ∧ (t.line l).power = .off := by
  obtain ⟨ht, -, -, z, rfl, hchain, hnone⟩ := h
  refine ⟨by rw [ht], ?_⟩
  by_cases hc : ∃ c, u.activeChain l = some c ∧ ((u.chain c).state = .running ∨ (u.chain c).state = .held)
  · obtain ⟨c, hc, hst⟩ := hc
    obtain ⟨-, -, -, hline⟩ := hchain c hc hst
    rw [hline]
    split <;> exact ⟨rfl, rfl⟩
  · have hline := (hnone fun c hc' => not_or.1 fun hst => hc ⟨c, hc', hst⟩).2
    rw [hline]
    exact ⟨rfl, rfl⟩

/-- R49, R91, R92: what a line that follows its demand set down keeps. -/
theorem followsDown_keeps {u t : State} (h : u.followsDown t l) :
    t.watches = u.watches ∧ (t.line l).demand.ask = (u.line l).demand.ask ∧
      ((t.line l).power = .on → (t.line l).held = (u.line l).held ∧ (t.line l).heldCount = (u.line l).heldCount) := by
  obtain ⟨round, y, rfl, -, hstays, hgoes⟩ := h
  by_cases hs : (u.line l).supplied = true ∧
      ({ (u.line l).demand with round } : DemandSet).isEmpty = true ∧ (u.line l).exch = none
  · obtain ⟨hsup, hempty, hfree⟩ := hs
    obtain ⟨hw, hd, hoff⟩ := goneOff_keeps (hgoes hsup hempty hfree)
    rw [setLine_line_self] at hd
    exact ⟨hw, by rw [hd], fun hon => by simp [hoff] at hon⟩
  · rw [not_and_or, not_and_or, Bool.not_eq_true, Bool.not_eq_true] at hs
    rw [hstays hs, setLine_line_self]
    exact ⟨rfl, rfl, fun _ => ⟨rfl, rfl⟩⟩

theorem afterFiling_queue (q : List Injected) : AfterFiling fun x => x.queue = q where
  take _ _ h := h
  clear _ h := h
  injected _ h := h
  round _ _ h := h
  off _ h _ := h
  block _ h := h

theorem fileOrigin_injected (h : ∀ c, ex.origin ≠ .chain c) (s : State) (l : Fin 4) (o : ExchOutcome) :
    s.fileOrigin l ex o = s.modLine l Line.injectedFiled := by
  unfold State.fileOrigin
  split
  next c hc => exact absurd hc (h c)
  all_goals rfl

/-- R71, R89: while an injected exchange is in flight the ASK demand is present. -/
theorem ask_of_injected (h : demandTrue s) (hx : (s.line l).exch = some ex) (ho : ∀ c, ex.origin ≠ .chain c) :
    (s.line l).demand.ask = true := by
  have hscan : ex.isScan = false := by
    unfold Exchange.isScan
    split
    next c hc => exact absurd hc (ho c)
    all_goals rfl
  simp [(h l).2, Line.injectedInFlight, hx, hscan]

/-- R82: the ASK demand and the held position after an injected exchange. -/
theorem fileQuiet_injected (ho : ∀ c, ex.origin ≠ .chain c) (s : State) (l : Fin 4) (o : ExchOutcome) :
    ((s.fileQuiet l ex o).line l).demand.ask = ((s.line l).demand.ask && !(s.line l).queue.isEmpty) ∧
      (((s.fileQuiet l ex o).line l).power = .on →
        ((s.fileQuiet l ex o).line l).held = (s.line l).held ∧
          ((s.fileQuiet l ex o).line l).heldCount =
            if (s.line l).held.isSome then min 8 ((s.line l).heldCount + 1) else (s.line l).heldCount) := by
  obtain ⟨-, hline, -⟩ := evaluated_frame s l ex o
  obtain ⟨-, hask, hheld⟩ := followsDown_keeps (withdraw_follows ((s.evaluated l ex o).fileOrigin l ex o) l)
  rw [fileOrigin_injected ho, modLine_line_self, hline, ← fileOrigin_injected ho, ← fileQuiet_eq] at hask hheld
  exact ⟨hask, hheld⟩

theorem fileQuiet_watch (ho : o ≠ .ok) (s : State) (l : Fin 4) (ex : Exchange) (w : Fin 32) :
    (s.fileQuiet l ex o).watch w = (s.watch w).map (afterFailure ex.entry o) := by
  have hrecord : ((s.modLine l Line.freeEngine).fileRecord l ex o).watch w = s.watch w := by
    unfold State.fileRecord
    split
    · rw [offer_watch, modLine_watch]
    · rfl
  obtain ⟨hfollow, -, -⟩ := followsDown_keeps (withdraw_follows ((s.evaluated l ex o).fileOrigin l ex o) l)
  calc (s.fileQuiet l ex o).watch w
      = (s.evaluated l ex o).watch w := congrArg (·[w]) (hfollow.trans (fileOrigin_watches ..))
    _ = (s.watch w).map (afterFailure ex.entry o) := by rw [State.evaluated, evalWatches_failure ho, hrecord]

/-- Settles O56: the steps of R37 in order; an end other than OK injects nothing, so beyond its watches it changes its own line
only. -/
theorem filingOfAnEndedExchange : Obligations.FilingOfAnEndedExchange := by
  rintro l ex o s _ ⟨hlines, ⟨-, -, hflight, -⟩, hdemand, -⟩ hx rfl
  constructor
  · obtain ⟨hp, hb⟩ := on_and_blockless hlines hx
    obtain ⟨hexch, hengine, hde, htimer, hstore, horder⟩ := fileEnd_filed hp hb ex o
    exact ⟨hexch, hengine, hde, htimer, fun h => by rw [hstore, not_offers_of h]; rfl,
      fun h => by rw [hstore, offers_of h]; rfl, horder⟩
  · intro ho
    rw [fileEnd_eq_fileQuiet ho]
    refine ⟨fileQuiet_line (afterFiling_queue _) rfl ex o,
      fun k hk => fileQuiet_other (chainHere_of_flightSound hflight hx) o hk,
      ((sameConfig_kept s l).fileQuiet (SameConfig.refl s) ex o).1, fun horigin => ?_, fun w x hw => ?_⟩
    · obtain ⟨hask, hheld⟩ := fileQuiet_injected horigin s l o
      refine ⟨by rw [hask, ask_of_injected hdemand hx horigin, Bool.true_and], fun h hh hon => ?_⟩
      obtain ⟨hkept, hcount⟩ := hheld hon
      exact ⟨hkept.trans hh, by rw [hcount, hh]; rfl⟩
    · rw [fileQuiet_watch ho, hw]
      rfl

end Sys2Proof.Proofs
end

section
/-! PROOFS. What every step keeps (R43, R68, R51, R49, R71, R6, R79): a property that survives the operations commands are
made of, each under what the command has checked before it, survives every command; so do sound lines, and the agreement of
lines, chains, demand sets and plan. -/

namespace Sys2Proof.Proofs

open Sys2Proof Sys2Proof.Machine

/-! ### Changes of one line that nothing else takes notice of -/

/-- What goes on in an exchange in flight, or nothing in flight. -/
inductive SameFlight : Option Exchange → Option Exchange → Prop
  | free : SameFlight none none
  | goesOn {ex ex' : Exchange} (h : SameExchange ex ex') : SameFlight (some ex) (some ex')

theorem SameFlight.refl : ∀ x, SameFlight x x
  | none => .free
  | some ex => .goesOn (.refl ex)

/-- A line has changed in its settings, its power, its outputs or its engine, and in nothing that another block knows of. -/
structure QuietChange (x y : Line) : Prop where
  held : y.held = x.held
  queue : y.queue = x.queue
  demand : y.demand = x.demand
  flight : SameFlight x.exch y.exch
  power : y.power = x.power ∨ x.power = .settling ∧ y.power = .on
  sound : lineSound x → lineSound y

theorem QuietChange.refl (x : Line) : QuietChange x x :=
  ⟨rfl, rfl, rfl, .refl _, .inl rfl, id⟩

/-- R101: the settings of a line that is OFF. -/
theorem quietChange_settings {x : Line} (h : x.power = .off) (y : LineSettings) :
    QuietChange x { x with settings := y } where
  held := rfl
  queue := rfl
  demand := rfl
  flight := .refl _
  power := .inl rfl
  sound := by
    rintro ⟨hs, hd, -⟩
    obtain ⟨hx, he⟩ := shape_unpowered hs (by simp [h])
    obtain ⟨h1, h2, h3, -, h5, h6, h7, h8, -, h10⟩ := hs
    have hb := (h10 (by simp [he])).1
    exact ⟨⟨h1, h2, h3, by simp [engineFits, he, hx, h], h5, h6, h7, h8, by simpa [hb] using blockSize_pos _, h10⟩, hd,
      exchangeSound_none hx⟩

/-- R91, R135: a line in SETTLING enters ON. -/
theorem quietChange_enterOn {x : Line} (h : x.power = .settling) : QuietChange x x.enterOn where
  held := rfl
  queue := rfl
  demand := rfl
  flight := .refl _
  power := .inr ⟨h, rfl⟩
  sound := by
    rintro ⟨hs, hd, -⟩
    obtain ⟨hx, he⟩ := shape_unpowered hs (by simp [h])
    obtain ⟨h1, h2, -, -, h5, h6, h7, h8, -, -⟩ := hs
    have hde : x.lnDe = false := by rw [h2, he]; rfl
    refine ⟨⟨by rw [Line.enterOn, h1]; simp [Line.supplied, h], ?_, rfl, ?_, h5, h6, h7, h8, blockSize_pos _,
      fun _ => ⟨rfl, rfl⟩⟩, ?_, exchangeSound_none hx⟩
    · cases hm : x.settings.mode <;> simp [Line.enterOn, hde, hm]
    · cases hm : x.settings.mode <;> simp [Line.enterOn, engineFits, hx, hm]
    · simpa [demandSound, Line.supplied, Line.enterOn, h] using hd

/-- R22, R25: a wait is over and the frame starts from LEAD. -/
theorem quietChange_startSending {x : Line} (h : x.engine = .gapWait ∨ x.engine = .backoff) :
    QuietChange x x.startSending where
  held := rfl
  queue := rfl
  demand := rfl
  flight := by
    cases hx : x.exch with
    | none => rw [Line.startSending, hx]; exact .free
    | some ex => rw [Line.startSending, hx]; exact .goesOn ⟨rfl, rfl, rfl, rfl, rfl⟩
  power := .inl rfl
  sound := by
    rintro ⟨hs, hd, hex⟩
    have hne : x.exch ≠ none := fun hx => by
      rcases shape_free hs hx with e | e <;> simp [e] at h
    obtain ⟨hp, hm, -, hl⟩ := shape_busy hs hne
    obtain ⟨ex, hx⟩ := Option.ne_none_iff_exists'.1 hne
    obtain ⟨h1, -, h3, -, h5, h6, h7, h8, h9, h10⟩ := hs
    rw [Line.startSending, hx]
    refine ⟨⟨h1, rfl, h3, by simp [engineFits, hp, hm], h5, h6, h7, h8, h9, fun _ => h10 hl⟩,
      demandSound_exch (by simp [Line.supplied, hp]) (by simp), ?_⟩
    rintro _ ⟨⟩
    obtain ⟨a, b, c, d⟩ := hex ex hx
    exact ⟨a, b, c, fun o ho => ⟨rfl, (d o ho).2⟩⟩

/-- R19: the marks of the receiver and the level of LnOVL# bear on nothing. -/
theorem quietChange_inputs (x : Line) (arriving waitIdle lnOvl : Bool) :
    QuietChange x { x with arriving, waitIdle, lnOvl } :=
  ⟨rfl, rfl, rfl, .refl _, .inl rfl, fun h => h⟩

/-- R27. -/
theorem quietChange_startBit (x : Line) : QuietChange x x.startBit := by
  unfold Line.startBit
  split
  case isFalse => exact quietChange_inputs x true x.waitIdle x.lnOvl
  case isTrue he =>
    refine ⟨rfl, rfl, rfl, .refl _, .inl rfl, ?_⟩
    rintro ⟨hs, hd, hex⟩
    have hne : x.exch ≠ none := fun hx => by rcases shape_free hs hx with e | e <;> simp [e] at he
    obtain ⟨hp, hm, -, hl⟩ := shape_busy hs hne
    obtain ⟨h1, h2, h3, -, h5, h6, h7, h8, h9, h10⟩ := hs
    refine ⟨⟨h1, ?_, h3, ?_, h5, h6, h7, h8, h9, fun _ => h10 hl⟩, hd, fun ex hx => ?_⟩
    · show x.lnDe = false
      rw [h2, he]; rfl
    · simp [engineFits, hp, hm, Option.isSome_iff_ne_none, hne]
    · obtain ⟨a, b, c, d⟩ := exchangeFits_notSending hex hx (by simp [he])
      exact ⟨a, b, c, by simp [d]⟩

theorem quietChange_readBack (x : Line) (seen : Option LineChar) : QuietChange x (x.readBack seen) := by
  cases seen with
  | none => exact .refl x
  | some c => exact quietChange_inputs x x.arriving (!c.stop) x.lnOvl

/-! ### Operations, and the commands made of them -/

/-- The property survives every operation that a command is made of, each under what the command has checked before. -/
structure KeptByOperations (P : State → Prop) : Prop where
  frame : ∀ {s t : State}, P s → t.lines = s.lines → t.chains = s.chains → t.plan = s.plan → P t
  line : ∀ {s l f}, QuietChange (s.line l) (f (s.line l)) → P s → P (s.modLine l f)
  entry : ∀ {s e} x, s.inUse e = false → P s → P (s.setEntry e x)
  define : ∀ {s c} d, (s.chain c).active = false → P s → P (s.setChain c (Chain.fresh d))
  startChain : ∀ {s c l}, (s.chain c).onLine l = true → (s.chain c).active = false → s.activeChain l = none → P s →
    P (s.startChain c l)
  stopChain : ∀ {s : State} c, P s → P (s.stopChain c)
  abortChain : ∀ {s : State} c, P s → P (s.abortChain c)
  roundExpiry : ∀ {s c}, (s.chain c).timer ≠ .stopped → P s → P (s.roundExpiry c)
  linePowerOn : ∀ {s : State} l, P s → P (s.linePowerOn l).1
  linePowerOff : ∀ {s : State} l, P s → P (s.linePowerOff l).1
  resume : ∀ {s l}, (s.line l).power = .fault → P s → P (s.resume l)
  faultHandling : ∀ {s : State} l, P s → P (s.faultHandling l)
  askHost : ∀ {s : State} e lv, P s → P (s.askAt e lv .host).1
  cancelAsk : ∀ {s l} e, (s.line l).queue ≠ [] → P s → P (s.cancelAsk l e)
  choose : ∀ {s l}, (s.line l).free = true → P s → P (s.choose l)
  abortExchange : ∀ {s : State} l, P s → P (s.endOutside l .aborted)
  judgeSent : ∀ {s l ex} r, (s.line l).exch = some ex → (s.line l).engine = .sending → P s → P (s.judgeSent l ex r)
  judgeReceived : ∀ {s : State} l c, P s → P (s.judgeReceived l c)
  failAttempt : ∀ {s l ex} kept o, (s.line l).exch = some ex → (s.line l).engine ≠ .sending → P s →
    P (s.failAttempt l { ex with kept } o)
  closeBlock : ∀ {s : State} l, P s → P (s.closeBlock l)
  restarted : ∀ s : State, P s.restarted
  powerOn : ∀ b v q, P (State.powerOn b v q)

namespace KeptByOperations

variable {P : State → Prop} (K : KeptByOperations P) {s : State} (h : P s)
include K h

/-! #### What no operation on a line is part of -/

theorem setLink (k : LinkPort) : P (s.setLink k) := K.frame h rfl rfl rfl

theorem raise (c : AttnClass) (k : Nat) : P (s.raise c k) := K.frame h rfl rfl rfl

theorem setWatch (w : Fin 32) (x : Option Watch) : P (s.setWatch w x) := K.frame h rfl rfl rfl

theorem judgeLevel (l : Fin 4) : P (s.judgeLevel l) := by
  rw [judgeLevel_eq]
  exact K.frame h rfl rfl rfl

theorem dropOldest (l : Fin 4) : P (s.dropOldest l) := K.judgeLevel (s := s.setStore l _) (K.frame h rfl rfl rfl) l

theorem clearStore (l : Fin 4) : P (s.clearStore l) := K.judgeLevel (s := s.setStore l _) (K.frame h rfl rfl rfl) l

/-! #### Requests on attention, stores and watches -/

theorem doNoticeAck (cls : Byte) (detail : Word) : P (doNoticeAck cls detail s).1 := by
  unfold Machine.doNoticeAck
  split
  · exact h
  · split
    · exact h
    · split
      · exact h
      · exact K.frame h rfl rfl rfl

theorem doMaskSet (set : Byte) : P (doMaskSet set s).1 := by
  unfold Machine.doMaskSet
  split
  · exact K.frame h rfl rfl rfl
  · exact h

theorem doFetch (line release : Byte) : P (doFetch line release s).1 := by
  unfold Machine.doFetch
  split
  · split
    · exact h
    · dsimp only
      split
      · exact K.dropOldest h _
      · exact h
  · exact h

theorem doRelease (line : Byte) (sequence : Half) : P (doRelease line sequence s).1 := by
  unfold Machine.doRelease
  split
  · split
    · exact h
    · split
      · exact K.dropOldest h _
      · exact h
  · exact h

theorem doStoreClear (line : Byte) : P (doStoreClear line s).1 := by
  unfold Machine.doStoreClear
  split
  · exact K.clearStore h _
  · exact h

theorem doWatchErase (watch : Byte) : P (doWatchErase watch s).1 := by
  unfold Machine.doWatchErase
  split
  · exact h
  · split
    · exact h
    · exact K.setWatch h _ _

/-! #### Requests on lines -/

theorem doLineSet (l m b g c t a th k : Byte) : P (doLineSet l m b g c t a th k s).1 := by
  unfold Machine.doLineSet
  split
  · split
    next => exact h
    next hbusy =>
      have hoff := not_not.1 (not_or.1 hbusy).1
      exact K.judgeLevel (K.line (quietChange_settings hoff _) h) _
  · exact h

theorem doLinePower (line direction : Byte) : P (doLinePower line direction s).1 := by
  unfold Machine.doLinePower
  split
  · exact K.linePowerOn _ h
  · exact K.linePowerOff _ h
  · exact h

theorem doLineResume (line : Byte) : P (doLineResume line s).1 := by
  unfold Machine.doLineResume
  split
  · exact h
  · split
    next hf => exact K.resume hf h
    next => exact h

theorem doExchangeAbort (line : Byte) : P (doExchangeAbort line s).1 := by
  unfold Machine.doExchangeAbort
  split
  · exact h
  · split
    · exact h
    · exact K.abortExchange _ h

/-! #### Requests on the plan -/

theorem doPlanWrite (e l st ct rl tm re po lk : Byte) (payload : List Byte) :
    P (doPlanWrite e l st ct rl tm re po lk payload s).1 := by
  unfold Machine.doPlanWrite
  split
  · split
    next => exact h
    next hu => exact K.entry _ (Bool.eq_false_iff.2 hu) h
  · exact h

theorem doPlanErase (entry : Byte) : P (doPlanErase entry s).1 := by
  unfold Machine.doPlanErase
  split
  · exact h
  · split
    · exact h
    · split
      next => exact h
      next hu => exact K.entry _ (Bool.eq_false_iff.2 hu) h

/-! #### Requests on chains -/

theorem doChainSet (c l hd : Byte) (p : Half) (pw nt : Byte) : P (doChainSet c l hd p pw nt s).1 := by
  unfold Machine.doChainSet
  split
  · split
    next => exact h
    next ha => exact K.define _ (Bool.eq_false_iff.2 ha) h
  · exact h

theorem doChainStart (chain : Byte) : P (doChainStart chain s).1 := by
  unfold Machine.doChainStart
  split
  · exact h
  · split
    · exact h
    next d hd =>
      split
      · exact h
      next hbusy =>
        split
        · exact h
        · rw [Bool.or_eq_true, not_or, Bool.not_eq_true, Bool.not_eq_true, Option.isSome_eq_false_iff,
            Option.isNone_iff_eq_none] at hbusy
          exact K.startChain (onLine_iff.2 ⟨d, hd, rfl⟩) hbusy.1 hbusy.2 h

theorem doChainStop (chain : Byte) : P (doChainStop chain s).1 := by
  unfold Machine.doChainStop
  split
  · exact h
  · exact K.stopChain _ h

theorem doChainAbort (chain : Byte) : P (doChainAbort chain s).1 := by
  unfold Machine.doChainAbort
  split
  · exact h
  · exact K.abortChain _ h

/-! #### Injected requests -/

theorem doAsk (entry level : Byte) : P (doAsk entry level s).1 := by
  unfold Machine.doAsk
  split
  · exact K.askHost _ _ h
  · exact h

theorem doAskCancel (entry : Byte) : P (doAskCancel entry s).1 := by
  unfold Machine.doAskCancel
  split
  · exact h
  · split
    · exact h
    · split
      · exact h
      next hq => exact K.cancelAsk _ (List.ne_nil_of_mem (findEntry_some hq).1) h

/-! #### The Link Port -/

/-- R156, step 3: a request that is processed. -/
theorem process (r : Request) : P (process r s).1 := by
  cases r
  case ident | restart | notice => exact h
  case lineRead => unfold Machine.process doLineRead; dsimp only; split <;> exact h
  case planRead => unfold Machine.process doPlanRead; dsimp only; split <;> [exact h; (split <;> exact h)]
  case chainRead => unfold Machine.process doChainRead; dsimp only; split <;> exact h
  case queueRead => unfold Machine.process doQueueRead; dsimp only; split <;> exact h
  case watchRead => unfold Machine.process doWatchRead; dsimp only; split <;> [exact h; (split <;> exact h)]
  case valuesRead => unfold Machine.process doValuesRead; dsimp only; split <;> exact h
  case watchWrite => unfold Machine.process doWatchWrite; dsimp only; split <;> [exact K.setWatch h _ _; exact h]
  case noticeAck => exact K.doNoticeAck h ..
  case maskSet => exact K.doMaskSet h _
  case lineSet => exact K.doLineSet h ..
  case linePower => exact K.doLinePower h ..
  case lineResume => exact K.doLineResume h _
  case exchangeAbort => exact K.doExchangeAbort h _
  case planWrite => exact K.doPlanWrite h ..
  case planErase => exact K.doPlanErase h _
  case chainSet => exact K.doChainSet h ..
  case chainStart => exact K.doChainStart h _
  case chainStop => exact K.doChainStop h _
  case chainAbort => exact K.doChainAbort h _
  case ask => exact K.doAsk h ..
  case askCancel => exact K.doAskCancel h _
  case fetch => exact K.doFetch h ..
  case release => exact K.doRelease h ..
  case storeClear => exact K.doStoreClear h _
  case watchErase => exact K.doWatchErase h _

theorem takeRequest (m : Message) : P (takeRequest m s) := by
  unfold Machine.takeRequest
  split
  · exact K.setLink h _
  · exact K.setLink h _
  · exact K.setLink (K.process h _) _

theorem handOver (m : Message) : P (handOver m s) := by
  unfold Machine.handOver
  split
  · exact h
  · split
    · exact K.takeRequest h m
    · split
      · exact K.setLink h _
      · exact K.raise h _ _

theorem frameComplete (len : Byte) (kept : List Byte) : P (frameComplete len kept s) := by
  have hsearch : P s.rxSearch := K.setLink h _
  unfold Machine.frameComplete
  dsimp only
  split
  · exact K.raise hsearch _ _
  · split
    · exact K.handOver hsearch _
    · exact hsearch

theorem judgeHostChar (b : Byte) : P (judgeHostChar b s) := by
  unfold Machine.judgeHostChar
  split
  · split
    · exact K.setLink h _
    · exact h
  · split
    · exact K.setLink h _
    · exact K.raise (K.setLink h _) _ _
  · split
    · exact K.frameComplete h _ _
    · exact K.setLink h _

theorem restartIfDue : P s.restartIfDue := by
  unfold State.restartIfDue
  split
  · exact K.restarted s
  · exact h
  · exact h

theorem nextRequest : P s.nextRequest := by
  unfold State.nextRequest
  split
  · exact K.takeRequest (K.setLink h _) _
  · exact K.setLink h _

theorem reset (e : ResetEvent) {t : State} (he : exec (.powerOnReset e) s = .next t) : P t := by
  cases he
  split
  · exact K.setLink (K.powerOn _ _ _) _
  · split
    · exact K.powerOn _ _ _
    · exact h
  · exact K.powerOn _ _ _

theorem hostCharacter (b : Byte) (m : CharMoment) {t : State} (he : exec (.hostCharacterReceived b m) s = .next t) :
    P t := by
  cases he
  split
  · exact h
  · split
    · exact K.setLink h _
    · exact K.judgeHostChar (K.setLink h _) b

/-! #### Events of chains and lines -/

theorem characterSent (l : Fin 4) (r : Option LineChar) {t : State} (he : exec (.characterSent l r) s = .next t) : P t := by
  cases he
  split
  next ex hs hx =>
    refine K.judgeSent _ ?_ ?_ (K.line (quietChange_readBack _ _) h) <;> rw [modLine_line_self] <;>
      unfold Line.readBack <;> split <;> assumption
  next => exact h

theorem replyTimerExpiry (l : Fin 4) {t : State} (he : exec (.replyTimerExpiry l) s = .next t) : P t := by
  cases he
  split
  next ex hs hx =>
    split
    · exact K.failAttempt ex.kept _ hx (by simp [hs]) h
    · exact h
  next => exact h

theorem gapLimitExpiry (l : Fin 4) (silence : Nat) {t : State} (he : exec (.gapLimitExpiry l silence) s = .next t) :
    P t := by
  cases he
  split
  next ex hx =>
    split
    next hw => exact K.failAttempt [] _ hx (by simp [(waitOver_iff.1 hw).1]) h
    next => exact h
  next => exact h

theorem overload (l : Fin 4) (asserted : Bool) {t : State} (he : exec (.overload l asserted) s = .next t) : P t := by
  have hlevel : P (s.modLine l fun x => { x with lnOvl := asserted }) :=
    K.line (quietChange_inputs _ (s.line l).arriving (s.line l).waitIdle asserted) h
  cases he
  split
  · exact K.faultHandling l hlevel
  · exact hlevel

theorem lineEvent {c : Instr} (hc : lineEvent c = true) {t : State} (he : exec c s = .next t) : P t := by
  cases c <;> simp only [Machine.lineEvent, Bool.false_eq_true] at hc
  case characterSent => exact K.characterSent h _ _ he
  case replyTimerExpiry => exact K.replyTimerExpiry h _ he
  case gapLimitExpiry => exact K.gapLimitExpiry h _ _ he
  case overload => exact K.overload h _ _ he
  all_goals cases he
  case roundTimerExpiry.refl =>
    split
    next hdue => exact K.roundExpiry (fun hst => by simp [hst, Timer.due] at hdue) h
    next => exact h
  case settleTimerExpiry.refl =>
    split
    next hset => exact K.line (quietChange_enterOn hset.1) h
    next => exact h
  case schedulerChoice.refl =>
    split
    next hfree => exact K.choose hfree h
    next => exact h
  case gapWaitComplete.refl =>
    split
    next hw => exact K.line (quietChange_startSending (.inl (waitOver_iff.1 hw).1)) h
    next => exact h
  case backoffComplete.refl =>
    split
    next hw => exact K.line (quietChange_startSending (.inr (waitOver_iff.1 hw).1)) h
    next => exact h
  case startBitDetected.refl =>
    split
    next => exact h
    next => exact K.line (quietChange_startBit _) h
  case lineCharacterReceived.refl l c =>
    split
    next => exact h
    next => exact K.judgeReceived _ _ (K.line (quietChange_inputs _ false (!c.stop) (s.line l).lnOvl) h)
  case captureIdleClose.refl =>
    split
    next => exact K.closeBlock _ h
    next => exact h
  case lnrxReturnToIdleLevel.refl l =>
    exact K.line (quietChange_inputs _ (s.line l).arriving false (s.line l).lnOvl) h

/-! #### Every command and every step -/

theorem exec {c : Instr} {t : State} (he : exec c s = .next t) : P t := by
  cases hr : requestOf c with
  | some m =>
    rw [exec_request hr] at he
    cases he
    exact K.handOver h m
  | none =>
    cases hl : Machine.lineEvent c with
    | true => exact K.lineEvent h hl he
    | false =>
      cases c <;> simp only [requestOf, Machine.lineEvent, reduceCtorEq, Bool.true_eq_false] at hr hl
      case watchWrite inj => cases inj <;> simp at hr
      case powerOnReset => exact K.reset h _ he
      case hostCharacterReceived => exact K.hostCharacter h _ _ he
      all_goals cases he
      case none.false.partRestart.refl => exact K.restartIfDue h
      case none.false.hostTimeout.refl =>
        split
        · exact K.raise (K.setLink h _) _ _
        · exact h
      case none.false.replyEnd.refl =>
        split
        · exact h
        · exact K.restartIfDue h
        · exact K.nextRequest h
      case none.false.timeBaseIncrement.refl => exact K.frame h rfl rfl rfl
      case none.false.hrxReturnToIdleLevel.refl => exact K.setLink h _

theorem step {t : State} (he : step s = .next t) : P t := by
  unfold Machine.step at he
  split at he
  · cases he
    exact h
  next rest _ => exact K.exec (s := { s with pending := rest }) (K.frame h rfl rfl rfl) he

end KeptByOperations

/-! ### Sound lines -/

theorem lineSound_of_quiet {x : Line} (h : x.quiet) : lineSound x := by
  obtain ⟨hp, hd, ht, hw, hq, hh, hc, he, hde, hx, -, hb, hbp⟩ := h
  refine ⟨⟨by simp [hw, Line.supplied, hp], by simp [hde, he], by simp [settleFits, ht, hp],
    by simp [engineFits, he, hx, hp], by rw [hq]; exact queueSound_nil, fun h => absurd hq h, fun _ => hc, by simp [hc],
    by simpa [hb] using blockSize_pos _, fun _ => ⟨hb, hbp⟩⟩, ?_, exchangeSound_none hx⟩
  exact demandSound_unsupplied (by simp [Line.supplied, hp]) (by simp [hd, DemandSet.isEmpty])

theorem linesSound_restarted (s : State) : linesSound s.restarted := by
  intro l
  refine lineSound_of_quiet ?_
  simp [State.restarted, State.line, Line.restarted, Line.fresh, Line.quiet, DemandSet.empty]

/-- R66, R67, R68, R71, R88, R17, R23, R90, R31, R34, R135. -/
theorem linesSound_kept : KeptByOperations linesSound where
  frame h hl _ _ l := by rw [State.line, hl]; exact h l
  line {s l f} hf h k := by
    rw [modLine_line]
    split
    · exact hf.sound (h l)
    · exact h k
  entry _ _ h := h
  define _ _ h := h
  startChain _ _ _ h := linesSound_iff.2 (linesBut_startChain (linesSound_iff.1 h) _ _)
  stopChain c h := linesSound_iff.2 (linesBut_stopChain (linesSound_iff.1 h) c)
  abortChain c h := linesSound_iff.2 (linesBut_abortChain (linesSound_iff.1 h) c)
  roundExpiry _ h := linesSound_iff.2 (linesBut_roundExpiry (linesSound_iff.1 h) _)
  linePowerOn l h := linesSound_iff.2 (linesBut_linePowerOn (linesSound_iff.1 h) l)
  linePowerOff l h := linesSound_iff.2 (linesBut_linePowerOff (linesSound_iff.1 h) l)
  resume hf h := linesSound_iff.2 (linesBut_resume (linesSound_iff.1 h) _ hf)
  faultHandling _ h := linesSound_iff.2 (linesBut_faultHandling (linesSound_iff.1 h))
  askHost e lv h := linesSound_iff.2 (linesBut_askAt (linesSound_iff.1 h) e lv rfl)
  cancelAsk e hq h := linesSound_iff.2 (linesBut_cancelAsk (linesSound_iff.1 h) hq e)
  choose hf h := linesSound_iff.2 (linesBut_choose (linesSound_iff.1 h) hf)
  abortExchange l h := linesSound_iff.2 (linesBut_endOutside (linesSound_iff.1 h) l (.inr rfl))
  judgeSent r hx hs h := linesSound_iff.2 (linesBut_judgeSent (linesSound_iff.1 h) hx hs r)
  judgeReceived _ c h := linesSound_iff.2 (linesBut_judgeReceived (linesSound_iff.1 h) c)
  failAttempt {s l ex} kept o hx hs h := by
    obtain ⟨a, b, c, d⟩ := exchangeFits_notSending (h _).2.2 hx hs
    exact linesSound_iff.2
      (linesBut_failAttempt (ex := { ex with kept }) (linesSound_iff.1 h) (by simp [hx]) ⟨a, b, c, d⟩ o)
  closeBlock l h := linesSound_iff.2 (linesBut_closeBlock (linesSound_iff.1 h) l)
  restarted s := linesSound_restarted s
  powerOn b v q l := lineSound_of_quiet ((powerOn_atRest b v q).1 l)

/-! ### Lines, chains, demand sets and plan -/

theorem partSound_iff {s : State} : partSound s ↔ linesSound s ∧ Agrees s := by
  rw [Agrees, ← agree_iff]

variable {s : State} {l : Fin 4} {c : Fin 8}

theorem agrees_quietChange {f : Line → Line} (h : Agrees s) (hl : linesSound s)
    (hf : QuietChange (s.line l) (f (s.line l))) : Agrees (s.modLine l f) := by
  obtain ⟨hh, hq, hd, hx, hp, -⟩ := hf
  generalize hx1 : (s.line l).exch = x at hx
  generalize hx2 : (f (s.line l)).exch = y at hx
  cases hx with
  | free =>
    refine agree_lineSame h hh (hx2.trans hx1.symm) hq (by rw [hd]) (by rw [hd]) ?_
    rcases hp with hp | ⟨hp, hp'⟩
    · rw [hp]
    · simp [hp, hp']
  | goesOn hs =>
    refine agree_exch h hx1 hx2 hs.entry hs.copy hs.origin hs.orphan hs.powered hh hq hd (hp.resolve_right fun hp' => ?_)
    simp [(busy_line (hl l) (by simp [hx1])).1] at hp'

theorem agrees_linePowerOn (h : Agrees s) (l : Fin 4) : Agrees (s.linePowerOn l).1 := by
  unfold State.linePowerOn
  split
  · exact h
  · exact agrees_hostDemand h l

theorem agrees_linePowerOff (h : Agrees s) (hl : linesSound s) (l : Fin 4) : Agrees (s.linePowerOff l).1 := by
  unfold State.linePowerOff
  split
  next => exact h
  next hf => exact agrees_leaveFault h (linesSound_iff.1 hl) hf
  all_goals
    split
    · exact h
    · exact agrees_dropHost h l

theorem agrees_askHost (h : Agrees s) (e : Fin 128) (lv : Level) : Agrees (s.askAt e lv .host).1 :=
  agree_askAt h e lv .host fun _ _ => rfl

/-- R42: the round timer of an IDLE chain is stopped. -/
theorem not_idle_of_timer (h : Agrees s) (ht : (s.chain c).timer ≠ .stopped) : (s.chain c).state ≠ .idle := by
  intro hst
  have hcs := h.2 c
  simp [chainSound, hst, ht] at hcs

/-- Lines and agreement survive one by one; the lines were sound before. -/
theorem partSound_of {t : State} (h : partSound s) (hl : linesSound s → linesSound t)
    (ha : linesSound s → Agrees s → Agrees t) : partSound t := by
  obtain ⟨h1, h2⟩ := partSound_iff.1 h
  exact partSound_iff.2 ⟨hl h1, ha h1 h2⟩

/-- R43, R68, R51, R49, R71, R6, R79. -/
theorem partSound_kept : KeptByOperations partSound :=
  have K := linesSound_kept
  {
    frame := fun h hl hc hp => partSound_of h (fun h => K.frame h hl hc hp) fun _ ha =>
      ha.congr (fun l => by rw [State.line, hl]; rfl) (fun c => by rw [State.chain, hc]; rfl) hp
    line := fun hf h => partSound_of h (K.line hf) fun hl ha => agrees_quietChange ha hl hf
    entry := fun x hu h => partSound_of h (K.entry x hu) fun _ ha => agrees_setEntry ha hu x
    define := fun d hi h => partSound_of h (K.define d hi) fun _ ha => agrees_setChain ha hi d
    startChain := fun ho hi hn h => partSound_of h (K.startChain ho hi hn) fun _ ha => agrees_startChain ha ho hi hn
    stopChain := fun c h => partSound_of h (K.stopChain c) fun _ ha => agrees_stopChain ha c
    abortChain := fun c h => partSound_of h (K.abortChain c) fun _ ha => agrees_abortChain ha c
    roundExpiry := fun ht h => partSound_of h (K.roundExpiry ht) fun _ ha =>
      agrees_roundExpiry ha (not_idle_of_timer ha ht)
    linePowerOn := fun l h => partSound_of h (K.linePowerOn l) fun _ ha => agrees_linePowerOn ha l
    linePowerOff := fun l h => partSound_of h (K.linePowerOff l) fun hl ha => agrees_linePowerOff ha hl l
    resume := fun hf h => partSound_of h (K.resume hf) fun _ ha => agrees_resume ha _
    faultHandling := fun l h => partSound_of h (K.faultHandling l) fun _ ha => agree_faultHandling ha rfl
    askHost := fun e lv h => partSound_of h (K.askHost e lv) fun _ ha => agrees_askHost ha e lv
    cancelAsk := fun e hq h => partSound_of h (K.cancelAsk e hq) fun _ ha => agree_cancelAsk ha rfl e
    choose := fun hf h => partSound_of h (K.choose hf) fun hl ha =>
      agrees_choose ha (linesSound_iff.1 hl) (free_iff.1 hf).2.2
    abortExchange := fun l h => partSound_of h (K.abortExchange l) fun _ ha => agrees_endOutside ha l _
    judgeSent := fun r hx hs h => partSound_of h (K.judgeSent r hx hs) fun hl ha =>
      agrees_judgeSent ha (linesSound_iff.1 hl) hx r
    judgeReceived := fun l c h => partSound_of h (K.judgeReceived l c) fun hl ha =>
      agrees_judgeReceived ha (linesSound_iff.1 hl) c
    failAttempt := fun {_ _ ex} kept o hx hs h => partSound_of h (K.failAttempt kept o hx hs) fun hl ha =>
      agrees_failAttempt (ex := { ex with kept }) ha (linesSound_iff.1 hl) hx ⟨rfl, rfl, rfl, rfl, rfl⟩ o
    closeBlock := fun l h => partSound_of h (K.closeBlock l) fun _ ha => agree_closeBlock ha l
    restarted := fun s => partSound_iff.2 ⟨K.restarted s, agrees_restarted s⟩
    powerOn := fun b v q => partSound_iff.2 ⟨K.powerOn b v q, agrees_powerOn b v q⟩ }

/-- Settles O58: each operation keeps lines and agreement (`partSound_kept`), and a step is one command. -/
theorem everyStepKeepsThePartSound : Obligations.EveryStepKeepsThePartSound :=
  fun _ _ h he => partSound_kept.step h he

end Sys2Proof.Proofs
end

section
/-! PROOFS. Scan chains and the Time Base (R42 to R65): CHAIN-SET, CHAIN-READ, the end of a scan exchange,
CHAIN-START, the expiry of a round timer, CHAIN-STOP and CHAIN-ABORT. -/

namespace Sys2Proof.Proofs

open Sys2Proof Sys2Proof.Machine

variable {s : State} {c : Fin 8} {d : ChainDef}

/-! ### The Time Base -/

/-- Settles O12: the count is a word of 32 bits, so adding 1 wraps. -/
theorem timeBaseCountsMilliseconds : Obligations.TimeBaseCountsMilliseconds := fun s =>
  ⟨{ s with count := s.count + 1 }, rfl, rfl, BitVec.toNat_add s.count 1⟩

/-! ### CHAIN-SET -/

theorem exec_chainSet {tag chain line head powered notify : Byte} {period : Half} (hs : s.ready) :
    exec (.chainSet tag chain line head period powered notify) s =
      .next ((doChainSet chain line head period powered notify s).1.replying 0xB0 tag
        (doChainSet chain line head period powered notify s).2) :=
  submit_request (k := .chainSet) (r := .chainSet chain line head period powered notify) hs
    (by simp [parseBody, parseChainSet, le16]) (by simp)

theorem doChainSet_badArg {chain line head powered notify : Byte} {period : Half}
    (h : 7 < chain.toNat ∨ 3 < line.toNat ∨ 127 < head.toNat ∨ 1 < powered.toNat ∨ 1 < notify.toNat) :
    doChainSet chain line head period powered notify s = (s, [0x14]) := by
  unfold doChainSet
  split
  next hc hl hh hp hn =>
    rcases h with h | h | h | h | h
    · simp [finOf_none h] at hc
    · simp [finOf_none h] at hl
    · simp [finOf_none h] at hh
    · simp [boolOf_none h] at hp
    · simp [boolOf_none h] at hn
  next => rfl

theorem doChainSet_fields :
    doChainSet (finByte c) (finByte d.line) (finByte d.head) d.period (boolByte d.powered) (boolByte d.notify) s =
      if (s.chain c).active then (s, [0x10]) else (s.setChain c (chainCleared (some d)), [0x00]) := by
  simp only [doChainSet, finOf8, finOf4, finOf128, boolOf_boolByte]
  rfl

theorem active_iff {ch : Chain} : ch.active = true ↔ ch.state ≠ .idle := decide_eq_true_iff

/-- Settles O28: fields in range read back as the definition they carry. -/
theorem chainSetDefinesAnIdleChain : Obligations.ChainSetDefinesAnIdleChain := by
  intro tag chain line head powered notify period s hs
  rw [exec_chainSet hs]
  refine ⟨fun hbad => by rw [doChainSet_badArg hbad], ?_⟩
  rintro c d rfl rfl rfl rfl rfl rfl
  rw [doChainSet_fields]
  exact ⟨fun ha => by rw [if_pos (active_iff.2 ha)], fun hi => by rw [if_neg fun ha => active_iff.1 ha hi]⟩

/-! ### CHAIN-READ -/

theorem exec_chainRead {tag chain : Byte} (hs : s.ready) :
    exec (.chainRead tag chain) s = .next ((doChainRead chain s).1.replying 0xB1 tag (doChainRead chain s).2) :=
  submit_request (k := .chainRead) (r := .chainRead chain) hs rfl (by simp)

theorem doChainRead_badArg {chain : Byte} (h : 7 < chain.toNat) : doChainRead chain s = (s, [0x14]) := by
  simp only [doChainRead, finOf_none (n := 8) h]
  rfl

/-- R46: the body that shows a chain. -/
def chainBytes (s : State) (c : Fin 8) : List Byte :=
  [0x00, finByte c, definedCode (s.chain c).defn] ++ chainDefBytes (s.chain c).defn ++ [(s.chain c).state.code] ++
    s.positionBytes c ++ [boolByte (s.chain c).inFlight, natByte (s.chain c).taken] ++ le16 (s.chain c).rounds ++
    [natByte (s.chain c).late, boolByte (s.chain c).roundDue] ++ timeLeft32 ((s.chain c).timer.left s.count) ++
    [(s.chain c).reason.code]

theorem doChainRead_chain : doChainRead (finByte c) s = (s, chainBytes s c) := by
  simp only [doChainRead, finOf8]
  rfl

theorem chainDefBytes_length (x : Option ChainDef) : (chainDefBytes x).length = 6 := by cases x <;> rfl

theorem timeLeft32_length (x : Option Nat) : (timeLeft32 x).length = 4 := by cases x <;> rfl

theorem positionBytes_length (s : State) (c : Fin 8) : (s.positionBytes c).length = 2 := by
  unfold State.positionBytes
  split
  · split <;> rfl
  all_goals rfl

theorem chainBytes_length (s : State) (c : Fin 8) : (chainBytes s c).length = 23 := by
  simp [chainBytes, chainDefBytes_length, positionBytes_length, timeLeft32_length, le16]

/-- Settles O29: the body is shown piece by piece. -/
theorem chainReadShowsTheDescriptor : Obligations.ChainReadShowsTheDescriptor := by
  refine ⟨⟨rfl, rfl⟩, fun tag chain s hs => ?_⟩
  rw [exec_chainRead hs]
  refine ⟨fun hbad => by rw [doChainRead_badArg hbad], ?_⟩
  rintro c _ rfl rfl
  refine ⟨chainBytes s c, by rw [doChainRead_chain], chainBytes_length s c, ?_⟩
  refine congrArg (· ++ [(s.chain c).reason.code]) (congrArg₂ (· ++ ·) (congrArg (· ++ _) (congrArg (· ++ _)
    (congrArg (· ++ _) (congrArg₂ (· ++ ·) (congrArg (· ++ _) ?definition) ?position)))) ?timer)
  case definition => cases (s.chain c).defn <;> rfl
  case timer => cases (s.chain c).timer <;> rfl
  case position =>
    unfold State.positionBytes State.holdOf
    cases (s.chain c).state
    case held =>
      cases (s.chain c).defn with
      | none => rfl
      | some d => dsimp only [Option.bind_some]; cases (s.line d.line).held <;> rfl
    all_goals cases (s.chain c).position <;> rfl

/-! ### A chain and the Attention Unit change -/

theorem setAttn_setChain (s : State) (c : Fin 8) (x y : Chain) (a : Attention) :
    { s.setChain c x with attn := a }.setChain c y = { s with attn := a }.setChain c y := by
  simp [State.setChain]

/-- R60: a fault of a chain that is not HELD, some of whose fields have just changed. -/
theorem chainFault_setChain_gained {x : Chain} (hx : x.state ≠ .held) (r : FaultReason) :
    ∃ a, s.attn.gained a .chainFault c.val ∧
      (s.setChain c x).chainFault c r = { s with attn := a }.setChain c { x.gone with reason := r } := by
  obtain ⟨a, hg, he⟩ := chainFault_gained (s := s.setChain c x) (c := c) (by rwa [setChain_chain_self]) r
  exact ⟨a, hg, by rw [he, setAttn_setChain, setChain_chain_self]⟩

/-! ### A round starts on a chain some of whose fields have just changed -/

section

variable {x : Chain} (hd : x.defn = some d)
include hd

/-- R48, step 1. -/
theorem roundStart_setChain_gone (hx : x.state ≠ .held) (he : s.entryOn d.head d.line = false) :
    ∃ a, s.attn.gained a .chainFault c.val ∧
      (s.setChain c x).roundStart c = { s with attn := a }.setChain c { x.gone with reason := .headGone } := by
  rw [roundStart_gone (s := s.setChain c x) (d := d) (by rw [setChain_chain_self]; exact hd) he]
  exact chainFault_setChain_gained hx _

/-- R48, step 3. -/
theorem roundStart_setChain_lineOff (hx : x.state ≠ .held) (he : s.entryOn d.head d.line = true)
    (hf : (s.line d.line).power = .off) (ho : d.powered = false) :
    ∃ a, s.attn.gained a .chainFault c.val ∧
      (s.setChain c x).roundStart c = { s with attn := a }.setChain c { x.gone with reason := .lineOff } := by
  rw [roundStart_lineOff (s := s.setChain c x) (d := d) (by rw [setChain_chain_self]; exact hd) he hf ho]
  exact chainFault_setChain_gained hx _

/-- R48, step 2. -/
theorem roundStart_setChain_held (he : s.entryOn d.head d.line = true) (hf : (s.line d.line).power = .fault) :
    (s.setChain c x).roundStart c =
      (s.setChain c { x.inNewRound d s.count with state := .held, position := none }).setLine d.line
        { s.line d.line with held := some { entry := d.head, reason := .next, owner := c }, heldCount := 0 } := by
  rw [roundStart_held (s := s.setChain c x) (d := d) (by rw [setChain_chain_self]; exact hd) he hf,
    setChain_chain_self, setChain_twice]
  rfl

/-- R48, steps 4 to 6. -/
theorem roundStart_setChain_runs (he : s.entryOn d.head d.line = true) (hf : (s.line d.line).power ≠ .fault)
    (ho : d.powered = true ∨ (s.line d.line).power ≠ .off) :
    (s.setChain c x).roundStart c = s.setChain c (x.inNewRound d s.count) := by
  rw [roundStart_runs (s := s.setChain c x) (d := d) (by rw [setChain_chain_self]; exact hd) he hf ho,
    setChain_chain_self, setChain_twice]
  rfl

end

/-! ### The end of a scan exchange -/

section

variable {l : Fin 4} {ex : Exchange} {o : ExchOutcome} {x : Chain}

/-- R51, R52: any other end of the exchange of a RUNNING chain follows the link. -/
theorem scanEnd_follows (hi : (s.chain c).inFlight = true) (ho : ex.orphan = false) (hs : (s.chain c).state = .running)
    (hp : o ≠ .preempted) (hf : o ≠ .lineFault) :
    s.scanEnd c l ex o = (s.setChain c { s.chain c with inFlight := false }).linkFollow c ex.copy := by
  change _ = (s.modChain c fun ch => { ch with inFlight := false }).linkFollow c ex.copy
  unfold State.scanEnd
  rw [if_pos (by simp [hi, ho])]
  simp only [hs]
  cases o
  case preempted => exact absurd rfl hp
  case lineFault => exact absurd rfl hf
  all_goals rfl

/-- R52, R13. -/
theorem linkFollow_eq (hd : (s.chain c).defn = some d) {p : PlanEntry} {k : Fin 128} (hk : p.link = some k) :
    s.linkFollow c p =
      if 128 ≤ (s.chain c).taken then s.chainFault c .loop
      else if s.entryOn k d.line then s.modChain c fun ch => { ch with position := some k }
      else s.chainFault c .badLink := by
  unfold State.linkFollow
  simp only [hk, hd]
  rfl

/-- R52: the link is followed by a chain some of whose fields have just changed. -/
theorem linkFollow_setChain (hd : x.defn = some d) (hx : x.state ≠ .held) {p : PlanEntry} {k : Fin 128}
    (hk : p.link = some k) :
    (128 ≤ x.taken → ∃ a, s.attn.gained a .chainFault c.val ∧
      (s.setChain c x).linkFollow c p = { s with attn := a }.setChain c { x.gone with reason := .loop }) ∧
    (x.taken < 128 → s.entryOn k d.line = true →
      (s.setChain c x).linkFollow c p = s.setChain c { x with position := some k }) ∧
    (x.taken < 128 → s.entryOn k d.line = false → ∃ a, s.attn.gained a .chainFault c.val ∧
      (s.setChain c x).linkFollow c p = { s with attn := a }.setChain c { x.gone with reason := .badLink }) := by
  have hself : (s.setChain c x).chain c = x := setChain_chain_self _ _ _
  have hon : (s.setChain c x).entryOn k d.line = s.entryOn k d.line := rfl
  rw [linkFollow_eq (by rw [hself]; exact hd) hk, hself, hon, State.modChain, setChain_twice, hself]
  refine ⟨fun ht => ?_, fun ht he => ?_, fun ht he => ?_⟩
  · rw [if_pos ht]
    exact chainFault_setChain_gained hx _
  · rw [if_neg (by omega), if_pos he]
  · rw [if_neg (by omega), if_neg (by simp [he])]
    exact chainFault_setChain_gained hx _

/-- R53, step 1, and R55: the round of a chain is counted, and CHAIN-DONE gains one that notifies or has period 0. -/
def roundCounted (s : State) (c : Fin 8) (d : ChainDef) : State :=
  if d.notify || decide (d.period = 0) then
    (s.modChain c fun ch => { ch with rounds := ch.rounds + 1 }).raise .chainDone c.val
  else s.modChain c fun ch => { ch with rounds := ch.rounds + 1 }

/-- R53, R55: what follows on a round that has been counted. -/
def afterRound (s : State) (c : Fin 8) (d : ChainDef) : State :=
  if d.period = 0 then s.setChain c (s.chain c).gone
  else if (s.chain c).roundDue then
    (s.setChain c { s.chain c with late := min 255 ((s.chain c).late + 1) }).roundStart c
  else s.setChain c { s.chain c with state := .armed, position := none }

theorem roundEnd_eq (hd : (s.chain c).defn = some d) : s.roundEnd c = afterRound (roundCounted s c d) c d := by
  unfold State.roundEnd
  simp only [hd]
  rfl

theorem roundCounted_gained (s : State) (c : Fin 8) (d : ChainDef) :
    ∃ a, (if d.notify = true ∨ d.period = 0 then s.attn.gained a .chainDone c.val else a = s.attn) ∧
      roundCounted s c d = { s with attn := a }.setChain c { s.chain c with rounds := (s.chain c).rounds + 1 } := by
  unfold roundCounted
  simp only [Bool.or_eq_true, decide_eq_true_eq]
  split
  · exact ⟨_, raise_gained (s.modChain c _) .chainDone c.val, rfl⟩
  · exact ⟨_, rfl, rfl⟩

/-- Settles O34: by the state of the chain, the outcome, the link and what is due when the round has ended. -/
theorem scanExchangeEndMovesItsChain : Obligations.ScanExchangeEndMovesItsChain := by
  rintro c l ex o d _ s rfl hd
  refine ⟨scanEnd_none, fun hi ho => ⟨scanEnd_stopping hi ho, scanEnd_again hi ho, fun hs hp hf => ?_⟩⟩
  rw [scanEnd_follows hi ho hs hp hf]
  refine ⟨fun k hk => linkFollow_setChain (x := { s.chain c with inFlight := false }) hd (by simp [hs]) hk, fun hk => ?_⟩
  obtain ⟨a, ha, he⟩ := roundCounted_gained (s.setChain c { s.chain c with inFlight := false }) c d
  have hend : (s.setChain c { s.chain c with inFlight := false }).linkFollow c ex.copy =
      (s.setChain c { s.chain c with inFlight := false }).roundEnd c := by rw [State.linkFollow, hk]
  rw [hend, roundEnd_eq (by rw [setChain_chain_self]; exact hd), he, setAttn_setChain, setChain_chain_self, afterRound,
    setChain_chain_self, setChain_twice, setChain_twice, setChain_twice]
  refine ⟨a, ha, fun hz => if_pos hz, fun hz hn => ?_, fun hz hdue hon => ?_, fun hz hdue hoff => ?_⟩
  · rw [if_neg hz, if_neg (by simp [hn])]
  · rw [if_neg hz, if_pos hdue]
    exact ⟨fun hf hp => roundStart_setChain_runs (s := { s with attn := a }) hd hon hf hp.symm,
      fun hf => roundStart_setChain_held (s := { s with attn := a }) hd hon hf,
      fun hf hp => roundStart_setChain_lineOff (s := { s with attn := a }) hd (by simp [hs]) hon hf hp⟩
  · rw [if_neg hz, if_pos hdue]
    exact roundStart_setChain_gone (s := { s with attn := a }) hd (by simp [hs]) hoff

end

/-! ### A RUNNING chain under an overload -/

theorem activeChain_congr {t : State} (h : t.chains = s.chains) (k : Fin 4) :
    t.activeChain k = s.activeChain k := by
  unfold State.activeChain State.chain
  rw [h]

/-- R43: the one chain that is active on its line. -/
theorem activeChain_unique {k : Fin 4} (ha : (s.chain c).active = true) (hon : (s.chain c).onLine k = true)
    (hu : ∀ c', (s.chain c').onLine k = true → (s.chain c').active = true → c' = c) :
    s.activeChain k = some c := by
  cases hc : s.activeChain k with
  | none => simp [activeChain_none.1 hc c hon] at ha
  | some c' =>
    obtain ⟨ha', hon'⟩ := activeChain_some hc
    rw [hu c' hon' ha']

/-- R94, step 5, and R62: what fault handling does to a RUNNING chain with no exchange in flight on its line. -/
theorem faultHandling_running {k : Fin 4} {p : Fin 128} (hx : (s.line k).exch = none) (ha : s.activeChain k = some c)
    (hst : (s.chain c).state = .running) (hp : (s.chain c).position = some p) (hi : (s.chain c).inFlight = false) :
    (∀ c', (s.faultHandling k).chain c' =
        if c' = c then { s.chain c with state := .held, position := none } else s.chain c') ∧
      ((s.faultHandling k).line k).held = some { entry := p, reason := .next, owner := c } ∧
      ((s.faultHandling k).line k).heldCount = 0 := by
  obtain ⟨-, hline, -, hchains, -, -⟩ := faultStart_frame s k
  have hexch : (s.faultStart k).faultExchange k = s.faultStart k := by
    rw [State.faultExchange, hline, hx]
  obtain ⟨-, -, -, hqueue⟩ := faultQueueEnd_frame (s.faultStart k) k
  generalize hu : (s.faultStart k).faultQueueEnd k = u at hqueue
  have hchains : u.chains = s.chains := hqueue.trans hchains
  have hchain : ∀ c', u.chain c' = s.chain c' := fun c' => by rw [State.chain, hchains]; rfl
  have hheld : s.faultHandling k = (u.holdChain c k p .next).raise .lineFault k.val := by
    rw [faultHandling_eq, hexch, hu, faultHold_chain u k (by rw [activeChain_congr hchains, ha])]
    simp only [hchain, hst, hp, hi]
    rfl
  rw [hheld]
  refine ⟨fun c' => ?_, ?_, ?_⟩
  · rw [raise_chain, holdChain_chain, hchain, hchain]
  all_goals rw [raise_line, holdChain_line, if_pos rfl]; rfl

/-- R49, R90: a line that was OFF has powered up for a round; LnOVL# has not been looked at yet. -/
def poweredUp (s : State) (l : Fin 4) : State :=
  (s.syncRound l).modLine l fun x =>
    { x with power := .settling, lnPwr := true, settleTimer := .running s.count (x.settings.settleSteps * 50) }

theorem poweredUp_chain (s : State) (l : Fin 4) (c : Fin 8) : (poweredUp s l).chain c = s.chain c := rfl

theorem settleDemand_poweredUp {l : Fin 4} (hf : (s.line l).power = .off) (hw : s.roundWanted l = true)
    (hov : (s.line l).lnOvl = true) : s.settleDemand l = (poweredUp s l).faultHandling l := by
  unfold State.settleDemand
  rw [withdraw_off hf, State.powerUp, if_pos, State.enterSettling]
  · exact if_pos (by rw [modLine_line_self, syncRound_line, if_pos rfl]; exact hov)
  · rw [syncRound_line, if_pos rfl, hw]
    exact ⟨hf, by simp [DemandSet.isEmpty]⟩

/-! ### What a sound part says of one line -/

theorem partSound_line (h : partSound s) (l : Fin 4) : lineSound (s.line l) := h.1 l

theorem round_judged (h : partSound s) (l : Fin 4) : (s.line l).demand.round = s.roundWanted l := by
  obtain ⟨-, -, hdemand, -⟩ := h
  exact (hdemand l).1

theorem demand_judged (h : partSound s) (l : Fin 4) : demandSound (s.line l) := by
  obtain ⟨-, hdemand, -⟩ := partSound_line h l
  exact hdemand

/-- R23: only a line that is ON has an exchange in flight. -/
theorem exch_unpowered (h : partSound s) {l : Fin 4} (hp : (s.line l).power ≠ .on) : (s.line l).exch = none :=
  (shape_unpowered (partSound_line h l).1 hp).1

/-- R43. -/
theorem active_unique (h : partSound s) {l : Fin 4} {c c' : Fin 8} (ha : (s.chain c).active = true)
    (hon : (s.chain c).onLine l = true) (ha' : (s.chain c').active = true) (hon' : (s.chain c').onLine l = true) :
    c' = c := by
  obtain ⟨-, ⟨hone, -⟩, -⟩ := h
  exact hone l c' c (by simp [ha', hon']) (by simp [ha, hon])

/-! ### A round starts, and the line of the chain follows -/

/-- R49: a chain that holds no round bears on no demand set. -/
theorem settleDemand_noRound (h : partSound s) (hr : (s.chain c).inRound = false) {x : Chain}
    (hx : x.defn = (s.chain c).defn) (hxr : x.inRound = false) (a : Attention) (l : Fin 4) :
    ({ s with attn := a }.setChain c x).settleDemand l = { s with attn := a }.setChain c x := by
  refine settleDemand_same ((round_judged h l).trans (Eq.symm ?_)) (demand_judged h l)
  refine roundWanted_congr (s := s) Iff.rfl (fun c' => ?_) (fun c' _ => ?_) rfl <;> rw [setChain_chain] <;> split
  case refine_1.isTrue e => rw [e]; exact onLine_of_defn hx l
  case refine_2.isTrue e => rw [e, hr, hxr, Bool.and_false, Bool.and_false]
  all_goals rfl

/-- R49, R60: nor does one that has just taken a chain fault. -/
theorem settleDemand_faulted (h : partSound s) (hr : (s.chain c).inRound = false) {x : Chain}
    (hx : x.defn = (s.chain c).defn) (r : FaultReason) (a : Attention) (l : Fin 4) :
    ({ s with attn := a }.setChain c { x.gone with reason := r }).settleDemand l =
      { s with attn := a }.setChain c { x.gone with reason := r } :=
  settleDemand_noRound (x := { x.gone with reason := r }) h hr hx rfl a l

theorem not_held_of_noRound {x : Chain} (hr : x.inRound = false) : x.state ≠ .held := fun hst => by
  simp [Chain.inRound, hst] at hr

section

variable {x : Chain} (h : partSound s) (hr : (s.chain c).inRound = false) (hd : (s.chain c).defn = some d)
  (hx : x.defn = some d) (hxr : x.inRound = false)
include h hr hd hx hxr

/-- R48, step 1. -/
theorem newRound_gone (he : s.entryOn d.head d.line = false) :
    ∃ a, s.attn.gained a .chainFault c.val ∧
      ((s.setChain c x).roundStart c).settleDemand d.line =
        { s with attn := a }.setChain c { x.gone with reason := .headGone } := by
  obtain ⟨a, ha, hgone⟩ := roundStart_setChain_gone (c := c) hx (not_held_of_noRound hxr) he
  exact ⟨a, ha, by rw [hgone, settleDemand_faulted h hr (hx.trans hd.symm)]⟩

/-- R48, step 3. -/
theorem newRound_lineOff (he : s.entryOn d.head d.line = true) (hf : (s.line d.line).power = .off)
    (ho : d.powered = false) :
    ∃ a, s.attn.gained a .chainFault c.val ∧
      ((s.setChain c x).roundStart c).settleDemand d.line =
        { s with attn := a }.setChain c { x.gone with reason := .lineOff } := by
  obtain ⟨a, ha, hgone⟩ := roundStart_setChain_lineOff (c := c) hx (not_held_of_noRound hxr) he hf ho
  exact ⟨a, ha, by rw [hgone, settleDemand_faulted h hr (hx.trans hd.symm)]⟩

omit hr hd hxr in
/-- R48, step 2: a line in FAULT has no demand to judge. -/
theorem newRound_held (he : s.entryOn d.head d.line = true) (hf : (s.line d.line).power = .fault) :
    ((s.setChain c x).roundStart c).settleDemand d.line =
      (s.setChain c { x.inNewRound d s.count with state := .held, position := none }).setLine d.line
        { s.line d.line with held := some { entry := d.head, reason := .next, owner := c }, heldCount := 0 } := by
  rw [roundStart_setChain_held hx he hf]
  refine settleDemand_same ?_ ?_
  · rw [roundWanted_fault (by rw [setLine_line_self]; exact hf), setLine_line_self]
    exact (round_judged h d.line).trans (roundWanted_fault hf)
  · rw [setLine_line_self]
    exact demand_judged h d.line

omit hxr in
/-- R48, steps 4 to 6, R49, R90. -/
theorem newRound_runs (he : s.entryOn d.head d.line = true) (hf : (s.line d.line).power ≠ .fault)
    (ho : (s.line d.line).power ≠ .off ∨ (d.powered = true ∧ (s.line d.line).lnOvl = false)) :
    ((s.setChain c x).roundStart c).settleDemand d.line =
      (s.setChain c (x.inNewRound d s.count)).setLine d.line ((s.line d.line).roundStarted d s.count) := by
  rw [roundStart_setChain_runs hx he hf (ho.symm.imp And.left id)]
  exact settleDemand_started hd hr (hx.trans hd.symm) (demand_judged h d.line) (round_judged h d.line) hf ho s.count

omit hxr in
/-- R90, R93, R94: powering the line up for the round meets an overload. -/
theorem newRound_overload (hu : ∀ c', (s.chain c').onLine d.line = true → (s.chain c').active = true → c' = c)
    (he : s.entryOn d.head d.line = true) (hf : (s.line d.line).power = .off) (ho : d.powered = true)
    (hov : (s.line d.line).lnOvl = true) :
    let t := ((s.setChain c x).roundStart c).settleDemand d.line
    (t.line d.line).power = .fault ∧ (t.line d.line).demand = DemandSet.empty ∧
      t.chain c = { x.inNewRound d s.count with state := .held, position := none } ∧
      (∀ c', c' ≠ c → t.chain c' = s.chain c') ∧
      (t.line d.line).held = some { entry := d.head, reason := .next, owner := c } ∧
      (t.line d.line).heldCount = 0 ∧ (t.attn.set .lineFault).getLsbD d.line.val = true := by
  have hrun := roundStart_setChain_runs (s := s) (c := c) hx he (by simp [hf]) (.inl ho)
  generalize hv : s.setChain c (x.inNewRound d s.count) = v at hrun
  have hvl : v.line d.line = s.line d.line := by rw [← hv]; rfl
  have hself : v.chain c = x.inNewRound d s.count := by rw [← hv, setChain_chain_self]
  have hother : ∀ c', c' ≠ c → v.chain c' = s.chain c' := fun c' hc => by rw [← hv, setChain_chain_ne _ _ _ _ hc]
  have hround : v.roundWanted d.line = true := by
    rw [← hv, roundWanted_started hd hr (by simp [hf]) s.count (hx.trans hd.symm), ho, Bool.or_true]
  have hactive : v.activeChain d.line = some c := by
    have hon : (v.chain c).onLine d.line = true := by rw [hself]; exact onLine_iff.2 ⟨d, hx, rfl⟩
    refine activeChain_unique (by rw [hself]; rfl) hon fun c' hon hact => ?_
    by_contra hne
    rw [hother c' hne] at hon hact
    exact hne (hu c' hon hact)
  have hup : v.settleDemand d.line = (poweredUp v d.line).faultHandling d.line :=
    settleDemand_poweredUp (by rw [hvl]; exact hf) hround (by rw [hvl]; exact hov)
  have hexch : ((poweredUp v d.line).line d.line).exch = none := by
    rw [poweredUp, modLine_line_self, syncRound_line, if_pos rfl, hvl]
    exact exch_unpowered h (by simp [hf])
  obtain ⟨-, hdead, hdemand, -, hattn⟩ := faultHandling_frame (poweredUp v d.line) d.line (by simp [hexch])
  obtain ⟨hchain, hheld, hcount⟩ := faultHandling_running (s := poweredUp v d.line) (p := d.head) hexch
    hactive (by rw [poweredUp_chain, hself]; rfl) (by rw [poweredUp_chain, hself]; rfl)
    (by rw [poweredUp_chain, hself]; rfl)
  rw [hrun, hup]
  refine ⟨hdead.power, hdemand, ?_, fun c' hc => ?_, hheld, hcount, hattn⟩
  · rw [hchain, if_pos rfl, poweredUp_chain, hself]
  · rw [hchain, if_neg hc, poweredUp_chain, hother c' hc]

end

/-! ### CHAIN-START -/

theorem exec_chainStart {tag chain : Byte} (hs : s.ready) :
    exec (.chainStart tag chain) s = .next ((doChainStart chain s).1.replying 0xB2 tag (doChainStart chain s).2) :=
  submit_request (k := .chainStart) (r := .chainStart chain) hs rfl (by simp)

theorem doChainStart_badArg {chain : Byte} (h : 7 < chain.toNat) : doChainStart chain s = (s, [0x14]) := by
  simp only [doChainStart, finOf_none (n := 8) h]
  rfl

theorem doChainStart_undefined (hd : (s.chain c).defn = none) : doChainStart (finByte c) s = (s, [0x13]) := by
  simp only [doChainStart, finOf8, hd]
  rfl

/-- R47, steps 3 to 5. -/
theorem doChainStart_defined (hd : (s.chain c).defn = some d) :
    doChainStart (finByte c) s =
      if (s.chain c).active || (s.activeChain d.line).isSome then (s, [0x10])
      else if startBarred d (s.line d.line) then (s, [0x11])
      else (s.startChain c d.line, [0x00]) := by
  simp only [doChainStart, finOf8, hd]
  rfl

theorem startBarred_iff {x : Line} : startBarred d x = true ↔
    x.settings.mode = .listen ∨ x.power = .fault ∨ (d.powered = false ∧ x.power = .off) := by
  simp [startBarred, or_assoc]

/-- R43: some chain is active on the line. -/
theorem activeChain_isSome_iff {l : Fin 4} :
    (s.activeChain l).isSome = true ↔ ∃ c, (s.chain c).state ≠ .idle ∧ (s.chain c).onLine l = true := by
  rw [Option.isSome_iff_ne_none, ne_eq, activeChain_none]
  push Not
  simp [active_iff, and_comm]

theorem startChain_eq (s : State) (c : Fin 8) (l : Fin 4) :
    s.startChain c l =
      ((s.setChain c { s.chain c with rounds := 0, late := 0, reason := .none }).roundStart c).settleDemand l := rfl

theorem inRound_of_state {x : Chain} (h : x.state = .idle ∨ x.state = .armed) : x.inRound = false := by
  unfold Chain.inRound
  rcases h with h | h <;> rw [h]

/-- Settles O30: the refusals of R47 in their order, then a round on an IDLE chain whose counters and reason are clear. -/
theorem chainStartStartsARound : Obligations.ChainStartStartsARound := by
  intro tag chain s hs
  rw [exec_chainStart hs]
  refine ⟨fun hbad => by rw [doChainStart_badArg hbad], ?_⟩
  rintro c rfl
  refine ⟨fun hd => by rw [doChainStart_undefined hd], ?_⟩
  rintro d _ hd rfl
  rw [doChainStart_defined hd]
  refine ⟨fun hbusy => ?_, fun hi hnone => ?_⟩
  · rw [if_pos]
    rw [Bool.or_eq_true, active_iff, activeChain_isSome_iff]
    exact hbusy
  · rw [if_neg]
    swap
    · rw [Bool.or_eq_true, active_iff, activeChain_isSome_iff]
      rintro (ha | ⟨c', ha, hon⟩)
      · exact ha hi
      · exact ha (hnone c' hon)
    refine ⟨fun hbar => by rw [if_pos (startBarred_iff.2 hbar)], fun hm hf hp h => ?_⟩
    rw [if_neg]
    swap
    · rw [startBarred_iff]
      rintro (hl | hf' | ⟨hp', hoff⟩)
      · simp [hm] at hl
      · exact hf hf'
      · simp [hp', hoff] at hp
    have hr := inRound_of_state (.inl hi)
    rw [startChain_eq]
    generalize hx : ({ s.chain c with rounds := 0, late := 0, reason := .none } : Chain) = x
    have hxd : x.defn = some d := by rw [← hx]; exact hd
    have hxr : x.inRound = false := by rw [← hx]; exact hr
    refine ⟨fun he => ?_, fun he ho => ?_, fun he hoff hov => ⟨_, rfl, ?_⟩⟩
    · obtain ⟨a, ha, hgone⟩ := newRound_gone h hr hd hxd hxr he
      exact ⟨a, ha, by rw [hgone, ← hx]; rfl⟩
    · rw [newRound_runs h hr hd hxd he hf (by tauto)]
    · have hactive : ∀ c', (s.chain c').onLine d.line = true → (s.chain c').active = true → c' = c :=
        fun c' hon ha => absurd (hnone c' hon) (active_iff.1 ha)
      obtain ⟨hpower, -, hchain, -, hheld, -, hattn⟩ :=
        newRound_overload h hr hd hxd hactive he hoff (hp.resolve_right (not_not.2 hoff)) hov
      exact ⟨hpower, by rw [hchain], by rw [hchain, ← hx]; rfl, hheld, hattn⟩

/-! ### The expiry of a round timer -/

theorem exec_roundTimerExpiry (c : Fin 8) (s : State) :
    exec (.roundTimerExpiry c) s = .next (if (s.chain c).timer.due s.count then s.roundExpiry c else s) := rfl

theorem roundExpiry_due (h : (s.chain c).state = .running ∨ (s.chain c).state = .held) :
    s.roundExpiry c = s.setChain c { s.chain c with timer := .expired, roundDue := true } := by
  have hboth := modChain_modChain s c (fun ch => { ch with timer := .expired }) fun ch => { ch with roundDue := true }
  rw [← hboth, State.roundExpiry]
  rcases h with h | h <;> simp only [h]

theorem roundExpiry_over (h : (s.chain c).state = .stopping ∨ (s.chain c).state = .idle) :
    s.roundExpiry c = s.setChain c { s.chain c with timer := .expired } := by
  change _ = s.modChain c fun ch => { ch with timer := .expired }
  rw [State.roundExpiry]
  rcases h with h | h <;> simp only [h]

/-- R56: an ARMED chain starts a round. -/
theorem roundExpiry_armed (h : (s.chain c).state = .armed) (hd : (s.chain c).defn = some d) :
    s.roundExpiry c = ((s.setChain c { s.chain c with timer := .expired }).roundStart c).settleDemand d.line := by
  change _ = ((s.modChain c fun ch => { ch with timer := .expired }).roundStart c).settleDemand d.line
  rw [State.roundExpiry]
  simp only [h, hd]

/-- Settles O33: by the state of the chain; an ARMED one starts a round, whose timer replaces the one that expired. -/
theorem roundTimerExpiryByTheStateOfTheChain : Obligations.RoundTimerExpiryByTheStateOfTheChain := by
  rintro c _ s rfl
  rw [exec_roundTimerExpiry]
  refine ⟨fun hdue => by rw [hdue]; rfl, fun hdue => ?_⟩
  rw [if_pos hdue]
  refine ⟨fun hst => by rw [roundExpiry_due hst], fun hst => by rw [roundExpiry_over hst], ?_⟩
  rintro d _ hst hd rfl h
  have hr := inRound_of_state (.inr hst)
  rw [roundExpiry_armed hst hd]
  generalize hx : ({ s.chain c with timer := .expired } : Chain) = x
  have hxd : x.defn = some d := by rw [← hx]; exact hd
  have hxr : x.inRound = false := by rw [← hx]; exact hr
  have hnew : x.inNewRound d s.count = (s.chain c).inNewRound d s.count := by rw [← hx]; rfl
  refine ⟨fun he => ?_, fun he hf => ?_, fun he hoff hp => ?_, fun he hf ho => ?_,
    fun he hoff hp hov => ⟨_, rfl, ?_⟩⟩
  · obtain ⟨a, ha, hgone⟩ := newRound_gone h hr hd hxd hxr he
    exact ⟨a, ha, by rw [hgone, ← hx]; rfl⟩
  · rw [newRound_held h hxd he hf, hnew]
  · obtain ⟨a, ha, hgone⟩ := newRound_lineOff h hr hd hxd hxr he hoff hp
    exact ⟨a, ha, by rw [hgone, ← hx]; rfl⟩
  · rw [newRound_runs h hr hd hxd he hf ho, hnew]
  · have hone : ∀ c', (s.chain c').onLine d.line = true → (s.chain c').active = true → c' = c := fun c' hon ha =>
      active_unique h (active_of hst (by decide)) (onLine_iff.2 ⟨d, hd, rfl⟩) ha hon
    obtain ⟨hpower, hdemand, hchain, hother, hheld, hcount, hattn⟩ :=
      newRound_overload h hr hd hxd hone he hoff hp hov
    exact ⟨hpower, hdemand, by rw [hchain, hnew], hother, hheld, hcount, hattn⟩

variable {l : Fin 4}

/-! ### A line with no chain active on it follows its demand set -/

/-- R49: a line whose ROUND demand has been judged. -/
def roundJudged (x : Line) (round : Bool) : Line := { x with demand := { x.demand with round } }

/-- R88, R91, R92, R139: a line that has followed its demand set down, with no chain on it to take LINE-OFF. -/
def followedDown (x : Line) : Line :=
  if x.supplied = true ∧ x.demand.isEmpty = true ∧ x.exch = none then
    { x with power := .off, lnPwr := false, settleTimer := .stopped, engine := .idle, block := [], blockParity := false }
  else x

theorem demand_isEmpty_iff {x : DemandSet} :
    x.isEmpty = true ↔ x.host = false ∧ x.round = false ∧ x.ask = false := by
  simp [DemandSet.isEmpty, and_assoc]

theorem demand_nonempty_iff {x : DemandSet} :
    x.isEmpty = false ↔ x.host = true ∨ x.round = true ∨ x.ask = true := by
  rw [← Bool.not_eq_true, demand_isEmpty_iff]
  simp only [← Bool.not_eq_true]
  tauto

theorem followedDown_keeps (x : Line) : (followedDown x).held = x.held ∧ (followedDown x).heldCount = x.heldCount ∧
    (followedDown x).queue = x.queue ∧ (followedDown x).exch = x.exch ∧ (followedDown x).demand = x.demand := by
  unfold followedDown
  split <;> exact ⟨rfl, rfl, rfl, rfl, rfl⟩

/-- R88, R39: what keeps a line supplied. -/
theorem followedDown_wanted {x : Line} (h : x.demand.isEmpty = false ∨ x.exch ≠ none) : followedDown x = x := by
  refine if_neg fun ⟨_, he, hx⟩ => ?_
  rcases h with h | h
  · rw [h] at he
    cases he
  · exact h hx

theorem followedDown_off {x : Line} (hp : x.power = .off) : followedDown x = x :=
  if_neg fun ⟨hs, _⟩ => by simp [Line.supplied, hp] at hs

theorem followedDown_unwanted {x : Line} (hs : x.supplied = true) (he : x.demand.isEmpty = true) (hx : x.exch = none) :
    (followedDown x).power = .off ∧ (followedDown x).lnPwr = false := by
  unfold followedDown
  rw [if_pos ⟨hs, he, hx⟩]
  exact ⟨rfl, rfl⟩

theorem supplied_of {x : Line} (ho : x.power ≠ .off) (hf : x.power ≠ .fault) : x.supplied = true := by
  rw [supplied_iff]
  cases hp : x.power with
  | settling => exact .inl rfl
  | on => exact .inr rfl
  | off => exact absurd hp ho
  | fault => exact absurd hp hf

theorem withdraw_chainless (ha : s.activeChain l = none) :
    (∀ c, (s.withdraw l).chain c = s.chain c) ∧
      (s.withdraw l).line l = followedDown (roundJudged (s.line l) (s.roundWanted l)) := by
  obtain ⟨r, y, hy, hr, hstays, hgoes⟩ := withdraw_follows s l
  have hjudged : y = roundJudged (s.line l) (s.roundWanted l) := by
    rw [hy, Bool.eq_iff_iff.2 (hr.trans (roundWanted_iff s l).symm)]
    rfl
  rw [← hjudged, followedDown]
  split
  next hoff =>
    obtain ⟨hs, he, hx⟩ := hoff
    obtain ⟨-, -, -, z, hz, -, hnone⟩ := hgoes hs he hx
    have hactive : (s.setLine l y).activeChain l = none := ha
    obtain ⟨hchain, hline⟩ := hnone fun c hc => by simp [hactive] at hc
    rw [setLine_line_self] at hz
    exact ⟨hchain, hline.trans hz⟩
  next hstay =>
    rw [hstays (by simpa only [not_and_or, Bool.not_eq_true] using hstay), setLine_line_self]
    exact ⟨fun _ => rfl, rfl⟩

theorem powerUp_noDemand (h : (s.line l).power = .off → (s.line l).demand.isEmpty = true) : s.powerUp l = s := by
  refine if_neg fun ⟨hp, hd⟩ => ?_
  rw [h hp] at hd
  cases hd

/-- R49, R90: nor does the line power up, being supplied, or OFF with no demand. -/
theorem settleDemand_chainless (ha : s.activeChain l = none)
    (hoff : (s.line l).power = .off → (roundJudged (s.line l) (s.roundWanted l)).demand.isEmpty = true) :
    s.settleDemand l = s.withdraw l := by
  refine powerUp_noDemand ?_
  obtain ⟨-, -, -, -, hdemand⟩ := followedDown_keeps (roundJudged (s.line l) (s.roundWanted l))
  rw [(withdraw_chainless ha).2, hdemand]
  intro hp
  by_contra he
  rw [followedDown_wanted (.inl (Bool.not_eq_true _ ▸ he))] at hp
  exact he (hoff hp)

/-- R43, R49: with no chain active on a line, only its scan exchange asks for the ROUND demand. -/
theorem roundWanted_chainless (ha : s.activeChain l = none)
    (hf : (s.line l).power = .fault → (s.line l).exch = none) :
    s.roundWanted l = true ↔ ∃ ex c, (s.line l).exch = some ex ∧ ex.origin = .chain c ∧ ex.powered = true := by
  rw [roundWanted_iff]
  refine ⟨fun ⟨_, h⟩ => h.resolve_left ?_, fun h => ⟨fun hp => ?_, .inr h⟩⟩
  · rintro ⟨c, d, hd, hl, -, hst⟩
    have hidle := activeChain_none.1 ha c (onLine_iff.2 ⟨d, hd, hl⟩)
    rcases hst with h | h | h <;> simp [Chain.active, h] at hidle
  · obtain ⟨ex, c, hx, -⟩ := h
    rw [hf hp] at hx
    cases hx

/-! ### A chain goes IDLE -/

/-- R43: once the chain that is active on a line has gone IDLE, none is. -/
theorem activeChain_none_of_gone {t : State} (h : partSound s) (ha : (s.chain c).active = true)
    (hon : (s.chain c).onLine l = true) (hc : t.chain c = (s.chain c).gone)
    (ho : ∀ c', c' ≠ c → t.chain c' = s.chain c') : t.activeChain l = none := by
  refine activeChain_none.2 fun c' hon' => ?_
  by_cases e : c' = c
  · rw [e, hc]
    rfl
  · rw [ho c' e] at hon' ⊢
    by_contra hact
    exact e (active_unique h ha hon (Bool.not_eq_false _ ▸ hact) hon')

/-- R58, R68: whether the chain was HELD or not, the held position of its line is clear. -/
theorem dropHold_clears (h : partSound s) (ha : (s.chain c).active = true) (hd : (s.chain c).defn = some d) :
    (s.dropHold c).line d.line = (s.line d.line).clearHeld := by
  have hon : (s.chain c).onLine d.line = true := onLine_iff.2 ⟨d, hd, rfl⟩
  rw [dropHold_line]
  split
  next => rfl
  next hst =>
    obtain ⟨-, hagree, -⟩ := partSound_iff.1 h
    have hnone := held_none_of_active (hagree d.line) ha hon fun hh => hst ⟨hh, hon⟩
    obtain ⟨-, -, -, -, -, -, hcount, -⟩ := (partSound_line h d.line).1
    rw [Line.clearHeld, ← hcount hnone, ← hnone]

theorem idleChain_eq (hd : (s.chain c).defn = some d) :
    s.idleChain c = ((s.dropHold c).setChain c (s.chain c).gone).settleDemand d.line := by
  unfold State.idleChain State.modChain
  simp only [hd, dropHold_chain]
  rfl

/-- R49, R88: a line whose held position has been cleared, with no chain active on it, follows its demand set. -/
theorem settleDemand_cleared {u : State} (h : partSound s) (hline : u.line l = (s.line l).clearHeld)
    (hnone : u.activeChain l = none) :
    ∃ r : Bool, (r = true ↔ ∃ ex c', (s.line l).exch = some ex ∧ ex.origin = .chain c' ∧ ex.powered = true) ∧
      (∀ c', (u.settleDemand l).chain c' = u.chain c') ∧ (∀ k, k ≠ l → (u.settleDemand l).line k = u.line k) ∧
      (u.settleDemand l).line l = followedDown (roundJudged (s.line l).clearHeld r) := by
  have hpower : (u.line l).power = (s.line l).power := by rw [hline]; rfl
  have hexch : (u.line l).exch = (s.line l).exch := by rw [hline]; rfl
  have hround := roundWanted_chainless hnone fun hp => hexch.trans (exch_unpowered h (by rw [← hpower, hp]; decide))
  rw [hexch] at hround
  have hset : u.settleDemand l = u.withdraw l := by
    refine settleDemand_chainless hnone fun hp => ?_
    rw [hpower] at hp
    have hempty := demand_judged h l
    rw [demandSound, if_neg (by simp [Line.supplied, hp]), demand_isEmpty_iff] at hempty
    obtain ⟨hhost, -, hask⟩ := hempty
    have hr : u.roundWanted l = false := by simp [← Bool.not_eq_true, hround, exch_unpowered h (l := l) (by simp [hp])]
    rw [hline, hr]
    exact demand_isEmpty_iff.2 ⟨hhost, rfl, hask⟩
  obtain ⟨hkeeps, hfollows⟩ := withdraw_chainless hnone
  rw [hset]
  exact ⟨_, hround, hkeeps, fun k hk => withdraw_line_ne _ hk, by rw [hfollows, hline]⟩

/-- R58, R49: everything that going IDLE does to the chains and to the line of the chain. -/
theorem idleChain_spec (h : partSound s) (ha : (s.chain c).active = true) (hd : (s.chain c).defn = some d) :
    ∃ r : Bool, (r = true ↔ ∃ ex c', (s.line d.line).exch = some ex ∧ ex.origin = .chain c' ∧ ex.powered = true) ∧
      (s.idleChain c).chain c = (s.chain c).gone ∧ (∀ c', c' ≠ c → (s.idleChain c).chain c' = s.chain c') ∧
      (∀ k, k ≠ d.line → (s.idleChain c).line k = s.line k) ∧
      (s.idleChain c).line d.line = followedDown (roundJudged (s.line d.line).clearHeld r) := by
  have hon : (s.chain c).onLine d.line = true := onLine_iff.2 ⟨d, hd, rfl⟩
  rw [idleChain_eq hd]
  generalize hu : (s.dropHold c).setChain c (s.chain c).gone = u
  have hline : u.line d.line = (s.line d.line).clearHeld := by
    rw [← hu, setChain_line]
    exact dropHold_clears h ha hd
  have hother : ∀ k, k ≠ d.line → u.line k = s.line k := fun k hk => by
    rw [← hu, setChain_line, dropHold_line, if_neg]
    rintro ⟨-, hon'⟩
    obtain ⟨d', hd', rfl⟩ := onLine_iff.1 hon'
    rw [hd] at hd'
    exact hk (congrArg ChainDef.line (Option.some.inj hd').symm)
  have hself : u.chain c = (s.chain c).gone := by rw [← hu, setChain_chain_self]
  have hchain : ∀ c', c' ≠ c → u.chain c' = s.chain c' := fun c' e => by
    rw [← hu, setChain_chain_ne _ _ _ _ e, dropHold_chain]
  obtain ⟨r, hr, hkeeps, hlines, hfollows⟩ :=
    settleDemand_cleared h hline (activeChain_none_of_gone h ha hon hself hchain)
  exact ⟨r, hr, (hkeeps c).trans hself, fun c' e => (hkeeps c').trans (hchain c' e),
    fun k hk => (hlines k hk).trans (hother k hk), hfollows⟩

/-! ### CHAIN-STOP -/

theorem exec_chainStop {tag chain : Byte} (hs : s.ready) :
    exec (.chainStop tag chain) s = .next ((doChainStop chain s).1.replying 0xB3 tag (doChainStop chain s).2) :=
  submit_request (k := .chainStop) (r := .chainStop chain) hs rfl (by simp)

theorem doChainStop_badArg {chain : Byte} (h : 7 < chain.toNat) : doChainStop chain s = (s, [0x14]) := by
  simp only [doChainStop, finOf_none (n := 8) h]
  rfl

theorem doChainStop_eq : doChainStop (finByte c) s = (s.stopChain c, [0x00]) := by
  simp only [doChainStop, finOf8]
  rfl

theorem stopChain_inFlight (hst : (s.chain c).state = .running) (hi : (s.chain c).inFlight = true) :
    s.stopChain c = s.setChain c { s.chain c with state := .stopping } := by
  simp [State.stopChain, hst, hi, State.modChain]

theorem stopChain_same (hst : (s.chain c).state = .stopping ∨ (s.chain c).state = .idle) : s.stopChain c = s := by
  unfold State.stopChain
  rcases hst with h | h <;> simp only [h]

theorem stopChain_idle (hst : (s.chain c).state = .held ∨ (s.chain c).state = .armed ∨
    ((s.chain c).state = .running ∧ (s.chain c).inFlight = false)) : s.stopChain c = s.idleChain c := by
  unfold State.stopChain
  obtain h | h | ⟨h, hi⟩ := hst
  · simp only [h]
  · simp only [h]
  · simp [h, hi]

/-- Settles O31: by the state of the chain; the line of one that goes IDLE follows its demand set. -/
theorem chainStopByTheStateOfTheChain : Obligations.ChainStopByTheStateOfTheChain := by
  intro tag chain s hs
  rw [exec_chainStop hs]
  refine ⟨fun hbad => by rw [doChainStop_badArg hbad], ?_⟩
  rintro c rfl
  rw [doChainStop_eq]
  refine ⟨fun hst hi => by rw [stopChain_inFlight hst hi], fun hst => by rw [stopChain_same hst], ?_⟩
  rintro d _ hd rfl h hst
  have ha : (s.chain c).active = true := by
    obtain hh | harmed | ⟨hrun, -⟩ := hst
    · exact active_of hh (by decide)
    · exact active_of harmed (by decide)
    · exact active_of hrun (by decide)
  obtain ⟨r, hr, hself, hchain, hother, hline⟩ := idleChain_spec h ha hd
  obtain ⟨hheld, hcount, hqueue, hexch, hdemand⟩ := followedDown_keeps (roundJudged (s.line d.line).clearHeld r)
  rw [stopChain_idle hst]
  refine ⟨_, r, rfl, hself, hchain, hother, by rw [hline, hheld]; rfl, by rw [hline, hcount]; rfl,
    by rw [hline, hqueue]; rfl, by rw [hline, hexch]; rfl, hr, by rw [hline, hdemand]; rfl, fun hwants => ?_,
    fun hhost hr' hask hfree hfault => ?_⟩ <;> rw [hline]
  · rw [followedDown_wanted]
    · rfl
    · rw [demand_nonempty_iff, or_assoc, or_assoc]
      exact hwants
  · by_cases hp : (s.line d.line).power = .off
    · obtain ⟨hpwr, -⟩ := (partSound_line h d.line).1
      rw [followedDown_off (x := roundJudged (s.line d.line).clearHeld r) hp]
      exact ⟨hp, hpwr.trans (by simp [Line.supplied, hp])⟩
    · refine followedDown_unwanted ?_ (demand_isEmpty_iff.2 ⟨hhost, hr', hask⟩) hfree
      exact supplied_of hp hfault

/-! ### CHAIN-ABORT -/

theorem exec_chainAbort {tag chain : Byte} (hs : s.ready) :
    exec (.chainAbort tag chain) s = .next ((doChainAbort chain s).1.replying 0xB4 tag (doChainAbort chain s).2) :=
  submit_request (k := .chainAbort) (r := .chainAbort chain) hs rfl (by simp)

theorem doChainAbort_badArg {chain : Byte} (h : 7 < chain.toNat) : doChainAbort chain s = (s, [0x14]) := by
  simp only [doChainAbort, finOf_none (n := 8) h]
  rfl

theorem doChainAbort_eq : doChainAbort (finByte c) s = (s.abortChain c, [0x00]) := by
  simp only [doChainAbort, finOf8]
  rfl

/-- R59: with no exchange in flight CHAIN-ABORT acts as CHAIN-STOP does. -/
theorem abortChain_stops (hi : (s.chain c).inFlight = false) : s.abortChain c = s.stopChain c := by
  unfold State.abortChain
  rw [hi]

/-- R51: the end of an exchange that is no longer its chain's own reaches no chain. -/
theorem fileOrigin_orphan {ex : Exchange} (ho : ex.origin = .chain c) (o : ExchOutcome) :
    s.fileOrigin l { ex with orphan := true } o = s := by
  unfold State.fileOrigin
  simp only [ho]
  exact scanEnd_none (.inr rfl)

/-- R51, R59: the chain is IDLE, and the exchange in flight on its line is no longer its own. -/
def cutOff (s : State) (c : Fin 8) (l : Fin 4) (ex : Exchange) : State :=
  (s.setLine l { s.line l with exch := some { ex with orphan := true } }).setChain c (s.chain c).gone

theorem orphaned_eq {ex : Exchange} (hx : (s.line l).exch = some ex) (ho : ex.origin = .chain c) :
    (s.orphanExchange c l).modChain c Chain.toIdle = cutOff s c l ex := by
  simp only [State.orphanExchange, State.modLine, hx, Option.map_some, if_pos ho]
  rfl

theorem abortChain_eq {ex : Exchange} (hi : (s.chain c).inFlight = true) (hd : (s.chain c).defn = some d)
    (hx : (s.line d.line).exch = some ex) (ho : ex.origin = .chain c) :
    s.abortChain c = ((cutOff s c d.line ex).endOutside d.line .aborted).settleDemand d.line := by
  unfold State.abortChain
  rw [hi, hd, ← orphaned_eq hx ho]

section

variable {ex : Exchange} (h : partSound s) (hi : (s.chain c).inFlight = true) (hd : (s.chain c).defn = some d)
  (hx : (s.line d.line).exch = some ex)

theorem cutOff_line (s : State) (c : Fin 8) (l : Fin 4) (ex : Exchange) :
    (cutOff s c l ex).line l = { s.line l with exch := some { ex with orphan := true } } := by
  rw [cutOff, setChain_line, setLine_line_self]

theorem cutOff_chain_self (s : State) (c : Fin 8) (l : Fin 4) (ex : Exchange) :
    (cutOff s c l ex).chain c = (s.chain c).gone := by
  rw [cutOff, setChain_chain_self]

include h hi hd

theorem flight_origin (hx : (s.line d.line).exch = some ex) : ex.origin = .chain c := by
  obtain ⟨ex', hx', ho, -⟩ := flight_exchange (partSound_iff.1 h).2 hd hi
  rw [hx] at hx'
  cases hx'
  exact ho

theorem cutOff_activeChain (ex : Exchange) : (cutOff s c d.line ex).activeChain d.line = none := by
  have hact : (s.chain c).active = true := by
    refine active_iff.2 fun hidle => ?_
    rcases chainSound_inFlight ((partSound_iff.1 h).2.2 c) hi with hs | hs <;> rw [hs] at hidle <;> cases hidle
  refine activeChain_none_of_gone h hact (onLine_iff.2 ⟨d, hd, rfl⟩) (cutOff_chain_self ..) fun c' e => ?_
  rw [cutOff, setChain_chain_ne _ _ _ _ e]
  rfl

include hx

/-- R34, R37: an exchange that is not in SENDING ends at once, and its filing judges the demand set. -/
theorem abortChain_files (he : (s.line d.line).engine ≠ .sending) :
    s.abortChain c = (cutOff s c d.line ex).fileQuiet d.line { ex with orphan := true } .aborted := by
  obtain ⟨hlines, hagree⟩ := partSound_iff.1 h
  have ho := flight_origin h hi hd hx
  have hline := cutOff_line s c d.line ex
  have hexch : ((cutOff s c d.line ex).line d.line).exch = some { ex with orphan := true } := by rw [hline]
  rw [abortChain_eq hi hd hx ho, endOutside_free hexch (by rw [hline]; exact he)]
  refine settleDemand_same ?_ ?_
  · have hmid := agree_orphan hagree hd hi
    rw [orphaned_eq hx ho] at hmid
    have hend := agree_fileQuiet (o := .aborted) hmid (by rw [Function.update_self]; exact settled_unjudged) hexch
      rfl rfl rfl
    rw [update_twice] at hend
    exact (hend.1 d.line).round (Function.update_self ..)
  · have hbut : LinesBut (fun _ => False) (cutOff s c d.line ex) := by
      rw [← orphaned_eq hx ho]
      exact (linesBut_held _).onChain c _ (linesBut_orphanExchange (linesSound_iff.1 hlines) c _)
    exact (linesSound_iff.2 (linesBut_fileQuiet hbut (by simp [hexch]) _ _) d.line).2.1

/-- R51: the end of the exchange does not come back to the chain that was set IDLE. -/
theorem abortChain_filed (he : (s.line d.line).engine ≠ .sending) :
    (s.abortChain c).chain c = (s.chain c).gone ∧
      (cutOff s c d.line ex).exchangeFiled (s.abortChain c) d.line { ex with orphan := true } .aborted := by
  have hblock : ((cutOff s c d.line ex).line d.line).block = [] := by
    obtain ⟨-, -, hb⟩ := busy_line (partSound_line h d.line) (by simp [hx])
    rw [cutOff_line]
    exact hb
  rw [abortChain_files h hi hd hx he]
  refine ⟨?_, fileQuiet_filed hblock _ (by decide)⟩
  obtain ⟨-, -, hchains, -⟩ := evaluated_frame (cutOff s c d.line ex) d.line { ex with orphan := true } .aborted
  have hnone := (activeChain_congr hchains d.line).trans (cutOff_activeChain h hi hd ex)
  rw [fileQuiet_eq, fileOrigin_orphan (flight_origin h hi hd hx), (withdraw_chainless hnone).1, State.chain, hchains]
  exact cutOff_chain_self ..

/-- R34, R59: in SENDING the ending is pending, and the exchange keeps the ROUND demand it started with. -/
theorem abortChain_sending (he : (s.line d.line).engine = .sending) :
    (s.abortChain c).chain c = (s.chain c).gone ∧
      (s.abortChain c).line d.line = { s.line d.line with
        demand := { (s.line d.line).demand with round := ex.powered },
        exch := some { ex with orphan := true, pendingEnd := some (ex.pendingEnd.getD .aborted) } } := by
  have ho := flight_origin h hi hd hx
  have hline := cutOff_line s c d.line ex
  obtain ⟨hon, -⟩ := busy_line (partSound_line h d.line) (by simp [hx])
  rw [abortChain_eq hi hd hx ho, endOutside_sending (by rw [hline]) (by rw [hline]; exact he), hline]
  generalize hu : (cutOff s c d.line ex).setLine d.line _ = u
  have hul : u.line d.line = { s.line d.line with
      exch := some { ex with orphan := true, pendingEnd := some (ex.pendingEnd.getD .aborted) } } := by
    rw [← hu, setLine_line_self]
  have hchain : u.chain c = (s.chain c).gone := by rw [← hu]; exact cutOff_chain_self ..
  have hnone : u.activeChain d.line = none := by rw [← hu]; exact cutOff_activeChain h hi hd ex
  have hround : u.roundWanted d.line = ex.powered := by
    rw [Bool.eq_iff_iff, roundWanted_chainless hnone (by rw [hul]; simp [hon]), hul]
    simp [ho]
  obtain ⟨hkeeps, hfollows⟩ := withdraw_chainless hnone
  rw [settleDemand_chainless hnone (by rw [hul]; simp [hon]), hkeeps, hfollows, hround, hul,
    followedDown_wanted (.inr (by simp [roundJudged]))]
  exact ⟨hchain, rfl⟩

end

/-- Settles O32: by whether an exchange of the chain is in flight, and whether it is in SENDING. -/
theorem chainAbortEndsTheExchangeOfTheChain : Obligations.ChainAbortEndsTheExchangeOfTheChain := by
  intro tag chain s hs
  rw [exec_chainAbort hs, exec_chainStop hs]
  refine ⟨fun hbad => by rw [doChainAbort_badArg hbad], ?_⟩
  rintro c rfl
  rw [doChainAbort_eq, doChainStop_eq]
  refine ⟨fun hi => ⟨_, rfl, by rw [abortChain_stops hi]⟩, fun d ex hi hd hx h => ⟨_, rfl, ?_⟩⟩
  by_cases he : (s.line d.line).engine = .sending
  · obtain ⟨hchain, hline⟩ := abortChain_sending h hi hd hx he
    exact ⟨hchain, fun hne => absurd he hne, fun _ => hline⟩
  · obtain ⟨hchain, hfiled⟩ := abortChain_filed h hi hd hx he
    exact ⟨hchain, fun _ => hfiled, fun heq => absurd heq he⟩

end Sys2Proof.Proofs
end

section
/-! PROOFS. Injected requests, the scheduler and the held position (R66 to R85, R88): what every step keeps of the lines, QUEUE-READ,
ASK and the scan exchange it preempts, ASK-CANCEL, and the choice of a free line. -/

namespace Sys2Proof.Proofs

open Sys2Proof Sys2Proof.Machine

variable {s : State} {l : Fin 4} {c : Fin 8} {e : Fin 128} {p : PlanEntry}

/-! ### Sound lines -/

/-- Settles O57: each operation keeps the lines sound (`linesSound_kept`), and a step is one command. -/
theorem everyStepKeepsTheLinesSound : Obligations.EveryStepKeepsTheLinesSound :=
  fun _ _ h he => linesSound_kept.step h he

/-! ### QUEUE-READ -/

theorem exec_queueRead {tag line : Byte} (hs : s.ready) :
    exec (.queueRead tag line) s = .next ((doQueueRead line s).1.replying 0xC2 tag (doQueueRead line s).2) :=
  submit_request (k := .queueRead) (r := .queueRead line) hs rfl (by simp)

theorem doQueueRead_badArg {line : Byte} (h : 3 < line.toNat) : doQueueRead line s = (s, [0x14]) := by
  simp only [doQueueRead, finOf_none (n := 4) h]
  rfl

theorem doQueueRead_line (s : State) (l : Fin 4) :
    doQueueRead (finByte l) s =
      (s, [0x00, finByte l, natByte (s.line l).queue.length] ++ heldBytes (s.line l).held ++
        [natByte (s.line l).heldCount] ++ (s.line l).queue.flatMap Injected.bytes) := by
  simp only [doQueueRead, finOf4]
  rfl

/-- Settles O38: the reply is laid out as R165 says, whether the held position is occupied or clear. -/
theorem queueReadShowsTheQueue : Obligations.QueueReadShowsTheQueue := by
  refine ⟨rfl, fun tag line s hs => ?_⟩
  rw [exec_queueRead hs]
  refine ⟨fun hbad => by rw [doQueueRead_badArg hbad], ?_⟩
  rintro l _ rfl rfl
  rw [doQueueRead_line]
  cases (s.line l).held <;> rfl

/-! ### Places in the queue -/

theorem placeOf_eq_findIdx {q : List Injected} (h : ∃ y ∈ q, y.entry = e) :
    placeOf e q = q.findIdx fun y => decide (y.entry = e) := by
  have hlt : (q.findIdx fun y => decide (y.entry = e)) < q.length := List.findIdx_lt_length.2 (by simpa using h)
  rw [placeOf, List.findIdx?_eq_some_of_exists (by simpa using h)]

/-- R71: the place of an element is the number of elements ahead of it. -/
theorem placeOf_ahead {x : Injected} {a b : List Injected} (h : ∀ y ∈ a, y.entry ≠ x.entry) :
    placeOf x.entry (a ++ x :: b) = a.length := by
  rw [placeOf_eq_findIdx ⟨x, by simp, rfl⟩]
  induction a with
  | nil => simp [List.findIdx_cons]
  | cons y ys ih => simp [List.findIdx_cons, h y (by simp), ih fun z hz => h z (by simp [hz])]

theorem placeOf_urgentPlaced {x : Injected} {q : List Injected} (h : ∀ y ∈ q, y.entry ≠ x.entry) :
    placeOf x.entry (urgentPlaced x q) = (q.takeWhile fun y => decide (y.level = .urgent)).length :=
  placeOf_ahead fun y hy => h y ((List.takeWhile_prefix _).subset hy)

theorem takeWhile_urgent_eq_nil {q : List Injected} (h : ∀ y ∈ q, y.level ≠ .urgent) :
    q.takeWhile (fun y => decide (y.level = .urgent)) = [] := by
  cases q with
  | nil => rfl
  | cons y ys => exact List.takeWhile_cons_of_neg (by simpa using h y (by simp))

/-- R67: in a queue in order the URGENT elements stand at the head, so they are the same without some of the PROMPT ones. -/
theorem takeWhile_urgent_filter {q : List Injected} {keep : Injected → Bool}
    (hq : q.Pairwise fun a b => b.level = .urgent → a.level = .urgent)
    (hk : ∀ y ∈ q, y.level = .urgent → keep y = true) :
    (q.filter keep).takeWhile (fun y => decide (y.level = .urgent)) =
      q.takeWhile fun y => decide (y.level = .urgent) := by
  induction q with
  | nil => rfl
  | cons y ys ih =>
    obtain ⟨hy, hys⟩ := List.pairwise_cons.1 hq
    by_cases hu : y.level = .urgent
    · rw [List.filter_cons_of_pos (hk y (by simp) hu), List.takeWhile_cons_of_pos (by simpa using hu),
        List.takeWhile_cons_of_pos (by simpa using hu), ih hys fun z hz => hk z (by simp [hz])]
    · have hnone : ∀ z ∈ y :: ys, z.level ≠ .urgent := fun z hz hzu => by
        rcases List.mem_cons.1 hz with rfl | hz
        · exact hu hzu
        · exact hu (hy z hz hzu)
      rw [takeWhile_urgent_eq_nil hnone, takeWhile_urgent_eq_nil fun z hz => hnone z (List.mem_filter.1 hz).1]

/-! ### The queue after a request -/

theorem appendInjected_urgent {x : Injected} (h : x.level = .urgent) (q : List Injected) :
    appendInjected x q = urgentPlaced x q := by
  simp only [appendInjected, h, insertUrgent_eq]

theorem appendInjected_prompt {x : Injected} (h : x.level = .prompt) (q : List Injected) :
    appendInjected x q = q ++ [x] := by
  simp only [appendInjected, h]

theorem promotes_iff {x : Injected} {lv : Level} : promotes x lv = true ↔ x.level = .prompt ∧ lv = .urgent := by
  simp [promotes]

theorem promotes_eq_false {x : Injected} {lv : Level} (h : x.level = .urgent ∨ lv = .prompt) : promotes x lv = false := by
  rcases h with h | h <;> simp [promotes, h]

/-- R70: a promoted element leaves its place and goes behind the URGENT ones. -/
theorem mergeInjected_promoted {x : Injected} {lv : Level} (h : promotes x lv = true) (q : List Injected) :
    mergeInjected x lv q =
      urgentPlaced { x with level := .urgent, merged := min 255 (x.merged + 1) }
        (q.filter fun y => decide (y.entry ≠ x.entry)) := by
  rw [mergeInjected, if_pos h, insertUrgent_eq]
  rfl

/-- R67: a queue names no entry twice. -/
theorem queue_unique {q : List Injected} (h : (q.map Injected.entry).Nodup) {x y : Injected} (hx : x ∈ q) (hy : y ∈ q)
    (he : y.entry = x.entry) : y = x := by
  have hfind := findEntry_mem h hy
  rw [he, findEntry_mem h hx] at hfind
  exact (Option.some.inj hfind).symm

/-- R70: one more request folded into an element, if it is of this entry. -/
def countedFor (e : Fin 128) (y : Injected) : Injected :=
  if y.entry = e then { y with merged := min 255 (y.merged + 1) } else y

theorem countedFor_entry (e : Fin 128) (y : Injected) : (countedFor e y).entry = y.entry := by
  unfold countedFor
  split <;> rfl

/-- R70: any other merge changes the count of the one element of the entry. -/
theorem mergeInjected_counted {x : Injected} {lv : Level} (h : promotes x lv = false) {q : List Injected}
    (hq : (q.map Injected.entry).Nodup) (hx : x ∈ q) : mergeInjected x lv q = q.map (countedFor x.entry) := by
  rw [mergeInjected, if_neg (by simp [h])]
  refine List.map_congr_left fun y hy => ?_
  unfold countedFor
  split
  next he => rw [queue_unique hq hx hy he]; rfl
  next => rfl

/-- R71: such a merge leaves the order of the queue. -/
theorem placeOf_counted {q : List Injected} (h : ∃ y ∈ q, y.entry = e) (e' : Fin 128) :
    placeOf e (q.map (countedFor e')) = q.findIdx fun y => decide (y.entry = e) := by
  obtain ⟨y, hy, he⟩ := h
  rw [placeOf_eq_findIdx ⟨_, List.mem_map_of_mem hy, (countedFor_entry e' y).trans he⟩, List.findIdx_map]
  simp only [Function.comp_def, countedFor_entry]

/-- R70, R71: the place of a promoted element is behind every element that was URGENT. -/
theorem placeOf_promoted {x : Injected} {lv : Level} (h : promotes x lv = true) {q : List Injected} (hq : queueSound q)
    (hx : x ∈ q) :
    placeOf x.entry (mergeInjected x lv q) = (q.takeWhile fun y => decide (y.level = .urgent)).length := by
  obtain ⟨-, hnodup, horder, -⟩ := hq
  have hplace := placeOf_urgentPlaced (x := { x with level := .urgent, merged := min 255 (x.merged + 1) })
    (q := q.filter fun y => decide (y.entry ≠ x.entry)) fun y hy => of_decide_eq_true (List.mem_filter.1 hy).2
  rw [mergeInjected_promoted h]
  refine hplace.trans (congrArg List.length (takeWhile_urgent_filter horder fun y hy hu => ?_))
  refine decide_eq_true fun he => ?_
  rw [queue_unique hnodup hx hy he, (promotes_iff.1 h).1] at hu
  cases hu

/-! ### ASK -/

theorem exec_ask {tag entry level : Byte} (hs : s.ready) :
    exec (.ask tag entry level) s = .next ((doAsk entry level s).1.replying 0xC0 tag (doAsk entry level s).2) :=
  submit_request (k := .ask) (r := .ask entry level) hs rfl (by simp)

theorem doAsk_badArg {entry level : Byte} (h : 127 < entry.toNat ∨ 1 < level.toNat) :
    doAsk entry level s = (s, [0x14]) := by
  unfold doAsk
  split
  next he hl =>
    rcases h with h | h
    · simp [finOf_none (n := 128) h] at he
    · simp [levelOf_none h] at hl
  next => rfl

theorem doAsk_eq (e : Fin 128) (lv : Level) (s : State) :
    doAsk (finByte e) lv.code s = ((s.askAt e lv .host).1, (s.askAt e lv .host).2.body) := by
  simp only [doAsk, finOf128, levelOf_code]

theorem askBarred_iff {x : Line} : x.askBarred = true ↔
    x.settings.mode = .listen ∨ x.power = .fault ∨ (x.power = .off ∧ x.settings.autoPower = false) := by
  simp [Line.askBarred, or_assoc]

section

variable {lv : Level} {o : Origin}

theorem askAt_undefined (h : s.entry e = none) : s.askAt e lv o = (s, .noSuch) := by
  simp only [State.askAt, h]

theorem askAt_barred (hp : s.entry e = some p) (hb : (s.line p.line).askBarred = true) : s.askAt e lv o = (s, .state) := by
  simp only [State.askAt, hp, if_pos hb]

variable (hp : s.entry e = some p) (hb : ¬ (s.line p.line).askBarred = true)
include hp hb

/-- R70: the entry is queued already. -/
theorem askAt_merges {q : Injected} (hq : findEntry e (s.line p.line).queue = some q) :
    s.askAt e lv o = (s.mergeAsk p.line q lv, .merged (if promotes q lv then .urgent else q.level)
      (min 255 (q.merged + 1)) (placeOf e ((s.mergeAsk p.line q lv).line p.line).queue)) := by
  simp only [State.askAt, hp, if_neg hb, hq]
  rfl

theorem askAt_full (hq : findEntry e (s.line p.line).queue = none) (hn : 8 ≤ (s.line p.line).queue.length) :
    s.askAt e lv o = (s, .full) := by
  simp only [State.askAt, hp, if_neg hb, hq]
  exact if_pos hn

/-- R69, step 7. -/
theorem askAt_appends (hq : findEntry e (s.line p.line).queue = none) (hn : (s.line p.line).queue.length < 8)
    {new : Injected} (hnew : new = { entry := e, level := lv, origin := o, merged := 0, arrival := s.count }) :
    s.askAt e lv o =
      (s.appendAsk p.line new, .ok lv 0 (placeOf e ((s.appendAsk p.line new).line p.line).queue)) := by
  simp only [State.askAt, hp, if_neg hb, hq, hnew]
  exact if_neg (Nat.not_le.2 hn)

end

theorem findEntry_eq_none {q : List Injected} (h : ∀ y ∈ q, y.entry ≠ e) : findEntry e q = none :=
  List.find?_eq_none.2 fun y hy => by simpa using h y hy

/-- R83: only a scan exchange is preempted. -/
theorem preempt_noScan (h : ¬ (s.line l).scanInFlight) : s.preempt l = s := by
  unfold State.preempt
  split
  next ex hx =>
    refine if_neg fun hscan => h ⟨ex, hx, ?_⟩
    unfold Exchange.isScan at hscan
    split at hscan
    next c hc => exact ⟨c, hc⟩
    all_goals cases hscan
  next => rfl

theorem urgentJoined_noScan {joined : Bool} (h : joined = false ∨ ¬ (s.line l).scanInFlight) :
    s.urgentJoined l joined = s := by
  rcases h with rfl | h
  · rfl
  · unfold State.urgentJoined
    rw [preempt_noScan h, ite_self]

theorem preempt_queue (s : State) (l : Fin 4) : ((s.preempt l).line l).queue = (s.line l).queue := by
  unfold State.preempt
  split
  next ex hx =>
    split
    next =>
      by_cases he : (s.line l).engine = .sending
      · rw [endOutside_sending hx he, setLine_line_self]
      · rw [endOutside_free hx he]
        exact fileQuiet_line (afterFiling_queue _) rfl ex .preempted
    next => rfl
  next => rfl

/-- R71: a line whose queue has taken a request in. -/
def asked (x : Line) (queue : List Injected) : Line := { x with queue, demand := { x.demand with ask := true } }

theorem mergeAsk_eq (s : State) (l : Fin 4) (q : Injected) (lv : Level) :
    s.mergeAsk l q lv =
      (s.setLine l { s.line l with queue := mergeInjected q lv (s.line l).queue }).urgentJoined l (promotes q lv) := rfl

theorem appendAsk_eq (s : State) (l : Fin 4) (x : Injected) :
    s.appendAsk l x =
      ((s.setLine l (asked (s.line l) (appendInjected x (s.line l).queue))).powerUp l).urgentJoined l
        (decide (x.level = .urgent)) := rfl

theorem appendAsk_supplied (h : (s.line l).power ≠ .off) (x : Injected) :
    s.appendAsk l x =
      (s.setLine l (asked (s.line l) (appendInjected x (s.line l).queue))).urgentJoined l (decide (x.level = .urgent)) := by
  rw [appendAsk_eq, powerUp_supplied]
  rw [setLine_line_self]
  exact h

/-- R90: the ASK demand powers an OFF line up; LnOVL# is looked at then. -/
theorem powerUp_asked (h : (s.line l).power = .off) (queue : List Injected) :
    (s.setLine l (asked (s.line l) queue)).powerUp l =
      if (s.line l).lnOvl = true then
        (s.setLine l ((asked (s.line l) queue).poweringUp s.count)).faultHandling l
      else s.setLine l ((asked (s.line l) queue).poweringUp s.count) := by
  have hset : (s.setLine l (asked (s.line l) queue)).modLine l
      (fun x => { x with
        power := .settling, lnPwr := true, settleTimer := .running s.count (x.settings.settleSteps * 50) }) =
      s.setLine l ((asked (s.line l) queue).poweringUp s.count) := by
    rw [State.modLine, setLine_line_self, setLine_twice]
    rfl
  rw [State.powerUp, setLine_line_self, if_pos ⟨h, by simp [asked, DemandSet.isEmpty]⟩, State.enterSettling, setLine_count,
    hset, setLine_line_self]
  rfl

/-! #### Merging, and appending -/

section

variable {q : Injected} {lv : Level} (hs : s.ready) (hp : s.entry e = some p)
  (hb : ¬ (s.line p.line).askBarred = true)
include hs hp hb

theorem exec_ask_counted {tag : Byte} (hl : linesSound s) (hq : q ∈ (s.line p.line).queue) (he : q.entry = e)
    (hn : q.level = .urgent ∨ lv = .prompt) :
    exec (.ask tag (finByte e) lv.code) s =
      .next ((s.setLine p.line { s.line p.line with queue := (s.line p.line).queue.map (countedFor e) }).replying 0xC0 tag
        [0x01, q.level.code, natByte (min 255 (q.merged + 1)),
          natByte ((s.line p.line).queue.findIdx fun y => decide (y.entry = e))]) := by
  obtain ⟨-, -, -, -, ⟨-, hnodup, -⟩, -⟩ := (hl p.line).1
  have hno := promotes_eq_false hn
  have hplace := placeOf_counted ⟨q, hq, he⟩ e
  subst he
  rw [exec_ask hs, doAsk_eq, askAt_merges hp hb (findEntry_mem hnodup hq), mergeAsk_eq, urgentJoined_noScan (.inl hno),
    mergeInjected_counted hno hnodup hq, setLine_line_self, hplace, if_neg (by simp [hno])]
  rfl

theorem exec_ask_promoted {tag : Byte} (hl : linesSound s) (hq : q ∈ (s.line p.line).queue) (he : q.entry = e)
    (hprompt : q.level = .prompt) :
    exec (.ask tag (finByte e) 0) s =
      .next (((s.setLine p.line { s.line p.line with
          queue := urgentPlaced { q with level := .urgent, merged := min 255 (q.merged + 1) }
            ((s.line p.line).queue.filter fun y => decide (y.entry ≠ e)) }).preempt p.line).replying 0xC0 tag
        [0x01, 0, natByte (min 255 (q.merged + 1)),
          natByte ((s.line p.line).queue.takeWhile fun y => decide (y.level = .urgent)).length]) := by
  obtain ⟨-, -, -, -, hsound, -⟩ := (hl p.line).1
  have hyes : promotes q .urgent = true := promotes_iff.2 ⟨hprompt, rfl⟩
  subst he
  have hmerge : s.mergeAsk p.line q .urgent =
      (s.setLine p.line { s.line p.line with queue := mergeInjected q .urgent (s.line p.line).queue }).preempt p.line := by
    rw [mergeAsk_eq, hyes]
    rfl
  change exec (.ask tag (finByte q.entry) Level.urgent.code) s = _
  rw [exec_ask hs, doAsk_eq, askAt_merges hp hb (findEntry_mem hsound.2.1 hq), hmerge, preempt_queue, setLine_line_self,
    placeOf_promoted hyes hsound hq, mergeInjected_promoted hyes, if_pos hyes]
  rfl

omit q in
theorem exec_ask_appended {tag : Byte} (hq : ∀ y ∈ (s.line p.line).queue, y.entry ≠ e)
    (hn : (s.line p.line).queue.length < 8) {new : Injected}
    (hnew : new = { entry := e, level := lv, origin := .host, merged := 0, arrival := s.count }) :
    exec (.ask tag (finByte e) lv.code) s =
      .next ((s.appendAsk p.line new).replying 0xC0 tag
        [0x00, lv.code, 0, natByte (placeOf e ((s.appendAsk p.line new).line p.line).queue)]) := by
  rw [exec_ask hs, doAsk_eq, askAt_appends hp hb (findEntry_eq_none hq) hn hnew]
  rfl

end

/-! #### An overload as the line powers up -/

theorem appendInjected_nil (x : Injected) : appendInjected x [] = [x] := by
  unfold appendInjected
  split <;> rfl

/-- R71, R88: an OFF line has no demand, so nothing is queued on it. -/
theorem queue_off {x : Line} (h : lineSound x) (hp : x.power = .off) : x.queue = [] := by
  obtain ⟨⟨-, -, -, -, -, hask, -⟩, hdemand, -⟩ := h
  rw [demandSound, if_neg (by simp [Line.supplied, hp]), demand_isEmpty_iff] at hdemand
  by_contra hne
  simp [hask hne] at hdemand

theorem queuedRecords_singleton {x : Injected} (hq : (s.line l).queue = [x]) (he : s.entry x.entry = some p) :
    s.queuedRecords l = if p.policy.offers .lineFault then [queuedRecord x p.station s.count] else [] := by
  rw [State.queuedRecords, hq, List.filterMap_cons]
  simp only [he]
  cases p.policy.offers .lineFault <;> rfl

/-- R94: the records of a line with one request queued and nothing else on it. -/
theorem faultHandling_oneQueued {x : Injected} (hx : (s.line l).exch = none) (hb : (s.line l).block = [])
    (hq : (s.line l).queue = [x]) (he : s.entry x.entry = some p) :
    (s.faultHandling l).store l =
      if p.policy.offers .lineFault then (s.store l).offered (queuedRecord x p.station s.count) else s.store l := by
  obtain ⟨-, -, -, hstore, -⟩ := faultHandling_frame s l (by simp [hx])
  rw [hstore, queuedRecords_singleton hq he, State.blockRecords, if_pos hb, State.flightRecords, hx]
  cases p.policy.offers .lineFault <;> rfl

/-- R90, R93, R94: the ASK demand powers a line up whose LnOVL# is asserted. -/
theorem appendAsk_overload {new : Injected} (hl : linesSound s) (hp : s.entry new.entry = some p)
    (hoff : (s.line p.line).power = .off) (hov : (s.line p.line).lnOvl = true) :
    ((s.appendAsk p.line new).line p.line).power = .fault ∧ ((s.appendAsk p.line new).line p.line).queue = [] ∧
      ((s.appendAsk p.line new).attn.set .lineFault).getLsbD p.line.val = true ∧
      (s.appendAsk p.line new).store p.line =
        if p.policy.offers .lineFault then (s.store p.line).offered (queuedRecord new p.station s.count)
        else s.store p.line := by
  obtain ⟨hexch, hengine⟩ := shape_unpowered (hl p.line).1 (by simp [hoff])
  obtain ⟨-, -, -, -, -, -, -, -, -, hblock⟩ := (hl p.line).1
  rw [appendAsk_eq, powerUp_asked hoff, if_pos hov, queue_off (hl p.line) hoff, appendInjected_nil]
  generalize hu : s.setLine p.line ((asked (s.line p.line) [new]).poweringUp s.count) = u
  have hline : u.line p.line = (asked (s.line p.line) [new]).poweringUp s.count := by rw [← hu, setLine_line_self]
  have huexch : (u.line p.line).exch = none := by rw [hline]; exact hexch
  have hublock : (u.line p.line).block = [] := by rw [hline]; exact (hblock (by simp [hengine])).1
  have hstore := faultHandling_oneQueued huexch hublock (by rw [hline]; rfl) (by rw [← hu]; exact hp)
  obtain ⟨-, hdead, -, -, hattn⟩ := faultHandling_frame u p.line (by simp [huexch])
  rw [urgentJoined_free hdead.exch]
  exact ⟨hdead.power, hdead.queue, hattn, by rw [hstore, ← hu]; rfl⟩

/-! #### The request as a whole -/

/-- R67, R71: where a new element stands. -/
theorem appendInjected_place {new : Injected} {q queue : List Injected} {place : Nat} (hq : ∀ y ∈ q, y.entry ≠ new.entry)
    (hprompt : new.level = .prompt → queue = q ++ [new] ∧ place = q.length)
    (hurgent : new.level = .urgent → queue = urgentPlaced new q ∧
      place = (q.takeWhile fun y => decide (y.level = .urgent)).length) :
    appendInjected new q = queue ∧ placeOf new.entry queue = place := by
  cases hv : new.level with
  | urgent =>
    obtain ⟨rfl, rfl⟩ := hurgent hv
    exact ⟨appendInjected_urgent hv q, placeOf_urgentPlaced hq⟩
  | prompt =>
    obtain ⟨rfl, rfl⟩ := hprompt hv
    exact ⟨appendInjected_prompt hv q, placeOf_ahead hq⟩

/-- Settles O35: the checks of R69 in order, then a merge with the element of the entry, or an append and the demand it brings. -/
theorem askAppendsOrMergesARequest : Obligations.AskAppendsOrMergesARequest := by
  intro tag entry level s hs
  refine ⟨fun hbad => by rw [exec_ask hs, doAsk_badArg hbad], ?_⟩
  rintro e lv rfl rfl
  refine ⟨fun he => by rw [exec_ask hs, doAsk_eq, askAt_undefined he]; rfl, ?_⟩
  rintro p _ hp rfl
  refine ⟨fun hbar => by rw [exec_ask hs, doAsk_eq, askAt_barred hp (askBarred_iff.2 hbar)]; rfl,
    fun hm hf ha hl => ?_⟩
  have hb : ¬ (s.line p.line).askBarred = true := by
    rw [askBarred_iff]
    rintro (hlisten | hfault | ⟨hoff, hauto⟩)
    · simp [hm] at hlisten
    · exact hf hfault
    · simp [ha hoff] at hauto
  refine ⟨fun q hq he => ⟨exec_ask_counted hs hp hb hl hq he, ?_⟩, fun hfree => ⟨fun hn => ?_, ?_⟩⟩
  · rintro hprompt rfl hscan
    refine (exec_ask_promoted hs hp hb hl hq he hprompt).trans ?_
    rw [preempt_noScan (by rw [setLine_line_self]; exact hscan)]
  · rw [exec_ask hs, doAsk_eq, askAt_full hp hb (findEntry_eq_none hfree) hn]
    rfl
  · intro new queue place hn hnew hprompt hurgent hscan
    obtain ⟨hentry, hlevel⟩ : new.entry = e ∧ new.level = lv := by rw [hnew]; exact ⟨rfl, rfl⟩
    subst hentry hlevel
    obtain ⟨hqueue, hplace⟩ := appendInjected_place hfree hprompt hurgent
    have hjoin : decide (new.level = .urgent) = false ∨ ¬ (s.line p.line).scanInFlight :=
      hscan.imp_left fun h => by rw [h]; rfl
    rw [exec_ask_appended hs hp hb hfree hn hnew]
    refine ⟨fun hon => ?_, fun hoff hov => ?_, fun hoff hov => ?_⟩
    · rw [appendAsk_supplied hon, urgentJoined_noScan (by rw [setLine_line_self]; exact hjoin), hqueue, setLine_line_self,
        asked, hplace]
    · rw [appendAsk_eq, powerUp_asked hoff, if_neg (by simp [hov]),
        urgentJoined_noScan (by rw [setLine_line_self]; exact hjoin), hqueue, setLine_line_self]
      simp only [Line.poweringUp, asked, hplace]
    · obtain ⟨hpower, hempty, hattn, hstore⟩ := appendAsk_overload hl hp hoff hov
      exact ⟨_, by rw [hempty]; rfl, hpower, hempty, hattn, hstore⟩

/-! ### An URGENT request under a scan exchange -/

section

variable {ex : Exchange}

theorem preempt_scan (hx : (s.line l).exch = some ex) (ho : ex.origin = .chain c) :
    s.preempt l = s.endOutside l .preempted := by
  simp [State.preempt, hx, Exchange.isScan, ho]

theorem fileOrigin_scan (ho : ex.origin = .chain c) (s : State) (l : Fin 4) (o : ExchOutcome) :
    s.fileOrigin l ex o = s.scanEnd c l ex o := by
  simp only [State.fileOrigin, ho]

theorem evaluated_chain (s : State) (l : Fin 4) (ex : Exchange) (o : ExchOutcome) (c : Fin 8) :
    (s.evaluated l ex o).chain c = s.chain c := by
  obtain ⟨-, -, hchains, -⟩ := evaluated_frame s l ex o
  rw [State.chain, hchains]
  rfl

/-- R88: the ASK demand keeps a line supplied. -/
theorem withdraw_asked (h : (s.line l).demand.ask = true) : s.withdraw l = s.syncRound l := by
  unfold State.withdraw State.powerDown
  refine if_neg fun ⟨_, hempty, _⟩ => ?_
  rw [syncRound_line, if_pos rfl, demand_isEmpty_iff] at hempty
  obtain ⟨-, -, hask⟩ := hempty
  simp [h] at hask

/-- R49: judging the ROUND demand of a line changes nothing else. -/
theorem syncRound_kept (s : State) (l : Fin 4) :
    ((s.syncRound l).line l).demand.ask = (s.line l).demand.ask ∧ ((s.syncRound l).line l).held = (s.line l).held ∧
      ((s.syncRound l).line l).heldCount = (s.line l).heldCount ∧ ∀ c, (s.syncRound l).chain c = s.chain c := by
  rw [syncRound_line, if_pos rfl]
  exact ⟨rfl, rfl, rfl, fun _ => rfl⟩

/-- R51: what the end of a scan exchange does to its chain leaves the ASK demand of the line. -/
theorem scanEnd_ask (hask : (s.line l).demand.ask = true) (c : Fin 8) (o : ExchOutcome) :
    (((s.evaluated l ex o).scanEnd c l ex o).line l).demand.ask = true := by
  obtain ⟨-, hline, -⟩ := evaluated_frame s l ex o
  refine (line_held l (R := fun x => x.demand.ask = true) (fun _ _ h => h) fun _ h => h).scanEnd ?_ c l ex o
  rw [hline]
  exact hask

/-- R37, R49: the end of a scan exchange reaches its chain, and under an ASK demand the line stays supplied. -/
theorem fileQuiet_asked (ho : ex.origin = .chain c) (hask : (s.line l).demand.ask = true) (o : ExchOutcome) :
    s.fileQuiet l ex o = ((s.evaluated l ex o).scanEnd c l ex o).syncRound l := by
  rw [fileQuiet_eq, fileOrigin_scan ho, withdraw_asked (scanEnd_ask hask c o)]

theorem fileQuiet_asked_ask (ho : ex.origin = .chain c) (hask : (s.line l).demand.ask = true) (o : ExchOutcome) :
    ((s.fileQuiet l ex o).line l).demand.ask = true := by
  obtain ⟨hkept, -⟩ := syncRound_kept ((s.evaluated l ex o).scanEnd c l ex o) l
  rw [fileQuiet_asked ho hask, hkept, scanEnd_ask hask]

variable (ho : ex.origin = .chain c) (hask : (s.line l).demand.ask = true) (hi : (s.chain c).inFlight = true)
  (hown : ex.orphan = false)
include ho hask hi hown

/-- R51, R85: a RUNNING chain holds at the entry of the exchange that was preempted. -/
theorem fileQuiet_preempted_running (hst : (s.chain c).state = .running) :
    (s.fileQuiet l ex .preempted).chain c = { s.chain c with state := .held, position := none, inFlight := false } ∧
      ((s.fileQuiet l ex .preempted).line l).held = some { entry := ex.entry, reason := .again, owner := c } ∧
      ((s.fileQuiet l ex .preempted).line l).heldCount = 0 := by
  have hchain := evaluated_chain s l ex .preempted c
  obtain ⟨-, hheld, hcount, hkept⟩ := syncRound_kept ((s.evaluated l ex .preempted).scanEnd c l ex .preempted) l
  rw [fileQuiet_asked ho hask, hheld, hcount, hkept,
    scanEnd_again (by rw [hchain]; exact hi) hown (by rw [hchain]; exact hst) (.inl rfl), setLine_line_self, hchain]
  exact ⟨(setLine_chain ..).trans (setChain_chain_self ..), rfl, rfl⟩

/-- R51: a STOPPING chain goes IDLE. -/
theorem fileQuiet_preempted_stopping (hst : (s.chain c).state = .stopping) :
    (s.fileQuiet l ex .preempted).chain c = (s.chain c).gone ∧
      ((s.fileQuiet l ex .preempted).line l).held = (s.line l).held := by
  have hchain := evaluated_chain s l ex .preempted c
  obtain ⟨-, hline, -⟩ := evaluated_frame s l ex .preempted
  obtain ⟨-, hheld, -, hkept⟩ := syncRound_kept ((s.evaluated l ex .preempted).scanEnd c l ex .preempted) l
  rw [fileQuiet_asked ho hask, hheld, hkept,
    scanEnd_stopping (by rw [hchain]; exact hi) hown (by rw [hchain]; exact hst), setChain_line, hline, hchain]
  exact ⟨setChain_chain_self .., rfl⟩

end

/-- R71: the ASK demand of a line with work in its queue is there already. -/
theorem asked_of_ask {x : Line} (h : x.demand.ask = true) (queue : List Injected) : { x with queue } = asked x queue := by
  rw [asked, ← h]

/-- R42, R51: the scan exchange in flight on a line is that of its chain, which is RUNNING or STOPPING there. -/
theorem chain_of_flight {ex : Exchange} (h : partSound s) (hx : (s.line l).exch = some ex) (ho : ex.origin = .chain c)
    (hown : ex.orphan = false) : (s.chain c).inFlight = true ∧ (s.chain c).onLine l = true := by
  obtain ⟨-, ⟨-, -, hflight, -⟩, -⟩ := h
  have hboth := (hflight l c).2 (by simp [hx, ho, hown])
  rwa [Bool.and_eq_true] at hboth

/-- R70, R71, R83: an URGENT request of an entry on a line with an exchange in flight is queued, and then preempts. -/
theorem exec_ask_urgent {tag : Byte} {ex : Exchange} {queue : List Injected} {body : List Byte} {place : Nat}
    (hs : s.ready) (hl : linesSound s) (hp : s.entry e = some p) (hx : (s.line p.line).exch = some ex)
    (hplace : place = ((s.line p.line).queue.takeWhile fun y => decide (y.level = .urgent)).length)
    (hq : ((∀ q ∈ (s.line p.line).queue, q.entry ≠ e) ∧ (s.line p.line).queue.length < 8 ∧
          body = [0x00, 0, 0, natByte place] ∧
          queue = urgentPlaced { entry := e, level := .urgent, origin := .host, merged := 0, arrival := s.count }
            (s.line p.line).queue) ∨
        ∃ q ∈ (s.line p.line).queue, q.entry = e ∧ q.level = .prompt ∧
          body = [0x01, 0, natByte (min 255 (q.merged + 1)), natByte place] ∧
          queue = urgentPlaced { q with level := .urgent, merged := min 255 (q.merged + 1) }
            ((s.line p.line).queue.filter fun y => decide (y.entry ≠ e))) :
    exec (.ask tag (finByte e) 0) s =
      .next (((s.setLine p.line (asked (s.line p.line) queue)).preempt p.line).replying 0xC0 tag body) := by
  obtain ⟨hon, hframed, -⟩ := busy_line (hl p.line) (by simp [hx])
  have hb : ¬ (s.line p.line).askBarred = true := by simp [askBarred_iff, hon, hframed]
  obtain ⟨hfree, hn, rfl, rfl⟩ | ⟨q, hq, he, hprompt, rfl, rfl⟩ := hq
  · refine (exec_ask_appended (lv := .urgent) hs hp hb hfree hn rfl).trans ?_
    rw [appendAsk_supplied (by simp [hon]), appendInjected_urgent rfl]
    show Host.Outcome.next (((State.preempt _ p.line).replying 0xC0 tag
      [0x00, Level.urgent.code, 0, natByte (placeOf e ((State.preempt _ p.line).line p.line).queue)])) = _
    rw [preempt_queue, setLine_line_self, asked,
      placeOf_urgentPlaced (x := { entry := e, level := .urgent, origin := .host, merged := 0, arrival := s.count }) hfree,
      hplace]
    rfl
  · obtain ⟨-, -, -, -, -, hask, -⟩ := (hl p.line).1
    rw [exec_ask_promoted hs hp hb hl hq he hprompt, hplace, asked_of_ask (hask (List.ne_nil_of_mem hq))]

/-- Settles O36: the request is queued first; then the exchange ends PREEMPTED, and the ASK demand keeps the line supplied. -/
theorem urgentRequestPreemptsAScanExchange : Obligations.UrgentRequestPreemptsAScanExchange := by
  rintro tag e p _ ex c queue body place s hs h hp rfl hx ho hplace hq
  rw [exec_ask_urgent hs h.1 hp hx hplace hq]
  obtain ⟨-, -, hblock⟩ := busy_line (partSound_line h p.line) (by simp [hx])
  change (_ → _ = Host.Outcome.next (State.replying (s.setLine p.line { asked (s.line p.line) queue with
    exch := some { ex with pendingEnd := some (ex.pendingEnd.getD .preempted) } }) _ _ _)) ∧ _
  generalize hu : s.setLine p.line (asked (s.line p.line) queue) = u
  have hline : u.line p.line = asked (s.line p.line) queue := by rw [← hu, setLine_line_self]
  have hux : (u.line p.line).exch = some ex := by rw [hline]; exact hx
  have hchain : u.chain c = s.chain c := by rw [← hu, setLine_chain]
  have hask : (u.line p.line).demand.ask = true := by rw [hline]; rfl
  rw [preempt_scan hux ho]
  refine ⟨fun he => ?_, fun he hown => ⟨_, rfl, ?_⟩⟩
  · rw [endOutside_sending hux (by rw [hline]; exact he), hline, ← hu, setLine_twice]
  · obtain ⟨hi, hon⟩ := chain_of_flight h hx ho hown
    rw [endOutside_free hux (by rw [hline]; exact he)]
    refine ⟨?_, ?_, fileQuiet_asked_ask ho hask _, fun hst => ?_, fun hst => ?_⟩
    · rw [show s.setLine p.line { s.line p.line with
        queue, demand := { (s.line p.line).demand with ask := true } } = u from hu]
      exact fileQuiet_filed (by rw [hline]; exact hblock) ex (by decide)
    · exact fileQuiet_line (afterFiling_queue queue) (by rw [hline]; rfl) ex .preempted
    · rw [← hchain]
      exact fileQuiet_preempted_running ho hask (by rw [hchain]; exact hi) hown (by rw [hchain]; exact hst)
    · obtain ⟨hgone, hheld⟩ := fileQuiet_preempted_stopping ho hask (by rw [hchain]; exact hi) hown
        (by rw [hchain]; exact hst)
      refine ⟨by rw [hgone, hchain], ?_⟩
      rw [hheld, hline]
      exact held_none_of_active ((partSound_iff.1 h).2.1 p.line) (active_of hst (by decide)) hon (by simp [hst])

/-! ### ASK-CANCEL -/

theorem exec_askCancel {tag entry : Byte} (hs : s.ready) :
    exec (.askCancel tag entry) s =
      .next ((doAskCancel entry s).1.replying 0xC1 tag (doAskCancel entry s).2) :=
  submit_request (k := .askCancel) (r := .askCancel entry) hs rfl (by simp)

theorem doAskCancel_badArg {entry : Byte} (h : 127 < entry.toNat) : doAskCancel entry s = (s, [0x14]) := by
  simp only [doAskCancel, finOf_none (n := 128) h]
  rfl

theorem doAskCancel_undefined (h : s.entry e = none) : doAskCancel (finByte e) s = (s, [0x13]) := by
  simp only [doAskCancel, finOf128, h]
  rfl

theorem doAskCancel_absent (hp : s.entry e = some p) (hq : ∀ y ∈ (s.line p.line).queue, y.entry ≠ e) :
    doAskCancel (finByte e) s = (s, [0x13]) := by
  simp only [doAskCancel, finOf128, hp, findEntry_eq_none hq]
  rfl

theorem doAskCancel_queued (hp : s.entry e = some p) (hq : ∃ y ∈ (s.line p.line).queue, y.entry = e) :
    doAskCancel (finByte e) s = (s.cancelAsk p.line e, [0x00]) := by
  obtain ⟨y, hy, he⟩ := hq
  cases hfind : findEntry e (s.line p.line).queue with
  | none => exact absurd he (findEntry_none hfind y hy)
  | some q =>
    simp only [doAskCancel, finOf128, hp, hfind]
    rfl

/-- R71, R74: whether the ASK demand stays when the element of an entry has left the queue. -/
def askStays (x : Line) (e : Fin 128) : Bool :=
  x.demand.ask && (!(removeEntry e x.queue).isEmpty || x.injectedInFlight)

theorem injectedInFlight_iff {x : Line} :
    x.injectedInFlight = true ↔ ∃ ex, x.exch = some ex ∧ ∀ c, ex.origin ≠ .chain c := by
  unfold Line.injectedInFlight
  cases x.exch with
  | none => simp
  | some ex =>
    have hscan : ex.isScan = false ↔ ∀ c, ex.origin ≠ .chain c := by
      unfold Exchange.isScan
      cases ex.origin <;> simp
    simp [hscan]

theorem askStays_iff {x : Line} (hask : x.demand.ask = true) :
    askStays x e = true ↔ (∃ q ∈ x.queue, q.entry ≠ e) ∨ ∃ ex, x.exch = some ex ∧ ∀ c, ex.origin ≠ .chain c := by
  have hleft : (removeEntry e x.queue).isEmpty = false ↔ ∃ q ∈ x.queue, q.entry ≠ e := by
    rw [removeEntry, List.isEmpty_eq_false_iff_exists_mem]
    simp
  rw [askStays, hask, Bool.true_and, Bool.or_eq_true, Bool.not_eq_true', hleft, injectedInFlight_iff]

/-- R74: a line whose queue an element has left. -/
def cancelled (x : Line) (e : Fin 128) : Line :=
  { x with queue := x.queue.filter fun y => decide (y.entry ≠ e), demand := { x.demand with ask := askStays x e } }

/-- R49, R74: the ROUND demand is right as it stands, so the line only follows its demand set down. -/
theorem cancelAsk_eq (h : partSound s) (l : Fin 4) (e : Fin 128) :
    s.cancelAsk l e = (s.setLine l (cancelled (s.line l) e)).powerDown l := by
  have hround : (s.setLine l (cancelled (s.line l) e)).roundWanted l = s.roundWanted l :=
    roundWanted_modLine (f := fun x => cancelled x e) rfl rfl
  change ((s.setLine l (cancelled (s.line l) e)).syncRound l).powerDown l = _
  rw [syncRound_same]
  rw [hround, setLine_line_self]
  exact round_judged h l

theorem cancelAsk_stays (h : partSound s) (hd : (s.line l).demand.host = true ∨ (s.line l).demand.round = true ∨
      askStays (s.line l) e = true ∨ (s.line l).exch ≠ none) :
    s.cancelAsk l e = s.setLine l (cancelled (s.line l) e) := by
  rw [cancelAsk_eq h]
  unfold State.powerDown
  refine if_neg fun ⟨_, hempty, hfree⟩ => ?_
  rw [setLine_line_self] at hempty hfree
  obtain ⟨hhost, hround, hask⟩ := demand_isEmpty_iff.1 hempty
  obtain hd | hd | hd | hd := hd
  · exact absurd (hd.symm.trans hhost) (by simp)
  · exact absurd (hd.symm.trans hround) (by simp)
  · exact absurd (hd.symm.trans hask) (by simp)
  · exact hd hfree

theorem demand_eq_empty {d : DemandSet} (h : d.isEmpty = true) : d = DemandSet.empty := by
  obtain ⟨hhost, hround, hask⟩ := demand_isEmpty_iff.1 h
  cases d
  simp_all [DemandSet.empty]

section

variable (hhost : (s.line l).demand.host = false) (hround : (s.line l).demand.round = false)
  (hask : askStays (s.line l) e = false)
include hhost hround hask

/-- R74, R88: no demand is left. -/
theorem cancelled_unwanted : cancelled (s.line l) e = { s.line l with
    queue := (s.line l).queue.filter fun y => decide (y.entry ≠ e), demand := DemandSet.empty } := by
  rw [cancelled, demand_eq_empty (d := { (s.line l).demand with ask := askStays (s.line l) e }) (demand_isEmpty_iff.2 ⟨hhost, hround, hask⟩)]

/-- R61, R91, R92. -/
theorem cancelAsk_off (h : partSound s) (hs : (s.line l).supplied = true) (hx : (s.line l).exch = none) :
    (s.setLine l (cancelled (s.line l) e)).goneOff (s.cancelAsk l e) l := by
  rw [cancelAsk_eq h, State.powerDown, if_pos]
  · exact enterOff_gone _ l
  · rw [setLine_line_self]
    exact ⟨(supplied_iff _).1 hs, demand_isEmpty_iff.2 ⟨hhost, hround, hask⟩, hx⟩

end

/-- R61, R91: what going OFF leaves of the supply, the queue and the exchange of a line. -/
theorem goneOff_line {u t : State} (h : u.goneOff t l) :
    (t.line l).lnPwr = false ∧ (t.line l).queue = (u.line l).queue ∧ (t.line l).exch = (u.line l).exch := by
  obtain ⟨-, -, -, z, rfl, hchain, hnone⟩ := h
  by_cases hc : ∃ c, u.activeChain l = some c ∧ ((u.chain c).state = .running ∨ (u.chain c).state = .held)
  · obtain ⟨c, hc, hst⟩ := hc
    obtain ⟨-, -, -, hline⟩ := hchain c hc hst
    rw [hline]
    split <;> exact ⟨rfl, rfl, rfl⟩
  · obtain ⟨-, hline⟩ := hnone fun c hc' => not_or.1 fun hst => hc ⟨c, hc', hst⟩
    rw [hline]
    exact ⟨rfl, rfl, rfl⟩

theorem cancelAsk_line_ne (s : State) (e : Fin 128) {k : Fin 4} (hk : k ≠ l) : (s.cancelAsk l e).line k = s.line k :=
  (withdraw_line_ne _ hk).trans (modLine_line_ne _ _ _ _ hk)

/-- R71, R88: a line with work in its queue is supplied by the ASK demand. -/
theorem supplied_of_queue {x : Line} (h : lineSound x) (hq : x.queue ≠ []) : x.demand.ask = true ∧ x.supplied = true := by
  obtain ⟨⟨-, -, -, -, -, hask, -⟩, hdemand, -⟩ := h
  refine ⟨hask hq, ?_⟩
  by_contra hs
  rw [demandSound, if_neg hs, demand_isEmpty_iff] at hdemand
  simp [hask hq] at hdemand

/-- Settles O37: the element leaves; by whether anything still keeps the line supplied, it stays as it is or goes OFF. -/
theorem askCancelRemovesTheQueuedElement : Obligations.AskCancelRemovesTheQueuedElement := by
  intro tag entry s hs
  rw [exec_askCancel hs]
  refine ⟨fun hbad => by rw [doAskCancel_badArg hbad], ?_⟩
  rintro e rfl
  refine ⟨fun hu => by rw [doAskCancel_undefined hu], ?_⟩
  rintro p _ hp rfl
  refine ⟨fun hq => by rw [doAskCancel_absent hp hq], fun hq h => ?_⟩
  rw [doAskCancel_queued hp hq]
  obtain ⟨hask, hsup⟩ := supplied_of_queue (partSound_line h p.line) (by
    obtain ⟨q, hq, -⟩ := hq
    exact List.ne_nil_of_mem hq)
  refine ⟨_, askStays (s.line p.line) e, rfl, askStays_iff hask, ?_⟩
  by_cases hwanted : (s.line p.line).demand.host = true ∨ (s.line p.line).demand.round = true ∨
      askStays (s.line p.line) e = true ∨ (s.line p.line).exch ≠ none
  · have heq := cancelAsk_stays h hwanted
    refine ⟨by rw [heq, setLine_line_self]; rfl, by rw [heq, setLine_line_self]; rfl,
      by rw [heq, setLine_line_self]; rfl, fun k hk => cancelAsk_line_ne s e hk, fun _ => heq,
      fun hhost hround ha hfree => ?_⟩
    simp [hhost, hround, ha, hfree] at hwanted
  · obtain ⟨hhost, hround, ha, hfree⟩ : (s.line p.line).demand.host = false ∧ (s.line p.line).demand.round = false ∧
        askStays (s.line p.line) e = false ∧ (s.line p.line).exch = none := by simpa using hwanted
    have hoff := cancelAsk_off hhost hround ha h hsup hfree
    obtain ⟨-, hdemand, hpower⟩ := goneOff_keeps hoff
    obtain ⟨hpwr, hqueue, hexch⟩ := goneOff_line hoff
    rw [setLine_line_self] at hqueue hexch hdemand
    rw [cancelled_unwanted hhost hround ha] at hoff
    exact ⟨hqueue, hexch, hdemand, fun k hk => cancelAsk_line_ne s e hk, fun hw => absurd hw hwanted,
      fun _ _ _ _ => ⟨hpower, hpwr, hoff⟩⟩

/-! ### The scheduler -/

theorem exec_schedulerChoice (l : Fin 4) (s : State) :
    exec (.schedulerChoice l) s = .next (if (s.line l).free then s.choose l else s) := rfl

/-- R77. -/
theorem not_free_iff {x : Line} : x.free = false ↔ x.power ≠ .on ∨ x.settings.mode = .listen ∨ x.exch ≠ none := by
  rw [← Bool.not_eq_true, free_iff, not_and_or, not_and_or]
  cases x.settings.mode <;> simp

/-! #### The five choices -/

/-- R78, choices 1 and 4. -/
theorem choose_restores {h : Held} (hh : (s.line l).held = some h)
    (hq : (s.line l).heldCount = 8 ∨ (s.line l).queue = []) : s.choose l = s.restore l h := by
  unfold State.choose
  simp only [hh]
  cases hqueue : (s.line l).queue with
  | nil => rfl
  | cons q rest => exact if_pos (hq.resolve_right (by simp [hqueue]))

/-- R78, choices 2 and 3. -/
theorem choose_injects {q : Injected} {rest : List Injected} (hq : (s.line l).queue = q :: rest)
    (hh : (s.line l).held = none ∨ (s.line l).heldCount ≠ 8) :
    s.choose l = (s.boundaryHold l).startInjected l q := by
  unfold State.choose
  simp only [hq]
  cases hheld : (s.line l).held with
  | none => rfl
  | some h => exact if_neg (hh.resolve_left (by simp [hheld]))

/-- R78, choice 5. -/
theorem choose_scans (hh : (s.line l).held = none) (hq : (s.line l).queue = []) (ho : s.offered l = some (c, e)) :
    s.choose l = s.startScan l c e false := by
  unfold State.choose
  simp only [hh, hq, ho]

/-- R78: none of the choices applies. -/
theorem choose_nothing (hh : (s.line l).held = none) (hq : (s.line l).queue = []) (ho : s.offered l = none) :
    s.choose l = s := by
  unfold State.choose
  simp only [hh, hq, ho]

/-- R80: the one active chain of a line is offered while it is RUNNING with no exchange in flight. -/
theorem offered_running (h : partSound s) (hon : (s.chain c).onLine l = true) (hst : (s.chain c).state = .running)
    (hi : (s.chain c).inFlight = false) (hp : (s.chain c).position = some e) : s.offered l = some (c, e) := by
  have ha := activeChain_eq ((partSound_iff.1 h).2.1 l) (active_of hst (by decide)) hon
  simp only [State.offered, ha, hst, hp, hi]

theorem offered_none
    (h : ∀ c, (s.chain c).onLine l = true → (s.chain c).state = .running → (s.chain c).inFlight = true) :
    s.offered l = none := by
  cases hq : s.offered l with
  | none => rfl
  | some q =>
    obtain ⟨hst, hon, hi⟩ := offered_some hq
    simp [h _ hon hst] at hi

/-! #### The start of an exchange -/

theorem entryOn_iff : s.entryOn e l = true ↔ ∃ p, s.entry e = some p ∧ p.line = l := by
  unfold State.entryOn
  cases s.entry e <;> simp

/-- R12, R50: the scan exchange of an entry starts. -/
theorem startScan_starts {restored : Bool} (hp : s.entry e = some p) (hl : p.line = l) :
    s.startScan l c e restored =
      (s.setChain c ((s.chain c).begin e (!restored))).setLine l { s.line l with
        engine := .gapWait, exch := some (freshExchange p e (.chain c) restored 0 (s.chain c).isPowered) } := by
  simp only [State.startScan, hp, if_pos hl]
  rfl

/-- R12: an entry that is not DEFINED on the line. -/
theorem startScan_faults {restored : Bool} (he : s.entryOn e l = false) :
    s.startScan l c e restored =
      (s.chainFault c (if (s.chain c).taken = 0 then .headGone else .badLink)).withdraw l := by
  unfold State.startScan
  split
  next p hp =>
    refine if_neg fun hl => ?_
    rw [entryOn_iff.2 ⟨p, hp, hl⟩] at he
    cases he
  next => rfl

/-- R81: the held position is cleared as its entry starts. -/
theorem restore_starts {h : Held} (hp : s.entry h.entry = some p) (hl : p.line = l) :
    s.restore l h =
      (s.setChain h.owner ((s.chain h.owner).begin h.entry (!decide (h.reason = .again)))).setLine l { s.line l with
        held := none, heldCount := 0, engine := .gapWait,
        exch := some (freshExchange p h.entry (.chain h.owner) (decide (h.reason = .again)) 0
          (s.chain h.owner).isPowered) } := by
  refine (startScan_starts (s := s.modLine l Line.clearHeld) hp hl).trans ?_
  rw [modLine_line_self]
  exact setLine_twice (s.setChain h.owner _) l _ _

theorem restore_faults {h : Held} (hst : (s.chain h.owner).state = .held) (hon : (s.chain h.owner).onLine l = true)
    (he : s.entryOn h.entry l = false) :
    s.restore l h =
      (s.chainFault h.owner (if (s.chain h.owner).taken = 0 then .headGone else .badLink)).withdraw l := by
  refine (startScan_faults (s := s.modLine l Line.clearHeld) he).trans ?_
  rw [chainFault_cleared hst hon]
  rfl

/-- R79: the head of the queue becomes an injected exchange. -/
theorem startInjected_starts {q : Injected} (hp : s.entry q.entry = some p) :
    s.startInjected l q = s.setLine l { s.line l with
      queue := (s.line l).queue.tail, engine := .gapWait,
      exch := some (freshExchange p q.entry q.origin false q.merged false) } := by
  simp only [State.startInjected, hp]
  exact modLine_modLine ..

theorem startInjected_setLine {q : Injected} {x : Line} (hp : s.entry q.entry = some p) :
    (s.setLine l x).startInjected l q = s.setLine l { x with
      queue := x.queue.tail, engine := .gapWait,
      exch := some (freshExchange p q.entry q.origin false q.merged false) } := by
  rw [startInjected_starts (s := s.setLine l x) hp, setLine_line_self, setLine_twice]

/-- R80: the offered chain holds at its position before injected work starts. -/
theorem boundaryHold_offered (ho : s.offered l = some (c, e)) :
    s.boundaryHold l = (s.setChain c { s.chain c with state := .held, position := none }).setLine l
      ((s.line l).takeHeld { entry := e, reason := .next, owner := c }) := by
  simp only [State.boundaryHold, ho]
  rfl

theorem boundaryHold_none (ho : s.offered l = none) : s.boundaryHold l = s := by
  simp only [State.boundaryHold, ho]

/-! #### The fault of a chain whose entry may not start -/

theorem chainFault_member (s : State) (c : Fin 8) (r : FaultReason) :
    ((s.chainFault c r).attn.set .chainFault).getLsbD c.val = true := by
  rw [State.chainFault, (raise_gained _ .chainFault c.val).1 c.val]
  simp
  omega

/-- R60, R49: an active chain takes a chain fault, and its line follows its demand set with no chain left on it. -/
theorem chainFault_withdrawn (h : partSound s) (ha : (s.chain c).active = true) (hon : (s.chain c).onLine l = true)
    (r : FaultReason) :
    let t := (s.chainFault c r).withdraw l
    t.chain c = { (s.chain c).gone with reason := r } ∧ (t.attn.set .chainFault).getLsbD c.val = true ∧
      (t.line l).held = none ∧ (t.line l).heldCount = 0 ∧ (t.line l).exch = (s.line l).exch ∧
      (t.line l).queue = (s.line l).queue := by
  have hnone : (s.chainFault c r).activeChain l = none := by
    refine activeChain_none.2 fun c' hon' => ?_
    by_cases e : c' = c
    · rw [chainFault_chain, if_pos e]
      rfl
    · rw [chainFault_chain, if_neg e] at hon' ⊢
      by_contra hact
      exact e (active_unique h ha hon (Bool.not_eq_false _ ▸ hact) hon')
  have hline : (s.chainFault c r).line l = (s.line l).clearHeld := by
    obtain ⟨d, hd, rfl⟩ := onLine_iff.1 hon
    rw [chainFault_line, ← dropHold_line, dropHold_clears h ha hd]
  obtain ⟨hchain, hfollows⟩ := withdraw_chainless hnone
  obtain ⟨hheld, hcount, hqueue, hexch, -⟩ :=
    followedDown_keeps (roundJudged ((s.chainFault c r).line l) ((s.chainFault c r).roundWanted l))
  rw [← hfollows, roundJudged, hline] at hheld hcount hqueue hexch
  refine ⟨?_, (member_kept (by decide) c.val l).withdraw (chainFault_member s c r), hheld, hcount, hexch, hqueue⟩
  rw [hchain, chainFault_chain, if_pos rfl]
  rfl

theorem begin_restored (x : Chain) (e : Fin 128) (r : HeldReason) :
    x.begin e (!decide (r = .again)) = { x with
      state := .running, position := some e, inFlight := true, taken := x.taken + if r = .next then 1 else 0 } := by
  cases r <;> rfl

/-- R50: the exchange of a chain that is RUNNING at this entry is counted. -/
theorem begin_running {x : Chain} (hst : x.state = .running) (hp : x.position = some e) :
    x.begin e true = { x with inFlight := true, taken := x.taken + 1 } := by
  rw [Chain.begin, ← hst, ← hp]
  rfl

/-- Settles O39: by the held position, its count and the queue; then by the chain that is offered. -/
theorem schedulerTakesTheFirstChoiceThatApplies : Obligations.SchedulerTakesTheFirstChoiceThatApplies := by
  rintro l _ s rfl
  rw [exec_schedulerChoice]
  refine ⟨fun hbusy => by rw [not_free_iff.2 hbusy]; rfl, fun hp hm hx h => ?_⟩
  rw [if_pos (free_iff.2 ⟨hp, hm, hx⟩)]
  obtain ⟨-, -, -, huse⟩ := id h
  obtain ⟨huseQueue, -, huseHeld⟩ := huse l
  refine ⟨fun g p hg hq he hl => ?_, fun g hg hq he => ?_, fun q rest y hq hg => ?_, fun hg hq => ⟨?_, fun hnone => ?_⟩⟩
  · rw [choose_restores hg hq, restore_starts he hl, begin_restored]
  · obtain ⟨hst, hon⟩ := held_owner ((partSound_iff.1 h).2.1 l) hg
    rw [choose_restores hg hq, restore_faults hst hon he]
    obtain ⟨hchain, hattn, hheld, hcount, hexch, hqueue⟩ := chainFault_withdrawn h (active_of hst (by decide)) hon _
    refine ⟨?_, _, rfl, hheld, hcount, hexch.trans hx, hqueue, hattn, hchain⟩
    cases hr : g.reason with
    | next => rfl
    | again => rw [huseHeld g hg hr] at he; cases he
  · obtain ⟨p, he, -⟩ := entryOn_iff.1 (huseQueue q (by simp [hq]))
    refine ⟨p, he, fun hy => ⟨fun hnone => ?_, fun c e hon hst hi hpos => ?_⟩⟩
    · rw [choose_injects hq hg, boundaryHold_none (offered_none hnone), startInjected_starts he, hq, hy]
      rfl
    · rw [choose_injects hq hg, boundaryHold_offered (offered_running h hon hst hi hpos),
        startInjected_setLine (s := s.setChain c _) he, Line.takeHeld, hq, hy]
      rfl
  · intro c e hon hst hi hpos
    rw [choose_scans hg hq (offered_running h hon hst hi hpos)]
    refine ⟨fun p he hl => ?_, fun he => ?_⟩
    · rw [startScan_starts he hl, Bool.not_false, begin_running hst hpos]
    · rw [startScan_faults he]
      obtain ⟨hchain, hattn, -, -, hexch, -⟩ := chainFault_withdrawn h (active_of hst (by decide)) hon _
      exact ⟨_, rfl, hexch.trans hx, hattn, hchain⟩
  · rw [choose_nothing hg hq (offered_none hnone)]

end Sys2Proof.Proofs
end

section
/-! PROOFS. Line power, line settings and faults (R62, R88 to R102): LINE-SET, LINE-READ, the settle timer, LINE-POWER, fault
handling and the chain of the line, LINE-RESUME, and an overload. -/

namespace Sys2Proof.Proofs

open Sys2Proof Sys2Proof.Machine

variable {s : State} {l : Fin 4} {c : Fin 8}

/-! ### LINE-SET -/

theorem exec_lineSet {tag line mode baud gap coll settle auto thr block : Byte} (hs : s.ready) :
    exec (.lineSet tag line mode baud gap coll settle auto thr block) s =
      .next ((doLineSet line mode baud gap coll settle auto thr block s).1.replying 0x90 tag
        (doLineSet line mode baud gap coll settle auto thr block s).2) :=
  submit_request (k := .lineSet) (r := .lineSet line mode baud gap coll settle auto thr block) hs rfl (by simp)

/-- R101, step 2: a setting outside its range. -/
theorem settingsOf_none {mode baud gap coll settle auto thr block : Byte}
    (h : 1 < mode.toNat ∨ 3 < baud.toNat ∨ gap.toNat < 2 ∨ 20 < gap.toNat ∨ 7 < coll.toNat ∨ settle.toNat = 0 ∨
      100 < settle.toNat ∨ 1 < auto.toNat ∨ 32 < thr.toNat ∨ 3 < block.toNat) :
    settingsOf mode baud gap coll settle auto thr block = none := by
  unfold settingsOf
  split
  next hm hb ha hk =>
    have hmode : ¬ 1 < mode.toNat := fun h => by simp [modeOf_none h] at hm
    have hbaud : ¬ 3 < baud.toNat := fun h => by simp [baudOf_none h] at hb
    have hauto : ¬ 1 < auto.toNat := fun h => by simp [boolOf_none h] at ha
    have hblock : ¬ 3 < block.toNat := fun h => by simp [blockSizeOf_none h] at hk
    exact if_neg fun hin => by omega
  next => rfl

/-- R100, R101: eight settings in their ranges read back from their bytes. -/
theorem settingsOf_bytes {x : LineSettings} {gap coll settle thr : Byte} (hgap : gap.toNat = x.gapLimit)
    (hcoll : coll.toNat = x.collisionBudget) (hsettle : settle.toNat = x.settleSteps) (hthr : thr.toNat = x.storeThreshold)
    (hin : 2 ≤ x.gapLimit ∧ x.gapLimit ≤ 20 ∧ x.collisionBudget ≤ 7 ∧ 1 ≤ x.settleSteps ∧ x.settleSteps ≤ 100 ∧
      x.storeThreshold ≤ 32) :
    settingsOf x.mode.code x.baud.code gap coll settle (boolByte x.autoPower) thr x.blockSize.code = some x := by
  unfold settingsOf
  simp only [modeOf_code, baudOf_code, boolOf_boolByte, blockSizeOf_code, hgap, hcoll, hsettle, hthr]
  exact if_pos hin

theorem doLineSet_badArg {line mode baud gap coll settle auto thr block : Byte}
    (h : 3 < line.toNat ∨ settingsOf mode baud gap coll settle auto thr block = none) :
    doLineSet line mode baud gap coll settle auto thr block s = (s, [0x14]) := by
  unfold doLineSet
  rcases h with h | h
  · simp only [finOf_none (n := 4) h]
    rfl
  · rw [h]
    cases finOf 4 line <;> rfl

theorem doLineSet_eq {mode baud gap coll settle auto thr block : Byte} {x : LineSettings}
    (h : settingsOf mode baud gap coll settle auto thr block = some x) :
    doLineSet (finByte l) mode baud gap coll settle auto thr block s =
      if (s.line l).power ≠ .off ∨ (s.activeChain l).isSome then (s, [0x10]) else (s.setSettings l x, [0x00]) := by
  simp only [doLineSet, finOf4, h]
  rfl

theorem judgeLevel_line (s : State) (l k : Fin 4) : (s.judgeLevel l).line k = s.line k := by
  rw [judgeLevel_eq]
  rfl

/-- R101, R116: the settings of the line and the STORE-LEVEL class are all that changes. -/
theorem setSettings_spec (s : State) (l : Fin 4) (y : LineSettings) :
    s.setSettings l y = { s with lines := (s.setSettings l y).lines, attn := (s.setSettings l y).attn } ∧
      (s.setSettings l y).line l = { s.line l with settings := y } ∧
      (∀ k, k ≠ l → (s.setSettings l y).line k = s.line k) ∧ s.levelJudged (s.setSettings l y) l := by
  have hline : ∀ k, (s.setSettings l y).line k = if k = l then { s.line l with settings := y } else s.line k := fun k => by
    rw [State.setSettings, judgeLevel_line]
    exact modLine_line ..
  refine ⟨?_, by rw [hline, if_pos rfl], fun k hk => by rw [hline, if_neg hk], judgeLevel_judged (s.modLine l _) l⟩
  unfold State.setSettings
  rw [judgeLevel_eq]
  rfl

/-- Settles O17: the ranges of the eight settings, then the power of the line and the chain active on it. -/
theorem lineSetReplacesTheSettings : Obligations.LineSetReplacesTheSettings := by
  intro tag line mode baud gap coll settle auto thr block s hs
  rw [exec_lineSet hs]
  refine ⟨fun hbad => by rw [doLineSet_badArg (hbad.imp_right settingsOf_none)], ?_⟩
  rintro l x rfl rfl rfl hgap hcoll hsettle rfl hthr rfl h1 h2 h3 h4 h5 h6
  rw [doLineSet_eq (settingsOf_bytes hgap hcoll hsettle hthr ⟨h1, h2, h3, h4, h5, h6⟩)]
  refine ⟨fun hbusy => ?_, fun hoff hidle => ⟨s.setSettings l x, ?_, setSettings_spec s l x⟩⟩
  · rw [if_pos (hbusy.imp_right fun ⟨c, ha, hon⟩ => activeChain_isSome_iff.2 ⟨c, active_iff.1 ha, hon⟩)]
  · rw [if_neg (by simp [hoff, activeChain_none.2 hidle])]

/-! ### LINE-READ -/

theorem exec_lineRead {tag line : Byte} (hs : s.ready) :
    exec (.lineRead tag line) s = .next ((doLineRead line s).1.replying 0x91 tag (doLineRead line s).2) :=
  submit_request (k := .lineRead) (r := .lineRead line) hs rfl (by simp)

theorem doLineRead_badArg {line : Byte} (h : 3 < line.toNat) : doLineRead line s = (s, [0x14]) := by
  simp only [doLineRead, finOf_none (n := 4) h]
  rfl

/-- R165: the body in which LINE-READ shows a line. -/
def lineBytes (s : State) (l : Fin 4) : List Byte :=
  [0x00, finByte l] ++ (s.line l).settings.bytes ++ [(s.line l).power.code, (s.line l).demand.code] ++
    timeLeft16 ((s.line l).settleTimer.left s.count) ++ [boolByte (s.line l).lnOvl, (s.line l).engine.code] ++
    exchangeBytes (s.line l).exch ++ [optByte ((s.activeChain l).map finByte)] ++ heldBytes (s.line l).held ++
    [natByte (s.store l).records.length] ++ le16 (BitVec.ofNat 16 (s.store l).payloadBytes) ++ le16 (s.store l).nextSeq ++
    [boolByte (s.store l).gapPending]

theorem doLineRead_line (s : State) (l : Fin 4) : doLineRead (finByte l) s = (s, lineBytes s l) := by
  simp only [doLineRead, finOf4]
  rfl

theorem timeLeft16_length (t : Option Nat) : (timeLeft16 t).length = 2 := by cases t <;> rfl

theorem exchangeBytes_length (ex : Option Exchange) : (exchangeBytes ex).length = 7 := by
  cases ex with
  | none => rfl
  | some ex =>
    have horigin : ex.origin.code.length = 2 := by cases ex.origin <;> rfl
    simp [exchangeBytes, horigin]

theorem heldBytes_length (h : Option Held) : (heldBytes h).length = 3 := by cases h <;> rfl

theorem lineBytes_length (s : State) (l : Fin 4) : (lineBytes s l).length = 33 := by
  simp [lineBytes, LineSettings.bytes, le16, timeLeft16_length, exchangeBytes_length, heldBytes_length]

/-- R163, log 4: the settle timer as a reply shows it. -/
theorem timeLeft16_left (t : Timer) (now : Word) :
    timeLeft16 (t.left now) = match t with
      | .running start d => le16 (BitVec.ofNat 16 (d - (now - start).toNat))
      | .stopped => [0xFF, 0xFF]
      | .expired => [0xFF, 0xFF] := by
  cases t <;> rfl

/-- R163: seven bytes of an exchange, all set when there is none. -/
theorem exchangeBytes_eq (ex : Option Exchange) :
    exchangeBytes ex = match ex with
      | some ex =>
        [finByte ex.entry] ++ ex.origin.code ++
          [natByte ex.attempts, natByte ex.collisions, boolByte ex.restored,
            (match ex.pendingEnd with
              | some o => o.code
              | none => 0xFF)]
      | none => [0xFF, 0xFF, 0xFF, 0xFF, 0xFF, 0xFF, 0xFF] := by
  cases ex with
  | none => rfl
  | some ex =>
    simp only [exchangeBytes]
    cases ex.pendingEnd <;> rfl

/-- Settles O18: the codes of R167 one by one, then the body of the reply part by part. -/
theorem lineReadShowsTheLine : Obligations.LineReadShowsTheLine := by
  refine ⟨⟨rfl, rfl, rfl, rfl, ?_, rfl, fun _ => rfl, rfl, fun _ => rfl, rfl, rfl, rfl⟩, fun tag line s hs => ?_⟩
  · rintro ⟨host, round, ask⟩
    revert host round ask
    decide
  · rw [exec_lineRead hs]
    refine ⟨fun hbad => by rw [doLineRead_badArg hbad], ?_⟩
    rintro l _ rfl rfl
    refine ⟨lineBytes s l, by rw [doLineRead_line], lineBytes_length s l, ?_⟩
    rw [lineBytes, timeLeft16_left, exchangeBytes_eq]
    cases s.activeChain l <;> cases (s.line l).held <;> rfl

/-! ### The settle timer -/

/-- Settles O23: the expiry acts on a timer that is due on a line that is SETTLING. -/
theorem settleTimerExpiryEntersOn : Obligations.SettleTimerExpiryEntersOn := by
  rintro l _ s rfl
  refine ⟨fun start d hp ht hdue => ?_, fun h => ?_⟩
  · refine congrArg Host.Outcome.next (if_pos ⟨hp, ?_⟩)
    rw [ht]
    exact decide_eq_true hdue
  · refine congrArg Host.Outcome.next (if_neg ?_)
    rintro ⟨hp, hdue⟩
    rcases h with h | h
    · exact h hp
    · rw [h] at hdue
      cases hdue

/-! ### The supply comes on -/

/-- R90, R93: an overload is taken at once where LnOVL# is asserted already. -/
theorem enterSettling_eq (s : State) (l : Fin 4) :
    s.enterSettling l =
      if (s.line l).lnOvl = true then (s.setLine l ((s.line l).poweringUp s.count)).faultHandling l
      else s.setLine l ((s.line l).poweringUp s.count) := by
  have hset : s.enterSettling l =
      if ((s.setLine l ((s.line l).poweringUp s.count)).line l).lnOvl = true then
        (s.setLine l ((s.line l).poweringUp s.count)).faultHandling l
      else s.setLine l ((s.line l).poweringUp s.count) := rfl
  rw [hset, setLine_line_self]
  rfl

/-- R143: a member that has joined a class. -/
theorem gained_member {a b : Attention} {cls : AttnClass} {k : Nat} (h : a.gained b cls k) (hk : k < 32) :
    (b.set cls).getLsbD k = true := by
  rw [h.1 k]
  simp [hk]

/-- R94: what fault handling leaves on its own line, in any state. -/
theorem faultHandling_line (s : State) (l : Fin 4) :
    ((s.faultHandling l).line l).Dead { s.line l with queue := [] } ∧
      ((s.faultHandling l).line l).demand = DemandSet.empty ∧
      ((s.faultHandling l).attn.set .lineFault).getLsbD l.val = true := by
  obtain ⟨-, hstart, -⟩ := faultStart_frame s l
  have hfiled : (((s.faultStart l).faultExchange l).line l).Dead (s.line l) := by
    unfold State.faultExchange
    split
    · refine fileQuiet_line (R := fun x => x.Dead (s.line l)) (afterFiling_dead _) ?_ ..
      rw [hstart]
      exact ⟨rfl, rfl, rfl, rfl, rfl, rfl, rfl, rfl, rfl, rfl⟩
    next hfree =>
      rw [hstart] at hfree ⊢
      exact ⟨rfl, rfl, rfl, rfl, rfl, hfree, rfl, rfl, rfl, rfl⟩
  rw [faultHandling_eq]
  generalize (s.faultStart l).faultExchange l = v at hfiled ⊢
  obtain ⟨-, hqueue, -⟩ := faultQueueEnd_frame v l
  have hended : ((v.faultQueueEnd l).line l).Dead { s.line l with queue := [] } ∧
      ((v.faultQueueEnd l).line l).demand = DemandSet.empty := by
    rw [hqueue]
    exact ⟨⟨hfiled.1, hfiled.2, hfiled.3, hfiled.4, hfiled.5, hfiled.6, hfiled.7, hfiled.8, hfiled.9, rfl⟩, rfl⟩
  generalize v.faultQueueEnd l = u at hended ⊢
  obtain ⟨hdead, hdemand⟩ := faultHold_dead hended
  rw [raise_line]
  exact ⟨hdead, hdemand, gained_member (raise_gained ..) (by omega)⟩

/-! ### LINE-POWER ON -/

theorem exec_linePowerOn {tag line : Byte} (hs : s.ready) :
    exec (.linePowerOn tag line) s = .next ((doLinePower line 1 s).1.replying 0x92 tag (doLinePower line 1 s).2) :=
  submit_request (k := .linePower) (r := .linePower line 1) hs rfl (by simp)

theorem doLinePower_badArg {line : Byte} (h : 3 < line.toNat) (direction : Byte) :
    doLinePower line direction s = (s, [0x14]) := by
  simp only [doLinePower, finOf_none (n := 4) h]
  rfl

theorem doLinePower_on (s : State) (l : Fin 4) : doLinePower (finByte l) 1 s = s.linePowerOn l := by
  simp only [doLinePower, finOf4]
  rfl

theorem linePowerOn_fault (h : (s.line l).power = .fault) : s.linePowerOn l = (s, [0x11]) := if_pos h

theorem linePowerOn_accepted (h : (s.line l).power ≠ .fault) :
    s.linePowerOn l = (s.hostDemand l, (s.hostDemand l).powerBody l) := if_neg h

/-- R98: a line whose demand set HOST has joined. -/
def hostAdded (x : Line) : Line := { x with demand := { x.demand with host := true } }

theorem hostDemand_supplied (h : (s.line l).power ≠ .off) : s.hostDemand l = s.setLine l (hostAdded (s.line l)) :=
  powerUp_supplied (s := s.setLine l (hostAdded (s.line l))) (by rw [setLine_line_self]; exact h)

theorem hostDemand_off (h : (s.line l).power = .off) :
    s.hostDemand l =
      if (s.line l).lnOvl = true then (s.setLine l ((hostAdded (s.line l)).poweringUp s.count)).faultHandling l
      else s.setLine l ((hostAdded (s.line l)).poweringUp s.count) := by
  change (s.setLine l (hostAdded (s.line l))).powerUp l = _
  rw [State.powerUp, if_pos, enterSettling_eq, setLine_line_self, setLine_twice]
  · rfl
  · rw [setLine_line_self]
    exact ⟨h, rfl⟩

/-- Settles O19: by the power of the line, and on an OFF line by the level of LnOVL#. -/
theorem linePowerOnAddsTheHostDemand : Obligations.LinePowerOnAddsTheHostDemand := by
  intro tag line s hs
  rw [exec_linePowerOn hs]
  refine ⟨fun hbad => by rw [doLinePower_badArg hbad], ?_⟩
  rintro l _ rfl rfl
  rw [doLinePower_on]
  refine ⟨fun hp => by rw [linePowerOn_fault hp], fun hp => ?_, fun hp hov => ?_, fun hp hov => ⟨s.hostDemand l, ?_⟩⟩
  · obtain ⟨hoff, hfault⟩ : (s.line l).power ≠ .off ∧ (s.line l).power ≠ .fault := by
      rcases hp with h | h <;> simp [h]
    rw [linePowerOn_accepted hfault, hostDemand_supplied hoff, State.powerBody, setLine_line_self]
    rfl
  · rw [linePowerOn_accepted (by simp [hp]), hostDemand_off hp, if_neg (by simp [hov]), State.powerBody,
      setLine_line_self]
    rfl
  · rw [linePowerOn_accepted (by simp [hp]), hostDemand_off hp, if_pos hov]
    obtain ⟨hdead, hdemand, hattn⟩ := faultHandling_line (s.setLine l ((hostAdded (s.line l)).poweringUp s.count)) l
    refine ⟨?_, hdead.power, hdead.lnPwr, hdemand, hattn⟩
    rw [State.powerBody, hdead.power, hdemand]
    rfl

/-! ### LINE-POWER OFF -/

theorem exec_linePowerOff {tag line : Byte} (hs : s.ready) :
    exec (.linePowerOff tag line) s = .next ((doLinePower line 0 s).1.replying 0x92 tag (doLinePower line 0 s).2) :=
  submit_request (k := .linePower) (r := .linePower line 0) hs rfl (by simp)

theorem doLinePower_off (s : State) (l : Fin 4) : doLinePower (finByte l) 0 s = s.linePowerOff l := by
  simp only [doLinePower, finOf4]
  rfl

theorem linePowerOff_off (h : (s.line l).power = .off) : s.linePowerOff l = (s, [0x00, 0, (s.line l).demand.code]) := by
  simp only [State.linePowerOff, h, State.powerBody]
  rfl

theorem linePowerOff_fault (h : (s.line l).power = .fault) :
    s.linePowerOff l = (s.leaveFault l, (s.leaveFault l).powerBody l) := by
  simp only [State.linePowerOff, h]

theorem linePowerOff_supplied (h : (s.line l).power = .settling ∨ (s.line l).power = .on) :
    s.linePowerOff l = if s.nonPoweredWork l then (s, [0x10]) else (s.dropHost l, (s.dropHost l).powerBody l) := by
  unfold State.linePowerOff
  rcases h with h | h <;> simp only [h] <;> rfl

/-- R99: the work that depends on the line without keeping it supplied. -/
theorem nonPoweredWork_iff : s.nonPoweredWork l = true ↔
    (∃ c d, (s.chain c).defn = some d ∧ d.line = l ∧ d.powered = false ∧ (s.chain c).state ≠ .idle) ∨
      ∃ ex c, (s.line l).exch = some ex ∧ ex.origin = .chain c ∧ ex.powered = false := by
  unfold State.nonPoweredWork
  rw [Bool.or_eq_true]
  refine or_congr ?_ ?_
  · simp only [List.any_eq_true, List.mem_finRange, true_and, Bool.and_eq_true, active_iff, onLine_iff]
    refine exists_congr fun c => ⟨?_, ?_⟩
    · rintro ⟨⟨hst, d, hd, hl⟩, hp⟩
      exact ⟨d, hd, hl, by simpa [Chain.isPowered, hd] using hp, hst⟩
    · rintro ⟨d, hd, hl, hp, hst⟩
      exact ⟨⟨hst, d, hd, hl⟩, by simp [Chain.isPowered, hd, hp]⟩
  · cases (s.line l).exch with
    | none => simp
    | some ex => cases ho : ex.origin <;> simp [Exchange.isScan, ho]

/-! #### A line in FAULT -/

/-- R88, R94: a sound line in FAULT has nothing on it and no demand. -/
theorem fault_line (h : partSound s) (hp : (s.line l).power = .fault) :
    (s.line l).exch = none ∧ (s.line l).demand = DemandSet.empty := by
  refine ⟨exch_unpowered h (by simp [hp]), demand_eq_empty ?_⟩
  have hdemand := demand_judged h l
  rwa [demandSound, if_neg (by simp [Line.supplied, hp])] at hdemand

/-- R99: a line that has left FAULT, and its held position with it. -/
def faultLeft (x : Line) : Line := { x with power := .off, held := none, heldCount := 0 }

/-- R49, R89: an OFF line with no demand, no exchange and no active chain stays as it is. -/
theorem settleDemand_off {u : State} (hp : (u.line l).power = .off) (hd : (u.line l).demand = DemandSet.empty)
    (hx : (u.line l).exch = none) (ha : u.activeChain l = none) : u.settleDemand l = u := by
  have hround : u.roundWanted l = false := by
    simp [← Bool.not_eq_true, roundWanted_chainless ha fun _ => hx, hx]
  refine settleDemand_same (by rw [hd, hround]; rfl) (demandSound_unsupplied (by simp [Line.supplied, hp]) ?_)
  rw [hd]
  rfl

/-- R68: the held position of a line is clear unless a chain on it is HELD. -/
theorem clearHeld_same (h : partSound s) (hn : ∀ c, (s.chain c).onLine l = true → (s.chain c).state ≠ .held) :
    (s.line l).clearHeld = s.line l := by
  have hheld := held_none ((partSound_iff.1 h).2.1 l) hn
  obtain ⟨-, -, -, -, -, -, hcount, -⟩ := (partSound_line h l).1
  rw [Line.clearHeld, ← hcount hheld, ← hheld]

/-- R60: a chain fault raises CHAIN-FAULT and touches no other class. -/
theorem chainFault_attn (s : State) (c : Fin 8) (r : FaultReason) :
    s.attn.gained (s.chainFault c r).attn .chainFault c.val := by
  have hattn : (s.dropHold c).attn = s.attn := by
    unfold State.dropHold
    split <;> rfl
  rw [← hattn]
  exact raise_gained ((s.dropHold c).modChain c _) .chainFault c.val

/-- R60, step 2: the held position of a HELD chain is that of its line. -/
theorem dropHold_held {d : ChainDef} (hst : (s.chain c).state = .held) (hd : (s.chain c).defn = some d) :
    s.dropHold c = s.setLine d.line (s.line d.line).clearHeld := by
  simp only [State.dropHold, hst, hd]
  rfl

/-- R60: a chain fault on a line that has just changed. -/
theorem chainFault_setLine (hon : (s.chain c).onLine l = true) (y : Line) (r : FaultReason) :
    (s.setLine l y).chainFault c r =
      (s.chainFault c r).setLine l (if (s.chain c).state = .held then y.clearHeld else y) := by
  obtain ⟨d, hd, rfl⟩ := onLine_iff.1 hon
  by_cases hst : (s.chain c).state = .held
  · have htwice : ∀ a b, (s.setLine d.line a).setLine d.line b = s.setLine d.line b := setLine_twice s d.line
    rw [if_pos hst, State.chainFault, dropHold_held (s := s.setLine d.line y) hst hd, setLine_line_self, htwice,
      State.chainFault, dropHold_held hst hd, ← htwice (s.line d.line).clearHeld]
    rfl
  · rw [if_neg hst, chainFault_eq hst, chainFault_eq (s := s.setLine d.line y) hst]
    rfl

/-- R43: once the one chain that is active on a line has faulted, none is. -/
theorem chainFault_activeChain (h : partSound s) (ha : s.activeChain l = some c) (r : FaultReason) :
    (s.chainFault c r).activeChain l = none := by
  obtain ⟨hact, hon⟩ := activeChain_some ha
  refine activeChain_none.2 fun c' hon' => ?_
  rw [chainFault_chain] at hon' ⊢
  split at hon'
  next e => rw [if_pos e]; rfl
  next e =>
    rw [if_neg e]
    by_contra hact'
    exact e (active_unique h hact hon (Bool.not_eq_false _ ▸ hact') hon')

/-- R99: with no chain active on it the line goes OFF and nothing else changes. -/
theorem leaveFault_chainless (h : partSound s) (hp : (s.line l).power = .fault) (ha : s.activeChain l = none) :
    s.leaveFault l = s.setLine l (faultLeft (s.line l)) := by
  obtain ⟨hx, hd⟩ := fault_line h hp
  have hclear : (s.line l).clearHeld = s.line l := clearHeld_same h fun c hon hst => by
    have hidle := activeChain_none.1 ha c hon
    simp [Chain.active, hst] at hidle
  have hleave : s.leaveFault l = (s.setLine l { (s.line l).clearHeld with power := .off }).settleDemand l := by
    have ha' : (s.modLine l fun x => { x with power := .off }).activeChain l = none := ha
    simp only [State.leaveFault, ha', hclear]
    rfl
  rw [hleave]
  exact settleDemand_off (by rw [setLine_line_self]) (by rw [setLine_line_self]; exact hd)
    (by rw [setLine_line_self]; exact hx) ha

/-- R62, R99: the chain active on the line faults, whatever its state. -/
theorem leaveFault_chain (h : partSound s) (hp : (s.line l).power = .fault) (ha : s.activeChain l = some c) :
    s.leaveFault l = (s.chainFault c .lineFault).setLine l (faultLeft (s.line l)) := by
  obtain ⟨hx, hd⟩ := fault_line h hp
  obtain ⟨hact, hon⟩ := activeChain_some ha
  have hleave : s.leaveFault l =
      ((s.setLine l { s.line l with power := .off }).chainFault c .lineFault).settleDemand l := by
    have ha' : (s.modLine l fun x => { x with power := .off }).activeChain l = some c := ha
    simp only [State.leaveFault, ha']
    rfl
  have hline : (if (s.chain c).state = .held then { s.line l with power := .off }.clearHeld
      else { s.line l with power := .off }) = faultLeft (s.line l) := by
    split
    next => rfl
    next hst =>
      have hclear : (s.line l).clearHeld = s.line l := clearHeld_same h fun c' hon' hst' =>
        hst (active_unique h hact hon (active_of hst' (by decide)) hon' ▸ hst')
      conv_lhs => rw [← hclear]
      rfl
  rw [hleave, chainFault_setLine hon, hline]
  exact settleDemand_off (by rw [setLine_line_self]; rfl) (by rw [setLine_line_self]; exact hd)
    (by rw [setLine_line_self]; exact hx) (chainFault_activeChain h ha _)

/-- R62, R99: everything that a line going from FAULT to OFF changes. -/
theorem leaveFault_spec (h : partSound s) (hp : (s.line l).power = .fault) :
    s.leaveFault l =
        { s with lines := (s.leaveFault l).lines, chains := (s.leaveFault l).chains, attn := (s.leaveFault l).attn } ∧
      (s.leaveFault l).line l = faultLeft (s.line l) ∧ (∀ k, k ≠ l → (s.leaveFault l).line k = s.line k) ∧
      (∀ c, s.activeChain l = some c →
        (s.leaveFault l).chain c = { (s.chain c).gone with reason := .lineFault } ∧
          s.attn.gained (s.leaveFault l).attn .chainFault c.val) ∧
      (∀ c, s.activeChain l ≠ some c → (s.leaveFault l).chain c = s.chain c) ∧
      (s.activeChain l = none → (s.leaveFault l).attn = s.attn) := by
  cases ha : s.activeChain l with
  | none =>
    rw [leaveFault_chainless h hp ha]
    exact ⟨rfl, setLine_line_self .., fun k hk => setLine_line_ne _ _ _ _ hk, fun _ hc => (nomatch hc), fun _ _ => rfl,
      fun _ => rfl⟩
  | some c =>
    have hon := (activeChain_some ha).2
    rw [leaveFault_chain h hp ha]
    refine ⟨?_, setLine_line_self .., fun k hk => ?_, ?_, fun c' hc' => ?_, fun hnone => by cases hnone⟩
    · conv_lhs => rw [chainFault_eq_parts]
      rfl
    · rw [setLine_line_ne _ _ _ _ hk, chainFault_line, if_neg fun hheld => hk (onLine_unique hheld.2 hon)]
    · intro c' hc'
      cases hc'
      exact ⟨by rw [setLine_chain, chainFault_chain, if_pos rfl]; rfl, chainFault_attn s c _⟩
    · rw [setLine_chain, chainFault_chain, if_neg fun e => hc' (congrArg some e.symm)]

/-! #### A line that is supplied -/

/-- R99: a line whose demand set HOST has left. -/
def hostRemoved (x : Line) : Line := { x with demand := { x.demand with host := false } }

theorem hostRemoved_unwanted {x : Line} (hround : x.demand.round = false) (hask : x.demand.ask = false) :
    hostRemoved x = { x with demand := DemandSet.empty } := by
  have hdemand : { x.demand with host := false } = DemandSet.empty :=
    demand_eq_empty (demand_isEmpty_iff.2 ⟨rfl, hround, hask⟩)
  rw [hostRemoved, hdemand]

/-- R49, R99: the ROUND demand is right as it stands, so the line only follows its demand set down. -/
theorem dropHost_eq (h : partSound s) (l : Fin 4) : s.dropHost l = (s.setLine l (hostRemoved (s.line l))).powerDown l := by
  have hround : (s.setLine l (hostRemoved (s.line l))).roundWanted l = s.roundWanted l :=
    roundWanted_modLine (f := hostRemoved) rfl rfl
  change ((s.setLine l (hostRemoved (s.line l))).syncRound l).powerDown l = _
  rw [syncRound_same]
  rw [hround, setLine_line_self]
  exact round_judged h l

theorem dropHost_stays (h : partSound s) (hd : (s.line l).demand.round = true ∨ (s.line l).demand.ask = true) :
    s.dropHost l = s.setLine l (hostRemoved (s.line l)) := by
  rw [dropHost_eq h]
  refine if_neg fun ⟨_, hempty, _⟩ => ?_
  rw [setLine_line_self] at hempty
  obtain ⟨-, hround, hask⟩ := demand_isEmpty_iff.1 hempty
  rcases hd with hd | hd
  · exact absurd (hd.symm.trans hround) (by simp)
  · exact absurd (hd.symm.trans hask) (by simp)

/-- R49, R89, R99: a supplied line that neither ROUND nor ASK wants, and on which no work goes without them, holds no exchange
and no round. -/
theorem unwanted_line (h : partSound s) (hf : (s.line l).power ≠ .fault) (hn : ¬ s.nonPoweredWork l = true)
    (hround : (s.line l).demand.round = false) (hask : (s.line l).demand.ask = false) :
    (s.line l).exch = none ∧
      ∀ c, s.activeChain l = some c → (s.chain c).state ≠ .running ∧ (s.chain c).state ≠ .held := by
  rw [nonPoweredWork_iff, not_or] at hn
  obtain ⟨hchains, hexch⟩ := hn
  have hwanted : ¬ s.roundWanted l = true := by rw [← round_judged h l, hround]; simp
  rw [roundWanted_iff, not_and_or, not_or] at hwanted
  obtain ⟨hnoChain, hnoExch⟩ := hwanted.resolve_left (not_not.2 hf)
  refine ⟨?_, fun c ha => ?_⟩
  · by_contra hx
    obtain ⟨ex, hx⟩ := Option.ne_none_iff_exists'.1 hx
    by_cases ho : ∃ c, ex.origin = .chain c
    · obtain ⟨c, ho⟩ := ho
      cases hpw : ex.powered with
      | true => exact hnoExch ⟨ex, c, hx, ho, hpw⟩
      | false => exact hexch ⟨ex, c, hx, ho, hpw⟩
    · obtain ⟨-, -, hdemand, -⟩ := h
      rw [ask_of_injected hdemand hx (not_exists.1 ho)] at hask
      cases hask
  · obtain ⟨hact, hon⟩ := activeChain_some ha
    obtain ⟨d, hd, hl⟩ := onLine_iff.1 hon
    cases hpw : d.powered with
    | true =>
      exact ⟨fun hst => hnoChain ⟨c, d, hd, hl, hpw, .inl hst⟩,
        fun hst => hnoChain ⟨c, d, hd, hl, hpw, .inr (.inl hst)⟩⟩
    | false => exact absurd ⟨c, d, hd, hl, hpw, active_iff.1 hact⟩ hchains

theorem blockRecords_setLine {y : Line} (hb : y.block = (s.line l).block) (hp : y.blockParity = (s.line l).blockParity) :
    (s.setLine l y).blockRecords l = s.blockRecords l := by
  rw [State.blockRecords, setLine_line_self, hb, hp]
  rfl

/-- R91, R92, R139: the last demand of the line has left. -/
theorem dropHost_off (h : partSound s) (hp : (s.line l).power = .settling ∨ (s.line l).power = .on)
    (hn : ¬ s.nonPoweredWork l = true) (hround : (s.line l).demand.round = false)
    (hask : (s.line l).demand.ask = false) :
    s.dropHost l =
        { s with lines := (s.dropHost l).lines, stores := (s.dropHost l).stores, attn := (s.dropHost l).attn } ∧
      (s.dropHost l).line l = { s.line l with
        power := .off, lnPwr := false, settleTimer := .stopped, engine := .idle, block := [], blockParity := false,
        demand := DemandSet.empty } ∧
      (∀ k, k ≠ l → (s.dropHost l).line k = s.line k) ∧
      (s.dropHost l).store l = (s.blockRecords l).foldl Store.offered (s.store l) ∧
      ∀ k, k ≠ l → (s.dropHost l).store k = s.store k := by
  obtain ⟨hx, hnoRound⟩ := unwanted_line h (by rcases hp with hp | hp <;> simp [hp]) hn hround hask
  have hoff : s.dropHost l = (s.setLine l (hostRemoved (s.line l))).enterOff l := by
    rw [dropHost_eq h, State.powerDown, setLine_line_self]
    exact if_pos ⟨hp, demand_isEmpty_iff.2 ⟨rfl, hround, hask⟩, hx⟩
  obtain ⟨hparts, hother, hstore, z, hz, -, hnone⟩ := enterOff_gone (s.setLine l (hostRemoved (s.line l))) l
  rw [← hoff] at hparts hother hstore hnone
  obtain ⟨hchain, hline⟩ := hnone hnoRound
  have hchains : (s.dropHost l).chains = s.chains := Vector.ext fun i hi => hchain ⟨i, hi⟩
  rw [setLine_line_self] at hz
  refine ⟨?_, ?_, fun k hk => ?_, ?_, fun k hk => (hother k hk).2⟩
  · conv_lhs => rw [hparts, hchains]
    rfl
  · rw [hline, hz, hostRemoved_unwanted hround hask]
  · rw [(hother k hk).1, setLine_line_ne _ _ _ _ hk]
  · rw [hstore, blockRecords_setLine (y := hostRemoved (s.line l)) rfl rfl]
    rfl

/-- Settles O20: by the power of the line; a supplied one by the work that depends on it, and then by the demand left. -/
theorem linePowerOffRemovesTheHostDemand : Obligations.LinePowerOffRemovesTheHostDemand := by
  intro tag line s hs
  rw [exec_linePowerOff hs]
  refine ⟨fun hbad => by rw [doLinePower_badArg hbad], ?_⟩
  rintro l _ rfl rfl
  rw [doLinePower_off]
  refine ⟨fun hp => by rw [linePowerOff_off hp], fun hp h => ⟨s.leaveFault l, ?_⟩, fun hp => ?_⟩
  · obtain ⟨hparts, hline, hchains⟩ := leaveFault_spec h hp
    refine ⟨?_, hparts, hline, hchains⟩
    have hdemand : (faultLeft (s.line l)).demand = DemandSet.empty := (fault_line h hp).2
    rw [linePowerOff_fault hp, State.powerBody, hline, hdemand]
    rfl
  · rw [linePowerOff_supplied hp]
    refine ⟨fun hwork => by rw [if_pos (nonPoweredWork_iff.2 hwork)], fun hchains hexch h => ?_⟩
    have hn : ¬ s.nonPoweredWork l = true := by
      rw [nonPoweredWork_iff]
      rintro (⟨c, d, hd, hl, hpw, hst⟩ | ⟨ex, c, hx, ho, hpw⟩)
      · exact hst (hchains c d hd hl hpw)
      · rw [hexch ex c hx ho] at hpw
        cases hpw
    rw [if_neg hn]
    refine ⟨fun hd => ?_, fun hround hask => ⟨s.dropHost l, ?_⟩⟩
    · rw [dropHost_stays h hd, State.powerBody, setLine_line_self]
      rfl
    · obtain ⟨hparts, hline, hother, hstores⟩ := dropHost_off h hp hn hround hask
      refine ⟨?_, hparts, hline, hother, hstores⟩
      rw [State.powerBody, hline]
      rfl

/-! ### Fault handling and the chain of the line -/

/-- R94, up to the end of step 2: the line is FAULT, and the exchange it had is filed. -/
def exchangeFaulted (s : State) (l : Fin 4) : State := (s.faultStart l).faultExchange l

/-- R94: fault handling has left chain `c` as `y`, and the held position of line `l` as `hold`, with held count 0. -/
structure FaultLeaves (s : State) (l : Fin 4) (c : Fin 8) (y : Chain) (hold : Option Held) : Prop where
  chain : (s.faultHandling l).chain c = y
  held : ((s.faultHandling l).line l).held = hold
  count : ((s.faultHandling l).line l).heldCount = 0

/-- R94, steps 3 and 4: the queue and the demand set are emptied, and nothing happens to the chains and the held position. -/
theorem faultQueueEnd_keeps (s : State) (l : Fin 4) :
    (s.faultQueueEnd l).activeChain l = s.activeChain l ∧ (∀ c, (s.faultQueueEnd l).chain c = s.chain c) ∧
      ((s.faultQueueEnd l).line l).held = (s.line l).held ∧
      ((s.faultQueueEnd l).line l).heldCount = (s.line l).heldCount := by
  obtain ⟨-, hline, -, hchains⟩ := faultQueueEnd_frame s l
  rw [hline]
  exact ⟨activeChain_congr hchains l, fun c => by rw [State.chain, hchains]; rfl, rfl, rfl⟩

/-- R94, step 5, and R62: unless the chain at work on the line is RUNNING, step 5 leaves it and the held position. -/
theorem faultHandling_stays
    (hst : ∀ c, (exchangeFaulted s l).activeChain l = some c → ((exchangeFaulted s l).chain c).state ≠ .running) :
    (∀ c, (s.faultHandling l).chain c = (exchangeFaulted s l).chain c) ∧
      ((s.faultHandling l).line l).held = ((exchangeFaulted s l).line l).held ∧
      ((s.faultHandling l).line l).heldCount = ((exchangeFaulted s l).line l).heldCount := by
  obtain ⟨hactive, hchain, hkeeps⟩ := faultQueueEnd_keeps (exchangeFaulted s l) l
  have hnone : ((exchangeFaulted s l).faultQueueEnd l).faultHold l = (exchangeFaulted s l).faultQueueEnd l := by
    unfold State.faultHold
    split
    next c hc =>
      rw [hactive] at hc
      split
      next hrun _ => exact absurd ((hchain c).symm ▸ hrun) (hst c hc)
      next => rfl
    next => rfl
  have hfault : s.faultHandling l = ((exchangeFaulted s l).faultQueueEnd l).raise .lineFault l.val :=
    (faultHandling_eq s l).trans (congrArg (State.raise · .lineFault l.val) hnone)
  rw [hfault, raise_line]
  exact ⟨hchain, hkeeps⟩

/-- R94, step 5, and R62: a RUNNING chain with no exchange in flight is held with reason NEXT. -/
theorem faultHandling_holds {p : Fin 128} (ha : (exchangeFaulted s l).activeChain l = some c)
    (hst : ((exchangeFaulted s l).chain c).state = .running) (hi : ((exchangeFaulted s l).chain c).inFlight = false)
    (hp : ((exchangeFaulted s l).chain c).position = some p) :
    FaultLeaves s l c { (exchangeFaulted s l).chain c with state := .held, position := none }
      (some { entry := p, reason := .next, owner := c }) := by
  obtain ⟨hactive, hchain, -⟩ := faultQueueEnd_keeps (exchangeFaulted s l) l
  have hhold : ((exchangeFaulted s l).faultQueueEnd l).faultHold l =
      ((exchangeFaulted s l).faultQueueEnd l).holdChain c l p .next := by
    rw [faultHold_chain _ l (hactive.trans ha)]
    simp only [hchain, hst, hi, hp]
    rfl
  have hfault : s.faultHandling l = (((exchangeFaulted s l).faultQueueEnd l).holdChain c l p .next).raise .lineFault l.val :=
    (faultHandling_eq s l).trans (congrArg (State.raise · .lineFault l.val) hhold)
  refine ⟨?_, ?_, ?_⟩
  · rw [hfault, raise_chain, holdChain_chain, if_pos rfl, hchain]
  all_goals
    rw [hfault, raise_line, holdChain_line, if_pos rfl]
    rfl

/-- R143: a member of another class than STORE-LEVEL that step 2 has raised stays. -/
theorem faultHandling_member {a : AttnClass} (ha : a ≠ .storeLevel) {k : Nat}
    (h : ((exchangeFaulted s l).attn.set a).getLsbD k = true) : ((s.faultHandling l).attn.set a).getLsbD k = true := by
  have K := member_kept ha k l
  rw [faultHandling_eq]
  exact K.raise _ _ _ (by decide) l.isLt (K.toHeldKept.faultHold (K.onLine _ (K.faultQueue h _)) l)

/-! #### The exchange in flight -/

/-- R94, step 2: with no exchange in flight there is nothing to file. -/
theorem exchangeFaulted_free (hx : (s.line l).exch = none) : exchangeFaulted s l = s.faultStart l := by
  obtain ⟨-, hline, -⟩ := faultStart_frame s l
  rw [exchangeFaulted, State.faultExchange, hline, hx]

/-- R34, R94: the outcome with which a fault ends an exchange. -/
def faultOutcome (ex : Exchange) : ExchOutcome := ex.pendingEnd.getD .lineFault

/-- R37, R94: the part as the end of the exchange of a line in FAULT reaches its origin. -/
def endReaching (s : State) (l : Fin 4) (ex : Exchange) : State := (s.faultStart l).evaluated l ex (faultOutcome ex)

theorem endReaching_frame (s : State) (l : Fin 4) (ex : Exchange) :
    (∀ c, (endReaching s l ex).chain c = s.chain c) ∧ ((endReaching s l ex).line l).power = .fault ∧
      ((endReaching s l ex).line l).exch = none ∧ ((endReaching s l ex).line l).held = (s.line l).held ∧
      ((endReaching s l ex).line l).heldCount = (s.line l).heldCount ∧
      (∀ e, (endReaching s l ex).entryOn e l = s.entryOn e l) ∧ (endReaching s l ex).count = s.count := by
  obtain ⟨-, hstart, -, hchains, hplan, hcount⟩ := faultStart_frame s l
  obtain ⟨-, hline, hchains', hplan', hcount'⟩ := evaluated_frame (s.faultStart l) l ex (faultOutcome ex)
  rw [hstart] at hline
  refine ⟨fun c => ?_, ?_, ?_, ?_, ?_, fun e => entryOn_of_plan (hplan'.trans hplan) e l, hcount'.trans hcount⟩
  · rw [State.chain, endReaching, hchains'.trans hchains]
    rfl
  all_goals
    rw [endReaching, hline]
    rfl

/-- R94, step 2: the end of the exchange reaches its origin, and the line, being FAULT, stays so. -/
theorem exchangeFaulted_eq {ex : Exchange} (hx : (s.line l).exch = some ex) :
    exchangeFaulted s l = ((endReaching s l ex).fileOrigin l ex (faultOutcome ex)).syncRound l := by
  obtain ⟨-, hline, -⟩ := faultStart_frame s l
  obtain ⟨-, hpower, hexch, -⟩ := endReaching_frame s l ex
  have hfiled : exchangeFaulted s l = ((endReaching s l ex).fileOrigin l ex (faultOutcome ex)).withdraw l := by
    rw [exchangeFaulted, State.faultExchange, hline, hx]
    exact fileQuiet_eq ..
  rw [hfiled, withdraw_fault (fileOrigin_line afterFiling_fault ⟨hpower, hexch⟩ ex _).1]

theorem injectedFiled_held (x : Line) : x.injectedFiled.held = x.held := rfl

/-- R51: the exchange in flight on the line, if any, is injected or cut off from its chain: no chain takes its end. -/
def Untaken (s : State) (l : Fin 4) : Prop :=
  ∀ ex c, (s.line l).exch = some ex → ex.origin = .chain c → (s.chain c).inFlight = false ∨ ex.orphan = true

/-- R51, R82: where no chain takes the end of the exchange in flight, the chains and the held position stay as they were. -/
theorem exchangeFaulted_untaken (h : Untaken s l) :
    (∀ c, (exchangeFaulted s l).chain c = s.chain c) ∧ ((exchangeFaulted s l).line l).held = (s.line l).held := by
  cases hx : (s.line l).exch with
  | none =>
    obtain ⟨-, hline, -, hchains, -⟩ := faultStart_frame s l
    rw [exchangeFaulted_free hx, hline]
    exact ⟨fun c => by rw [State.chain, hchains]; rfl, rfl⟩
  | some ex =>
    obtain ⟨hchain, -, -, hheld, -⟩ := endReaching_frame s l ex
    obtain ⟨-, hkeepsHeld, -, hkeeps⟩ := syncRound_kept ((endReaching s l ex).fileOrigin l ex (faultOutcome ex)) l
    rw [exchangeFaulted_eq hx, hkeepsHeld]
    simp only [hkeeps]
    by_cases ho : ∃ c, ex.origin = .chain c
    · obtain ⟨c, ho⟩ := ho
      rw [fileOrigin_scan ho, scanEnd_none (by rw [hchain]; exact h ex c hx ho)]
      exact ⟨hchain, hheld⟩
    · rw [fileOrigin_injected (not_exists.1 ho), modLine_line_self]
      exact ⟨fun c => (modLine_chain ..).trans (hchain c), (injectedFiled_held _).trans hheld⟩

/-- R51: where the chain at work on the line has no exchange in flight, no chain takes an end there. -/
theorem untaken_of_noFlight (h : partSound s) (ha : s.activeChain l = some c) (hi : (s.chain c).inFlight = false) :
    Untaken s l := by
  intro ex c' hx ho
  obtain ⟨hact, hon⟩ := activeChain_some ha
  obtain ⟨-, ⟨-, -, hflight, hsound⟩, -⟩ := id h
  by_contra hn
  rw [not_or, Bool.not_eq_false, Bool.not_eq_true] at hn
  obtain ⟨hi', hown⟩ := hn
  have hact' : (s.chain c').active = true := by
    rcases chainSound_inFlight (hsound c') hi' with hst | hst <;> exact active_of hst (by decide)
  have hon' := chainHere_of_flightSound hflight hx c' ho hi' hown
  rw [active_unique h hact hon hact' hon', hi] at hi'
  cases hi'

/-- R43: as long as only the active chain of a line has changed, no other is active there. -/
theorem activeChain_only {v : State} (h : partSound s) (ha : s.activeChain l = some c)
    (hv : ∀ c', c' ≠ c → v.chain c' = s.chain c') {c' : Fin 8} (hc : v.activeChain l = some c') : c' = c := by
  obtain ⟨hact, hon⟩ := activeChain_some ha
  obtain ⟨hact', hon'⟩ := activeChain_some hc
  by_contra hne
  rw [hv c' hne] at hact' hon'
  exact hne (active_unique h hact hon hact' hon')

theorem untaken_activeChain (hu : Untaken s l) : (exchangeFaulted s l).activeChain l = s.activeChain l := by
  simp only [State.activeChain, (exchangeFaulted_untaken hu).1]

/-- R62, R94: a chain that is not RUNNING, and whose exchange is not in flight, stays as it is. -/
theorem faultHandling_untaken_stays (hu : Untaken s l) (ha : s.activeChain l = some c)
    (hst : (s.chain c).state ≠ .running) :
    (s.faultHandling l).chain c = s.chain c ∧ ((s.faultHandling l).line l).held = (s.line l).held := by
  obtain ⟨hchain, hheld⟩ := exchangeFaulted_untaken hu
  obtain ⟨hstays, hheld', -⟩ := faultHandling_stays (s := s) (l := l) fun c' hc' => by
    rw [untaken_activeChain hu, ha] at hc'
    cases hc'
    rwa [hchain]
  exact ⟨(hstays c).trans (hchain c), hheld'.trans hheld⟩

/-- R62, R94: a RUNNING chain whose exchange is not in flight is held at its position. -/
theorem faultHandling_untaken_holds (hu : Untaken s l) (ha : s.activeChain l = some c)
    (hst : (s.chain c).state = .running) (hi : (s.chain c).inFlight = false) {p : Fin 128}
    (hp : (s.chain c).position = some p) :
    FaultLeaves s l c { s.chain c with state := .held, position := none }
      (some { entry := p, reason := .next, owner := c }) := by
  have hchain := (exchangeFaulted_untaken hu).1 c
  rw [← hchain] at hst hi hp ⊢
  exact faultHandling_holds ((untaken_activeChain hu).trans ha) hst hi hp

/-- R37, R51: the part once the end of the exchange has reached its chain. -/
def endTaken (s : State) (l : Fin 4) (c : Fin 8) (ex : Exchange) : State :=
  (endReaching s l ex).scanEnd c l ex (faultOutcome ex)

/-- R43: the line of the chain that is active on it. -/
theorem active_line {d : ChainDef} (ha : s.activeChain l = some c) (hd : (s.chain c).defn = some d) : d.line = l := by
  obtain ⟨d', hd', hl⟩ := onLine_iff.1 (activeChain_some ha).2
  rw [hd] at hd'
  cases hd'
  exact hl

/-- R53, R54, R55: what follows on a round that has been counted is what a chain may do. -/
theorem afterRound_kept {P : State → Prop} (K : HeldKept P) {u : State} (h : P u) (c : Fin 8) (d : ChainDef) :
    P (afterRound u c d) := by
  unfold afterRound
  split
  · exact K.onChain c Chain.gone h
  · split
    · exact K.roundStart (K.onChain c (fun ch => { ch with late := min 255 (ch.late + 1) }) h) c
    · exact K.onChain c (fun ch => { ch with state := .armed, position := none }) h

/-- R53, R55: the end of a round that notifies, or of period 0, raises CHAIN-DONE. -/
theorem roundEnd_done {d : ChainDef} (hd : (s.chain c).defn = some d) (hn : d.notify = true ∨ d.period = 0) :
    ((s.roundEnd c).attn.set .chainDone).getLsbD c.val = true := by
  obtain ⟨a, ha, hcounted⟩ := roundCounted_gained s c d
  rw [if_pos hn] at ha
  rw [roundEnd_eq hd]
  refine afterRound_kept (member_kept (by decide) c.val 0).toHeldKept ?_ c d
  rw [hcounted]
  exact gained_member ha (by omega)

/-- R68: a RUNNING chain leaves the held position of its line clear. -/
theorem running_notHeld (h : partSound s) (ha : s.activeChain l = some c) (hst : (s.chain c).state = .running) :
    (s.line l).held = none ∧ (s.line l).heldCount = 0 := by
  obtain ⟨hact, hon⟩ := activeChain_some ha
  have hheld := held_none_of_active ((partSound_iff.1 h).2.1 l) hact hon (by simp [hst])
  obtain ⟨-, -, -, -, -, -, hcount, -⟩ := (partSound_line h l).1
  exact ⟨hheld, hcount hheld⟩

section

variable {ex : Exchange} (h : partSound s) (ha : s.activeChain l = some c) (hi : (s.chain c).inFlight = true)
  (hx : (s.line l).exch = some ex)
include h ha hi hx

/-- R42, R51: the exchange of the chain at work is the one in flight on its line, and its chain takes its end. -/
theorem flight_own : ex.origin = .chain c ∧ ex.orphan = false := by
  obtain ⟨d, hd, rfl⟩ := onLine_iff.1 (activeChain_some ha).2
  obtain ⟨ex', hx', ho, hown⟩ := flight_exchange (partSound_iff.1 h).2 hd hi
  rw [hx] at hx'
  cases hx'
  exact ⟨ho, hown⟩

theorem exchangeFaulted_taken :
    exchangeFaulted s l = (endTaken s l c ex).syncRound l ∧
      ∀ c', (exchangeFaulted s l).activeChain l = some c' → c' = c := by
  obtain ⟨ho, -⟩ := flight_own h ha hi hx
  have htaken : exchangeFaulted s l = (endTaken s l c ex).syncRound l := by
    rw [exchangeFaulted_eq hx, fileOrigin_scan ho]
    rfl
  refine ⟨htaken, fun c' hc' => activeChain_only h ha (fun c'' hne => ?_) hc'⟩
  obtain ⟨hchain, -⟩ := endReaching_frame s l ex
  obtain ⟨-, -, -, hkeeps⟩ := syncRound_kept (endTaken s l c ex) l
  have honly : OnlyChain (endReaching s l ex) l c (endTaken s l c ex) :=
    (OnlyChain.refl (by rw [hchain]; exact (activeChain_some ha).2)).scanEnd ex _
  rw [htaken, hkeeps, honly.2.2 c'' hne, hchain]

/-- R62, R94: the end has left the chain in another state than RUNNING, and so it stays. -/
theorem overload_stays (hst : ((endTaken s l c ex).chain c).state ≠ .running) :
    (s.faultHandling l).chain c = (endTaken s l c ex).chain c ∧
      ((s.faultHandling l).line l).held = ((endTaken s l c ex).line l).held ∧
      ((s.faultHandling l).line l).heldCount = ((endTaken s l c ex).line l).heldCount := by
  obtain ⟨htaken, honly⟩ := exchangeFaulted_taken h ha hi hx
  obtain ⟨-, hheld, hcount, hkeeps⟩ := syncRound_kept (endTaken s l c ex) l
  rw [← htaken] at hheld hcount hkeeps
  obtain ⟨hstays, hheld', hcount'⟩ := faultHandling_stays (s := s) (l := l) fun c' hc' => by
    rw [honly c' hc', hkeeps]
    exact hst
  exact ⟨(hstays c).trans (hkeeps c), hheld'.trans hheld, hcount'.trans hcount⟩

/-- R62, R95: the end has left the chain RUNNING at its next position, where it is held with reason NEXT. -/
theorem overload_holds {p : Fin 128} (hst : ((endTaken s l c ex).chain c).state = .running)
    (hi' : ((endTaken s l c ex).chain c).inFlight = false) (hp : ((endTaken s l c ex).chain c).position = some p)
    (hon : ((endTaken s l c ex).chain c).onLine l = true) :
    FaultLeaves s l c { (endTaken s l c ex).chain c with state := .held, position := none }
      (some { entry := p, reason := .next, owner := c }) := by
  obtain ⟨htaken, honly⟩ := exchangeFaulted_taken h ha hi hx
  obtain ⟨-, -, -, hkeeps⟩ := syncRound_kept (endTaken s l c ex) l
  rw [← htaken] at hkeeps
  rw [← hkeeps] at hst hi' hp hon ⊢
  refine faultHandling_holds ?_ hst hi' hp
  cases hc : (exchangeFaulted s l).activeChain l with
  | none =>
    have hidle := activeChain_none.1 hc c hon
    simp [Chain.active, hst] at hidle
  | some c' => rw [honly c' hc]

/-- R143: a member that the end of the exchange has raised stays. -/
theorem overload_member {a : AttnClass} (hne : a ≠ .storeLevel) {k : Nat}
    (hm : ((endTaken s l c ex).attn.set a).getLsbD k = true) : ((s.faultHandling l).attn.set a).getLsbD k = true := by
  refine faultHandling_member hne ?_
  rw [(exchangeFaulted_taken h ha hi hx).1]
  exact (member_kept hne k l).syncRound hm

/-- R51: a STOPPING chain goes IDLE with the end of its exchange. -/
theorem overload_stopping (hst : (s.chain c).state = .stopping) :
    (s.faultHandling l).chain c = (s.chain c).gone := by
  obtain ⟨hchain, -⟩ := endReaching_frame s l ex
  have hend : endTaken s l c ex = (endReaching s l ex).setChain c (s.chain c).gone := by
    rw [endTaken, scanEnd_stopping (by rw [hchain]; exact hi) (flight_own h ha hi hx).2 (by rw [hchain]; exact hst), hchain]
  have hself : (endTaken s l c ex).chain c = (s.chain c).gone := by rw [hend, setChain_chain_self]
  rw [(overload_stays h ha hi hx (by rw [hself]; simp [Chain.gone])).1, hself]

variable (hst : (s.chain c).state = .running)
include hst

/-- R34, R62, R94: an end that was not ABORTED already has the chain hold at the entry of the exchange, to run it again. -/
theorem overload_again (hp : ex.pendingEnd ≠ some .aborted) :
    FaultLeaves s l c { s.chain c with state := .held, position := none, inFlight := false }
      (some { entry := ex.entry, reason := .again, owner := c }) := by
  have houtcome : faultOutcome ex = .preempted ∨ faultOutcome ex = .lineFault := by
    unfold faultOutcome
    cases hpend : ex.pendingEnd with
    | none => exact .inr rfl
    | some o =>
      obtain ⟨-, -, hexch⟩ := partSound_line h l
      obtain ⟨-, -, -, hpending⟩ := hexch ex hx
      rcases (hpending o hpend).2 with rfl | rfl
      · exact .inl rfl
      · exact absurd hpend hp
  obtain ⟨hchain, -⟩ := endReaching_frame s l ex
  have hend := scanEnd_again (k := l) (by rw [hchain]; exact hi) (flight_own h ha hi hx).2 (by rw [hchain]; exact hst) houtcome
  rw [hchain] at hend
  change endTaken s l c ex = _ at hend
  have hself : (endTaken s l c ex).chain c = { s.chain c with state := .held, position := none, inFlight := false } := by
    rw [hend, setLine_chain, setChain_chain_self]
  obtain ⟨hstays, hheld, hcount⟩ := overload_stays h ha hi hx (by rw [hself]; simp)
  rw [hend, setLine_line_self] at hheld hcount
  exact ⟨hstays.trans hself, hheld, hcount⟩

/-- R94, R95: the end has left the chain as `y`, which is not RUNNING, and the held position clear. -/
theorem overload_leaves {y : Chain} {a : Attention} (hy : y.state ≠ .running)
    (hend : endTaken s l c ex = { endReaching s l ex with attn := a }.setChain c y) : FaultLeaves s l c y none := by
  obtain ⟨-, -, -, hheld, hcount, -⟩ := endReaching_frame s l ex
  obtain ⟨hnone, hzero⟩ := running_notHeld h ha hst
  have hself : (endTaken s l c ex).chain c = y := by rw [hend, setChain_chain_self]
  have hline : (endTaken s l c ex).line l = (endReaching s l ex).line l := by
    rw [hend, setChain_line]
    exact setAttn_line (endReaching s l ex) a l
  obtain ⟨hstays, hheld', hcount'⟩ := overload_stays h ha hi hx (by rw [hself]; exact hy)
  rw [hline] at hheld' hcount'
  exact ⟨hstays.trans hself, hheld'.trans (hheld.trans hnone), hcount'.trans (hcount.trans hzero)⟩

omit hst in
/-- R60, R143: a chain fault taken with the end of the exchange shows in CHAIN-FAULT. -/
theorem overload_faulted {y : Chain} {a b : Attention} (hg : b.gained a .chainFault c.val)
    (hend : endTaken s l c ex = { endReaching s l ex with attn := a }.setChain c y) :
    ((s.faultHandling l).attn.set .chainFault).getLsbD c.val = true := by
  refine overload_member h ha hi hx (by decide) ?_
  rw [hend]
  exact gained_member hg (by omega)

variable (hp : ex.pendingEnd = some .aborted)
include hp

/-- R34, R51: under a pending ABORTED the chain goes on as after any other end of its exchange. -/
theorem endTaken_follows :
    endTaken s l c ex =
      ((endReaching s l ex).setChain c { s.chain c with inFlight := false }).linkFollow c ex.copy := by
  obtain ⟨hchain, -⟩ := endReaching_frame s l ex
  rw [endTaken, faultOutcome, hp, Option.getD_some,
    scanEnd_follows (by rw [hchain]; exact hi) (flight_own h ha hi hx).2 (by rw [hchain]; exact hst) (by decide) (by decide),
    hchain]

variable {d : ChainDef} (hd : (s.chain c).defn = some d)
include hd

/-- R34, R52, R95: under a pending ABORTED the chain goes to its next position first, and is held there. -/
theorem overload_link {k : Fin 128} (hk : ex.copy.link = some k) (ht : (s.chain c).taken < 128)
    (hon : s.entryOn k l = true) :
    FaultLeaves s l c { s.chain c with state := .held, position := none, inFlight := false }
      (some { entry := k, reason := .next, owner := c }) := by
  obtain rfl := active_line ha hd
  obtain ⟨-, -, -, -, -, hentry, -⟩ := endReaching_frame s d.line ex
  obtain ⟨-, hgoes, -⟩ := linkFollow_setChain (s := endReaching s d.line ex) (c := c)
    (x := { s.chain c with inFlight := false }) hd (by simp [hst]) hk
  have hself : (endTaken s d.line c ex).chain c = { s.chain c with position := some k, inFlight := false } := by
    rw [endTaken_follows h ha hi hx hst hp, hgoes ht (by rw [hentry]; exact hon), setChain_chain_self]
  have hholds := overload_holds h ha hi hx (p := k) (by rw [hself]; exact hst) (by rw [hself]) (by rw [hself])
    (by rw [hself]; exact (activeChain_some ha).2)
  rwa [hself] at hholds

/-- R34, R52, R60, R95: or it finds that there is none, and faults. -/
theorem overload_noLink {k : Fin 128} (hk : ex.copy.link = some k)
    (hf : 128 ≤ (s.chain c).taken ∨ s.entryOn k l = false) :
    FaultLeaves s l c { (s.chain c).gone with reason := if 128 ≤ (s.chain c).taken then .loop else .badLink } none ∧
      ((s.faultHandling l).attn.set .chainFault).getLsbD c.val = true := by
  obtain rfl := active_line ha hd
  obtain ⟨-, -, -, -, -, hentry, -⟩ := endReaching_frame s d.line ex
  obtain ⟨hloop, -, hgone⟩ := linkFollow_setChain (s := endReaching s d.line ex) (c := c)
    (x := { s.chain c with inFlight := false }) hd (by simp [hst]) hk
  rw [← endTaken_follows h ha hi hx hst hp] at hloop hgone
  obtain ⟨a, hgained, hend⟩ : ∃ a, (endReaching s d.line ex).attn.gained a .chainFault c.val ∧
      endTaken s d.line c ex = { endReaching s d.line ex with attn := a }.setChain c
        { (s.chain c).gone with reason := if 128 ≤ (s.chain c).taken then .loop else .badLink } := by
    by_cases ht : 128 ≤ (s.chain c).taken
    · rw [if_pos ht]
      exact hloop ht
    · rw [if_neg ht]
      exact hgone (Nat.not_le.1 ht) (by rw [hentry]; exact hf.resolve_left ht)
  exact ⟨overload_leaves h ha hi hx hst (by simp [Chain.gone]) hend, overload_faulted h ha hi hx hgained hend⟩

/-- R34, R53, R55: a round that ends under a pending ABORTED shows in CHAIN-DONE as any other. -/
theorem overload_done (hk : ex.copy.link = none) (hn : d.notify = true ∨ d.period = 0) :
    ((s.faultHandling l).attn.set .chainDone).getLsbD c.val = true := by
  refine overload_member h ha hi hx (by decide) ?_
  rw [endTaken_follows h ha hi hx hst hp, State.linkFollow, hk]
  exact roundEnd_done (by rw [setChain_chain_self]; exact hd) hn

/-- R34, R53, R55, R48, R95: under a pending ABORTED the chain ends its round first; a late round starts on a line in FAULT. -/
theorem overload_roundEnd (hk : ex.copy.link = none) :
    (d.period = 0 → FaultLeaves s l c { (s.chain c).gone with rounds := (s.chain c).rounds + 1 } none) ∧
    (d.period ≠ 0 → (s.chain c).roundDue = false →
      FaultLeaves s l c { s.chain c with
        state := .armed, position := none, inFlight := false, rounds := (s.chain c).rounds + 1 } none) ∧
    (d.period ≠ 0 → (s.chain c).roundDue = true → s.entryOn d.head l = true →
      FaultLeaves s l c
        { { s.chain c with rounds := (s.chain c).rounds + 1, late := min 255 ((s.chain c).late + 1) }.inNewRound d s.count
          with state := .held, position := none } (some { entry := d.head, reason := .next, owner := c })) ∧
    (d.period ≠ 0 → (s.chain c).roundDue = true → s.entryOn d.head l = false →
      FaultLeaves s l c { (s.chain c).gone with
          rounds := (s.chain c).rounds + 1, late := min 255 ((s.chain c).late + 1), reason := .headGone } none ∧
        ((s.faultHandling l).attn.set .chainFault).getLsbD c.val = true) := by
  obtain rfl := active_line ha hd
  obtain ⟨hchain, hpower, -, -, -, hentry, hcount⟩ := endReaching_frame s d.line ex
  have hend : (endReaching s d.line ex).scanEnd c d.line ex .aborted = endTaken s d.line c ex := by
    rw [endTaken, faultOutcome, hp, Option.getD_some]
  obtain ⟨-, htaken⟩ :=
    scanExchangeEndMovesItsChain c d.line ex .aborted d (s.chain c) (endReaching s d.line ex) (hchain c).symm hd
  obtain ⟨-, -, hfollows⟩ := htaken hi (flight_own h ha hi hx).2
  obtain ⟨-, hround⟩ := hfollows hst (by decide) (by decide)
  obtain ⟨a, -, hover, harmed, hlate, hheadGone⟩ := hround hk
  rw [hend] at hover harmed hheadGone
  rw [hentry] at hlate hheadGone
  rw [hcount, hend] at hlate
  refine ⟨fun hz => ?_, fun hz hdue => ?_, fun hz hdue hon => ?_, fun hz hdue hoff => ?_⟩
  · exact overload_leaves h ha hi hx hst (by simp [Chain.gone]) (hover hz)
  · exact overload_leaves h ha hi hx hst (by simp) (harmed hz hdue)
  · obtain ⟨-, hheld, -⟩ := hlate hz hdue hon
    have hself : (endTaken s d.line c ex).chain c =
        { { s.chain c with rounds := (s.chain c).rounds + 1, late := min 255 ((s.chain c).late + 1) }.inNewRound d s.count
          with state := .held, position := none } := by
      rw [hheld hpower, setLine_chain, setChain_chain_self]
    obtain ⟨hstays, hheld', hcount'⟩ := overload_stays h ha hi hx (by rw [hself]; simp)
    rw [hheld hpower, setLine_line_self] at hheld' hcount'
    exact ⟨hstays.trans hself, hheld', hcount'⟩
  · obtain ⟨b, hgained, hgone⟩ := hheadGone hz hdue hoff
    exact ⟨overload_leaves h ha hi hx hst (by simp [Chain.gone]) hgone, overload_faulted h ha hi hx hgained hgone⟩

/-- R68, R95: however a pending ABORTED has moved the chain, the held count is 0. -/
theorem overload_aborted_count : ((s.faultHandling l).line l).heldCount = 0 := by
  cases hk : ex.copy.link with
  | some k =>
    by_cases hf : 128 ≤ (s.chain c).taken ∨ s.entryOn k l = false
    · exact (overload_noLink h ha hi hx hst hp hd hk hf).1.count
    · rw [not_or, Nat.not_le, Bool.not_eq_false] at hf
      exact (overload_link h ha hi hx hst hp hd hk hf.1 hf.2).count
  | none =>
    obtain ⟨hover, harmed, hlate, hheadGone⟩ := overload_roundEnd h ha hi hx hst hp hd hk
    by_cases hz : d.period = 0
    · exact (hover hz).count
    · cases hdue : (s.chain c).roundDue with
      | false => exact (harmed hz hdue).count
      | true =>
        cases hon : s.entryOn d.head l with
        | true => exact (hlate hz hdue hon).count
        | false => exact (hheadGone hz hdue hon).1.count

end

/-! ### LINE-RESUME -/

theorem exec_lineResume {tag line : Byte} (hs : s.ready) :
    exec (.lineResume tag line) s = .next ((doLineResume line s).1.replying 0x93 tag (doLineResume line s).2) :=
  submit_request (k := .lineResume) (r := .lineResume line) hs rfl (by simp)

theorem doLineResume_badArg {line : Byte} (h : 3 < line.toNat) : doLineResume line s = (s, [0x14]) := by
  simp only [doLineResume, finOf_none (n := 4) h]
  rfl

theorem doLineResume_eq (s : State) (l : Fin 4) :
    doLineResume (finByte l) s = if (s.line l).power = .fault then (s.resume l, [0x00]) else (s, [0x11]) := by
  simp only [doLineResume, finOf4]
  rfl

/-- R97: a line that leaves FAULT for SETTLING, the ROUND demand judged as `round`. -/
def resumed (x : Line) (round : Bool) : Line :=
  { x with power := .settling, demand := { x.demand with host := true, round } }

/-- R49, R97: the ROUND demand as it is once the line is no longer FAULT. -/
def resumeRound (s : State) (l : Fin 4) : Bool := (s.setLine l (resumed (s.line l) (s.line l).demand.round)).roundWanted l

theorem resumeRound_iff (hx : (s.line l).exch = none) : resumeRound s l = true ↔
    ∃ c d, (s.chain c).defn = some d ∧ d.line = l ∧ d.powered = true ∧
      ((s.chain c).state = .held ∨ (s.chain c).state = .running ∨ (s.chain c).state = .stopping) := by
  have hnoExch : ¬ ∃ ex c, (resumed (s.line l) (s.line l).demand.round).exch = some ex ∧ ex.origin = .chain c ∧
      ex.powered = true := by
    rintro ⟨ex, c, hx', -⟩
    exact absurd (hx.symm.trans hx') (by simp)
  rw [resumeRound, roundWanted_iff, setLine_line_self, or_iff_left hnoExch, and_iff_right (by simp [resumed])]
  refine exists_congr fun c => exists_congr fun d => ?_
  rw [setLine_chain, or_left_comm]

/-- R97, R90, R93. -/
theorem resume_eq (s : State) (l : Fin 4) :
    s.resume l =
      if (s.line l).lnOvl = true then
        (s.setLine l ((resumed (s.line l) (resumeRound s l)).poweringUp s.count)).faultHandling l
      else s.setLine l ((resumed (s.line l) (resumeRound s l)).poweringUp s.count) := by
  have hsync : (s.setLine l (resumed (s.line l) (s.line l).demand.round)).syncRound l =
      s.setLine l (resumed (s.line l) (resumeRound s l)) := by
    rw [State.syncRound, State.modLine, setLine_line_self, setLine_twice]
    rfl
  change ((s.setLine l (resumed (s.line l) (s.line l).demand.round)).syncRound l).enterSettling l = _
  rw [hsync, enterSettling_eq, setLine_line_self, setLine_twice]
  rfl

/-- Settles O21: a line in FAULT settles with its demands, or meets the overload again, which finds a HELD chain only. -/
theorem lineResumeLeavesFault : Obligations.LineResumeLeavesFault := by
  intro tag line s hs
  rw [exec_lineResume hs]
  refine ⟨fun hbad => by rw [doLineResume_badArg hbad], ?_⟩
  rintro l _ rfl rfl
  rw [doLineResume_eq, resume_eq]
  refine ⟨fun hp => by rw [if_neg hp], fun hp h hov => ⟨resumeRound s l, resumeRound_iff (fault_line h hp).1, ?_⟩,
    fun hp hov => ?_⟩
  · have hdemand : { (s.line l).demand with host := true, round := resumeRound s l } =
        { host := true, round := resumeRound s l, ask := false } := by rw [(fault_line h hp).2]; rfl
    rw [if_pos hp, if_neg (by simp [hov]), resumed, hdemand]
    rfl
  · rw [if_pos hp, if_pos hov]
    generalize hu : s.setLine l ((resumed (s.line l) (resumeRound s l)).poweringUp s.count) = u
    have hline : u.line l = (resumed (s.line l) (resumeRound s l)).poweringUp s.count := by rw [← hu, setLine_line_self]
    have hchain : ∀ c, u.chain c = s.chain c := fun c => by rw [← hu, setLine_chain]
    obtain ⟨hdead, hdemand, hattn⟩ := faultHandling_line u l
    refine ⟨u.faultHandling l, rfl, hdead.power, hdemand, hattn, fun h c hst hon => ?_⟩
    have huntaken : Untaken u l := fun ex c' hx _ => by
      have hfree : (u.line l).exch = (s.line l).exch := by rw [hline]; rfl
      rw [hfree, (fault_line h hp).1] at hx
      cases hx
    have ha : u.activeChain l = some c := by
      refine activeChain_unique (by rw [hchain]; exact active_of hst (by decide)) (by rw [hchain]; exact hon)
        fun c' hon' hact' => ?_
      rw [hchain] at hon' hact'
      exact active_unique h (active_of hst (by decide)) hon hact' hon'
    obtain ⟨hstays, hheld⟩ := faultHandling_untaken_stays huntaken ha (by rw [hchain, hst]; decide)
    exact ⟨hstays.trans (hchain c), hheld.trans (by rw [hline]; rfl)⟩

/-! ### OVERLOAD -/

/-- Log 8: a line whose input LnOVL# has this level. -/
def withOvl (x : Line) (asserted : Bool) : Line := { x with lnOvl := asserted }

/-- R93: a line whose input LnOVL# has just been asserted; the overload has not been taken yet. -/
def overloaded (s : State) (l : Fin 4) : State := s.setLine l (withOvl (s.line l) true)

theorem exec_overload_level {a : Bool} (h : a = false ∨ (s.line l).power = .off ∨ (s.line l).power = .fault) :
    exec (.overload l a) s = .next (s.setLine l (withOvl (s.line l) a)) := by
  refine congrArg Host.Outcome.next (if_neg ?_)
  rintro ⟨rfl, hp⟩
  rcases hp with hp | hp <;> simp [hp] at h

theorem exec_overload_taken (hp : (s.line l).power = .settling ∨ (s.line l).power = .on) :
    exec (.overload l true) s = .next ((overloaded s l).faultHandling l) :=
  congrArg Host.Outcome.next (if_pos ⟨rfl, hp⟩)

theorem partSound_overloaded (h : partSound s) (l : Fin 4) : partSound (overloaded s l) :=
  partSound_kept.line (f := fun x => withOvl x true)
    (quietChange_inputs (s.line l) (s.line l).arriving (s.line l).waitIdle true) h

theorem flightRecords_setLine {y : Line} (hx : y.exch = (s.line l).exch) :
    (s.setLine l y).flightRecords l = s.flightRecords l := by
  rw [State.flightRecords, setLine_line_self, hx]
  rfl

theorem overloaded_line (s : State) (l : Fin 4) : (overloaded s l).line l = withOvl (s.line l) true := setLine_line_self ..

theorem overloaded_other (s : State) {k : Fin 4} (hk : k ≠ l) :
    (overloaded s l).line k = s.line k ∧ (overloaded s l).store k = s.store k :=
  ⟨setLine_line_ne _ _ _ _ hk, setLine_store ..⟩

/-- R93, R94: what there is to be filed does not depend on LnOVL#. -/
theorem overloaded_records (s : State) (l : Fin 4) :
    (overloaded s l).blockRecords l ++ (overloaded s l).flightRecords l ++ (overloaded s l).queuedRecords l =
      s.blockRecords l ++ s.flightRecords l ++ s.queuedRecords l := by
  have hblock : (overloaded s l).blockRecords l = s.blockRecords l := blockRecords_setLine rfl rfl
  have hflight : (overloaded s l).flightRecords l = s.flightRecords l := flightRecords_setLine rfl
  have hqueued : (overloaded s l).queuedRecords l = s.queuedRecords l :=
    queuedRecords_congr rfl rfl (by rw [overloaded_line]; rfl)
  rw [hblock, hflight, hqueued]

/-- R42: only a RUNNING or STOPPING chain has its exchange in flight. -/
theorem noFlight_of_state (h : partSound s) (hst : (s.chain c).state = .armed ∨ (s.chain c).state = .held) :
    (s.chain c).inFlight = false := by
  obtain ⟨-, ⟨-, -, -, hsound⟩, -⟩ := h
  by_contra hi
  rcases chainSound_inFlight (hsound c) (Bool.not_eq_false _ ▸ hi) with hst' | hst' <;> simp [hst'] at hst

/-- R43, R51: a STOPPING chain waits for the end of its exchange. -/
theorem flight_of_stopping (h : partSound s) (ha : s.activeChain l = some c) (hst : (s.chain c).state = .stopping) :
    (s.chain c).inFlight = true ∧ ∃ ex, (s.line l).exch = some ex := by
  obtain ⟨d, hd, rfl⟩ := onLine_iff.1 (activeChain_some ha).2
  have hsound := (partSound_iff.1 h).2.2 c
  have hi : (s.chain c).inFlight = true := by
    simp only [chainSound, hst, Bool.and_eq_true] at hsound
    exact hsound.2
  obtain ⟨ex, hx, -⟩ := flight_exchange (partSound_iff.1 h).2 hd hi
  exact ⟨hi, ex, hx⟩

/-- Settles O24: the records and the line by the steps of R94 (`faultHandling_frame`), the chain by its state, its exchange and
the outcome with which that ends. -/
theorem overloadStopsAllWorkOnTheLine : Obligations.OverloadStopsAllWorkOnTheLine := by
  rintro l _ s rfl
  refine ⟨fun a h => exec_overload_level h, fun hp h => ?_⟩
  rw [exec_overload_taken hp]
  replace h := partSound_overloaded h l
  have hline := overloaded_line s l
  obtain ⟨-, ⟨-, -, hflight, -⟩, -⟩ := id h
  obtain ⟨hothers, hdead, hdemand, hstore, hattn⟩ := faultHandling_frame (overloaded s l) l fun ex hx =>
    chainHere_of_flightSound hflight hx
  rw [overloaded_records] at hstore
  refine ⟨_, rfl, hdead.power, hdead.lnPwr, hdead.lnDe, hdead.ovl.trans (by rw [hline]; rfl), hdead.timer, hdead.engine,
    hdead.exch, hdead.queue, hdemand, hdead.block, hdead.settings.trans (by rw [hline]; rfl), hattn, hstore, fun k hk => ?_,
    fun c ha => ⟨fun hst => ?_, fun hst => ?_, fun p hst hi hpos => ?_, fun ex hst hi hx => ?_⟩⟩
  · obtain ⟨hl, ht⟩ := hothers k hk
    obtain ⟨hl', ht'⟩ := overloaded_other s hk
    exact ⟨hl.trans hl', ht.trans ht'⟩
  · obtain ⟨hi, ex, hx⟩ := flight_of_stopping h ha hst
    exact overload_stopping h ha hi hx hst
  · obtain ⟨hstays, hheld⟩ := faultHandling_untaken_stays (untaken_of_noFlight h ha (noFlight_of_state h hst)) ha (by
      rcases hst with hst | hst <;> exact fun hrun => nomatch hst.symm.trans hrun)
    exact ⟨hstays, hheld.trans (by rw [hline]; rfl)⟩
  · obtain ⟨hchain, hheld, hcount⟩ := faultHandling_untaken_holds (untaken_of_noFlight h ha hi) ha hst hi hpos
    exact ⟨hchain, hheld, hcount⟩
  replace hx : ((overloaded s l).line l).exch = some ex := by rw [hline]; exact hx
  refine ⟨fun hpend => ?_, ?_⟩
  · obtain ⟨hchain, hheld, hcount⟩ := overload_again h ha hi hx hst hpend
    exact ⟨hchain, hheld, hcount⟩
  rintro d _ hpend hd rfl
  refine ⟨overload_aborted_count h ha hi hx hst hpend hd, fun k hk => ⟨fun ht hon => ?_, fun hf => ?_⟩, fun hk => ?_⟩
  · have hlink := overload_link h ha hi hx hst hpend hd hk ht hon
    exact ⟨hlink.chain, hlink.held⟩
  · obtain ⟨hleaves, hm⟩ := overload_noLink h ha hi hx hst hpend hd hk hf
    exact ⟨hleaves.chain, hleaves.held, hm⟩
  · obtain ⟨hover, harmed, hlate, hheadGone⟩ := overload_roundEnd h ha hi hx hst hpend hd hk
    refine ⟨overload_done h ha hi hx hst hpend hd hk, fun hz => ⟨(hover hz).chain, (hover hz).held⟩,
      fun hz hdue => ⟨(harmed hz hdue).chain, (harmed hz hdue).held⟩,
      fun hz hdue hon => ⟨(hlate hz hdue hon).chain, (hlate hz hdue hon).held⟩, fun hz hdue hoff => ?_⟩
    obtain ⟨hleaves, hm⟩ := hheadGone hz hdue hoff
    exact ⟨hleaves.chain, hleaves.held, hm⟩

end Sys2Proof.Proofs
end

section
/-! PROOFS. The Reply Store (R104 to R118): what every step keeps of the stores, a record offered to a store, FETCH, RELEASE and
STORE-CLEAR. -/

namespace Sys2Proof.Proofs

open Sys2Proof Sys2Proof.Machine

variable {s : State} {l : Fin 4}

/-! ### Sound stores -/

/-- A property that every command keeps, and that says nothing of the queue of commands or of the Link Port, is kept by every
step. -/
theorem step_kept {P : State → Prop} (A : KeptByAll P) (hqueue : ∀ (s : State) q, P s → P { s with pending := q })
    (hlink : ∀ (s : State) k, P s → P (s.setLink k)) {t : State} (h : P s) (he : step s = .next t) : P t := by
  unfold step at he
  split at he
  next =>
    cases he
    exact h
  next rest _ => exact exec_kept A (hqueue s rest h) (fun _ => A.resetHeld hlink) he

theorem storesSound_setStore {x : Store} (h : storesSound s) (hx : storeSound x) : storesSound (s.setStore l x) := by
  intro k
  rw [setStore_store]
  split
  · exact hx
  · exact h k

theorem storesSound_judgeLevel (h : storesSound s) (l : Fin 4) : storesSound (s.judgeLevel l) := by
  intro k
  rw [judgeLevel_store]
  exact h k

/-- R118: both resets leave every store empty. -/
theorem storesSound_of_empty (h : ∀ k, s.store k = Store.empty) : storesSound s := by
  intro k
  rw [h k]
  exact storeSound_empty

/-- R104, R111: records leave a store at its oldest end, or all at once; an offer is an event (`storesSound_kept`), and no other
change reaches a store. -/
theorem storesSound_keptByAll : KeptByAll storesSound where
  events := storesSound_kept
  entry _ _ _ h := h
  define _ _ _ h := h
  watches _ _ _ h := h
  settings s l x h := storesSound_judgeLevel (s := s.modLine l _) h l
  dropOldest _ l h := storesSound_judgeLevel (storesSound_setStore h (storeSound_tail (h l))) l
  clearStore _ l h := storesSound_judgeLevel (storesSound_setStore h (storeSound_clear (h l))) l
  retract _ _ _ _ h := h
  mask _ _ h := h
  link _ _ _ h := h
  count _ _ h := h
  restarted _ _ := storesSound_of_empty fun k => by simp [State.restarted, State.store]
  powerOn _ _ _ := storesSound_of_empty fun k => by simp [State.powerOn, State.store]

/-- Settles O44: every change that a command can make keeps the stores sound (`storesSound_keptByAll`), and a step is one
command. -/
theorem everyStepKeepsTheStoresSound : Obligations.EveryStepKeepsTheStoresSound := fun _ _ h he =>
  step_kept storesSound_keptByAll (fun _ _ h => h) (fun _ _ h => h) h he

/-! ### A store that changes -/

/-- R116: one store is replaced and the level of its line judged; nothing else changes. -/
theorem setStore_judgeLevel_spec (s : State) (l : Fin 4) (x : Store) :
    (s.setStore l x).judgeLevel l =
        { s with stores := ((s.setStore l x).judgeLevel l).stores, attn := ((s.setStore l x).judgeLevel l).attn } ∧
      ((s.setStore l x).judgeLevel l).store l = x ∧
      (∀ k, k ≠ l → ((s.setStore l x).judgeLevel l).store k = s.store k) ∧
      s.levelJudged ((s.setStore l x).judgeLevel l) l := by
  refine ⟨?_, by simp, fun k hk => ?_, judgeLevel_judged (s.setStore l x) l⟩
  · rw [judgeLevel_eq]
    rfl
  · rw [judgeLevel_store, setStore_store_ne _ _ _ _ hk]

/-- R112, R113, R116: what the removal of the oldest record leaves. -/
theorem dropOldest_spec {r : Record} {rest : List Record} (h : (s.store l).records = r :: rest) :
    s.dropOldest l = { s with stores := (s.dropOldest l).stores, attn := (s.dropOldest l).attn } ∧
      (s.dropOldest l).store l = { s.store l with records := rest } ∧
      (∀ k, k ≠ l → (s.dropOldest l).store k = s.store k) ∧ s.levelJudged (s.dropOldest l) l := by
  rw [State.dropOldest, h, List.tail_cons]
  exact setStore_judgeLevel_spec s l _

theorem remaining_dropOldest {r : Record} {rest : List Record} (h : (s.store l).records = r :: rest) :
    (s.dropOldest l).remaining l = natByte rest.length := by
  obtain ⟨-, hstore, -⟩ := dropOldest_spec h
  rw [State.remaining, hstore]

theorem remaining_cons {r : Record} {rest : List Record} (h : (s.store l).records = r :: rest) :
    s.remaining l = natByte (rest.length + 1) := by
  rw [State.remaining, h, List.length_cons]

/-! ### A record offered to a store -/

theorem offer_of_fits {r : Record} (h : (s.store l).fits r = true) :
    s.offer l r = (s.setStore l ((s.store l).append r)).judgeLevel l := if_pos h

theorem offer_of_not_fits {r : Record} (h : ¬ (s.store l).fits r = true) :
    s.offer l r = (s.setStore l (s.store l).drop).raise .storeFull l.val := if_neg h

/-- Settles O40: a record that fits is appended, another is dropped; either way only its own line's store and the Attention Unit
change. -/
theorem offeredRecordIsAppendedOrDropped : Obligations.OfferedRecordIsAppendedOrDropped := by
  rintro l r _ s rfl
  refine ⟨s.offer l r, rfl, offer_eq s l r, fun k hk => by rw [offer_store, if_neg hk], fun hcount hbytes => ?_,
    fun hfull => ?_⟩
  · rw [offer_of_fits ((fits_iff _ _).2 ⟨hcount, hbytes⟩)]
    obtain ⟨-, hstore, -, hlevel⟩ := setStore_judgeLevel_spec s l ((s.store l).append r)
    exact ⟨hstore, hlevel⟩
  · have hfit : ¬ (s.store l).fits r = true := by
      rw [fits_iff]
      omega
    rw [offer_of_not_fits hfit]
    exact ⟨setStore_store_self s l _, raise_gained (s.setStore l _) .storeFull l.val⟩

/-! ### FETCH -/

theorem exec_fetch {tag line : Byte} (hs : s.ready) :
    exec (.fetch tag line) s = .next ((doFetch line 0 s).1.replying 0xD0 tag (doFetch line 0 s).2) :=
  submit_request (k := .fetch) (r := .fetch line 0) hs rfl (by simp)

theorem exec_fetchWithRelease {tag line : Byte} (hs : s.ready) :
    exec (.fetchWithRelease tag line) s = .next ((doFetch line 1 s).1.replying 0xD0 tag (doFetch line 1 s).2) :=
  submit_request (k := .fetch) (r := .fetch line 1) hs rfl (by simp)

theorem doFetch_badArg {line release : Byte} (h : 3 < line.toNat) : doFetch line release s = (s, [0x14]) := by
  simp only [doFetch, finOf_none (n := 4) h]
  rfl

theorem doFetch_empty {release : Bool} (h : (s.store l).records = []) :
    doFetch (finByte l) (boolByte release) s = (s, [0x02]) := by
  simp only [doFetch, finOf4, boolOf_boolByte, h]
  rfl

theorem doFetch_oldest {r : Record} {rest : List Record} {release : Bool} (h : (s.store l).records = r :: rest) :
    doFetch (finByte l) (boolByte release) s =
      if release then (s.dropOldest l, [0x00, natByte rest.length] ++ r.bytes)
      else (s, [0x00, natByte (rest.length + 1)] ++ r.bytes) := by
  simp only [doFetch, finOf4, boolOf_boolByte, h]
  cases release
  · rw [← remaining_cons h]
    rfl
  · rw [← remaining_dropOldest h]
    rfl

/-- R166: a byte that counts five flags with the weights 1, 2, 4, 8 and 16 shows one in each of its bits 0 to 4. -/
theorem natByte_flags_bits (a b c d e : Bool) (flags : Byte)
    (h : flags = natByte ((if a then 1 else 0) + (if b then 2 else 0) + (if c then 4 else 0) + (if d then 8 else 0) +
      (if e then 16 else 0))) :
    flags.getLsbD 0 = a ∧ flags.getLsbD 1 = b ∧ flags.getLsbD 2 = c ∧ flags.getLsbD 3 = d ∧ flags.getLsbD 4 = e ∧
      flags.toNat < 2 ^ 5 := by
  subst h
  revert a b c d e
  decide

theorem flagsByte_bits (r : Record) :
    r.flagsByte.getLsbD 0 = r.gap ∧ r.flagsByte.getLsbD 1 = r.restored ∧ r.flagsByte.getLsbD 2 = r.parity ∧
      r.flagsByte.getLsbD 3 = r.replyControl.isSome ∧ r.flagsByte.getLsbD 4 = r.payload.isSome ∧
      ∀ k, 5 ≤ k → r.flagsByte.getLsbD k = false := by
  obtain ⟨hgap, hrestored, hparity, hcontrol, hpayload, hlt⟩ := natByte_flags_bits _ _ _ _ _ r.flagsByte rfl
  refine ⟨hgap, hrestored, hparity, hcontrol, hpayload, fun k hk => ?_⟩
  exact Nat.testBit_lt_two_pow (hlt.trans_le (Nat.pow_le_pow_right (by decide) hk))

/-- R105, R163, R166: the two layouts agree whichever of the four optional fields a record has; they differ only in how the
payload's length is joined to what stands before it. -/
theorem record_bytes_eq (r : Record) : r.bytes = recordLayout r r.flagsByte := by
  unfold Record.bytes recordLayout Record.payloadLen
  generalize r.flagsByte = flags
  simp only [List.append_assoc, List.cons_append, List.nil_append]
  cases r.entry <;> cases r.station <;> cases r.replyControl <;> cases r.payload <;> rfl

/-- Settles O41: the oldest record is shown with or without its removal, and the bits of its flags byte are those of R166. -/
theorem fetchShowsTheOldestRecord : Obligations.FetchShowsTheOldestRecord := by
  refine ⟨rfl, fun tag line s hs => ?_⟩
  rw [exec_fetch hs, exec_fetchWithRelease hs]
  refine ⟨fun hbad => by rw [doFetch_badArg hbad, doFetch_badArg hbad]; exact ⟨rfl, rfl⟩, ?_⟩
  rintro l rfl
  have hno : doFetch (finByte l) 0 s = doFetch (finByte l) (boolByte false) s := rfl
  have hyes : doFetch (finByte l) 1 s = doFetch (finByte l) (boolByte true) s := rfl
  rw [hno, hyes]
  refine ⟨fun hempty => by rw [doFetch_empty hempty, doFetch_empty hempty]; exact ⟨rfl, rfl⟩, fun r rest hrecords => ?_⟩
  obtain ⟨hgap, hrestored, hparity, hcontrol, hpayload, hhigh⟩ := flagsByte_bits r
  refine ⟨r.flagsByte, s.dropOldest l, hgap, hrestored, hparity, hcontrol, hpayload, hhigh, ?_, ?_, dropOldest_spec hrecords⟩
  · rw [doFetch_oldest hrecords, ← record_bytes_eq]
    rfl
  · rw [doFetch_oldest hrecords, ← record_bytes_eq]
    rfl

/-! ### RELEASE -/

theorem exec_release {tag line : Byte} {sequence : Half} (hs : s.ready) :
    exec (.release tag line sequence) s =
      .next ((doRelease line sequence s).1.replying 0xD1 tag (doRelease line sequence s).2) :=
  submit_request (k := .release) (r := .release line sequence) hs (by simp [parseBody, parseRelease, le16]) (by simp)

theorem doRelease_badArg {line : Byte} {sequence : Half} (h : 3 < line.toNat) :
    doRelease line sequence s = (s, [0x14]) := by
  simp only [doRelease, finOf_none (n := 4) h]
  rfl

theorem doRelease_empty {sequence : Half} (h : (s.store l).records = []) :
    doRelease (finByte l) sequence s = (s, [0x02, 0]) := by
  simp only [doRelease, finOf4, h, State.remaining]
  rfl

theorem doRelease_oldest {r : Record} {rest : List Record} {sequence : Half} (h : (s.store l).records = r :: rest) :
    doRelease (finByte l) sequence s =
      if r.seq = sequence then (s.dropOldest l, [0x00, natByte rest.length])
      else (s, [0x13, natByte (rest.length + 1)]) := by
  rw [← remaining_dropOldest h, ← remaining_cons h]
  simp only [doRelease, finOf4, h]
  rfl

/-- Settles O42: the number carried is compared with that of the oldest record alone. -/
theorem releaseRemovesOnlyTheOldestNamed : Obligations.ReleaseRemovesOnlyTheOldestNamed := by
  intro tag line sequence s hs
  rw [exec_release hs]
  refine ⟨fun hbad => by rw [doRelease_badArg hbad], ?_⟩
  rintro l rfl
  refine ⟨fun hempty => by rw [doRelease_empty hempty], fun r rest hrecords => ?_⟩
  rw [doRelease_oldest hrecords]
  exact ⟨fun hother => by rw [if_neg hother],
    fun hnamed => ⟨s.dropOldest l, by rw [if_pos hnamed], dropOldest_spec hrecords⟩⟩

/-! ### STORE-CLEAR -/

theorem exec_storeClear {tag line : Byte} (hs : s.ready) :
    exec (.storeClear tag line) s = .next ((doStoreClear line s).1.replying 0xD2 tag (doStoreClear line s).2) :=
  submit_request (k := .storeClear) (r := .storeClear line) hs rfl (by simp)

theorem doStoreClear_badArg {line : Byte} (h : 3 < line.toNat) : doStoreClear line s = (s, [0x14]) := by
  simp only [doStoreClear, finOf_none (n := 4) h]
  rfl

theorem doStoreClear_line (s : State) (l : Fin 4) :
    doStoreClear (finByte l) s = (s.clearStore l, [0x00, natByte (s.store l).records.length]) := by
  simp only [doStoreClear, finOf4]
  rfl

/-- Settles O43: the store of the line is replaced by an empty one with its next sequence and its gap-pending. -/
theorem storeClearRemovesEveryRecord : Obligations.StoreClearRemovesEveryRecord := by
  intro tag line s hs
  rw [exec_storeClear hs]
  refine ⟨fun hbad => by rw [doStoreClear_badArg hbad], ?_⟩
  rintro l rfl
  exact ⟨s.clearStore l, by rw [doStoreClear_line], setStore_judgeLevel_spec s l { s.store l with records := [] }⟩

end Sys2Proof.Proofs
end

section
/-! PROOFS. Watches (R119 to R131): WATCH-WRITE, WATCH-READ, WATCH-ERASE, VALUES-READ, the field and the zone of a watch, the
evaluation of the watches of an entry, and the injections they make. -/

namespace Sys2Proof.Proofs

open Sys2Proof Sys2Proof.Machine

variable {s : State} {w : Fin 32} {x : Watch}

/-! ### WATCH-WRITE -/

/-- R121, step 1: which actions may come with target and level, and which must. -/
theorem injectionFits_iff (action : Byte) (carried : Bool) : injectionFits action carried = true ↔
    (action.toNat ≤ 1 → carried = false) ∧ (2 ≤ action.toNat → action.toNat ≤ 3 → carried = true) := by
  revert action carried
  decide

section

variable {tag watch entry offset start width signed action : Byte} {low high : Word} {hyst : Half}
  {inj : Option (Byte × Byte)}

/-- R161, R165: the fields of a body read back if its length is the one that its action declares. -/
theorem parseWatchWrite_body : parseBody .watchWrite ([watch, entry, offset, start, width, signed] ++ le32 low ++ le32 high ++
      le16 hyst ++ [action] ++ injectionBytes inj) =
    if injectionFits action inj.isSome then
      some (.watchWrite watch entry offset start width signed low high hyst action inj)
    else none := by
  cases inj <;> simp [parseBody, parseWatchWrite, injectionBytes, le32, le16]

theorem exec_watchWrite (hs : s.ready) (hf : injectionFits action inj.isSome = true) :
    exec (.watchWrite tag watch entry offset start width signed low high hyst action inj) s =
      .next ((doWatchWrite watch entry offset start width signed low high hyst action inj s).1.replying 0xE0 tag
        (doWatchWrite watch entry offset start width signed low high hyst action inj s).2) :=
  submit_request (k := .watchWrite) (r := .watchWrite watch entry offset start width signed low high hyst action inj) hs
    (parseWatchWrite_body.trans (if_pos hf)) (by simp)

theorem exec_watchWrite_badLength (hs : s.ready) (hf : ¬ injectionFits action inj.isSome = true) :
    exec (.watchWrite tag watch entry offset start width signed low high hyst action inj) s =
      .next (s.replying 0xE0 tag [0x15]) :=
  submit_badLength (k := .watchWrite) hs (parseWatchWrite_body.trans (if_neg hf))

/-- R119: an action code, a target or a level out of its range. -/
theorem actionOf_outOfRange
    (h : 3 < action.toNat ∨ ∃ g v, inj = some (g, v) ∧ (127 < g.toNat ∨ 1 < v.toNat)) : actionOf action inj = none := by
  have hcode : ∀ k : Byte, k.toNat ≤ 3 → 3 < action.toNat → action ≠ k := by
    rintro k hk hgt rfl
    omega
  rcases inj with _ | ⟨g, v⟩
  · rcases h with hgt | ⟨g, v, hc, -⟩
    · exact (if_neg (hcode 0 (by decide) hgt)).trans (if_neg (hcode 1 (by decide) hgt))
    · cases hc
  · simp only [actionOf]
    split
    next ht hlv =>
      rcases h with hgt | ⟨g', v', hc, hg | hv⟩
      · exact (if_neg (hcode 2 (by decide) hgt)).trans (if_neg (hcode 3 (by decide) hgt))
      · cases hc
        simp [finOf_none (n := 128) hg] at ht
      · cases hc
        simp [levelOf_none hv] at hlv
    next => rfl

/-- R121, steps 3 and 4: one field out of its range, or limits in the wrong order, refuse them all. -/
theorem watchOf_outOfRange
    (h : 127 < entry.toNat ∨ 199 < offset.toNat ∨ 7 < start.toNat ∨ width.toNat = 0 ∨ 32 < width.toNat ∨
      1 < signed.toNat ∨ 3 < action.toNat ∨ (∃ g v, inj = some (g, v) ∧ (127 < g.toNat ∨ 1 < v.toNat)) ∨
      (signed = 1 ∧ high.toInt < low.toInt) ∨ (signed = 0 ∧ high.toNat < low.toNat)) :
    watchOf entry offset start width signed low high hyst action inj = none := by
  unfold watchOf
  split
  next e sg a he hsg ha =>
    have hentry : ¬ 127 < entry.toNat := fun hgt => by simp [finOf_none (n := 128) hgt] at he
    have hsigned : ¬ 1 < signed.toNat := fun hgt => by simp [boolOf_none hgt] at hsg
    have hcode : ¬ 3 < action.toNat := fun hgt => by simp [actionOf_outOfRange (.inl hgt)] at ha
    have hinj : ¬ ∃ g v, inj = some (g, v) ∧ (127 < g.toNat ∨ 1 < v.toNat) := fun hbad => by
      simp [actionOf_outOfRange (.inr hbad)] at ha
    simp only [hentry, hsigned, hcode, hinj, false_or] at h
    refine if_neg ?_
    rintro ⟨hoffset, hstart, hwidth1, hwidth32, horder⟩
    rcases h with h | h | h | h | ⟨rfl, hlt⟩ | ⟨rfl, hlt⟩
    · omega
    · omega
    · omega
    · omega
    · obtain rfl : true = sg := Option.some.inj hsg
      exact absurd horder (by simpa [readNumber] using hlt)
    · obtain rfl : false = sg := Option.some.inj hsg
      exact absurd horder (by simpa [readNumber] using hlt)
  next => rfl

/-- R121, step 2. -/
theorem doWatchWrite_badArg
    (h : finOf 32 watch = none ∨ watchOf entry offset start width signed low high hyst action inj = none) :
    doWatchWrite watch entry offset start width signed low high hyst action inj s = (s, [0x14]) := by
  unfold doWatchWrite
  split
  next hw hx => simp [hw, hx] at h
  next => rfl

end

/-- R119: the two bytes target and level of an action, where it has them. -/
def carriedBytes : WatchAction → Option (Byte × Byte)
  | .none => none
  | .notice => none
  | .inject g v => some (finByte g, v.code)
  | .noticeInject g v => some (finByte g, v.code)

theorem actionOf_code (a : WatchAction) : actionOf a.code (carriedBytes a) = some a := by
  cases a <;> simp [actionOf, carriedBytes, WatchAction.code]

/-- R119: the limits of a watch's fields that their types do not already state. -/
def watchInRange (x : Watch) : Prop :=
  x.offset ≤ 199 ∧ x.startBit ≤ 7 ∧ 1 ≤ x.width ∧ x.width ≤ 32 ∧ readNumber x.signed x.low ≤ readNumber x.signed x.high

/-- R121: fields in range read back as the definition they carry, the dynamic fields cleared. -/
theorem watchOf_fields (hx : watchInRange x) {offset start width : Byte} (ho : offset.toNat = x.offset)
    (hb : start.toNat = x.startBit) (hw : width.toNat = x.width) :
    watchOf (finByte x.entry) offset start width (boolByte x.signed) x.low x.high x.hysteresis x.action.code
      (carriedBytes x.action) = some x.cleared := by
  simp only [watchOf, finOf128, boolOf_boolByte, actionOf_code, ho, hb, hw]
  exact if_pos hx

theorem doWatchWrite_fields {entry offset start width signed action : Byte} {low high : Word} {hyst : Half}
    {inj : Option (Byte × Byte)} (hx : watchOf entry offset start width signed low high hyst action inj = some x) :
    doWatchWrite (finByte w) entry offset start width signed low high hyst action inj s =
      (s.setWatch w (some x), [0x00]) := by
  simp only [doWatchWrite, finOf32, hx]
  rfl

theorem injectionFits_code (a : WatchAction) : injectionFits a.code (carriedBytes a).isSome = true := by
  cases a <;> rfl

/-- Settles O45: the length that the action declares first, then ranges and limits, and fields in range define the watch. -/
theorem watchWriteDefinesAClearedWatch : Obligations.WatchWriteDefinesAClearedWatch := by
  intro tag watch entry offset start width signed low high hyst action inj s hs
  refine ⟨fun hbad => exec_watchWrite_badLength hs ?_, fun hnone hsome hbad => ?_, ?_⟩
  · rw [injectionFits_iff]
    rintro ⟨hno, hyes⟩
    rcases hbad with ⟨hle, hinj⟩ | ⟨hge, hle, rfl⟩
    · exact hinj (by simpa using hno hle)
    · cases hyes hge hle
  · have hfits : injectionFits action inj.isSome = true := (injectionFits_iff _ _).2
      ⟨fun hle => by rw [hnone hle]; rfl, fun hge hle => Option.isSome_iff_ne_none.2 (hsome hge hle)⟩
    rw [exec_watchWrite hs hfits, doWatchWrite_badArg (hbad.imp (fun hw => finOf_none hw) watchOf_outOfRange)]
  · rintro w x rfl rfl ho ho199 hb hb7 hw hw1 hw32 rfl rfl rfl rfl haction hint hnat
    obtain ⟨rfl, rfl⟩ : action = x.action.code ∧ inj = carriedBytes x.action := by
      revert haction
      cases x.action <;> exact id
    have horder : readNumber x.signed x.low ≤ readNumber x.signed x.high := by
      cases hsg : x.signed
      · simpa [readNumber] using hnat hsg
      · simpa [readNumber] using hint hsg
    rw [exec_watchWrite hs (injectionFits_code x.action),
      doWatchWrite_fields (watchOf_fields ⟨ho199, hb7, hw1, hw32, horder⟩ ho hb hw)]

/-! ### WATCH-READ -/

theorem exec_watchRead {tag watch : Byte} (hs : s.ready) :
    exec (.watchRead tag watch) s = .next ((doWatchRead watch s).1.replying 0xE1 tag (doWatchRead watch s).2) :=
  submit_request (k := .watchRead) (r := .watchRead watch) hs rfl (by simp)

theorem doWatchRead_badArg {watch : Byte} (h : 31 < watch.toNat) : doWatchRead watch s = (s, [0x14]) := by
  simp only [doWatchRead, finOf_none (n := 32) h]
  rfl

theorem doWatchRead_unused (h : s.watch w = none) :
    doWatchRead (finByte w) s =
      (s, [0x00, finByte w, 0] ++ noWatchBytes ++ [0] ++ le32 0 ++ le32 0 ++ [0, 0]) := by
  simp only [doWatchRead, finOf32, h]
  rfl

theorem doWatchRead_defined (h : s.watch w = some x) :
    doWatchRead (finByte w) s =
      (s, [0x00, finByte w, 1] ++ x.defBytes ++ [x.zone.code] ++ le32 x.value ++ le32 x.valueTime ++
        [x.status.code, x.lastAction.code]) := by
  simp only [doWatchRead, finOf32, h]
  rfl

/-- Settles O46: the codes one by one, then the body by whether the watch is DEFINED and, if so, by its action. -/
theorem watchReadShowsTheWatch : Obligations.WatchReadShowsTheWatch := by
  refine ⟨⟨rfl, rfl, rfl⟩, fun tag watch s hs => ?_⟩
  rw [exec_watchRead hs]
  refine ⟨fun hbad => by rw [doWatchRead_badArg hbad], ?_⟩
  rintro w rfl
  refine ⟨fun hunused => by rw [doWatchRead_unused hunused]; rfl, fun x hx => ?_⟩
  rw [doWatchRead_defined hx, Watch.defBytes]
  cases x.action <;> rfl

/-! ### WATCH-ERASE -/

theorem exec_watchErase {tag watch : Byte} (hs : s.ready) :
    exec (.watchErase tag watch) s = .next ((doWatchErase watch s).1.replying 0xE2 tag (doWatchErase watch s).2) :=
  submit_request (k := .watchErase) (r := .watchErase watch) hs rfl (by simp)

theorem doWatchErase_badArg {watch : Byte} (h : 31 < watch.toNat) : doWatchErase watch s = (s, [0x14]) := by
  simp only [doWatchErase, finOf_none (n := 32) h]
  rfl

theorem doWatchErase_unused (h : s.watch w = none) : doWatchErase (finByte w) s = (s, [0x13]) := by
  simp only [doWatchErase, finOf32, h]
  rfl

theorem doWatchErase_defined (h : s.watch w = some x) :
    doWatchErase (finByte w) s = (s.setWatch w none, [0x00]) := by
  simp only [doWatchErase, finOf32, h]
  rfl

/-- Settles O47: the number of the watch, then whether it is DEFINED. -/
theorem watchEraseFreesTheWatch : Obligations.WatchEraseFreesTheWatch := by
  intro tag watch s hs
  rw [exec_watchErase hs]
  refine ⟨fun hbad => by rw [doWatchErase_badArg hbad], ?_⟩
  rintro w rfl
  refine ⟨fun hunused => by rw [doWatchErase_unused hunused], fun hdefined => ?_⟩
  obtain ⟨x, hx⟩ := Option.ne_none_iff_exists'.1 hdefined
  rw [doWatchErase_defined hx]

/-! ### VALUES-READ -/

theorem exec_valuesRead {tag first count : Byte} (hs : s.ready) :
    exec (.valuesRead tag first count) s =
      .next ((doValuesRead first count s).1.replying 0xE3 tag (doValuesRead first count s).2) :=
  submit_request (k := .valuesRead) (r := .valuesRead first count) hs rfl (by simp)

theorem watches_toList (s : State) : s.watches.toList = (List.finRange 32).map s.watch :=
  List.ext_getElem (by simp) fun i _ _ => by simp [State.watch]

theorem valueBytes_eq (x : Option Watch) : valueBytes x = valueLayout x := by
  cases x <;> rfl

theorem valueLayout_length (x : Option Watch) : (valueLayout x).length = 10 := by
  cases x <;> rfl

theorem valueLayouts_length (s : State) (ws : List (Fin 32)) :
    (ws.flatMap fun w => valueLayout (s.watch w)).length = 10 * ws.length := by
  induction ws with
  | nil => rfl
  | cons w ws ih =>
    rw [List.flatMap_cons, List.length_append, ih, valueLayout_length, List.length_cons]
    omega

theorem doValuesRead_badArg {first count : Byte}
    (h : ¬ (1 ≤ count.toNat ∧ count.toNat ≤ 24 ∧ first.toNat + count.toNat ≤ 32)) :
    doValuesRead first count s = (s, [0x14]) := if_neg h

theorem doValuesRead_values {first count : Byte}
    (h : 1 ≤ count.toNat ∧ count.toNat ≤ 24 ∧ first.toNat + count.toNat ≤ 32) :
    doValuesRead first count s = (s, [0x00, first, count] ++
      (((List.finRange 32).drop first.toNat).take count.toNat).flatMap fun w => valueLayout (s.watch w)) := by
  rw [doValuesRead, if_pos h, watches_toList, ← List.map_drop, ← List.map_take, List.flatMap_map]
  simp only [valueBytes_eq]
  rfl

/-- Settles O48: the watches stand in the order of their numbers, ten bytes each. -/
theorem valuesReadShowsConsecutiveWatches : Obligations.ValuesReadShowsConsecutiveWatches := by
  intro tag first count s hs
  rw [exec_valuesRead hs]
  refine ⟨fun hbad => by rw [doValuesRead_badArg (by omega)], fun hge hle hfit => ?_⟩
  rw [doValuesRead_values ⟨hge, hle, hfit⟩]
  refine ⟨_, rfl, ?_, rfl⟩
  rw [List.length_append, valueLayouts_length, List.length_take, List.length_drop, List.length_finRange, min_eq_left (by omega)]
  rfl

/-! ### The field and its value -/

/-- R126: bit `j` of the joined number is a bit of byte `j / 8`. -/
theorem leNat_testBit (bytes : List Byte) (j : Nat) :
    (leNat bytes).testBit j = (bytes.getD (j / 8) 0).getLsbD (j % 8) := by
  induction bytes generalizing j with
  | nil => simp [leNat]
  | cons b bytes ih =>
    have hsplit : leNat (b :: bytes) = 2 ^ 8 * leNat bytes + b.toNat := by
      rw [leNat]
      omega
    rw [hsplit, Nat.testBit_two_pow_mul_add _ b.isLt]
    split
    next hj => rw [Nat.div_eq_of_lt hj, Nat.mod_eq_of_lt hj, List.getD_cons_zero, BitVec.testBit_toNat]
    next hj =>
      obtain ⟨k, rfl⟩ : ∃ k, j = k + 8 := ⟨j - 8, by omega⟩
      rw [Nat.add_sub_cancel, ih, Nat.add_div_right k (by decide), Nat.add_mod_right, List.getD_cons_succ]

/-- R126: a bit below the width lies in one of the bytes that the field covers. -/
theorem rawField_testBit (x : Watch) (payload : List Byte) (i : Nat) :
    (x.rawField payload).testBit i =
      (decide (i < x.width) &&
        (payload.getD (x.offset + (x.startBit + i) / 8) 0).getLsbD ((x.startBit + i) % 8)) := by
  rw [Watch.rawField, Nat.testBit_mod_two_pow, Nat.testBit_shiftRight, leNat_testBit]
  by_cases hi : i < x.width
  · have hbyte : (x.startBit + i) / 8 < x.fieldBytes := by
      unfold Watch.fieldBytes
      omega
    rw [List.getD_eq_getElem?_getD, List.getElem?_take_of_lt hbyte, List.getElem?_drop, ← List.getD_eq_getElem?_getD]
  · simp [hi]

/-- R127: a number of `n + 1` bits is at least half their range exactly when its highest bit is set. -/
theorem half_le_iff_testBit {n raw : Nat} (h : raw < 2 ^ (n + 1)) : 2 ^ n ≤ raw ↔ raw.testBit n = true :=
  ⟨fun hle => Nat.testBit_of_two_pow_le_and_two_pow_add_one_gt hle h, Nat.ge_two_pow_of_testBit⟩

theorem rawField_lt (x : Watch) (payload : List Byte) : x.rawField payload < 2 ^ x.width :=
  Nat.mod_lt _ (Nat.two_pow_pos _)

theorem fieldValue_eq (hw : 1 ≤ x.width) (payload : List Byte) :
    x.fieldValue payload =
      if x.signed = true ∧ (x.rawField payload).testBit (x.width - 1) = true then
        (x.rawField payload : Int) - 2 ^ x.width
      else (x.rawField payload : Int) := by
  have hlt := rawField_lt x payload
  rw [← Nat.sub_add_cancel hw] at hlt
  simp only [Watch.fieldValue, Bool.and_eq_true, decide_eq_true_eq, half_le_iff_testBit hlt]

theorem take?_within {payload : List Byte} (h : x.offset + x.fieldBytes ≤ payload.length) :
    x.take? payload = some (x.fieldValue payload) := if_pos h

theorem take?_beyond {payload : List Byte} (h : payload.length < x.offset + x.fieldBytes) :
    x.take? payload = none := if_neg (Nat.not_le.2 h)

/-! ### The zone -/

theorem zoneFor_middle (h : x.zone = .unknown ∨ x.zone = .normal) (v : Int) :
    x.zoneFor v =
      if v < readNumber x.signed x.low then .low
      else if readNumber x.signed x.high < v then .high else .normal := by
  rcases h with h | h <;> simp only [Watch.zoneFor, h, gt_iff_lt]

theorem zoneFor_low (h : x.zone = .low) (v : Int) :
    x.zoneFor v =
      if readNumber x.signed x.high < v then .high
      else if readNumber x.signed x.low + x.hysteresis.toNat ≤ v then .normal else .low := by
  simp only [Watch.zoneFor, h, gt_iff_lt, ge_iff_le]

theorem zoneFor_high (h : x.zone = .high) (v : Int) :
    x.zoneFor v =
      if v < readNumber x.signed x.low then .low
      else if v ≤ readNumber x.signed x.high - x.hysteresis.toNat then .normal else .high := by
  simp only [Watch.zoneFor, h]

/-- Settles O49: the field bit by bit and its value by its highest bit; then the zone by the rows of R128. -/
theorem watchFieldAndZoneFollowThePayload : Obligations.WatchFieldAndZoneFollowThePayload := by
  intro x payload
  refine ⟨fun hin hw => ⟨rawField_testBit x payload, ?_⟩, fun hout => take?_beyond hout, ?_⟩
  · rw [take?_within hin, fieldValue_eq hw]
  · intro v low high hyst hlow hhigh hhyst hle
    replace hlow : low = readNumber x.signed x.low := hlow
    replace hhigh : high = readNumber x.signed x.high := hhigh
    refine ⟨fun hz => ?_, fun hz => ?_, fun hz => ?_⟩
    · rw [zoneFor_middle hz, ← hlow, ← hhigh]
      exact ⟨fun h => if_pos h, fun h => by rw [if_neg (by omega), if_pos h],
        fun h h' => by rw [if_neg (by omega), if_neg (by omega)]⟩
    · rw [zoneFor_low hz, ← hlow, ← hhigh, ← hhyst]
      exact ⟨fun h => if_pos h, fun h h' => by rw [if_neg (by omega), if_pos h'],
        fun h h' => by rw [if_neg (by omega), if_neg (by omega)]⟩
    · rw [zoneFor_high hz, ← hlow, ← hhigh, ← hhyst]
      exact ⟨fun h => if_pos h, fun h h' => by rw [if_neg (by omega), if_pos h'],
        fun h h' => by rw [if_neg (by omega), if_neg (by omega)]⟩

/-! ### What an injection leaves of the watches -/

theorem afterFailure_preempted (entry : Fin 128) : afterFailure entry .preempted = id := by
  funext x
  exact if_neg (by simp)

/-- R129: an exchange that is preempted leaves its watches as they are. -/
theorem preempt_watch (s : State) (l : Fin 4) (w : Fin 32) : (s.preempt l).watch w = s.watch w := by
  unfold State.preempt
  split
  next ex hx =>
    split
    next =>
      by_cases he : (s.line l).engine = .sending
      · rw [endOutside_sending hx he, setLine_watch]
      · rw [endOutside_free hx he, fileQuiet_watch (by decide), afterFailure_preempted, Option.map_id]
        rfl
    next => rfl
  next => rfl

theorem urgentJoined_watch (s : State) (l : Fin 4) (joined : Bool) (w : Fin 32) :
    (s.urgentJoined l joined).watch w = s.watch w := by
  unfold State.urgentJoined
  split
  · exact preempt_watch s l w
  · rfl

theorem faultQueued_watch (l : Fin 4) (q : List Injected) (s : State) (w : Fin 32) :
    (q.foldl (State.faultQueued l) s).watch w = s.watch w := by
  induction q generalizing s with
  | nil => rfl
  | cons y ys ih =>
    rw [List.foldl_cons, ih]
    unfold State.faultQueued
    split
    · split
      · exact offer_watch ..
      · rfl
    · rfl

/-- R94: fault handling changes watches only by the end of an exchange in flight. -/
theorem faultHandling_watch {l : Fin 4} (hx : (s.line l).exch = none) (w : Fin 32) :
    (s.faultHandling l).watch w = s.watch w := by
  have hstart : (s.faultStart l).watch w = s.watch w := by
    rw [State.faultStart, modLine_watch, State.closeBlock]
    split
    · rfl
    · rw [modLine_watch, offer_watch]
  obtain ⟨-, hline, -⟩ := faultStart_frame s l
  have hexch : (s.faultStart l).faultExchange l = s.faultStart l := by
    rw [State.faultExchange, hline, hx]
  rw [faultHandling_eq, hexch, raise_watch]
  have hend : ((s.faultStart l).faultQueueEnd l).watch w = s.watch w := by
    rw [State.faultQueueEnd, modLine_watch, faultQueued_watch, hstart]
  exact HeldKept.faultHold (P := fun t => t.watch w = s.watch w)
    ⟨fun _ _ _ _ _ h => h, fun _ _ _ h => h, fun _ _ h => h, fun _ _ _ _ h => h⟩ hend l

/-- R90, R93: an OFF line that powers up has no exchange that a fault could end. -/
theorem appendAsk_watch (hl : linesSound s) (l : Fin 4) (new : Injected) (w : Fin 32) :
    (s.appendAsk l new).watch w = s.watch w := by
  rw [appendAsk_eq, urgentJoined_watch]
  by_cases hp : (s.line l).power = .off
  · obtain ⟨hexch, -⟩ := shape_unpowered (hl l).1 (by simp [hp])
    rw [powerUp_asked hp]
    split
    · rw [faultHandling_watch (by rw [setLine_line_self]; exact hexch), setLine_watch]
    · rw [setLine_watch]
  · rw [powerUp_supplied (by rw [setLine_line_self]; exact hp), setLine_watch]

theorem watchTrigger_eq (s : State) (w : Fin 32) (g : Fin 128) (lv : Level) :
    watchTrigger w g lv s = ((s.askAt g lv (.watch w)).1, (s.askAt g lv (.watch w)).2.kept) := rfl

/-- R72: a watch trigger changes no watch. -/
theorem watchTrigger_watch (hl : linesSound s) (v : Fin 32) (g : Fin 128) (lv : Level) (w : Fin 32) :
    (watchTrigger v g lv s).1.watch w = s.watch w := by
  rw [watchTrigger_eq]
  unfold State.askAt
  split
  next => rfl
  next p hp =>
    simp only []
    split
    next => rfl
    next =>
      split
      next q hq => exact urgentJoined_watch ..
      next =>
        split
        next => rfl
        next => exact appendAsk_watch hl _ _ w

theorem linesSound_watchTrigger (hl : linesSound s) (w : Fin 32) (g : Fin 128) (lv : Level) :
    linesSound (watchTrigger w g lv s).1 :=
  linesSound_iff.2 (linesBut_askAt (linesSound_iff.1 hl) g lv rfl)

theorem watchTrigger_count (s : State) (w : Fin 32) (g : Fin 128) (lv : Level) :
    (watchTrigger w g lv s).1.count = s.count := by
  obtain ⟨-, -, -, -, -, hcount, -⟩ := (sameConfig_kept s).watchTrigger (SameConfig.refl s) w g lv
  exact hcount

theorem watchTrigger_result (s : State) (w : Fin 32) (g : Fin 128) (lv : Level) :
    (watchTrigger w g lv s).2 = .queued ∨ (watchTrigger w g lv s).2 = .merged ∨ (watchTrigger w g lv s).2 = .refused := by
  rw [watchTrigger_eq]
  cases (s.askAt g lv (.watch w)).2 <;> simp [AskResult.kept]

/-! ### Changes of some watches -/

/-- R125, R131: from `s` to `t` no watch but those of `ws` has changed; the lines are sound, the count is the same, and the
members of WATCH stay. -/
structure WatchesOnly (ws : List (Fin 32)) (s t : State) : Prop where
  lines : linesSound t
  count : t.count = s.count
  others : ∀ i, i ∉ ws → t.watch i = s.watch i
  members : ∀ k, (s.attn.set .watch).getLsbD k = true → (t.attn.set .watch).getLsbD k = true

theorem WatchesOnly.refl {ws : List (Fin 32)} (hl : linesSound s) : WatchesOnly ws s s :=
  ⟨hl, rfl, fun _ _ => rfl, fun _ h => h⟩

theorem WatchesOnly.trans {ws vs : List (Fin 32)} {t u : State} (h : WatchesOnly ws s t) (h' : WatchesOnly vs t u) :
    WatchesOnly (ws ++ vs) s u where
  lines := h'.lines
  count := h'.count.trans h.count
  others i hi := by
    rw [List.mem_append, not_or] at hi
    exact (h'.others i hi.2).trans (h.others i hi.1)
  members k hk := h'.members k (h.members k hk)

theorem watchesOnly_setWatch (hl : linesSound s) (w : Fin 32) (y : Option Watch) : WatchesOnly [w] s (s.setWatch w y) :=
  ⟨hl, rfl, fun i hi => setWatch_watch_ne s w i y (by simpa using hi), fun _ h => h⟩

theorem watchesOnly_raise (hl : linesSound s) (k : Nat) : WatchesOnly [] s (s.raise .watch k) :=
  ⟨hl, rfl, fun _ _ => rfl, fun k' h => by simp [raise_set, h]⟩

theorem watchesOnly_watchTrigger (hl : linesSound s) (w : Fin 32) (g : Fin 128) (lv : Level) :
    WatchesOnly [] s (watchTrigger w g lv s).1 where
  lines := linesSound_watchTrigger hl w g lv
  count := watchTrigger_count s w g lv
  others i _ := watchTrigger_watch hl w g lv i
  members k h := KeptOnAll.watchTrigger (fun l => member_kept (by decide) k l) h w g lv

/-! ### The action of a zone change -/

theorem injectFor_eq (hl : linesSound s) (hx : s.watch w = some x) (g : Fin 128) (lv : Level) :
    s.injectFor watchTrigger w g lv =
      (watchTrigger w g lv s).1.setWatch w (some { x with lastAction := (watchTrigger w g lv s).2 }) := by
  simp only [State.injectFor, watchTrigger_watch hl, hx]

theorem watchesOnly_injectFor (hl : linesSound s) (hx : s.watch w = some x) (g : Fin 128) (lv : Level) :
    WatchesOnly [w] s (s.injectFor watchTrigger w g lv) := by
  rw [injectFor_eq hl hx]
  exact (watchesOnly_watchTrigger hl w g lv).trans (watchesOnly_setWatch (linesSound_watchTrigger hl w g lv) w _)

theorem watchesOnly_watchAct (hl : linesSound s) (hx : s.watch w = some x) (a : WatchAction) :
    WatchesOnly [w] s (s.watchAct watchTrigger w a) := by
  cases a with
  | none => exact .refl hl
  | notice => exact (watchesOnly_raise hl w.val).trans (.refl hl)
  | inject g lv => exact watchesOnly_injectFor hl hx g lv
  | noticeInject g lv =>
    exact (watchesOnly_raise hl w.val).trans (watchesOnly_injectFor (s := s.raise .watch w.val) hl hx g lv)

theorem raise_watch_member (s : State) (w : Fin 32) : ((s.raise .watch w.val).attn.set .watch).getLsbD w.val = true :=
  gained_member (raise_gained ..) w.isLt

/-- R119: what an action includes. -/
def notices (a : WatchAction) : Prop := a = .notice ∨ ∃ g lv, a = .noticeInject g lv
def injects (a : WatchAction) : Prop := ∃ g lv, a = .inject g lv ∨ a = .noticeInject g lv

/-- R130, R131: what an action leaves of its watch: the last action result of its injection, if it makes one. -/
theorem watchAct_watch (hl : linesSound s) (hx : s.watch w = some x) (a : WatchAction) :
    ∃ r, (s.watchAct watchTrigger w a).watch w = some { x with lastAction := r } ∧
      (a = .none ∨ a = .notice → r = x.lastAction) ∧
      (notices a → ((s.watchAct watchTrigger w a).attn.set .watch).getLsbD w.val = true) ∧
      (injects a → r = .queued ∨ r = .merged ∨ r = .refused) := by
  have hinject : ∀ u : State, linesSound u → u.watch w = some x → ∀ g lv, ∃ r,
      (u.injectFor watchTrigger w g lv).watch w = some { x with lastAction := r } ∧
        (r = .queued ∨ r = .merged ∨ r = .refused) := fun u hu hux g lv =>
    ⟨_, by rw [injectFor_eq hu hux, setWatch_watch_self], watchTrigger_result u w g lv⟩
  cases a with
  | none => exact ⟨x.lastAction, hx, fun _ => rfl, by simp [notices], by simp [injects]⟩
  | notice => exact ⟨x.lastAction, hx, fun _ => rfl, fun _ => raise_watch_member s w, by simp [injects]⟩
  | inject g lv =>
    obtain ⟨r, hr, hresult⟩ := hinject s hl hx g lv
    exact ⟨r, hr, by simp, by simp [notices], fun _ => hresult⟩
  | noticeInject g lv =>
    obtain ⟨r, hr, hresult⟩ := hinject (s.raise .watch w.val) hl hx g lv
    exact ⟨r, hr, by simp, fun _ => (watchesOnly_injectFor (s := s.raise .watch w.val) hl hx g lv).members _
      (raise_watch_member s w), fun _ => hresult⟩

/-! ### One watch -/

theorem zoneActs_iff {before after : Zone} :
    zoneActs before after = true ↔ after ≠ before ∧ ¬ (before = .unknown ∧ after = .normal) := by
  cases before <;> cases after <;> decide

section

variable {e : Fin 128} {o : ExchOutcome} {payload : List Byte} {inject : Injector}

theorem evalWatch_unused (h : s.watch w = none) : s.evalWatch inject e o payload w = s := by
  simp only [State.evalWatch, h]

theorem evalWatch_otherEntry (hx : s.watch w = some x) (he : x.entry ≠ e) : s.evalWatch inject e o payload w = s := by
  simp only [State.evalWatch, hx, if_pos he]

theorem evalWatch_missing (hx : s.watch w = some x) (he : x.entry = e) (hv : x.take? payload = none) :
    s.evalWatch inject e .ok payload w = s.setWatch w (some { x with status := .missing }) := by
  simp only [State.evalWatch, hx, if_neg (not_not.2 he), hv]

/-- R128, R130: a watch that takes a value acts if its zone change is one that does. -/
theorem evalWatch_value (hx : s.watch w = some x) (he : x.entry = e) {v : Int} (hv : x.take? payload = some v) :
    s.evalWatch inject e .ok payload w =
      if zoneActs x.zone (x.zoneFor v) then
        (s.setWatch w (some (x.takeValue v s.count))).watchAct inject w x.action
      else s.setWatch w (some (x.takeValue v s.count)) := by
  simp only [State.evalWatch, hx, if_neg (not_not.2 he), hv]

/-- R125: the evaluation of a watch changes no other one. -/
theorem watchesOnly_evalWatch (hl : linesSound s) (e : Fin 128) (o : ExchOutcome) (payload : List Byte) (w : Fin 32) :
    WatchesOnly [w] s (s.evalWatch watchTrigger e o payload w) := by
  cases hx : s.watch w with
  | none =>
    rw [evalWatch_unused hx]
    exact .refl hl
  | some x =>
    by_cases ho : o = .ok
    · subst ho
      by_cases he : x.entry = e
      · cases hv : x.take? payload with
        | none =>
          rw [evalWatch_missing hx he hv]
          exact watchesOnly_setWatch hl w _
        | some v =>
          have htaken := watchesOnly_setWatch hl w (some (x.takeValue v s.count))
          rw [evalWatch_value hx he hv]
          split
          · obtain ⟨hlines, hcount, hothers, hmembers⟩ :=
              htaken.trans (watchesOnly_watchAct htaken.lines (setWatch_watch_self ..) x.action)
            exact ⟨hlines, hcount, fun i hi => hothers i (by simpa using hi), hmembers⟩
          · exact htaken
      · rw [evalWatch_otherEntry hx he]
        exact .refl hl
    · rw [evalWatch_failure ho hx]
      exact watchesOnly_setWatch hl w _

/-- R128, R130: what the evaluation leaves of a watch that takes a value. -/
theorem evalWatch_value_watch (hl : linesSound s) (hx : s.watch w = some x) (he : x.entry = e) {v : Int}
    (hv : x.take? payload = some v) :
    ∃ r, (s.evalWatch watchTrigger e .ok payload w).watch w = some { x.takeValue v s.count with lastAction := r } ∧
      (zoneActs x.zone (x.zoneFor v) = false ∨ x.action = .none ∨ x.action = .notice → r = x.lastAction) ∧
      (zoneActs x.zone (x.zoneFor v) = true →
        (notices x.action → ((s.evalWatch watchTrigger e .ok payload w).attn.set .watch).getLsbD w.val = true) ∧
          (injects x.action → r = .queued ∨ r = .merged ∨ r = .refused)) := by
  rw [evalWatch_value hx he hv]
  cases hacts : zoneActs x.zone (x.zoneFor v)
  · exact ⟨x.lastAction, setWatch_watch_self .., fun _ => rfl, by simp⟩
  · obtain ⟨r, hr, hplain, hnotice, hinject⟩ :=
      watchAct_watch (s := s.setWatch w (some (x.takeValue v s.count))) hl (setWatch_watch_self ..) x.action
    exact ⟨r, hr, fun h => hplain (h.resolve_left (by decide)), fun _ => ⟨hnotice, hinject⟩⟩

/-! ### All watches of an entry -/

theorem watchesOnly_fold (hl : linesSound s) (e : Fin 128) (o : ExchOutcome) (payload : List Byte)
    (ws : List (Fin 32)) : WatchesOnly ws s (ws.foldl (State.evalWatch watchTrigger e o payload) s) := by
  induction ws generalizing s with
  | nil => exact .refl hl
  | cons w ws ih =>
    have hone := watchesOnly_evalWatch hl e o payload w
    exact hone.trans (ih hone.lines)

/-- R125: the turn of a watch comes once, in a state `u` that still has it as it was before the evaluation, and nothing after
its turn changes it. -/
theorem evalWatches_turn (hl : linesSound s) (e : Fin 128) (o : ExchOutcome) (payload : List Byte) (w : Fin 32) :
    ∃ u, linesSound u ∧ u.count = s.count ∧ u.watch w = s.watch w ∧
      (s.evalWatches watchTrigger e o payload).watch w = (u.evalWatch watchTrigger e o payload w).watch w ∧
      ∀ k, ((u.evalWatch watchTrigger e o payload w).attn.set .watch).getLsbD k = true →
        ((s.evalWatches watchTrigger e o payload).attn.set .watch).getLsbD k = true := by
  obtain ⟨before, after, hsplit⟩ := List.append_of_mem (List.mem_finRange w)
  have hnodup := List.nodup_finRange 32
  rw [hsplit, List.nodup_middle, List.nodup_cons, List.mem_append, not_or] at hnodup
  obtain ⟨⟨hbefore, hafter⟩, -⟩ := hnodup
  have hahead := watchesOnly_fold hl e o payload before
  have hbehind := watchesOnly_fold (watchesOnly_evalWatch hahead.lines e o payload w).lines e o payload after
  refine ⟨_, hahead.lines, hahead.count, hahead.others w hbefore, ?_⟩
  rw [State.evalWatches, hsplit, List.foldl_append, List.foldl_cons]
  exact ⟨hbehind.others w hafter, hbehind.members⟩

end

/-! ### A watch trigger -/

section

variable {p : PlanEntry} {g : Fin 128} {lv : Level} {q : Injected}

theorem watchTrigger_undefined (h : s.entry g = none) : watchTrigger w g lv s = (s, .refused) := by
  rw [watchTrigger_eq, askAt_undefined h]
  rfl

theorem watchTrigger_barred (hp : s.entry g = some p) (hb : (s.line p.line).askBarred = true) :
    watchTrigger w g lv s = (s, .refused) := by
  rw [watchTrigger_eq, askAt_barred hp hb]
  rfl

variable (hp : s.entry g = some p) (hb : ¬ (s.line p.line).askBarred = true)
include hp hb

theorem watchTrigger_counted (hl : linesSound s) (hq : q ∈ (s.line p.line).queue) (he : q.entry = g)
    (hn : q.level = .urgent ∨ lv = .prompt) :
    watchTrigger w g lv s =
      (s.setLine p.line { s.line p.line with queue := (s.line p.line).queue.map (countedFor g) }, .merged) := by
  obtain ⟨-, -, -, -, ⟨-, hnodup, -⟩, -⟩ := (hl p.line).1
  have hno := promotes_eq_false hn
  subst he
  rw [watchTrigger_eq, askAt_merges hp hb (findEntry_mem hnodup hq), mergeAsk_eq, urgentJoined_noScan (.inl hno),
    mergeInjected_counted hno hnodup hq]
  rfl

theorem watchTrigger_promoted (hl : linesSound s) (hq : q ∈ (s.line p.line).queue) (he : q.entry = g)
    (hprompt : q.level = .prompt) :
    watchTrigger w g .urgent s =
      ((s.setLine p.line { s.line p.line with
          queue := urgentPlaced { q with level := .urgent, merged := min 255 (q.merged + 1) }
            ((s.line p.line).queue.filter fun y => decide (y.entry ≠ g)) }).preempt p.line, .merged) := by
  obtain ⟨-, -, -, -, ⟨-, hnodup, -⟩, -⟩ := (hl p.line).1
  have hyes : promotes q .urgent = true := promotes_iff.2 ⟨hprompt, rfl⟩
  subst he
  rw [watchTrigger_eq, askAt_merges hp hb (findEntry_mem hnodup hq), mergeAsk_eq, hyes, mergeInjected_promoted hyes]
  rfl

theorem watchTrigger_full (hq : ∀ y ∈ (s.line p.line).queue, y.entry ≠ g) (hn : 8 ≤ (s.line p.line).queue.length) :
    watchTrigger w g lv s = (s, .refused) := by
  rw [watchTrigger_eq, askAt_full hp hb (findEntry_eq_none hq) hn]
  rfl

theorem watchTrigger_appended (hq : ∀ y ∈ (s.line p.line).queue, y.entry ≠ g) (hn : (s.line p.line).queue.length < 8)
    {new : Injected} (hnew : new = { entry := g, level := lv, origin := .watch w, merged := 0, arrival := s.count }) :
    watchTrigger w g lv s = (s.appendAsk p.line new, .queued) := by
  rw [watchTrigger_eq, askAt_appends hp hb (findEntry_eq_none hq) hn hnew]
  rfl

end

/-- R69, step 4: on such a line an ASK is not refused. -/
theorem not_askBarred {y : Line} (hm : y.settings.mode = .framed) (hf : y.power ≠ .fault)
    (ha : y.power = .off → y.settings.autoPower = true) : ¬ y.askBarred = true := by
  rw [askBarred_iff]
  rintro (hlisten | hfault | ⟨hoff, hauto⟩)
  · simp [hm] at hlisten
  · exact hf hfault
  · simp [ha hoff] at hauto

/-- R67: the queue with a new element, told by its level. -/
theorem appendInjected_eq {new : Injected} {q queue : List Injected} (hprompt : new.level = .prompt → queue = q ++ [new])
    (hurgent : new.level = .urgent → queue = urgentPlaced new q) : appendInjected new q = queue := by
  cases hv : new.level with
  | urgent => rw [appendInjected_urgent hv, hurgent hv]
  | prompt => rw [appendInjected_prompt hv, hprompt hv]

section

variable {l : Fin 4} {new : Injected}

theorem appendAsk_prompt (hon : (s.line l).power ≠ .off) (hlv : new.level = .prompt) :
    s.appendAsk l new = s.setLine l (asked (s.line l) (appendInjected new (s.line l).queue)) := by
  rw [appendAsk_supplied hon, hlv]
  rfl

theorem appendAsk_urgent (hon : (s.line l).power ≠ .off) (hlv : new.level = .urgent) :
    s.appendAsk l new = (s.setLine l (asked (s.line l) (appendInjected new (s.line l).queue))).preempt l := by
  rw [appendAsk_supplied hon, hlv]
  rfl

/-- R90: an OFF line powers up for the request; with nothing in flight on it there is nothing to preempt. -/
theorem appendAsk_poweringUp (hl : linesSound s) (hoff : (s.line l).power = .off) (hov : (s.line l).lnOvl = false) :
    s.appendAsk l new =
      s.setLine l ((asked (s.line l) (appendInjected new (s.line l).queue)).poweringUp s.count) := by
  obtain ⟨hexch, -⟩ := shape_unpowered (hl l).1 (by simp [hoff])
  rw [appendAsk_eq, powerUp_asked hoff, if_neg (by simp [hov]),
    urgentJoined_free (by rw [setLine_line_self]; exact hexch)]

end

/-- R71: a line that has just taken a request in has its block and its exchange as before. -/
theorem preempted_setLine (hl : linesSound s) {l : Fin 4} {y : Line} (hexch : y.exch = (s.line l).exch)
    (hblock : y.block = (s.line l).block) : (s.setLine l y).preempted ((s.setLine l y).preempt l) l :=
  preempt_preempted fun hx => by
    rw [setLine_line_self, hexch] at hx
    rw [setLine_line_self, hblock]
    exact (busy_line (hl l) hx).2.2

/-- Settles O50: each watch has its turn once (`evalWatches_turn`), taken by the outcome, the entry and the field; the injection
of a zone change is an ASK, told by the checks of R69 and by the queue of the target's line. -/
theorem watchEvaluationByTheOutcome : Obligations.WatchEvaluationByTheOutcome := by
  refine ⟨?_, fun _ _ _ _ => rfl, ?_, ?_⟩
  · intro s t e o payload w hl ht
    rw [ht]
    obtain ⟨u, hu, hcount, hsame, hturn, hmembers⟩ := evalWatches_turn hl e o payload w
    rw [hturn, ← hsame, ← hcount]
    refine ⟨fun hnone => by rw [evalWatch_unused hnone, hnone], fun x hx => ⟨?_, ?_, ?_, ?_⟩⟩
    · rintro (he | rfl | rfl)
      · rw [evalWatch_otherEntry hx he, hx]
      all_goals rw [evalWatch_failure (by decide) hx, setWatch_watch_self, afterFailure, if_neg (by simp)]
    · intro he hok hpre hab
      rw [evalWatch_failure hok hx, setWatch_watch_self, afterFailure, if_pos ⟨he, hpre, hab⟩]
    · rintro he rfl hv
      rw [evalWatch_missing hx he hv, setWatch_watch_self]
    · rintro v he rfl hv
      obtain ⟨r, hr, hplain, hacts⟩ := evalWatch_value_watch hu hx he hv
      refine ⟨r, hr, fun h => hplain ?_, fun hchange hfirst => ?_⟩
      · rcases h with h | h | h
        · exact .inl (Bool.eq_false_iff.2 fun hz => (zoneActs_iff.1 hz).1 h)
        · exact .inl (Bool.eq_false_iff.2 fun hz => (zoneActs_iff.1 hz).2 h)
        · exact .inr h
      · obtain ⟨hnotice, hinject⟩ := hacts (zoneActs_iff.2 ⟨hchange, hfirst⟩)
        exact ⟨fun h => hmembers _ (hnotice h), hinject⟩
  · rintro s u w x y payload v g lv hl hx hv hchange hfirst hy hact
    have htaken : x.takeValue v s.count = y := hy.symm
    rw [evalWatch_value hx rfl hv, if_pos (zoneActs_iff.2 ⟨hchange, hfirst⟩), htaken]
    rcases hact with ⟨ha, rfl⟩ | ⟨ha, rfl⟩
    · rw [ha]
      exact injectFor_eq (s := s.setWatch w (some y)) hl (setWatch_watch_self ..) g lv
    · rw [ha]
      exact injectFor_eq (s := (s.setWatch w (some y)).raise .watch w.val) hl (setWatch_watch_self ..) g lv
  · intro s w g lv hl
    refine ⟨watchTrigger_undefined, ?_⟩
    rintro p _ hp rfl
    refine ⟨fun hbar => watchTrigger_barred hp (askBarred_iff.2 hbar), fun hm hf ha => ?_⟩
    have hb := not_askBarred hm hf ha
    refine ⟨fun q hq he => ⟨watchTrigger_counted hp hb hl hq he, ?_⟩, fun hfree => ⟨watchTrigger_full hp hb hfree, ?_⟩⟩
    · rintro hprompt rfl
      exact ⟨_, watchTrigger_promoted hp hb hl hq he hprompt, preempted_setLine hl rfl rfl⟩
    · rintro new queue _ hn hnew hprompt hurgent rfl
      rw [watchTrigger_appended hp hb hfree hn hnew]
      obtain ⟨hentry, hlevel⟩ : new.entry = g ∧ new.level = lv := by rw [hnew]; exact ⟨rfl, rfl⟩
      subst hentry hlevel
      have hqueue := appendInjected_eq hprompt hurgent
      refine ⟨fun hon hlv => ?_, fun hon hlv => ?_, fun hoff hov => ?_, fun hoff hov => ?_⟩
      · rw [appendAsk_prompt hon hlv, hqueue]
        rfl
      · rw [appendAsk_urgent hon hlv, hqueue]
        exact ⟨_, rfl, preempted_setLine hl rfl rfl⟩
      · rw [appendAsk_poweringUp hl hoff hov, hqueue]
        rfl
      · obtain ⟨hpower, hempty, hattn, -⟩ := appendAsk_overload hl hp hoff hov
        exact ⟨_, rfl, hpower, hempty, hattn⟩

end Sys2Proof.Proofs
end

section
/-! PROOFS. Listening (R137, R138): the closing of a capture block after its idle time. -/

namespace Sys2Proof.Proofs

open Sys2Proof Sys2Proof.Machine

/-- R137: the close waits for 10 CT of silence in LISTENING. -/
theorem exec_captureIdleClose (l : Fin 4) (silence : Nat) (s : State) :
    exec (.captureIdleClose l silence) s =
      .next (if (s.line l).waitOver .listening 10 silence then s.closeBlock l else s) := rfl

/-- Settles O55: a wait that is over closes the block (`closeBlock_open`), which is nothing for a block with no byte; a wait that
goes on leaves the state. -/
theorem captureBlockClosesAfterIdleTime : Obligations.CaptureBlockClosesAfterIdleTime := by
  rintro l silence _ s rfl
  rw [exec_captureIdleClose]
  refine ⟨fun hlisten harriving hsilence hopen => ?_, fun hquiet => ?_⟩
  · rw [if_pos (waitOver_iff.2 ⟨hlisten, harriving, hsilence⟩)]
    obtain ⟨hline, hstore⟩ := closeBlock_open hopen
    exact ⟨_, rfl, closeBlock_eq s l, hline, fun k hk => closeBlock_line_ne s hk, hstore,
      fun k hk => by rw [closeBlock_store, if_neg hk]⟩
  · by_cases hover : (s.line l).waitOver .listening 10 silence = true
    · obtain ⟨hlisten, harriving, hsilence⟩ := waitOver_iff.1 hover
      have hempty : (s.line l).block = [] := by
        rcases hquiet with hother | hbusy | hshort | hempty
        · exact absurd hlisten hother
        · rw [harriving] at hbusy; cases hbusy
        · omega
        · exact hempty
      rw [if_pos hover, closeBlock_empty hempty]
    · rw [if_neg hover]

end Sys2Proof.Proofs
end

section
/-! PROOFS. The Attention Unit (R142 to R150): what every step keeps of ATTN#, STORE-LEVEL and the detail sets, NOTICE, NOTICE-ACK and
MASK-SET. -/

namespace Sys2Proof.Proofs

open Sys2Proof Sys2Proof.Machine

variable {s : State} {l : Fin 4} {c : AttnClass}

/-! ### Sound attention -/

/-- R116, R144: the membership of a line in STORE-LEVEL follows from its own settings and its own store. -/
theorem levelMember_setStore_ne (s : State) {k : Fin 4} (hk : k ≠ l) (x : Store) :
    (s.setStore l x).levelMember k = s.levelMember k := by
  rw [State.levelMember, setStore_store_ne _ _ _ _ hk, setStore_line, State.levelMember]

theorem levelMember_modLine_ne (s : State) {k : Fin 4} (hk : k ≠ l) (f : Line → Line) :
    (s.modLine l f).levelMember k = s.levelMember k := by
  rw [State.levelMember, modLine_line_ne _ _ _ _ hk, modLine_store, State.levelMember]

/-- R116: the level of a line is judged after its store has been replaced. -/
theorem attentionSound_setStore_judgeLevel (h : attentionSound s) (l : Fin 4) (x : Store) :
    attentionSound ((s.setStore l x).judgeLevel l) := by
  obtain ⟨hattn, hlevel⟩ := h
  exact ⟨attnSound_judgeLevel hattn, levelSound_judgeLevel fun k hk =>
    (hlevel k).trans (levelMember_setStore_ne s hk x).symm⟩

/-- R101, R116: the level of a line is judged after its settings have been replaced. -/
theorem attentionSound_setSettings (h : attentionSound s) (l : Fin 4) (x : LineSettings) :
    attentionSound (s.setSettings l x) := by
  obtain ⟨hattn, hlevel⟩ := h
  exact ⟨attnSound_judgeLevel hattn, levelSound_judgeLevel fun k hk =>
    (hlevel k).trans (levelMember_modLine_ne s hk _).symm⟩

/-- R147: the members of STORE-LEVEL leave it by a judgement only. -/
theorem attentionSound_retract (hc : c ≠ .storeLevel) (d : Word) (h : attentionSound s) :
    attentionSound (s.retract c d) := by
  obtain ⟨hattn, hlevel⟩ := h
  refine ⟨attnSound_retract hattn, fun k => ?_⟩
  rw [retract_set, if_neg hc.symm]
  exact hlevel k

/-- R149: a new mask leaves the detail sets, and ATTN# is judged by it. -/
theorem attentionSound_setMask (m : Byte) (h : attentionSound s) : attentionSound (s.setMask m) := by
  obtain ⟨⟨-, hrange⟩, hlevel⟩ := h
  exact ⟨⟨rfl, hrange⟩, hlevel⟩

/-- R116: an empty store reaches no threshold. -/
theorem levelMember_of_empty (h : s.store l = Store.empty) : s.levelMember l = false := by
  simp only [State.levelMember, h, Store.empty, List.length_nil, Bool.and_eq_false_iff, decide_eq_false_iff_not]
  omega

/-- R118, R150: both resets leave nothing pending and every store empty. -/
theorem attentionSound_of_fresh (ha : s.attn = Attention.fresh) (hs : ∀ k, s.store k = Store.empty) :
    attentionSound s := by
  refine ⟨by rw [ha]; decide, fun k => ?_⟩
  rw [levelMember_of_empty (hs k), ha]
  revert k
  decide

/-- R142, R144, R145: a store or the settings of a line change together with a judgement of its level, members of the other
classes come and go within their ranges, and every change of a detail set or of the mask judges ATTN#. -/
theorem attentionSound_keptByAll : KeptByAll attentionSound where
  events := attentionSound_kept
  entry _ _ _ h := h
  define _ _ _ h := h
  watches _ _ _ h := h
  settings _ l x h := attentionSound_setSettings h l x
  dropOldest _ l h := attentionSound_setStore_judgeLevel h l _
  clearStore _ l h := attentionSound_setStore_judgeLevel h l _
  retract _ _ d hc h := attentionSound_retract hc d h
  mask _ m h := attentionSound_setMask m h
  link _ _ _ h := h
  count _ _ h := h
  restarted _ _ := attentionSound_of_fresh rfl fun k => by simp [State.restarted, State.store]
  powerOn _ _ _ := attentionSound_of_fresh rfl fun k => by simp [State.powerOn, State.store]

/-- Settles O16: every change that a command can make keeps attention sound (`attentionSound_keptByAll`), and a step is one
command. -/
theorem everyStepKeepsAttentionSound : Obligations.EveryStepKeepsAttentionSound := fun _ _ h he =>
  step_kept attentionSound_keptByAll (fun _ _ h => h) (fun _ _ h => h) h he

/-! ### The pending set, the mask set and ATTN# -/

theorem pending_eq (a : Attention) (c : AttnClass) : a.pending c = decide (a.set c ≠ 0) := by
  rw [Attention.pending, Bool.eq_iff_iff, bne_iff_ne, decide_eq_true_iff]

theorem pendingByte_bit (a : Attention) (c : AttnClass) :
    a.pendingByte.getLsbD c.idx.val = decide (a.set c ≠ 0) := by
  rw [Attention.pendingByte, classByte_bit, pending_eq]

theorem maskByte_bit (a : Attention) (c : AttnClass) : a.maskByte.getLsbD c.idx.val = a.isMasked c :=
  classByte_bit a.isMasked c

/-- R145: after a judgement ATTN# says whether an unmasked class is pending. -/
theorem asserted_iff {a : Attention} (h : a.asserted = a.wants) :
    a.asserted = true ↔ ∃ d : AttnClass, a.set d ≠ 0 ∧ a.isMasked d = false := by
  rw [h, Attention.wants_iff]

/-! ### The highest class -/

/-- R142: the classes stand in the order of their priority. -/
theorem all_getElem (i : Nat) (h : i < AttnClass.all.length) : (AttnClass.all[i].idx : Nat) = i := by
  revert i
  decide

theorem all_getElem_idx (c : AttnClass) : AttnClass.all[c.idx.val]'c.idx.isLt = c := by
  cases c <;> rfl

/-- R146: a class calls for attention while it is pending and not masked. -/
theorem calls_eq_false (a : Attention) (d : AttnClass) :
    (a.pending d && !a.isMasked d) = false ↔ a.set d = 0 ∨ a.isMasked d = true := by
  rw [pending_eq, Bool.and_eq_false_iff, decide_eq_false_iff_not, not_not, Bool.not_eq_false']

theorem highest_eq_some {a : Attention} (hp : a.set c ≠ 0) (hm : a.isMasked c = false)
    (hd : ∀ d : AttnClass, d.idx < c.idx → a.set d = 0 ∨ a.isMasked d = true) : a.highest = some c := by
  rw [Attention.highest, List.find?_eq_some_iff_getElem]
  refine ⟨by rw [pending_eq, decide_eq_true hp, hm]; rfl, c.idx.val, c.idx.isLt, all_getElem_idx c, fun j hj => ?_⟩
  rw [(calls_eq_false _ _).2 (hd _ _)]
  · rfl
  · rw [Fin.lt_def, all_getElem]
    exact hj

theorem highest_eq_none {a : Attention} (h : ∀ d : AttnClass, a.set d = 0 ∨ a.isMasked d = true) : a.highest = none := by
  rw [Attention.highest, List.find?_eq_none]
  intro d _
  rw [(calls_eq_false a d).2 (h d)]
  exact Bool.false_ne_true

/-! ### NOTICE -/

theorem exec_notice {tag : Byte} (hs : s.ready) :
    exec (.notice tag) s = .next ((doNotice s).1.replying 0x83 tag (doNotice s).2) :=
  submit_request (k := .notice) (r := .notice) hs rfl (by simp)

theorem doNotice_some (h : s.attn.highest = some c) :
    doNotice s =
      (s, [0x00, finByte c.idx] ++ le32 (s.attn.set c) ++ [s.attn.pendingByte, s.attn.maskByte]) := by
  simp only [doNotice, h]
  rfl

theorem doNotice_none (h : s.attn.highest = none) :
    doNotice s = (s, [0x00, 0xFF, 0, 0, 0, 0, s.attn.pendingByte, s.attn.maskByte]) := by
  simp only [doNotice, h]
  rfl

/-- Settles O13: the first class in the order of R142 that calls for attention, and the two class sets bit by bit. -/
theorem noticeShowsTheHighestClassAndBothSets : Obligations.NoticeShowsTheHighestClassAndBothSets := by
  refine ⟨rfl, fun tag s hs => ?_⟩
  rw [exec_notice hs]
  refine ⟨s.attn.pendingByte, s.attn.maskByte, pendingByte_bit _, classByte_seven _, maskByte_bit _, classByte_seven _,
    fun c hpending hunmasked hhigher => ?_, fun hnone => ?_⟩
  · rw [doNotice_some (highest_eq_some hpending hunmasked hhigher)]
  · rw [doNotice_none (highest_eq_none hnone)]

/-! ### NOTICE-ACK -/

theorem exec_noticeAck {tag cls : Byte} {detail : Word} (hs : s.ready) :
    exec (.noticeAck tag cls detail) s =
      .next ((doNoticeAck cls detail s).1.replying 0x84 tag (doNoticeAck cls detail s).2) :=
  submit_request (k := .noticeAck) (r := .noticeAck cls detail) hs (by simp [parseBody, parseNoticeAck, le32]) (by simp)

theorem doNoticeAck_unknown {cls : Byte} {detail : Word} (h : 7 ≤ cls.toNat) : doNoticeAck cls detail s = (s, [0x14]) := by
  simp only [doNoticeAck, classOf_none h]
  rfl

theorem doNoticeAck_refused {detail : Word} (h : c = .storeLevel ∨ 2 ^ c.members ≤ detail.toNat) :
    doNoticeAck (finByte c.idx) detail s = (s, [0x14]) := by
  simp only [doNoticeAck, classOf_idx, outsideRange, decide_eq_true_eq]
  rcases h with hlevel | hrange
  · rw [if_pos hlevel, ite_self]
    rfl
  · rw [if_pos hrange]
    rfl

theorem doNoticeAck_removes {detail : Word} (hc : c ≠ .storeLevel) (h : detail.toNat < 2 ^ c.members) :
    doNoticeAck (finByte c.idx) detail s =
      (s.retract c detail, 0x00 :: le32 ((s.retract c detail).attn.set c)) := by
  simp only [doNoticeAck, classOf_idx, outsideRange, decide_eq_true_eq, if_neg (Nat.not_le.2 h), if_neg hc]
  rfl

/-- R147: a member stays in the class exactly if it was present and is not carried. -/
theorem retract_getLsbD (s : State) (c : AttnClass) (d : Word) (k : Nat) :
    ((s.retract c d).attn.set c).getLsbD k = ((s.attn.set c).getLsbD k && !d.getLsbD k) := by
  rw [retract_set, if_pos rfl, BitVec.getLsbD_and, BitVec.getLsbD_not]
  by_cases hk : k < 32
  · simp [hk]
  · simp [BitVec.getLsbD_of_ge (s.attn.set c) k (Nat.le_of_not_lt hk)]

/-- Settles O14: an unknown class, STORE-LEVEL and a set outside the range are refused; any other set is withdrawn. -/
theorem noticeAckRemovesTheMembersCarried : Obligations.NoticeAckRemovesTheMembersCarried := by
  intro tag cls detail s hs
  rw [exec_noticeAck hs]
  refine ⟨fun hunknown => by rw [doNoticeAck_unknown hunknown], ?_⟩
  rintro c rfl
  refine ⟨fun hbad => by rw [doNoticeAck_refused hbad], fun hc hrange => ?_⟩
  rw [doNoticeAck_removes hc hrange]
  exact ⟨(s.retract c detail).attn, retract_getLsbD s c detail, fun d hd => by rw [retract_set, if_neg hd], rfl,
    asserted_iff rfl, rfl⟩

/-! ### MASK-SET -/

theorem exec_maskSet {tag set : Byte} (hs : s.ready) :
    exec (.maskSet tag set) s = .next ((doMaskSet set s).1.replying 0x85 tag (doMaskSet set s).2) :=
  submit_request (k := .maskSet) (r := .maskSet set) hs rfl (by simp)

/-- R149: a class is masked exactly if the set carried names it. -/
theorem setMask_isMasked (s : State) (set : Byte) (c : AttnClass) :
    (s.setMask set).attn.isMasked c = set.getLsbD c.idx.val := by
  simp [State.setMask, Attention.isMasked, Attention.judge, maskOf]

/-- R161: a class set that names no eighth class is known by the classes in it. -/
theorem classByte_eq {p : AttnClass → Bool} {set : Byte} (hp : ∀ c, p c = set.getLsbD c.idx.val) (h : set.toNat < 128) :
    classByte p = set := by
  apply BitVec.eq_of_getLsbD_eq
  intro i hi
  by_cases h7 : i < 7
  · have hclass : (AttnClass.all[i].idx : Nat) = i := all_getElem i h7
    rw [← hclass, classByte_bit, hp]
  · obtain rfl : i = 7 := by omega
    rw [classByte_seven, ← BitVec.testBit_toNat, Nat.testBit_lt_two_pow h]

theorem doMaskSet_refused {set : Byte} (h : 128 ≤ set.toNat) : doMaskSet set s = (s, [0x14]) :=
  if_neg (Nat.not_lt.2 h)

theorem doMaskSet_replaces {set : Byte} (h : set.toNat < 128) :
    doMaskSet set s = (s.setMask set, [0x00, set, s.attn.pendingByte]) := by
  have hmask : (s.setMask set).attn.maskByte = set := classByte_eq (setMask_isMasked s set) h
  calc
    doMaskSet set s = (s.setMask set, [0x00, (s.setMask set).attn.maskByte, s.attn.pendingByte]) := if_pos h
    _ = (s.setMask set, [0x00, set, s.attn.pendingByte]) := by rw [hmask]

/-- Settles O15: the mask is the set carried, which its reply shows again; the detail sets stay. -/
theorem maskSetReplacesTheWholeMask : Obligations.MaskSetReplacesTheWholeMask := by
  intro tag set s hs
  rw [exec_maskSet hs]
  refine ⟨fun hbad => by rw [doMaskSet_refused hbad], fun hset => ?_⟩
  rw [doMaskSet_replaces hset]
  exact ⟨(s.setMask set).attn, s.attn.pendingByte, setMask_isMasked s set, rfl, asserted_iff rfl, pendingByte_bit _,
    classByte_seven _, rfl⟩

end Sys2Proof.Proofs
end

section
/-! PROOFS. The host link (R151 to R164): the receiver and the complete frame, the request slot and the transmitter, IDENT, the
requests that are only answered, RESTART, power-on reset, and what every step keeps of the slot and of a part held in reset. -/

namespace Sys2Proof.Proofs

open Sys2Proof Sys2Proof.Machine

variable {s : State}

/-! ### The commands by where they come from -/

/-- A command is a host request, an event of a chain or a line, a reset, an event of the Link Port or the Time Base. -/
theorem command_cases {motive : Instr → Prop} (request : ∀ c m, requestOf c = some m → motive c)
    (event : ∀ c, lineEvent c = true → motive c) (partRestart : motive .partRestart)
    (powerOnReset : ∀ e, motive (.powerOnReset e)) (hostCharacter : ∀ b m, motive (.hostCharacterReceived b m))
    (hostTimeout : motive .hostTimeout) (replyEnd : motive .replyEnd) (timeBase : motive .timeBaseIncrement)
    (idleLevel : motive .hrxReturnToIdleLevel) (c : Instr) : motive c := by
  cases hr : requestOf c with
  | some m => exact request c m hr
  | none =>
    cases hl : lineEvent c with
    | true => exact event c hl
    | false =>
      cases c <;> simp only [requestOf, lineEvent, reduceCtorEq, Bool.true_eq_false] at hr hl
      case watchWrite inj => cases inj <;> simp at hr
      case partRestart => exact partRestart
      case powerOnReset e => exact powerOnReset e
      case hostCharacterReceived b m => exact hostCharacter b m
      case hostTimeout => exact hostTimeout
      case replyEnd => exact replyEnd
      case timeBaseIncrement => exact timeBase
      case hrxReturnToIdleLevel => exact idleLevel

/-- R155: with the transmitter IDLE a request is taken at once. -/
theorem handOver_ready (hs : s.ready) (m : Message) : handOver m s = takeRequest m s := by
  obtain ⟨hidle, hreleased⟩ := hs
  unfold handOver
  rw [hidle, hreleased]
  rfl

/-! ### The end of a reply, and the restart -/

theorem restartIfDue_restart {f : List Byte} (h : s.link.transmitter = .sending f true) : s.restartIfDue = s.restarted := by
  simp only [State.restartIfDue, h]

/-- R159: no other reply is a restart. -/
theorem restartIfDue_other (h : ∀ f, s.link.transmitter ≠ .sending f true) : s.restartIfDue = s := by
  unfold State.restartIfDue
  split
  next f hf => exact absurd hf (h f)
  next => rfl
  next => rfl

theorem exec_partRestart (s : State) : exec .partRestart s = .next s.restartIfDue := rfl

theorem exec_replyEnd_idle (h : s.link.transmitter = .idle) : exec .replyEnd s = .next s := by
  simp only [exec, execReplyEnd, h]

theorem exec_replyEnd_restart {f : List Byte} (h : s.link.transmitter = .sending f true) :
    exec .replyEnd s = .next s.restarted := by
  simp only [exec, execReplyEnd, h, restartIfDue_restart h]

theorem exec_replyEnd_reply {f : List Byte} (h : s.link.transmitter = .sending f false) :
    exec .replyEnd s = .next s.nextRequest := by
  simp only [exec, execReplyEnd, h]

theorem nextRequest_empty (h : s.link.slot = none) :
    s.nextRequest = { s with link := { s.link with transmitter := .idle } } := by
  simp only [State.nextRequest, h]
  rfl

theorem nextRequest_full {m : Message} (h : s.link.slot = some m) :
    s.nextRequest = takeRequest m { s with link := { s.link with slot := none, transmitter := .idle } } := by
  simp only [State.nextRequest, h]
  rfl

/-! ### While RST# is asserted -/

theorem exec_hostCharacterReceived_held (h : s.link.rstHeld = true) (b : Byte) (m : CharMoment) :
    exec (.hostCharacterReceived b m) s = .next s := by
  simp [exec, execHostCharacterReceived, LinkPort.deaf, h]

theorem exec_request_held {c : Instr} {m : Message} (hc : requestOf c = some m) (h : s.link.rstHeld = true) :
    exec c s = .next s := by
  rw [exec_request hc, handOver_held h]

/-! ### The slot and the transmitter -/

theorem linkSound_of_empty {k : LinkPort} (h : k.slot = none) : linkSound k := fun hfull => absurd h hfull

theorem linkSound_of_sending {k : LinkPort} {f : List Byte} {r : Bool} (h : k.transmitter = .sending f r) : linkSound k :=
  fun _ hidle => by rw [h] at hidle; cases hidle

/-- R156: a request that is taken is answered at once. -/
theorem takeRequest_sending (m : Message) (s : State) : ∃ f r, (takeRequest m s).link.transmitter = .sending f r := by
  unfold takeRequest
  split <;> exact ⟨_, _, rfl⟩

theorem linkSound_takeRequest (m : Message) (s : State) : linkSound (takeRequest m s).link := by
  obtain ⟨f, r, h⟩ := takeRequest_sending m s
  exact linkSound_of_sending h

/-- R155: the slot takes a request only while a reply is being sent. -/
theorem linkSound_handOver (h : linkSound s.link) (m : Message) : linkSound (handOver m s).link := by
  unfold handOver
  split
  · exact h
  · split
    · exact linkSound_takeRequest m s
    next hsending =>
      split
      · exact linkSound_of_sending hsending
      · exact h

theorem linkSound_frameComplete (h : linkSound s.link) (len : Byte) (kept : List Byte) :
    linkSound (frameComplete len kept s).link := by
  have hsearch : linkSound s.rxSearch.link := h
  unfold frameComplete
  simp only []
  split
  · exact hsearch
  · split
    · exact linkSound_handOver hsearch _
    · exact hsearch

theorem linkSound_judgeHostChar (h : linkSound s.link) (b : Byte) : linkSound (judgeHostChar b s).link := by
  unfold judgeHostChar
  split
  · split <;> exact h
  · split <;> exact h
  · split
    · exact linkSound_frameComplete h _ _
    · exact h

theorem linkSound_hostCharacter (h : linkSound s.link) {b : Byte} {m : CharMoment} {t : State}
    (he : exec (.hostCharacterReceived b m) s = .next t) : linkSound t.link := by
  cases he
  split
  · exact h
  · split
    · exact h
    next high => exact linkSound_judgeHostChar (s := s.setLink { s.link with waitIdle := !high }) h b

theorem linkSound_restartIfDue (h : linkSound s.link) : linkSound s.restartIfDue.link := by
  unfold State.restartIfDue
  split
  · exact linkSound_of_empty rfl
  · exact h
  · exact h

/-- R155: at the end of a reply the slot becomes EMPTY. -/
theorem linkSound_nextRequest (s : State) : linkSound s.nextRequest.link := by
  cases h : s.link.slot with
  | none =>
    rw [nextRequest_empty h]
    exact linkSound_of_empty h
  | some m =>
    rw [nextRequest_full h]
    exact linkSound_takeRequest m _

theorem linkSound_replyEnd (h : linkSound s.link) {t : State} (he : exec .replyEnd s = .next t) : linkSound t.link := by
  cases he
  split
  · exact h
  · exact linkSound_restartIfDue h
  · exact linkSound_nextRequest s

theorem linkSound_powerOnReset (h : linkSound s.link) {e : ResetEvent} {t : State}
    (he : exec (.powerOnReset e) s = .next t) : linkSound t.link := by
  cases he
  split
  · exact linkSound_of_empty rfl
  · split
    · exact linkSound_of_empty rfl
    · exact h
  · exact linkSound_of_empty rfl

theorem linkSound_exec {c : Instr} {t : State} (h : linkSound s.link) (he : exec c s = .next t) : linkSound t.link := by
  induction c using command_cases with
  | request c m hr =>
    rw [exec_request hr] at he
    cases he
    exact linkSound_handOver h m
  | event c hc =>
    obtain ⟨-, -, -, -, -, -, hlink, -⟩ := lineEventsKeepTheConfiguration c s t hc he
    rw [hlink]
    exact h
  | partRestart =>
    cases he
    exact linkSound_restartIfDue h
  | powerOnReset e => exact linkSound_powerOnReset h he
  | hostCharacter b m => exact linkSound_hostCharacter h he
  | hostTimeout =>
    cases he
    split <;> exact h
  | replyEnd => exact linkSound_replyEnd h he
  | timeBase =>
    cases he
    exact h
  | idleLevel =>
    cases he
    exact h

/-! ### What every step keeps -/

theorem heldSound_of_released (h : s.link.rstHeld = false) : heldSound s := fun hheld => by rw [h] at hheld; cases hheld

/-- R160: the assertion of RST# leaves the part as it is held. -/
theorem heldSound_resetHeld (s : State) : heldSound s.resetHeld := fun _ => ⟨rfl, rfl, rfl, rfl, resetHeld_atRest s⟩

theorem heldSound_powerOnReset (h : heldSound s) {e : ResetEvent} {t : State} (he : exec (.powerOnReset e) s = .next t) :
    heldSound t := by
  cases he
  split
  · exact heldSound_resetHeld s
  · split
    · exact heldSound_of_released rfl
    · exact h
  · exact heldSound_of_released rfl

/-- R160: a part that is held is left by RST# only. No command reaches its receiver, its transmitter has nothing to end, and the
events of its chains and lines find them at rest. -/
theorem heldSound_exec_held {c : Instr} {t : State} (h : heldSound s) (hheld : s.link.rstHeld = true)
    (he : exec c s = .next t) : heldSound t := by
  obtain ⟨hidle, hslot, hsearch, htimer, hrest⟩ := h hheld
  induction c using command_cases with
  | request c m hr =>
    rw [exec_request_held hr hheld] at he
    cases he
    exact h
  | event c hc =>
    obtain ⟨-, -, -, -, -, -, hlink, -⟩ := lineEventsKeepTheConfiguration c s t hc he
    intro _
    rw [hlink]
    exact ⟨hidle, hslot, hsearch, htimer, lineEvent_atRest hrest hc he⟩
  | partRestart =>
    rw [exec_partRestart, restartIfDue_other (by simp [hidle])] at he
    cases he
    exact h
  | powerOnReset e => exact heldSound_powerOnReset h he
  | hostCharacter b m =>
    rw [exec_hostCharacterReceived_held hheld] at he
    cases he
    exact h
  | hostTimeout =>
    cases he
    rw [hsearch]
    exact h
  | replyEnd =>
    rw [exec_replyEnd_idle hidle] at he
    cases he
    exact h
  | timeBase =>
    cases he
    exact h
  | idleLevel =>
    cases he
    exact h

/-- R160: only the assertion of RST# takes a part that is not held into the held state. -/
theorem heldSound_exec {c : Instr} {t : State} (h : heldSound s) (he : exec c s = .next t) : heldSound t := by
  cases hheld : s.link.rstHeld with
  | true => exact heldSound_exec_held h hheld he
  | false =>
    by_cases hc : c = .powerOnReset .rstAsserted
    · subst hc
      exact heldSound_powerOnReset h he
    · exact heldSound_of_released (exec_rstReleased hheld hc he)

/-- Settles O8: a step is one command (or none), and every command keeps the two (`linkSound_exec`, `heldSound_exec`). -/
theorem slotIsEmptyWhileTheTransmitterIsIdle : Obligations.SlotIsEmptyWhileTheTransmitterIsIdle := by
  intro s t he
  unfold step at he
  split at he
  next =>
    cases he
    exact ⟨id, id⟩
  next rest _ =>
    exact ⟨fun h => linkSound_exec (s := { s with pending := rest }) h he,
      fun h => heldSound_exec (s := { s with pending := rest }) h he⟩

/-! ### Power-on reset -/

/-- R160: the state after the reset, block by block. -/
theorem powerOn_poweredOn (spd : Bool) (ovl : Vector Bool 4) (q : List Instr) : (State.powerOn spd ovl q).poweredOn := by
  obtain ⟨hlines, hchains, hclasses, hattn⟩ := powerOn_atRest spd ovl q
  refine ⟨⟨rfl, hlines, fun l => ?_, hclasses, hattn, rfl, rfl, rfl, rfl⟩, fun e => ?_, hchains, fun l => ?_,
    fun w => ?_, rfl⟩
  · simp [State.powerOn, State.store, Store.empty]
  · simp [State.powerOn, State.entry]
  · simp [State.powerOn, State.line, Line.fresh, LineSettings.default]
  · simp [State.powerOn, State.watch]

theorem exec_rstAsserted (s : State) : exec (.powerOnReset .rstAsserted) s = .next s.resetHeld := rfl

theorem exec_supplyUp (spd : Bool) (s : State) : exec (.powerOnReset (.supplyUp spd)) s = .next (s.resetTo spd) := rfl

theorem exec_rstReleased_eq (spd : Bool) (s : State) :
    exec (.powerOnReset (.rstReleased spd)) s = .next (if s.link.rstHeld then s.resetTo spd else s) := rfl

/-- Settles O2: each form of the reset is a power-on (`powerOn_poweredOn`), and a part that is held takes no character and no
request. -/
theorem powerOnResetClearsEveryBlock : Obligations.PowerOnResetClearsEveryBlock := by
  refine ⟨⟨powerOn_poweredOn .., rfl, rfl⟩, fun s => ?_, fun spd s => ?_, fun s hheld => ?_⟩
  · exact ⟨s.resetHeld, exec_rstAsserted s, powerOn_poweredOn s.link.highSpeed _ s.pending, rfl, rfl, rfl⟩
  · refine ⟨s.resetTo spd, exec_supplyUp spd s, powerOn_poweredOn .., rfl, rfl, rfl, fun hheld => ?_, fun hreleased => ?_⟩
    · rw [exec_rstReleased_eq, if_pos hheld]
    · rw [exec_rstReleased_eq, hreleased]
      rfl
  · exact ⟨exec_hostCharacterReceived_held hheld, fun c m hc => exec_request_held hc hheld⟩

/-- Settles O59: the state after reset is a power-on, which every standing statement allows for; nothing waits in its slot and
RST# is released. -/
theorem resetIsSound : Obligations.ResetIsSound :=
  ⟨partSound_kept.powerOn .., storesSound_keptByAll.powerOn _ _ _, attentionSound_keptByAll.powerOn .., linkSound_of_empty rfl,
    heldSound_of_released rfl⟩

/-! ### RESTART -/

/-- R156, R159: the reply to RESTART is OK, and the part remembers what it answers. -/
theorem exec_restart {tag : Byte} (hs : s.ready) :
    exec (.restart tag) s =
      .next { s with link := { s.link with transmitter := .sending (hostFrame 0x82 tag [0x00]) true } } := by
  rw [exec_request rfl, handOver_ready hs]
  rfl

/-- R150: after a reset every class is masked, with nothing pending. -/
theorem attentionFresh_class (c : AttnClass) : Attention.fresh.set c = 0 ∧ Attention.fresh.isMasked c = true := by
  cases c <;> exact ⟨rfl, rfl⟩

theorem restarted_line (s : State) (l : Fin 4) : s.restarted.line l = (s.line l).restarted := by
  simp [State.restarted, State.line]

theorem restarted_quiet (x : Line) : x.restarted.quiet :=
  ⟨rfl, rfl, rfl, rfl, rfl, rfl, rfl, rfl, rfl, rfl, rfl, rfl, rfl⟩

/-- R159: the state after the restart, block by block. -/
theorem restarted_restartedFrom (s : State) : s.restarted.restartedFrom s := by
  refine ⟨⟨rfl, fun l => ?_, fun l => ?_, fun c => ?_, rfl, rfl, rfl, rfl, rfl⟩, rfl, fun c => ?_, fun l => ?_, fun w => ?_,
    rfl, rfl⟩
  · rw [restarted_line]
    exact restarted_quiet _
  · simp [State.restarted, State.store, Store.empty]
  · exact attentionFresh_class c
  · simp [State.restarted, State.chain, Chain.fresh, chainCleared]
  · rw [restarted_line]
    rfl
  · simp only [State.restarted, State.watch, Fin.getElem_fin, Vector.getElem_ofFn]
    rfl

/-- Settles O3: RESTART is answered; the end of that reply and PART_RESTART both restart the part. -/
theorem restartTakesEffectAtTheEndOfItsReply : Obligations.RestartTakesEffectAtTheEndOfItsReply := by
  refine ⟨fun tag s hs => exec_restart hs, fun s f hf => ?_, fun s hother => ?_⟩
  · refine ⟨s.restarted, exec_replyEnd_restart hf, ?_, restarted_restartedFrom s, rfl⟩
    rw [exec_partRestart, restartIfDue_restart hf]
  · rw [exec_partRestart, restartIfDue_other hother]

/-! ### A character on HRX -/

/-- R151, R160: a receiver that neither waits for the idle level nor is held detects a start bit. -/
theorem not_deaf (hw : s.link.waitIdle = false) (hr : s.link.rstHeld = false) : ¬ s.link.deaf = true := by
  simp [LinkPort.deaf, hw, hr]

theorem exec_startBit (hw : s.link.waitIdle = false) (hr : s.link.rstHeld = false) (b : Byte) :
    exec (.hostCharacterReceived b .startBit) s = .next { s with link := { s.link with rxTimer := .stopped } } :=
  congrArg Host.Outcome.next (if_neg (not_deaf hw hr))

theorem exec_stopBit (hw : s.link.waitIdle = false) (hr : s.link.rstHeld = false) (b : Byte) (high : Bool) :
    exec (.hostCharacterReceived b (.stopBit high)) s =
      .next (judgeHostChar b { s with link := { s.link with waitIdle := !high } }) :=
  congrArg Host.Outcome.next (if_neg (not_deaf hw hr))

section judge

variable {b len : Byte} {kept : List Byte}

theorem judgeHostChar_lead (h : s.link.receiver = .search) : judgeHostChar 0xA6 s = s.rxGoOn .length := by
  simp only [judgeHostChar, h]
  rfl

theorem judgeHostChar_noLead (h : s.link.receiver = .search) (hb : b ≠ 0xA6) : judgeHostChar b s = s := by
  simp only [judgeHostChar, h]
  exact if_neg hb

theorem judgeHostChar_length (h : s.link.receiver = .length) (h2 : 2 ≤ b.toNat) (h250 : b.toNat ≤ 250) :
    judgeHostChar b s = s.rxGoOn (.collect b []) := by
  simp only [judgeHostChar, h]
  exact if_pos ⟨h2, h250⟩

theorem judgeHostChar_badLength (h : s.link.receiver = .length) (hb : b.toNat < 2 ∨ 250 < b.toNat) :
    judgeHostChar b s = s.rxSearch.raise .linkError 1 := by
  simp only [judgeHostChar, h]
  exact if_neg (by omega)

theorem judgeHostChar_goesOn (h : s.link.receiver = .collect len kept) (hshort : kept.length + 1 < len.toNat + 2) :
    judgeHostChar b s = s.rxGoOn (.collect len (kept ++ [b])) := by
  simp only [judgeHostChar, h]
  exact if_neg (by simpa using hshort)

theorem judgeHostChar_complete (h : s.link.receiver = .collect len kept) (hfull : kept.length + 1 = len.toNat + 2) :
    judgeHostChar b s = frameComplete len (kept ++ [b]) s := by
  simp only [judgeHostChar, h]
  exact if_pos (by simpa using hfull.ge)

end judge

/-! ### The timer of the receiver -/

theorem exec_hostTimeout_quiet (h : s.link.receiver = .search ∨ s.link.rxTimer.due s.count = false) :
    exec .hostTimeout s = .next s := by
  rcases h with hsearch | hdue
  · simp [exec, execHostTimeout, hsearch, Receiver.inFrame]
  · simp [exec, execHostTimeout, hdue]

theorem inFrame_of_ne {r : Receiver} (h : r ≠ .search) : r.inFrame = true := by
  cases r with
  | search => exact absurd rfl h
  | length => rfl
  | collect len kept => rfl

theorem exec_hostTimeout_due (hr : s.link.receiver ≠ .search) (hd : s.link.rxTimer.due s.count = true) :
    exec .hostTimeout s = .next (s.rxSearch.raise .linkError 2) := by
  simp only [exec, execHostTimeout, inFrame_of_ne hr, hd]
  rfl

/-- Settles O9: a start bit stops the timer, a stop bit has its character judged by the receive state, and the timer acts when it
is due inside a frame. -/
theorem hostReceiverBuildsFrames : Obligations.HostReceiverBuildsFrames := by
  intro b stop s
  refine ⟨fun hw hr => ?_, fun start d hinside htimer hdue => ?_, exec_hostTimeout_quiet⟩
  · rw [exec_stopBit hw hr]
    refine ⟨⟨exec_startBit hw hr b, exec_hostTimeout_quiet (.inr rfl)⟩, ?_, fun hrx hb => ?_, fun hrx h2 h250 => ?_,
      fun hrx hb => ?_, fun len kept hrx hshort => ?_⟩
    · rintro hrx rfl
      rw [judgeHostChar_lead (by exact hrx)]
      rfl
    · rw [judgeHostChar_noLead (by exact hrx) hb]
    · rw [judgeHostChar_length (by exact hrx) h2 h250]
      rfl
    · rw [judgeHostChar_badLength (by exact hrx) hb]
      exact ⟨_, raise_gained .., rfl⟩
    · rw [judgeHostChar_goesOn (by exact hrx) hshort]
      rfl
  · rw [exec_hostTimeout_due hinside (by rw [htimer]; exact decide_eq_true hdue)]
    exact ⟨_, raise_gained .., rfl⟩

/-! ### Check values and byte order -/

/-- R162: a shift feeds the polynomial back exactly if the highest bit of the register is set. -/
theorem crcShift_eq (r : Half) : crcShift r = if r.getLsbD 15 then (r <<< 1) ^^^ 0x1021 else r <<< 1 := by
  rw [crcShift, BitVec.msb_eq_getLsbD_last]
  rfl

/-- The shifts of R162, counted off a list. -/
theorem crcShifts_eq_foldl {α : Type} (xs : List α) (r : Half) :
    crcShifts xs.length r = xs.foldl (fun r _ => if r.getLsbD 15 then (r <<< 1) ^^^ 0x1021 else r <<< 1) r := by
  induction xs generalizing r with
  | nil => rfl
  | cons x xs ih => rw [List.length_cons, crcShifts, ih, List.foldl_cons, crcShift_eq]

theorem crc_append_singleton (bytes : List Byte) (b : Byte) :
    crc (bytes ++ [b]) =
      (List.range 8).foldl (fun r _ => if r.getLsbD 15 then (r <<< 1) ^^^ 0x1021 else r <<< 1)
        (crc bytes ^^^ (b.setWidth 16 <<< 8)) := by
  rw [← crcShifts_eq_foldl, crc, List.foldl_append]
  rfl

/-- R161: the eight bits of a number from bit `i` on. -/
theorem extractLsb'_byte {n : Nat} (x : BitVec n) (i : Nat) : x.extractLsb' i 8 = BitVec.ofNat 8 (x.toNat / 2 ^ i) := by
  rw [BitVec.extractLsb', Nat.shiftRight_eq_div_pow]

theorem ofNat_byte_mod (n : Nat) : BitVec.ofNat 8 (n % 256) = BitVec.ofNat 8 n := by
  apply BitVec.eq_of_toNat_eq
  simp

theorem le16_eq (x : Half) : le16 x = [BitVec.ofNat 8 (x.toNat % 256), BitVec.ofNat 8 (x.toNat / 256)] := by
  simp [le16, extractLsb'_byte, ofNat_byte_mod]

theorem le32_eq (x : Word) : le32 x = [BitVec.ofNat 8 (x.toNat % 256), BitVec.ofNat 8 (x.toNat / 256 % 256),
    BitVec.ofNat 8 (x.toNat / 65536 % 256), BitVec.ofNat 8 (x.toNat / 16777216)] := by
  simp [le32, extractLsb'_byte, ofNat_byte_mod]

theorem crcBytes_eq (bytes : List Byte) :
    crcBytes bytes = [BitVec.ofNat 8 ((crc bytes).toNat / 256), BitVec.ofNat 8 ((crc bytes).toNat % 256)] := by
  simp [crcBytes, extractLsb'_byte, ofNat_byte_mod]

/-! ### The complete frame -/

section frame

variable {len : Byte} {kept : List Byte}

theorem frameComplete_badCheck (h : kept.drop len.toNat ≠ crcBytes (len :: kept.take len.toNat)) :
    frameComplete len kept s = s.rxSearch.raise .linkError 0 := if_pos h

/-- R154: the content of a frame stands before its two check bytes. -/
theorem frameComplete_agrees {m : Message}
    (hk : kept = (m.kind :: m.tag :: m.body) ++ crcBytes (len :: m.kind :: m.tag :: m.body))
    (hlen : kept.length = len.toNat + 2) : frameComplete len kept s = handOver m s.rxSearch := by
  have hcontent : (m.kind :: m.tag :: m.body).length = len.toNat := by
    rw [hk, List.length_append] at hlen
    exact Nat.add_right_cancel hlen
  unfold frameComplete
  rw [hk, List.take_left' hcontent, List.drop_left' hcontent]
  exact if_neg (not_not.2 rfl)

end frame

/-- Settles O10: the check value byte by byte (`crc_append_singleton`), the byte order, and the two ends of a complete frame. -/
theorem completeFrameIsCheckedAndHandedOver : Obligations.CompleteFrameIsCheckedAndHandedOver := by
  refine ⟨⟨rfl, crc_append_singleton, crcBytes_eq, by decide +kernel, fun _ _ _ => rfl⟩, ⟨le16_eq, le32_eq⟩, ?_⟩
  intro b len kept stop s hw hr hrx hfull
  rw [exec_stopBit hw hr, judgeHostChar_complete (by exact hrx) hfull]
  refine ⟨fun c m hc hk => ?_, fun hbad => ?_⟩
  · rw [frameComplete_agrees hk (by simpa using hfull), exec_request hc]
    rfl
  · rw [frameComplete_badCheck hbad]
    exact ⟨_, raise_gained .., rfl⟩

/-! ### IDENT -/

theorem exec_ident {tag : Byte} (hs : s.ready) :
    exec (.ident tag) s = .next ((doIdent s).1.replying 0x81 tag (doIdent s).2) :=
  submit_request (k := .ident) (r := .ident) hs rfl (by simp)

theorem resetCause_code (c : ResetCause) : c.code = if c = .powerOn then 0 else 1 := by
  cases c <;> rfl

/-- Settles O4: the reply body is that of `doIdent`, the cause of the reset told case by case. -/
theorem identReportsThePart : Obligations.IdentReportsThePart := by
  intro tag s hs
  rw [exec_ident hs, doIdent, resetCause_code]
  rfl

/-! ### Kinds and lengths -/

theorem kindOf_eq_none {b : Byte} (h : b ∉ knownKinds) : kindOf b = none := by
  revert b
  decide

/-- R167: the known kinds are the codes of the kinds. -/
theorem knownKinds_eq : knownKinds = Kind.all.map Kind.code := by decide

theorem exists_kind {b : Byte} (h : b ∈ knownKinds) : ∃ k : Kind, k.code = b := by
  rw [knownKinds_eq, List.mem_map] at h
  obtain ⟨k, -, hcode⟩ := h
  exact ⟨k, hcode⟩

section length

variable {body : List Byte} {r : Request}

/-- R7, step 1. -/
theorem parsePlanWrite_length (h : parsePlanWrite body = some r) : lengthFits 0x20 body = true := by
  unfold parsePlanWrite at h
  split at h
  next =>
    split at h
    next hn => exact decide_eq_true (by simp only [List.length_cons]; omega)
    next => cases h
  next => cases h

/-- R121, step 1: the bytes after the action are there exactly as the action asks. -/
theorem parseWatchWrite_length (h : parseWatchWrite body = some r) : lengthFits 0x60 body = true := by
  unfold parseWatchWrite at h
  split at h
  next a rest =>
    split at h
    next =>
      split at h
      next hfits =>
        obtain ⟨-, hcarries⟩ := (injectionFits_iff _ _).1 hfits
        have haction : a.toNat ≤ 1 ∨ 3 < a.toNat := by
          by_contra hmid
          cases hcarries (by omega) (by omega)
        simpa [lengthFits] using haction
      next => cases h
    next =>
      split at h
      next hfits =>
        obtain ⟨hnone, -⟩ := (injectionFits_iff _ _).1 hfits
        have haction : ¬ a.toNat ≤ 1 := fun hle => by cases hnone hle
        simpa [lengthFits] using haction
      next => cases h
    next => cases h
  next => cases h

/-- R156, step 2: a body that is parsed has the length that its kind requires. But for the two above, a kind parses only the lists
of one length. -/
theorem lengthFits_of_parseBody {k : Kind} (h : parseBody k body = some r) : lengthFits k.code body = true := by
  cases k
  case planWrite => exact parsePlanWrite_length h
  case watchWrite => exact parseWatchWrite_length h
  all_goals
    simp only [parseBody, parse0, parse1, parse2, parseNoticeAck, parseLineSet, parseChainSet, parseRelease] at h
    split at h <;> [rfl; cases h]

end length

theorem parse_unknownKind {m : Message} (h : m.kind ∉ knownKinds) : parse m = .unknownKind := by
  simp only [parse, kindOf_eq_none h]

theorem parse_badLength {m : Message} (hk : m.kind ∈ knownKinds) (hl : lengthFits m.kind m.body = false) :
    parse m = .badLength := by
  obtain ⟨k, hcode⟩ := exists_kind hk
  have hbody : parseBody k m.body = none := by
    rw [Option.eq_none_iff_forall_ne_some]
    intro r hr
    have hfits := lengthFits_of_parseBody hr
    rw [hcode, hl] at hfits
    cases hfits
  simp only [parse, ← hcode, kindOf_code, hbody]

/-- R156: a request that is not processed is only answered. -/
theorem takeRequest_unknownKind {m : Message} (h : parse m = .unknownKind) :
    takeRequest m s = s.replying (m.kind + 0x80) m.tag [0x16] := by
  simp only [takeRequest, h]
  rfl

theorem takeRequest_badLength {m : Message} (h : parse m = .badLength) :
    takeRequest m s = s.replying (m.kind + 0x80) m.tag [0x15] := by
  simp only [takeRequest, h]
  rfl

/-- Settles O5: a kind that is no code of a kind, and a body that its kind does not parse. -/
theorem unknownKindOrWrongLengthIsOnlyAnswered : Obligations.UnknownKindOrWrongLengthIsOnlyAnswered := by
  refine ⟨fun kind tag body s hs hk => ?_, fun f m s hf hslot hk hl => ?_⟩
  · rw [exec_request rfl, handOver_ready hs, takeRequest_unknownKind (parse_unknownKind hk)]
  · rw [exec_replyEnd_reply hf, nextRequest_full hslot, takeRequest_badLength (parse_badLength hk hl)]
    rfl

/-! ### The request slot -/

/-- Settles O6: the two rows of SENDING (`handOver_sending`). -/
theorem requestWaitsForTheReplyAhead : Obligations.RequestWaitsForTheReplyAhead := by
  intro c m s f r hc hsending hreleased
  rw [exec_request hc, handOver_sending hsending hreleased]
  refine ⟨fun hempty => by rw [hempty], fun m' hfull => ⟨(s.raise .linkError 3).attn, ?_, raise_gained ..⟩⟩
  rw [hfull]
  rfl

/-- Settles O7: the transmitter goes IDLE first, so that the request that waits finds it ready. -/
theorem replyEndTakesTheWaitingRequest : Obligations.ReplyEndTakesTheWaitingRequest := by
  intro s f hf
  rw [exec_replyEnd_reply hf]
  refine ⟨fun hempty => by rw [nextRequest_empty hempty], fun c m hc hfull hreleased => ?_⟩
  have hready : State.ready { s with link := { s.link with slot := none, transmitter := .idle } } := ⟨rfl, hreleased⟩
  rw [nextRequest_full hfull, exec_request hc, handOver_ready hready]

end Sys2Proof.Proofs
end

section
/-! PROOFS. The queue of waiting commands (log 1): what a step does with a command waiting, and with none. -/

namespace Sys2Proof.Proofs

open Sys2Proof Sys2Proof.Machine

variable {s : State}

/-- The command runs on the state it has already left: its effect sees the queue's rest. -/
theorem step_front {c : Instr} {rest : List Instr} (h : s.pending = c :: rest) :
    step s = exec c { s with pending := rest } := by
  rw [step, h]

theorem step_idle (h : s.pending = []) : step s = .next s := by
  rw [step, h]

/-- Settles O1: the two branches of `step`, by the queue's front. -/
theorem stepRunsTheFrontCommand : Obligations.StepRunsTheFrontCommand :=
  ⟨fun _ _ _ hfront => step_front hfront, fun _ hempty => step_idle hempty⟩

end Sys2Proof.Proofs
end
